-- ==== Sys2Proof/Word.lean ====
section
/-! DEFINITION. The words, numbers and small vocabularies that commands and state share
(00_scope.md, Conventions; R6, R7, R18, R24, R75, R111, R179). -/

namespace Sys2Proof

/-- A word is 16 bits; the host bus and the chain carry whole words only (00_scope.md, Conventions). -/
abbrev Word := BitVec 16

/-- A chain address 1..24 of a node (R24). The value `v` stands for address `v + 1` (`addrNum`). -/
abbrev Addr := Fin 24

/-- One of the eight transaction tags 0..7 (R75). -/
abbrev TagId := Fin 8

/-- The index 0..7 of a window record (R111). -/
abbrev WinIx := Fin 8

/-- The chain address as the number the spec writes, 1..24. -/
def addrNum (k : Addr) : Nat := k.val + 1

/-- The node address a number names, if it lies in 1..24 (R24). -/
def addrOf? (n : Nat) : Option Addr :=
  if h : 1 ≤ n ∧ n ≤ 24 then some ⟨n - 1, by omega⟩ else none

/-- All 24 chain addresses, lowest first. -/
def allAddrs : List Addr := List.finRange 24

/-- All eight tags, lowest first. -/
def allTags : List TagId := List.finRange 8

/-- All eight window indices, lowest first. -/
def allWindows : List WinIx := List.finRange 8

/-- The direction of a host access, with the word a write carries (R118, R121). -/
inductive Access where
  | read
  | write (w : Word)
  deriving DecidableEq, Repr

/-- The reason of a REFUSE frame (R6, R18). -/
inductive Reason where
  | range
  | readonly
  | noload
  | busy
  deriving DecidableEq, Repr

/-- The identity a SENSE frame carries (R7). `spanField` is the wire field, the span in units of
16 words minus 1 (12.6, R184). -/
structure Identity where
  cls : BitVec 8
  revision : BitVec 8
  spanField : BitVec 12
  demand : BitVec 4
  attnCapable : Bool
  deriving DecidableEq, Repr

/-- The span in words, 16..65536 (R7, R25, R184). -/
def Identity.spanWords (i : Identity) : Nat := 16 * (i.spanField.toNat + 1)

/-- The five timing registers (R179). -/
inductive TimingReg where
  | settle
  | timeout
  | retryLimit
  | failThreshold
  | holdLimit
  deriving DecidableEq, Repr

end Sys2Proof
end

