-- ==== Sys2Proof/Config.lean ====
section
/-! DEFINITION. What the spec fixes for this part: capacities, identification words and defaults
(00_scope.md Key parameters, R72, R146, R161, R179, R180). The spec leaves no value of the part
undefined, so there is no free value here. -/

namespace Sys2Proof.Config

/-- Node capacity, chain addresses 1..24 (R24, R180). -/
abbrev nodeCapacity : Nat := 24

/-- Outbound Queue entries (R72). -/
abbrev queueSize : Nat := 16

/-- Outbound Queue entries with an origin other than MANAGEMENT (R72). -/
abbrev hostClassSize : Nat := 14

/-- Completion Queue places, reservations and records together (R146). -/
abbrev completionSize : Nat := 8

/-- Notice Queue records (R161). -/
abbrev noticeSize : Nat := 32

/-- Words of the Mirror Pool (R129). -/
abbrev poolSize : Nat := 512

/-- Words of the aperture (R118). -/
abbrev apertureSize : Nat := 1024

/-- Most words one frame transfers (R5, R137). -/
abbrev frameWords : Nat := 16

/-- The fill word, which a host read that cannot be served returns (00_scope.md, Terms). -/
def fillWord : Word := 0xFFFF#16

/-- Part code (R180). -/
def partCode : Word := 0x4C18#16

/-- Revision (R180). -/
def revision : Word := 0x0001#16

/-- Capacity word: 24 nodes, 8 windows, 32 units of 16 pool words (R180, 12.3). -/
def capacity : Word := 0x4118#16

/-- Default of SETTLE, ms (R179). -/
abbrev settleDefault : Nat := 20

/-- Default of TIMEOUT, units of 10 us (R179). -/
abbrev timeoutDefault : Nat := 50

/-- Default of RETRY_LIMIT (R179). -/
abbrev retryLimitDefault : Nat := 3

/-- Default of FAIL_THRESHOLD (R179). -/
abbrev failThresholdDefault : Nat := 2

/-- Default of HOLD_LIMIT, us (R179). -/
abbrev holdLimitDefault : Nat := 64

/-- The number of a REFUSE reason on the wire (12.6). -/
def reasonCode : Reason → Nat
  | .range => 0
  | .readonly => 1
  | .noload => 2
  | .busy => 3

/-- Attention code DOWNSTREAM_LOST (R22). -/
def downstreamLost : BitVec 8 := 0xF1#8

/-- Attention code LOAD_FAULT (R22). -/
def loadFaultCode : BitVec 8 := 0xF2#8

end Sys2Proof.Config
end

