-- ==== Sys2Proof/Machine/Operands.lean ====
section
/-! DEFINITION. Bit fields of words, and the frames on the wire: header, body, CRC, and what a
receiver accepts (12.6, R5, R6, R8, R184). -/

namespace Sys2Proof.Machine

/-- Bit `i` of a word; bit 15 is the most significant (chapter 12). -/
def bitAt (w : Word) (i : Nat) : Bool := w.getLsbD i

/-- The field of `n` bits of a word whose lowest bit is `lo`. -/
def fieldAt (w : Word) (lo n : Nat) : BitVec n := w.extractLsb' lo n

/-- A number placed with its lowest bit at `lo`. -/
def place (v lo : Nat) : Word := BitVec.ofNat 16 v <<< lo

/-- A flag placed at bit `i`. -/
def placeBit (b : Bool) (i : Nat) : Word := if b then place 1 i else 0#16

/-- The low 8 bits of a written word, the value of a timing register, BUDGET or a ticket (R62, R145, R179). -/
def lowByte (w : Word) : BitVec 8 := fieldAt w 0 8

/-- The request kinds: the op of a queue entry and the kind of its frame (R5, R71). -/
inductive Op where
  | rd
  | wr
  | ping
  | assign
  | openGate
  | closeGate
  | loadOn
  | loadOff
  | nreset
  deriving DecidableEq, Repr

/-- The kind of a downstream frame (R5). -/
inductive FrameKind where
  | request (op : Op)
  | attnAck
  deriving DecidableEq, Repr

/-- The kind code of a downstream frame (12.6). -/
def FrameKind.code : FrameKind → Nat
  | .request .rd => 0
  | .request .wr => 1
  | .request .ping => 2
  | .request .assign => 3
  | .request .openGate => 4
  | .request .closeGate => 5
  | .request .loadOn => 6
  | .request .loadOff => 7
  | .request .nreset => 8
  | .attnAck => 9

/-- A downstream frame as the Dispatcher hands it to the transmitter (R5, R82). -/
structure DownFrame where
  dest : Nat
  kind : FrameKind
  tag : TagId
  seq : Bool
  flag : Bool
  body : List Word
  deriving DecidableEq, Repr

/-- The header word: address 15:11, kind 10:6, tag 5:3, sequence bit 2, flag 1, bit 0 zero (12.6). -/
def headerWord (addr code tag : Nat) (seq flag : Bool) : Word :=
  place addr 11 ||| place code 6 ||| place tag 3 ||| placeBit seq 2 ||| placeBit flag 1

/-- One bit of the CRC register: polynomial x^16 + x^12 + x^5 + 1 (R8). -/
def crcBit (r : Word) (b : Bool) : Word :=
  if r.getLsbD 15 != b then (r <<< 1) ^^^ 0x1021#16 else r <<< 1

/-- One word of the CRC, most significant bit first (R8). -/
def crcWord (r w : Word) : Word :=
  [15, 14, 13, 12, 11, 10, 9, 8, 7, 6, 5, 4, 3, 2, 1, 0].foldl (fun r i => crcBit r (w.getLsbD i)) r

/-- The CRC-16 of the words before the CRC word, register preset to 0xFFFF (R8). -/
def crc (ws : List Word) : Word := ws.foldl crcWord 0xFFFF#16

/-- The words of a frame with its CRC word last (R8, R9). -/
def sealed (ws : List Word) : List Word := ws ++ [crc ws]

/-- Every word of a downstream frame as it goes out on DN (R5, R9, 12.6). -/
def DownFrame.wire (f : DownFrame) : List Word :=
  sealed (headerWord f.dest f.kind.code f.tag.val f.seq f.flag :: f.body)

/-- What an upstream frame says, by kind (R6). -/
inductive UpBody where
  | data (ws : List Word)
  | done
  | refuse (reason : Reason)
  | sense (ident : Identity)
  | attn (code : BitVec 8)
  | hello
  deriving DecidableEq, Repr

/-- An accepted upstream frame (R6, R10). -/
structure UpFrame where
  source : BitVec 5
  tag : TagId
  seq : Bool
  flag : Bool
  body : UpBody
  deriving DecidableEq, Repr

/-- The kind code of an upstream frame (12.6). -/
def UpBody.code : UpBody → Nat
  | .data _ => 10
  | .done => 11
  | .refuse _ => 12
  | .sense _ => 13
  | .attn _ => 14
  | .hello => 15

/-- The body words of an upstream frame in order (12.6). -/
def UpBody.words : UpBody → List Word
  | .data ws => BitVec.ofNat 16 ws.length :: ws
  | .done => []
  | .refuse r => [BitVec.ofNat 16 (Config.reasonCode r)]
  | .sense i =>
    [i.cls ++ i.revision, i.spanField.setWidth 16, i.demand.setWidth 16 ||| placeBit i.attnCapable 4]
  | .attn c => [c.setWidth 16]
  | .hello => []

/-- Every word of an upstream frame as a node sends it (R6, 12.6). -/
def UpFrame.wire (f : UpFrame) : List Word :=
  sealed (headerWord f.source.toNat f.body.code f.tag.val f.seq f.flag :: f.body.words)

/-- The reason a REFUSE reason word names, by its bits 1:0 (R184). -/
def reasonOf (w : Word) : Reason :=
  if bitAt w 1 then (if bitAt w 0 then .busy else .noload)
  else (if bitAt w 0 then .readonly else .range)

/-- The body a kind code and body words give, or none where the frame is malformed: a kind that names
none or does not travel upstream, a wrong length, a count outside 1..16 (R8, R184). -/
def parseBody (code : Nat) (ws : List Word) : Option UpBody :=
  match code, ws with
  | 10, c :: ds =>
    let n := (fieldAt c 0 5).toNat
    if 1 ≤ n ∧ n ≤ 16 ∧ ds.length = n then some (.data ds) else none
  | 11, [] => some .done
  | 12, [r] => some (.refuse (reasonOf r))
  | 13, [a, b, c] =>
    some (.sense
      { cls := fieldAt a 8 8, revision := fieldAt a 0 8, spanField := fieldAt b 0 12,
        demand := fieldAt c 0 4, attnCapable := bitAt c 4 })
  | 14, [a] => some (.attn (fieldAt a 0 8))
  | 15, [] => some .hello
  | _, _ => none

/-- The frame of words whose CRC has been checked (12.6). Header bit 0 is ignored (R184). -/
def parseFrame : List Word → Option UpFrame
  | [] => none
  | h :: body =>
    (parseBody (fieldAt h 6 5).toNat body).map fun b =>
      { source := fieldAt h 11 5, tag := (fieldAt h 3 3).toFin, seq := bitAt h 2, flag := bitAt h 1, body := b }

/-- What the receiver makes of the words of one frame on UP: dropped when cut off before the end
delimiter, when the CRC word differs, or when malformed (R8, R10). -/
def acceptFrame (wire : List Word) (ended : Bool) : Option UpFrame :=
  if ended ∧ wire.getLast? = some (crc wire.dropLast) then parseFrame wire.dropLast else none

/-! ### Downstream frames at a node -/

/-- The kind a downstream kind code names; codes 10..31 do not travel downstream (R5, R8, 12.6). -/
def frameKindOf (code : Nat) : Option FrameKind :=
  match code with
  | 0 => some (.request .rd)
  | 1 => some (.request .wr)
  | 2 => some (.request .ping)
  | 3 => some (.request .assign)
  | 4 => some (.request .openGate)
  | 5 => some (.request .closeGate)
  | 6 => some (.request .loadOn)
  | 7 => some (.request .loadOff)
  | 8 => some (.request .nreset)
  | 9 => some .attnAck
  | _ => none

/-- The body has the length that R5 gives its kind, and a count in 1..16 (R5, R8, R184). -/
def FrameKind.fits (k : FrameKind) (body : List Word) : Bool :=
  match k, body with
  | .request .rd, [_, c] => decide (1 ≤ (fieldAt c 0 5).toNat) && decide ((fieldAt c 0 5).toNat ≤ 16)
  | .request .wr, _ :: c :: ds =>
    decide (1 ≤ (fieldAt c 0 5).toNat) && decide ((fieldAt c 0 5).toNat ≤ 16) &&
      decide (ds.length = (fieldAt c 0 5).toNat)
  | .request .rd, _ => false
  | .request .wr, _ => false
  | .request .assign, _ => decide (body.length = 1)
  | _, _ => decide (body.length = 0)

/-- The destination that the header of a downstream frame names, its CRC checked or not. -/
def wireDest (wire : List Word) : Nat := (fieldAt (wire.headD 0#16) 11 5).toNat

/-- The address that the words of a frame give if they name an ASSIGN, the CRC checked or not (R16). -/
def wireAssigns (wire : List Word) : Option Addr :=
  if (fieldAt (wire.headD 0#16) 6 5).toNat = 3 then addrOf? (fieldAt (wire.getD 1 0#16) 0 5).toNat else none

/-- The downstream frame of words whose CRC has been checked (12.6). -/
def parseDown : List Word → Option DownFrame
  | [] => none
  | h :: body =>
    match frameKindOf (fieldAt h 6 5).toNat with
    | none => none
    | some k =>
      if k.fits body then
        some
          { dest := (fieldAt h 11 5).toNat, kind := k, tag := (fieldAt h 3 3).toFin, seq := bitAt h 2,
            flag := bitAt h 1, body := body }
      else none

/-- What a node that consumes the words of a frame makes of them: dropped when cut off, when the CRC word
differs, or when malformed (R8, R11). -/
def acceptDown (wire : List Word) (ended : Bool) : Option DownFrame :=
  if ended ∧ wire.getLast? = some (crc wire.dropLast) then parseDown wire.dropLast else none

end Sys2Proof.Machine
end

