-- ==== Sys2Proof/Syntax.lean ====
section
/-! DEFINITION. The commands of the part: one constructor per row of spec/opcode_table.json.
A host write carries the whole written word, as the bus does (R170; log 5). -/

namespace Sys2Proof

/-- The 55 events of spec/opcode_table.json, each whole and indivisible (95_what_each_step_holds.md). -/
inductive Instr where
  /-- APERTURE_ACCESS (R118): a host read or write at aperture word offset o. -/
  | apertureAccess (o : BitVec 10) (access : Access)
  /-- HOST_CYCLE_ABORT (R173): the host raises CS_N or its strobe. -/
  | hostCycleAbort
  /-- CHAIN_ENABLE_SET (R47): a CONTROL write that changes CHAIN_ENABLE from 0 to 1. -/
  | chainEnableSet (w : Word)
  /-- CHAIN_ENABLE_CLEAR (R51): a CONTROL write that changes CHAIN_ENABLE from 1 to 0. -/
  | chainEnableClear (w : Word)
  /-- AUTO_REWALK_WRITE (R177): a CONTROL write that sets or clears AUTO_REWALK. -/
  | autoRewalkWrite (w : Word)
  /-- NOTICE_IE_WRITE (R168): a CONTROL write that sets or clears NOTICE_IE. -/
  | noticeIeWrite (w : Word)
  /-- COMPLETION_IE_WRITE (R168): a CONTROL write that sets or clears COMPLETION_IE. -/
  | completionIeWrite (w : Word)
  /-- SOFT_RESET (R176): a CONTROL write with SOFT_RESET set. -/
  | softReset (w : Word)
  /-- BUDGET_REFUSED_CLEAR (R178): a STATUS write of 1 to BUDGET_REFUSED. -/
  | budgetRefusedClear (w : Word)
  /-- NOTICE_OVERFLOW_CLEAR (R166): a STATUS write of 1 to NOTICE_OVERFLOW. -/
  | noticeOverflowClear (w : Word)
  /-- TIMING_REGISTER_WRITE (R179). -/
  | timingRegisterWrite (r : TimingReg) (w : Word)
  /-- BUDGET_WRITE (R62). -/
  | budgetWrite (w : Word)
  /-- READ (R147): a SUBMIT write with the staging kind READ. -/
  | read (w : Word)
  /-- WRITE (R147): a SUBMIT write with the staging kind WRITE. -/
  | write (w : Word)
  /-- FENCE (R149): a SUBMIT write with the staging kind FENCE. -/
  | fence (w : Word)
  /-- UNFENCE (R150): a SUBMIT write with the staging kind UNFENCE. -/
  | unfence (w : Word)
  /-- NRESET (R148): a SUBMIT write with the staging kind NRESET. -/
  | nreset (w : Word)
  /-- REFRESH (R151): a SUBMIT write with the staging kind REFRESH. -/
  | refresh (w : Word)
  /-- RESCAN (R152): a SUBMIT write with the staging kind RESCAN. -/
  | rescan (w : Word)
  /-- CANCEL (R153): a SUBMIT write with the staging kind CANCEL. -/
  | cancel (w : Word)
  /-- COMPLETION_POP (R157). -/
  | completionPop (w : Word)
  /-- NOTICE_POP (R164). -/
  | noticePop (w : Word)
  /-- WINDOW_FIELD_WRITE (R112): a write to word `word` of window record `i`. -/
  | windowFieldWrite (i : WinIx) (word : Fin 8) (w : Word)
  /-- WINDOW_ENABLE (R113): a write to word 0 with enabled yes. -/
  | windowEnable (i : WinIx) (w : Word)
  /-- WINDOW_DISABLE (R116): a write to word 0 with enabled no. -/
  | windowDisable (i : WinIx) (w : Word)
  /-- REFRESH_ON_ATTN_WRITE (R45): a write to directory view word 6 of record k. -/
  | refreshOnAttnWrite (k : Addr) (w : Word)
  /-- REGISTER_WRITE (R171): a write to any other word, by its word address A[11:1]; or a read of any word
  outside the aperture, which the table gives no row of its own (log 34). -/
  | registerWrite (a : BitVec 11) (access : Access)
  /-- POWER_ON_RESET (R175). -/
  | powerOnReset
  /-- POWER_ON_HOLD_END (R175). -/
  | powerOnHoldEnd
  /-- BUS_RESET (R174): RESET_N low for 1 us with KEEP_N high. -/
  | busReset
  /-- KEEP_RESET (R174): RESET_N low for 1 us with KEEP_N low. -/
  | keepReset
  /-- KEEP_N_RISE (R174). -/
  | keepNRise
  /-- RESET_RELEASE (R175): RESET_N rises. -/
  | resetRelease
  /-- CHAIN_FAULT (R49): CHAIN_FAULT_N is sampled at the level `high` (log 15). -/
  | chainFault (high : Bool)
  /-- UP_CARRIER_PRESENT (R4). -/
  | upCarrierPresent
  /-- UP_CARRIER_LOST (R4). -/
  | upCarrierLost
  /-- TRANSMITTER_FREE (R9). -/
  | transmitterFree
  /-- RECEIVE_DATA (R89): source address, tag, sequence bit and data words. -/
  | receiveData (src : BitVec 5) (tag : TagId) (seq : Bool) (ws : List Word)
  /-- RECEIVE_DONE (R89). -/
  | receiveDone (src : BitVec 5) (tag : TagId) (seq : Bool)
  /-- RECEIVE_REFUSE (R90). -/
  | receiveRefuse (src : BitVec 5) (tag : TagId) (seq : Bool) (reason : Reason)
  /-- RECEIVE_SENSE (R31). -/
  | receiveSense (src : BitVec 5) (tag : TagId) (seq : Bool) (ident : Identity)
  /-- RECEIVE_ATTN (R40). -/
  | receiveAttn (src : BitVec 5) (code : BitVec 8) (toggle : Bool)
  /-- RECEIVE_HELLO (R59). -/
  | receiveHello (src : BitVec 5)
  /-- FRAME_DROPPED (R8): the words of a frame on UP, and whether its end delimiter came (log 29). -/
  | frameDropped (wire : List Word) (ended : Bool)
  /-- RESPONSE_TIMER_EXPIRY (R84). -/
  | responseTimerExpiry (t : TagId)
  /-- BACKOFF_TIMER_EXPIRY (R84). -/
  | backoffTimerExpiry (t : TagId)
  /-- TAG_HOLD_EXPIRY (R77). -/
  | tagHoldExpiry (t : TagId)
  /-- RAMP_SETTLE_EXPIRY (R48). -/
  | rampSettleExpiry
  /-- WALK_SETTLE_EXPIRY (R56). -/
  | walkSettleExpiry
  /-- DARK_WAIT_EXPIRY (R106). -/
  | darkWaitExpiry
  /-- NODE_SETTLE_EXPIRY (R34). -/
  | nodeSettleExpiry (k : Addr)
  /-- HOLD_LIMIT_EXPIRY (R124). -/
  | holdLimitExpiry
  /-- REFRESH_TIMER_EXPIRY (R132). -/
  | refreshTimerExpiry (i : WinIx)
  /-- SUPPLY_BELOW_BROWN_OUT (R175). -/
  | supplyBelowBrownOut
  /-- SUBMIT_KIND_NAMES_NO_KIND (R145): a SUBMIT write with a staging kind 8..15. -/
  | submitKindNamesNoKind (w : Word)
  deriving DecidableEq, Repr

end Sys2Proof
end

