-- ==== Sys2Proof/WellFormed.lean ====
section
/-! DEFINITION. Which commands are the row they are named after: operands within the ranges of the
spec, and a written word that makes the change its row speaks of (log 5). -/

namespace Sys2Proof

open Sys2Proof.Machine

/-- The word addresses of the host window whose writes belong to another row of the table: CONTROL,
STATUS, the timing words, BUDGET, SUBMIT, the two POP words, the window records, the words that hold
refresh_on_attn, and the aperture (12.2). -/
def writeHasOwnRow (a : BitVec 11) : Bool :=
  let b := 2 * a.toNat
  b ≤ 0x00E || b == 0x0A8 || b == 0x0B6 || (0x100 ≤ b && b ≤ 0x17F) || b == 0x186 ||
    (0x200 ≤ b && b ≤ 0x37F && b % 16 == 12) || 0x800 ≤ b

/-- The accesses of REGISTER_WRITE: a write to a word of no other row, a read outside the aperture (log 34). -/
def registerAccessOk (a : BitVec 11) (access : Access) : Bool :=
  match access with
  | .read => decide (a.toNat < 0x400)
  | .write _ => !writeHasOwnRow a

/-- Well-formedness of a command. -/
def Instr.wellFormed : Instr → Bool
  | .chainEnableSet w => !bitAt w 15 && bitAt w 0
  | .chainEnableClear w => !bitAt w 15 && !bitAt w 0
  | .autoRewalkWrite w => !bitAt w 15
  | .noticeIeWrite w => !bitAt w 15
  | .completionIeWrite w => !bitAt w 15
  | .softReset w => bitAt w 15
  | .budgetRefusedClear w => bitAt w 0
  | .noticeOverflowClear w => bitAt w 1
  | .windowEnable _ w => bitAt w 0
  | .windowDisable _ w => !bitAt w 0
  | .registerWrite a access => registerAccessOk a access
  | .receiveData _ _ _ ws => 1 ≤ ws.length && ws.length ≤ 16
  | .frameDropped wire ended => (acceptFrame wire ended).isNone
  | .apertureAccess _ _ => true
  | .hostCycleAbort => true
  | .timingRegisterWrite _ _ => true
  | .budgetWrite _ => true
  | .read _ => true
  | .write _ => true
  | .fence _ => true
  | .unfence _ => true
  | .nreset _ => true
  | .refresh _ => true
  | .rescan _ => true
  | .cancel _ => true
  | .completionPop _ => true
  | .noticePop _ => true
  | .windowFieldWrite _ _ _ => true
  | .refreshOnAttnWrite _ _ => true
  | .powerOnReset => true
  | .powerOnHoldEnd => true
  | .busReset => true
  | .keepReset => true
  | .keepNRise => true
  | .resetRelease => true
  | .chainFault _ => true
  | .upCarrierPresent => true
  | .upCarrierLost => true
  | .transmitterFree => true
  | .receiveDone _ _ _ => true
  | .receiveRefuse _ _ _ _ => true
  | .receiveSense _ _ _ _ => true
  | .receiveAttn _ _ _ => true
  | .receiveHello _ => true
  | .responseTimerExpiry _ => true
  | .backoffTimerExpiry _ => true
  | .tagHoldExpiry _ => true
  | .rampSettleExpiry => true
  | .walkSettleExpiry => true
  | .darkWaitExpiry => true
  | .nodeSettleExpiry _ => true
  | .holdLimitExpiry => true
  | .refreshTimerExpiry _ => true
  | .supplyBelowBrownOut => true
  | .submitKindNamesNoKind _ => true

end Sys2Proof
end

