-- ==== Sys2Proof/Decode.lean ====
section
/-! DEFINITION. The commands that a word of spec/opcode_table.json's bits spells: no row of this
table gives bits (every row's "fields" is empty), so no word spells a command. -/

namespace Sys2Proof

/-- The command the bits `w` of an `nbits`-bit table word spell: none, since the table gives none. -/
def decodeTableWord (_nbits _w : Nat) : Option Instr := none

end Sys2Proof
end

