-- ==== Sys2Proof/Machine/State.lean ====
section
/-! DEFINITION. The state of the part, block by block as the block diagram names them (00_scope.md),
its value after power-on reset, and the two kinds of stop. Every field is plain data. -/

namespace Sys2Proof.Machine

/-- Status codes shared by APERTURE_RESULT, completions, POSTED_WRITE_LOST and enable_status (12.1). -/
inductive Status where
  | ok
  | unmapped
  | detached
  | prot
  | nodeNotReady
  | outOfSpan
  | queueFull
  | abandoned
  | timeout
  | refusedRange
  | refusedReadonly
  | refusedNoload
  | nodeLost
  | aborted
  | notFound
  | inFlight
  | refusedFull
  | conflict
  | range
  | nodeAbsent
  | noMirrorSpace
  deriving DecidableEq, Repr

/-- RESET_CAUSE (R178). -/
inductive ResetCause where
  | powerOn
  | bus
  | keepPin
  | soft
  deriving DecidableEq, Repr

/-- Supply, CLK_IN running, reset lines, sampled inputs, and the word the part drives on D[15:0] (R172 to R175,
R178, R181). -/
structure Pins where
  supplyValid : Bool
  clkIn : Bool
  powerOnHold : Bool
  resetN : Bool
  keepN : Bool
  chainFaultN : Bool
  upCarrier : Bool
  busData : Option Word
  deriving DecidableEq, Repr

/-- CONTROL, the sticky BUDGET_REFUSED, RESET_CAUSE and the timing registers (R177 to R179). -/
structure Control where
  chainEnable : Bool
  autoRewalk : Bool
  noticeIe : Bool
  completionIe : Bool
  budgetRefused : Bool
  resetCause : ResetCause
  settle : Nat
  timeout : Nat
  retryLimit : Nat
  failThreshold : Nat
  holdLimit : Nat
  deriving DecidableEq, Repr

/-- The phase of a held cycle (R121). -/
inductive HeldPhase where
  | slotWait
  | resultWait
  deriving DecidableEq, Repr

/-- A cycle in the held-cycle slot (R121), with the translation made at the access (R122; log 10). -/
structure HeldCycle where
  handle : Nat
  phase : HeldPhase
  access : Access
  offset : BitVec 10
  window : WinIx
  holdTimer : Nat
  posted : Bool
  node : Addr
  remote : Word
  deriving DecidableEq, Repr

/-- The Local Bus Interface: held-cycle slot, APERTURE_RESULT, and the model's own handle counter (R121, R126; log 11). -/
structure Lbi where
  slot : Option HeldCycle
  result : Status
  nextHandle : Nat
  deriving DecidableEq, Repr

/-- A window record (R111, R183, 12.5). Writable fields hold the bits as written. -/
structure Window where
  enabled : Bool
  kind : BitVec 2
  writeProtect : Bool
  node : BitVec 5
  base : BitVec 10
  length : BitVec 11
  remoteBase : Word
  interval : BitVec 8
  boundIncarnation : Word
  attached : Bool
  mirrorSegment : Nat
  generation : Word
  stale : Bool
  enableStatus : Status
  deriving DecidableEq, Repr

/-- The kind of a command (R144, R155). -/
inductive CmdKind where
  | read
  | write
  | fence
  | unfence
  | nreset
  | refresh
  | rescan
  | cancel
  deriving DecidableEq, Repr

/-- The return reference of an APERTURE entry (R71); `posted` marks a POSTED write (R92; log 10). -/
structure ApertureRef where
  handle : Nat
  offset : BitVec 10
  held : Bool
  posted : Bool
  deriving DecidableEq, Repr

/-- The return reference of a COMMAND entry (R71), with the order of acceptance (R50; log 11). -/
structure CommandRef where
  ticket : BitVec 8
  kind : CmdKind
  order : Nat
  deriving DecidableEq, Repr

/-- The return reference of a REFRESH entry (R71, R136). -/
structure RefreshRef where
  window : WinIx
  generation : Word
  segment : Nat
  nextOffset : Nat
  attached : List (BitVec 8)
  deriving DecidableEq, Repr

/-- The origin of a queue entry with its return reference (R71). -/
inductive Origin where
  | aperture (r : ApertureRef)
  | command (r : CommandRef)
  | refresh (r : RefreshRef)
  | management
  deriving DecidableEq, Repr

/-- The state of a queue entry (R71, R74). -/
inductive EntryState where
  | waiting
  | inFlight
  | backoff
  deriving DecidableEq, Repr

/-- An Outbound Queue entry (R71). -/
structure Entry where
  origin : Origin
  op : Op
  node : Addr
  remote : Word
  count : Nat
  data : List Word
  attempts : Nat
  sentBit : Option Bool
  state : EntryState
  tag : Option TagId
  deriving DecidableEq, Repr

/-- Who holds a BUSY tag: the queue entry whose tag field is that tag, or the synthesized PING of a
node (R75). -/
inductive Holder where
  | entry
  | ping (k : Addr)
  deriving DecidableEq, Repr

/-- The use of a BUSY tag's timer (R76). -/
inductive TimerUse where
  | response
  | backoff
  deriving DecidableEq, Repr

/-- A running timer of a BUSY tag: its use, and its duration in units of 10 us (R76). -/
structure TagTimer where
  use : TimerUse
  duration : Nat
  deriving DecidableEq, Repr

/-- The request that holds a BUSY tag (R75). -/
structure Flight where
  holder : Holder
  node : Addr
  kind : Op
  sentBit : Bool
  synthAttempts : Nat
  timer : Option TagTimer
  deriving DecidableEq, Repr

/-- A tag: FREE, BUSY with the request that holds it, or in HOLD with the duration of its hold timer
in units of 10 us (R75, R76; log 12). -/
inductive Tag where
  | free
  | busy (f : Flight)
  | hold (duration : Nat)
  deriving DecidableEq, Repr

/-- The Dispatcher: the Tag Table and the resend list, whose requests are named by their tags (R75, R85). -/
structure Dispatcher where
  tags : Vector Tag 8
  resend : List TagId
  deriving DecidableEq, Repr

/-- The Chain Port: the frame being sent, or IDLE (R9), and the port carrier seen flag (R4). -/
structure ChainPort where
  tx : Option DownFrame
  carrierSeen : Bool
  deriving DecidableEq, Repr

/-- The chain state (R46). -/
inductive ChainState where
  | off
  | ramp
  | walking
  | running
  | faulted
  deriving DecidableEq, Repr

/-- The ramp phase (R46, R48). -/
inductive RampPhase where
  | dark
  | rising
  deriving DecidableEq, Repr

/-- The walk step (R46). -/
inductive WalkStep where
  | assigning
  | opening
  | settling
  deriving DecidableEq, Repr

/-- The dark wait (R46, R106). -/
inductive DarkWait where
  | closing
  | dark
  deriving DecidableEq, Repr

/-- A management step (R52); `putBack` marks a decision that a keep reset put back (R64, R70). -/
inductive MgmtStep where
  | assign (k : Addr)
  | openGate (k : Addr)
  | closeGate (k : Addr)
  | decision (k : Addr) (putBack : Bool)
  | service
  | confirm (k : Addr)
  deriving DecidableEq, Repr

/-- An UNFENCE that waits for its admission decision (R37, R150). -/
structure UnfenceWait where
  ticket : BitVec 8
  node : Addr
  order : Nat
  deriving DecidableEq, Repr

/-- The Chain Manager (R46), with CHAIN_PWR_EN and the UNFENCEs it holds (R146). Timers are in ms. -/
structure ChainManager where
  state : ChainState
  rampPhase : Option RampPhase
  tail : Nat
  tailGateOpen : Bool
  pointer : Option Addr
  walkStep : Option WalkStep
  darkWait : Option DarkWait
  rewalk : Bool
  settleTimer : Option Nat
  nodeTimers : Vector (Option Nat) 24
  backlog : List MgmtStep
  admission : List Addr
  budget : Nat
  committed : Nat
  rescans : List (BitVec 8)
  unfenceWaits : List UnfenceWait
  pwrEn : Bool
  deriving DecidableEq, Repr

/-- The lifecycle state of a node (R24). -/
inductive NodeState where
  | vacant
  | sensed
  | denied
  | powering
  | online
  | suspect
  | fenced
  deriving DecidableEq, Repr

/-- The management step under way for a node (R24). -/
inductive NodeStep where
  | loadWait
  | settling
  | confirming
  | unfencing
  | poweringOff
  deriving DecidableEq, Repr

/-- A node record (R24). -/
structure NodeRecord where
  state : NodeState
  step : Option NodeStep
  incarnation : Word
  cls : BitVec 8
  revision : BitVec 8
  span : Option Nat
  demand : BitVec 4
  attnCapable : Bool
  powered : Bool
  loadFault : Bool
  failCount : Nat
  nextSeq : Bool
  resync : Bool
  inFlightTag : Option TagId
  attnToggle : Option Bool
  ackOwed : Bool
  refreshOnAttn : Bool
  deriving DecidableEq, Repr

/-- A cell of the Mirror Pool: a pool address and the word there (R129). -/
abbrev PoolCell := Nat × Word

/-- The Mirror Pool's words, and the refresh timers (ms) of the windows (R129, R132). -/
structure Mirror where
  pool : List PoolCell
  timers : Vector (Option Nat) 8
  deriving DecidableEq, Repr

/-- SUBMIT_STATUS (R145, 12.1). -/
inductive SubmitStatus where
  | none
  | accepted
  | refusedFull
  | badCommand
  deriving DecidableEq, Repr

/-- The staging record, each field with the bits as written (R144, R183). -/
structure Staging where
  kind : BitVec 4
  powerOff : Bool
  node : BitVec 5
  address : Word
  count : BitVec 5
  window : BitVec 4
  target : BitVec 8
  data : Vector Word 16
  deriving DecidableEq, Repr

/-- A completion record (R155). -/
structure Completion where
  ticket : BitVec 8
  kind : CmdKind
  status : Status
  node : Nat
  count : Nat
  data : List Word
  deriving DecidableEq, Repr

/-- The Command Port and its Completion Queue (R144 to R146, R156), with the model's own order counter (log 11). -/
structure CommandPort where
  staging : Staging
  submitStatus : SubmitStatus
  reservations : Nat
  completions : List Completion
  nextOrder : Nat
  deriving DecidableEq, Repr

/-- The notice kinds (R160). -/
inductive NoticeKind where
  | nodeSensed
  | nodeDenied
  | nodeOnline
  | nodeSuspect
  | nodeRecovered
  | nodeLost
  | nodeLoadFault
  | nodeAttention
  | chainEnd
  | chainFault
  | apertureAbandoned
  | postedWriteLost
  | strayAccess
  | strayResponse
  | mirrorStale
  deriving DecidableEq, Repr

/-- A notice record (R159). -/
structure Notice where
  node : Nat
  kind : NoticeKind
  detail : Word
  repeats : Nat
  deriving DecidableEq, Repr

/-- The Notice Queue and its sticky overflow flag (R159, R166). -/
structure NoticeQueue where
  records : List Notice
  overflow : Bool
  deriving DecidableEq, Repr

/-- The whole part, and the commands that wait to be taken, first in first out (log 1). -/
structure State where
  pins : Pins
  ctl : Control
  lbi : Lbi
  windows : Vector Window 8
  queue : List Entry
  disp : Dispatcher
  port : ChainPort
  chain : ChainManager
  nodes : Vector NodeRecord 24
  mirror : Mirror
  cmd : CommandPort
  notices : NoticeQueue
  pending : List Instr
  deriving DecidableEq, Repr

/-- A fault would stop the part; the spec gives it none (every error is a status, a notice or a
refused write), so there is none to raise. -/
inductive Fault where
  deriving DecidableEq, Repr

/-- Why a command has no meaning in the model. -/
inductive Refusal where
  /-- Raised by an arm of `exec` for a row that has no meaning yet, by the row's mnemonic. Safe: no
  claim about that row can be proved. -/
  | notModelled (mnemonic : String)
  deriving DecidableEq, Repr

/-- A VACANT record with incarnation 0 (R24, R28). -/
def NodeRecord.reset : NodeRecord where
  state := .vacant
  step := none
  incarnation := 0#16
  cls := 0#8
  revision := 0#8
  span := none
  demand := 0#4
  attnCapable := false
  powered := false
  loadFault := false
  failCount := 0
  nextSeq := false
  resync := false
  inFlightTag := none
  attnToggle := none
  ackOwed := false
  refreshOnAttn := false

/-- A window record after power-on or bus reset (R111). -/
def Window.reset : Window where
  enabled := false
  kind := 0#2
  writeProtect := false
  node := 0#5
  base := 0#10
  length := 0#11
  remoteBase := 0#16
  interval := 0#8
  boundIncarnation := 0#16
  attached := false
  mirrorSegment := 0
  generation := 0#16
  stale := false
  enableStatus := .ok

/-- CONTROL, STATUS and timing words after power-on reset (R177 to R179). -/
def Control.reset : Control where
  chainEnable := false
  autoRewalk := false
  noticeIe := false
  completionIe := false
  budgetRefused := false
  resetCause := .powerOn
  settle := Config.settleDefault
  timeout := Config.timeoutDefault
  retryLimit := Config.retryLimitDefault
  failThreshold := Config.failThresholdDefault
  holdLimit := Config.holdLimitDefault

/-- The Chain Manager after power-on or bus reset (R46). -/
def ChainManager.reset : ChainManager where
  state := .off
  rampPhase := none
  tail := 0
  tailGateOpen := false
  pointer := none
  walkStep := none
  darkWait := none
  rewalk := false
  settleTimer := none
  nodeTimers := Vector.replicate 24 none
  backlog := []
  admission := []
  budget := 0
  committed := 0
  rescans := []
  unfenceWaits := []
  pwrEn := false

/-- The staging record after power-on or bus reset (R144). -/
def Staging.reset : Staging where
  kind := 0#4
  powerOff := false
  node := 0#5
  address := 0#16
  count := 0#5
  window := 0#4
  target := 0#8
  data := Vector.replicate 16 0#16

/-- The part right after power-on reset, its hold over and its lines at rest: each field at the value
the block chapters give (R28, R46, R94, R111, R121, R126, R129, R132, R158, R169, R177 to R179). The
levels of the input lines, CLK_IN and the end of the hold are log 4, pool words log 20. -/
def State.reset : State where
  pins :=
    { supplyValid := true, clkIn := true, powerOnHold := false, resetN := true, keepN := true,
      chainFaultN := true, upCarrier := false, busData := none }
  ctl := Control.reset
  lbi := { slot := none, result := .ok, nextHandle := 0 }
  windows := Vector.replicate 8 Window.reset
  queue := []
  disp := { tags := Vector.replicate 8 Tag.free, resend := [] }
  port := { tx := none, carrierSeen := false }
  chain := ChainManager.reset
  nodes := Vector.replicate 24 NodeRecord.reset
  mirror := { pool := [], timers := Vector.replicate 8 none }
  cmd :=
    { staging := Staging.reset, submitStatus := .none, reservations := 0, completions := [],
      nextOrder := 0 }
  notices := { records := [], overflow := false }
  pending := []

end Sys2Proof.Machine
end

