-- ==== Sys2Proof/Machine/Memory.lean ====
section
/-! DEFINITION. The Mirror Pool's 512 words as a list of (address, word) in one canonical form:
addresses strictly rising, no listed word equal to what an unlisted address reads as (R129; log 20). -/

namespace Sys2Proof.Machine.Memory

/-- What an unlisted pool address reads as: the cleared word 0x0000 (R129; DESIGN CHOICE at power-on, log 20). -/
def unlisted : Word := 0#16

/-- The word at a pool address. -/
def read : List PoolCell → Nat → Word
  | [], _ => unlisted
  | (b, w) :: m, a => if b = a then w else read m a

/-- A word put at an address, the canonical form kept: the value of an unlisted address is not listed. -/
def insert : List PoolCell → Nat → Word → List PoolCell
  | [], a, v => if v = unlisted then [] else [(a, v)]
  | (b, w) :: m, a, v =>
    if a < b then (if v = unlisted then (b, w) :: m else (a, v) :: (b, w) :: m)
    else if a = b then (if v = unlisted then m else (a, v) :: m)
    else (b, w) :: insert m a v

/-- A write of one pool word; pool addresses are 0..511 (R129). -/
def store (m : List PoolCell) (a : Nat) (v : Word) : List PoolCell :=
  if a < Config.poolSize then insert m a v else m

/-- Words written from a base upward (R138). -/
def storeRange : List PoolCell → Nat → List Word → List PoolCell
  | m, _, [] => m
  | m, a, w :: ws => storeRange (store m a w) (a + 1) ws

/-- A run of words set to 0x0000, as an allocation does (R129). -/
def clear (m : List PoolCell) (a n : Nat) : List PoolCell := storeRange m a (List.replicate n 0#16)

/-- The canonical form from address `lo` up. -/
def wfFrom (lo : Nat) : List PoolCell → Bool
  | [] => true
  | (a, v) :: m => decide (lo ≤ a) && decide (a < Config.poolSize) && v != unlisted && wfFrom (a + 1) m

/-- The canonical form of the pool. -/
def wf (m : List PoolCell) : Bool := wfFrom 0 m

end Sys2Proof.Machine.Memory
end

