-- ==== Sys2Proof/Machine/Flags.lean ====
section
/-! DEFINITION. Codes of named values (chapter 12), the part's outputs, and the conditions that the
rules read off a state. -/

namespace Sys2Proof.Machine

/-- The code of a status (12.1). -/
def Status.code : Status → Nat
  | .ok => 0
  | .unmapped => 1
  | .detached => 2
  | .prot => 3
  | .nodeNotReady => 4
  | .outOfSpan => 5
  | .queueFull => 6
  | .abandoned => 7
  | .timeout => 8
  | .refusedRange => 9
  | .refusedReadonly => 10
  | .refusedNoload => 11
  | .nodeLost => 12
  | .aborted => 13
  | .notFound => 14
  | .inFlight => 15
  | .refusedFull => 16
  | .conflict => 17
  | .range => 18
  | .nodeAbsent => 19
  | .noMirrorSpace => 20

/-- A status as the detail of a notice (R160). -/
def Status.word (st : Status) : Word := BitVec.ofNat 16 st.code

/-- The code of SUBMIT_STATUS (12.1). -/
def SubmitStatus.code : SubmitStatus → Nat
  | .none => 0
  | .accepted => 1
  | .refusedFull => 2
  | .badCommand => 3

/-- The code of RESET_CAUSE (12.3). -/
def ResetCause.code : ResetCause → Nat
  | .powerOn => 0
  | .bus => 1
  | .keepPin => 2
  | .soft => 3

/-- The code of the chain state (12.3). -/
def ChainState.code : ChainState → Nat
  | .off => 0
  | .ramp => 1
  | .walking => 2
  | .running => 3
  | .faulted => 4

/-- The code of a node state (12.5). -/
def NodeState.code : NodeState → Nat
  | .vacant => 0
  | .sensed => 1
  | .denied => 2
  | .powering => 3
  | .online => 4
  | .suspect => 5
  | .fenced => 6

/-- The code of a node step, 0 when absent (12.5). -/
def stepCode : Option NodeStep → Nat
  | none => 0
  | some .loadWait => 1
  | some .settling => 2
  | some .confirming => 3
  | some .unfencing => 4
  | some .poweringOff => 5

/-- The code of a notice kind; 0 is NONE (12.5). -/
def NoticeKind.code : NoticeKind → Nat
  | .nodeSensed => 1
  | .nodeDenied => 2
  | .nodeOnline => 3
  | .nodeSuspect => 4
  | .nodeRecovered => 5
  | .nodeLost => 6
  | .nodeLoadFault => 7
  | .nodeAttention => 8
  | .chainEnd => 9
  | .chainFault => 10
  | .apertureAbandoned => 11
  | .postedWriteLost => 12
  | .strayAccess => 13
  | .strayResponse => 14
  | .mirrorStale => 15

/-- The code of a command kind, as the staging kind (12.4). -/
def CmdKind.code : CmdKind → Nat
  | .read => 0
  | .write => 1
  | .fence => 2
  | .unfence => 3
  | .nreset => 4
  | .refresh => 5
  | .rescan => 6
  | .cancel => 7

/-- The command kind a staging kind field names; 8..15 name none (12.4, R183). -/
def cmdKindOf (b : BitVec 4) : Option CmdKind :=
  match b.toNat with
  | 0 => some .read
  | 1 => some .write
  | 2 => some .fence
  | 3 => some .unfence
  | 4 => some .nreset
  | 5 => some .refresh
  | 6 => some .rescan
  | 7 => some .cancel
  | _ => none

/-- The status of a REFUSE that is not BUSY (R90). -/
def refusalStatus : Reason → Status
  | .range => .refusedRange
  | .readonly => .refusedReadonly
  | _ => .refusedNoload

/-! ### Outputs -/

/-- READY is low exactly while the slot holds a cycle (R173); `true` is released. -/
def State.ready (s : State) : Bool := s.lbi.slot.isNone

/-- The notice term of the interrupt condition (R167). -/
def State.noticeTerm (s : State) : Bool :=
  s.ctl.noticeIe && (!s.notices.records.isEmpty || s.notices.overflow)

/-- The completion term of the interrupt condition (R167). -/
def State.completionTerm (s : State) : Bool :=
  s.ctl.completionIe && !s.cmd.completions.isEmpty

/-- IRQ_N, low while a condition of R167 holds; `true` is high. -/
def State.irqN (s : State) : Bool := !(s.noticeTerm || s.completionTerm)

/-- Carrier on DN while CHAIN_PWR_EN is asserted (R3). -/
def State.dnCarrier (s : State) : Bool := s.chain.pwrEn

/-- The words going out on DN, the frame the transmitter is SENDING (R9). -/
def State.dnWords (s : State) : Option (List Word) := s.port.tx.map DownFrame.wire

/-! ### Conditions -/

/-- Frames can go out and come in: CHAIN_PWR_EN is asserted and CLK_IN runs (R10, R78, R181). -/
def State.linkUp (s : State) : Bool := s.chain.pwrEn && s.pins.clkIn

/-- A host cycle is recognised: supply and power-on hold over, RESET_N high, and no cycle held (R170,
R175; log 7). -/
def State.hostReady (s : State) : Bool :=
  s.pins.supplyValid && !s.pins.powerOnHold && s.pins.resetN && s.lbi.slot.isNone

/-- The part runs: supplied, out of the power-on hold, and not held by a bus reset (R174, R175). -/
def State.running (s : State) : Bool :=
  s.pins.supplyValid && !s.pins.powerOnHold && (s.pins.resetN || !s.pins.keepN)

/-- The record of address `k` (R24). -/
def State.node (s : State) (k : Addr) : NodeRecord := s.nodes[k.val]

/-- A tag's record (R75). -/
def State.tag (s : State) (t : TagId) : Tag := s.disp.tags[t.val]

/-- A window record (R111). -/
def State.window (s : State) (i : WinIx) : Window := s.windows[i.val]

/-- ONLINE or SUSPECT: register requests are accepted (section 2.2, R30, R119, R147). -/
def NodeRecord.serves (r : NodeRecord) : Bool := r.state == .online || r.state == .suspect

/-- The states in which an op is admitted for dispatch (R30). -/
def NodeRecord.admits (r : NodeRecord) : Op → Bool
  | .rd => r.state == .online
  | .wr => r.state == .online
  | .nreset => r.state == .online
  | .assign => r.state == .vacant
  | .ping => r.state != .vacant
  | .openGate => r.state != .vacant
  | .closeGate => r.state != .vacant
  | .loadOn => r.state == .powering
  | .loadOff => r.state == .fenced

/-- The states that admit ATTN_ACK, and in which an ATTN is taken: every state except VACANT, SENSED
and DENIED (R30, R40). -/
def NodeRecord.takesAttn (r : NodeRecord) : Bool :=
  r.state == .powering || r.state == .online || r.state == .suspect || r.state == .fenced

/-- Host-class: origin APERTURE, COMMAND or REFRESH (R72). -/
def Entry.isHost (e : Entry) : Bool := e.origin != .management

/-- The number of host-class entries (R72, R95). -/
def State.hostCount (s : State) : Nat := s.queue.countP Entry.isHost

/-- A MANAGEMENT entry can be queued (R72). -/
def State.mgmtSlotFree (s : State) : Bool := decide (s.queue.length < Config.queueSize)

/-- A host-class entry can be queued (R72). -/
def State.hostSlotFree (s : State) : Bool :=
  decide (s.queue.length < Config.queueSize) && decide (s.hostCount < Config.hostClassSize)

/-- The entry whose request holds a tag (R75). -/
def State.entryOf (s : State) (t : TagId) : Option Entry := s.queue.find? fun e => e.tag == some t

/-- The transmissions so far of the request that holds a tag (R75, R84). -/
def State.attemptsOf (s : State) (t : TagId) (f : Flight) : Nat :=
  match f.holder with
  | .ping _ => f.synthAttempts
  | .entry => ((s.entryOf t).map (·.attempts)).getD 0

/-- The lowest-numbered FREE tag (R75). -/
def State.freeTag (s : State) : Option TagId := allTags.find? fun t => s.tag t == .free

/-- The way to position tail + 1 is open (R59). -/
def State.wayOpen (s : State) : Bool :=
  (s.chain.tail == 0 && s.chain.pwrEn) || s.chain.tailGateOpen

/-- A window's kind names MIRROR (12.5). -/
def Window.isMirror (w : Window) : Bool := w.kind == 2#2

/-- A window's kind names POSTED (12.5). -/
def Window.isPosted (w : Window) : Bool := w.kind == 1#2

/-- A window's node field names the address `k`. -/
def Window.names (w : Window) (k : Addr) : Bool := w.node.toNat == addrNum k

/-- The aperture word `o` lies in the window's range (R118). -/
def Window.contains (w : Window) (o : Nat) : Bool :=
  w.enabled && decide (w.base.toNat ≤ o) && decide (o < w.base.toNat + w.length.toNat)

/-- Two windows' aperture ranges share a word (R113, check 3). -/
def Window.overlaps (w v : Window) : Bool :=
  decide (w.base.toNat < v.base.toNat + v.length.toNat) &&
    decide (v.base.toNat < w.base.toNat + w.length.toNat)

/-- The enabled window that contains an aperture word (R118). -/
def State.windowAt (s : State) (o : Nat) : Option WinIx :=
  allWindows.find? fun i => (s.window i).contains o

/-- An allocated segment: the window it serves, its base and length (R129). -/
structure Segment where
  window : WinIx
  base : Nat
  length : Nat
  deriving DecidableEq, Repr

/-- The segment list: one segment for each enabled MIRROR window (R129; log 28). -/
def State.segments (s : State) : List Segment :=
  allWindows.filterMap fun i =>
    let w := s.window i
    if w.enabled && w.isMirror then some ⟨i, w.mirrorSegment, w.length.toNat⟩ else none

/-- A run of pool words meets a segment. -/
def Segment.meets (g : Segment) (base length : Nat) : Bool :=
  decide (base < g.base + g.length) && decide (g.base < base + length)

/-- The lowest base b with b + length within the pool and no word of the run allocated (R129). -/
def lowestBase (gs : List Segment) (length : Nat) : Option Nat :=
  (List.range (Config.poolSize + 1)).find? fun b =>
    decide (b + length ≤ Config.poolSize) && gs.all fun g => !g.meets b length

/-- A refresh job of window `i` (R133, R136). -/
def Entry.isJobOf (e : Entry) (i : WinIx) : Bool :=
  match e.origin with
  | .refresh r => r.window == i
  | _ => false

/-- The node's place on the Admission List counted from the head, 0 when it is not on it (R44). -/
def State.admissionPosition (s : State) (k : Addr) : Nat :=
  match s.chain.admission.idxOf? k with
  | some i => i + 1
  | none => 0

end Sys2Proof.Machine
end

