-- ==== Sys2Proof/Machine/Ops.lean ====
section
/-! DEFINITION. The shared operations over the blocks: notices, completions, node records, tags, queue
slots, the power account, the management backlog, the held cycle and the chain power. Every other
definition changes the state through these. -/

namespace Sys2Proof.Machine

/-! ### CLK_IN -/

/-- What happens only while CLK_IN runs: the expiry of a timer, the end of a frame on DN (R181; log 35). -/
def State.clocked (s : State) (f : State → State) : State := if s.pins.clkIn then f s else s

/-! ### Notice Queue -/

/-- The records with a posting gathered into the record of its key, if there is one (R161, first case). -/
def gatherNotice (n : Nat) (k : NoticeKind) (d : Word) : List Notice → Option (List Notice)
  | [] => none
  | r :: rs =>
    if r.node = n ∧ r.kind = k then some ({ r with detail := d, repeats := min 255 (r.repeats + 1) } :: rs)
    else (gatherNotice n k d rs).map (r :: ·)

/-- A posting with node n, kind k and detail d (R161). -/
def NoticeQueue.post (q : NoticeQueue) (n : Nat) (k : NoticeKind) (d : Word) : NoticeQueue :=
  match gatherNotice n k d q.records with
  | some rs => { q with records := rs }
  | none =>
    if q.records.length < Config.noticeSize then
      { q with records := q.records ++ [{ node := n, kind := k, detail := d, repeats := 1 }] }
    else { q with overflow := true }

/-- A posting into the Notice Queue (R161). -/
def State.post (s : State) (n : Nat) (k : NoticeKind) (d : Word) : State :=
  { s with notices := s.notices.post n k d }

/-! ### Completions -/

/-- A reservation is converted: the count falls by 1 and the record enters at the tail (R146, R156).
Without a reservation there is no accepted command to complete (R158; log 13). -/
def CommandPort.complete (p : CommandPort) (c : Completion) : CommandPort :=
  match p.reservations with
  | 0 => p
  | n + 1 => { p with reservations := n, completions := p.completions ++ [c] }

/-- A completion record enters the Completion Queue (R146). -/
def State.complete (s : State) (c : Completion) : State := { s with cmd := s.cmd.complete c }

/-- A completion with no count and no data (R155). -/
def plainCompletion (ticket : BitVec 8) (kind : CmdKind) (status : Status) (node : Nat) : Completion :=
  { ticket := ticket, kind := kind, status := status, node := node, count := 0, data := [] }

/-! ### Node records -/

/-- A node record put at its address. -/
def State.setNode (s : State) (k : Addr) (r : NodeRecord) : State :=
  { s with nodes := s.nodes.set k.val r }

/-- A node record changed in place. -/
def State.modNode (s : State) (k : Addr) (f : NodeRecord → NodeRecord) : State :=
  s.setNode k (f (s.node k))

/-- The VACANT record of an address: every field at its VACANT value, the incarnation kept (R24, R39). -/
def NodeRecord.vacate (r : NodeRecord) : NodeRecord :=
  { NodeRecord.reset with incarnation := r.incarnation }

/-- The step becomes absent if it is the given one. -/
def NodeRecord.dropStep (r : NodeRecord) (x : NodeStep) : NodeRecord :=
  if r.step = some x then { r with step := none } else r

/-- next_seq after a DATA or DONE to a request of this kind, sent with this bit (R26). -/
def nextSeqAfter (op : Op) (sent old : Bool) : Bool :=
  match op with
  | .ping => sent
  | .nreset => false
  | .assign => false
  | _ => !old

/-- The record after a DATA or DONE taken for a request of this kind (R26, R27, R89): in_flight_tag
absent, fail_count 0, next_seq as R26 gives, and resync cleared by any PING. R53 says that management entries do not
change fail_count: the model reads it of their failures, and a management entry's DONE sets 0 too (log 39). -/
def NodeRecord.answered (r : NodeRecord) (op : Op) (sent : Bool) : NodeRecord :=
  { r with
    inFlightTag := none
    failCount := 0
    nextSeq := nextSeqAfter op sent r.nextSeq
    resync := if op = .ping then false else r.resync }

/-- The record after a REFUSE other than BUSY (R90): next_seq inverted, fail_count as it was. -/
def NodeRecord.refused (r : NodeRecord) : NodeRecord :=
  { r with inFlightTag := none, nextSeq := !r.nextSeq }

/-- The record after a request in doubt (R96, R100): in_flight_tag absent, and resync set if the
record is not VACANT. -/
def NodeRecord.doubted (r : NodeRecord) : NodeRecord :=
  { r with inFlightTag := none, resync := if r.state = .vacant then r.resync else true }

/-- The record after an accepted SENSE to ASSIGN(k) with the record VACANT (R25, R31). -/
def NodeRecord.sense (r : NodeRecord) (i : Identity) : NodeRecord :=
  { r with
    state := .sensed
    incarnation := r.incarnation + 1#16
    cls := i.cls
    revision := i.revision
    span := some i.spanWords
    demand := i.demand
    attnCapable := i.attnCapable
    nextSeq := false
    failCount := 0
    resync := false
    attnToggle := none
    ackOwed := false
    powered := false
    loadFault := false }

/-! ### Tags -/

/-- A tag's record put in its place. -/
def State.setTag (s : State) (t : TagId) (x : Tag) : State :=
  { s with disp := { s.disp with tags := s.disp.tags.set t.val x } }

/-- A request leaves the resend list. -/
def State.leaveResend (s : State) (t : TagId) : State :=
  { s with disp := { s.disp with resend := s.disp.resend.filter (· != t) } }

/-- A tag goes to HOLD for twice the current TIMEOUT, its request off the resend list (R76, R77, R100). -/
def State.holdTag (s : State) (t : TagId) : State :=
  (s.setTag t (.hold (2 * s.ctl.timeout))).leaveResend t

/-- A tag leaves BUSY at an answer: FREE after one transmission, HOLD after more than one (R77). -/
def State.releaseTag (s : State) (t : TagId) (attempts : Nat) : State :=
  if attempts ≤ 1 then (s.setTag t .free).leaveResend t else s.holdTag t

/-! ### Outbound Queue -/

/-- An entry as it enters the queue: WAITING, attempts used 0, sent bit and tag absent (R71). -/
def freshEntry (origin : Origin) (op : Op) (node : Addr) (remote : Word) (count : Nat)
    (data : List Word) : Entry :=
  { origin := origin, op := op, node := node, remote := remote, count := count, data := data,
    attempts := 0, sentBit := none, state := .waiting, tag := none }

/-- A MANAGEMENT entry (R52, R71). -/
def mgmtEntry (op : Op) (k : Addr) : Entry := freshEntry .management op k 0#16 0 []

/-- A host-class entry is appended at the tail if a host-class slot is free (R72). -/
def State.enqueueHost (s : State) (e : Entry) : State :=
  if s.hostSlotFree then { s with queue := s.queue ++ [e] } else s

/-- A MANAGEMENT entry is appended at the tail if a slot is free (R72). -/
def State.enqueueMgmt (s : State) (op : Op) (k : Addr) : State :=
  if s.mgmtSlotFree then { s with queue := s.queue ++ [mgmtEntry op k] } else s

/-- The entry that holds a tag, changed in its place (R71). -/
def State.modEntryOf (s : State) (t : TagId) (f : Entry → Entry) : State :=
  { s with queue := s.queue.map fun e => if e.tag = some t then f e else e }

/-- The entry that holds a tag leaves the queue (R91). -/
def State.removeEntryOf (s : State) (t : TagId) : State :=
  { s with queue := s.queue.filter fun e => e.tag != some t }

/-- An entry returned to WAITING for its next request (R89): no tag, no sent bit, attempts used 0. -/
def Entry.rewait (e : Entry) : Entry :=
  { e with state := .waiting, tag := none, sentBit := none, attempts := 0 }

/-! ### Management backlog (R52) -/

/-- A management step becomes due: it joins the tail of the backlog, which holds no two equal steps
(R52). The end of the event takes it if it can (`State.serveBacklog`; log 8). -/
def State.makeDue (s : State) (st : MgmtStep) : State :=
  if st ∈ s.chain.backlog then s
  else { s with chain := { s.chain with backlog := s.chain.backlog ++ [st] } }

/-- Admission service is requested; a request merges into a step already there (R52, R66). -/
def State.requestService (s : State) : State := s.makeDue .service

/-- A list with CLOSE(k) ahead of its service step, or at its tail if it has none (R105; log 24). -/
def insertClose (k : Addr) : List MgmtStep → List MgmtStep
  | [] => [.closeGate k]
  | .service :: rest => .closeGate k :: .service :: rest
  | st :: rest => st :: insertClose k rest

/-- CLOSE(k) becomes due, ahead of the admission service (R105). -/
def State.makeCloseDue (s : State) (k : Addr) : State :=
  if .closeGate k ∈ s.chain.backlog then s
  else { s with chain := { s.chain with backlog := insertClose k s.chain.backlog } }

/-- The address a management step concerns, if any (R52). -/
def MgmtStep.addr? : MgmtStep → Option Addr
  | .assign k => some k
  | .openGate k => some k
  | .closeGate k => some k
  | .decision k _ => some k
  | .service => none
  | .confirm k => some k

/-- A decision or confirm step of node `k`, removed when it becomes FENCED (R52). -/
def MgmtStep.awaits (k : Addr) : MgmtStep → Bool
  | .decision j _ => j == k
  | .confirm j => j == k
  | _ => false

/-- The backlog less the steps of a kind. -/
def State.dropSteps (s : State) (p : MgmtStep → Bool) : State :=
  { s with chain := { s.chain with backlog := s.chain.backlog.filter fun st => !p st } }

/-! ### Power account and Admission List -/

/-- A node's demand in power units (R24). -/
def State.demandOf (s : State) (k : Addr) : Nat := (s.node k).demand.toNat

/-- A powered node's demand is released: powered no, COMMITTED lower, and admission service requested
for a demand above 0 (R63, R66). -/
def State.release (s : State) (k : Addr) : State :=
  if (s.node k).powered then
    let d := s.demandOf k
    let s1 := s.modNode k fun r => { r with powered := false }
    let s2 := { s1 with chain := { s1.chain with committed := s1.chain.committed - d } }
    if 0 < d then s2.requestService else s2
  else s

/-- Nodes leave the Admission List; when the head is among them and others remain, admission service
is requested (R65, R66). -/
def State.leaveAdmission (s : State) (p : Addr → Bool) : State :=
  let rest := s.chain.admission.filter fun k => !p k
  let s1 := { s with chain := { s.chain with admission := rest } }
  if (s.chain.admission.head?.map p).getD false && !rest.isEmpty then s1.requestService else s1

/-- A node's settle timer stops (R68). -/
def State.stopNodeTimer (s : State) (k : Addr) : State :=
  { s with chain := { s.chain with nodeTimers := s.chain.nodeTimers.set k.val none } }

/-- A node's settle timer starts with the current SETTLE (R33, R68). -/
def State.startNodeTimer (s : State) (k : Addr) : State :=
  { s with chain := { s.chain with nodeTimers := s.chain.nodeTimers.set k.val (some s.ctl.settle) } }

/-- A node is admitted (R32, R64, R66): powered yes, its demand counted, POWERING with step LOAD_WAIT,
and LOAD_ON queued, provided it fits and a slot is free. -/
def State.admitted (s : State) (k : Addr) : State :=
  if s.chain.committed + s.demandOf k ≤ s.chain.budget then
    let s1 := { s with chain := { s.chain with committed := s.chain.committed + s.demandOf k } }
    (s1.modNode k fun r => { r with powered := true, state := .powering, step := some .loadWait }).enqueueMgmt
      .loadOn k
  else s

/-- A node is denied (R32): it joins the Admission List's tail and NODE_DENIED is posted. -/
def State.deny (s : State) (k : Addr) : State :=
  let s1 := s.modNode k fun r => { r with state := .denied }
  { s1 with chain := { s1.chain with admission := s1.chain.admission ++ [k] } }.post (addrNum k)
    .nodeDenied (BitVec.ofNat 16 (s.demandOf k))

/-- An UNFENCE joins those that wait for a decision, in the order of acceptance (R50, R150). -/
def insertWait (u : UnfenceWait) : List UnfenceWait → List UnfenceWait
  | [] => [u]
  | v :: vs => if u.order < v.order then u :: v :: vs else v :: insertWait u vs

/-- The UNFENCEs that wait for a decision about some nodes complete, in the order of acceptance
(R64, R104, R150). -/
def State.completeWaits (s : State) (p : Addr → Bool) (st : Status) : State :=
  let s1 :=
    { s with chain := { s.chain with unfenceWaits := s.chain.unfenceWaits.filter fun u => !p u.node } }
  (s.chain.unfenceWaits.filter fun u => p u.node).foldl
    (fun s u => s.complete (plainCompletion u.ticket .unfence st (addrNum u.node))) s1

/-- Every attached RESCAN completes, in the order of acceptance (R60, R152). -/
def State.completeRescans (s : State) (st : Status) (count : Nat) : State :=
  s.chain.rescans.foldl
    (fun s t =>
      s.complete { ticket := t, kind := .rescan, status := st, node := 0, count := count, data := [] })
    { s with chain := { s.chain with rescans := [] } }

/-! ### Held cycle -/

/-- The word a read is given; a write is given none (R172, R173). -/
def Access.answer : Access → Word → Option Word
  | .read, w => some w
  | .write _, _ => none

/-- A cycle that ends in the event of its access: APERTURE_RESULT and the word on D[15:0] (R118, R119, R172). -/
def State.endAtOnce (s : State) (a : Access) (result : Status) (w : Word) : State :=
  { s with lbi := { s.lbi with result := result }, pins := { s.pins with busData := Access.answer a w } }

/-- The held cycle ends (R121): READY released, its word presented, APERTURE_RESULT set, slot EMPTY. -/
def State.endHeld (s : State) (result : Status) (w : Word) : State :=
  match s.lbi.slot with
  | none => s
  | some c =>
    { s with
      lbi := { s.lbi with slot := none, result := result }
      pins := { s.pins with busData := Access.answer c.access w } }

/-- A SLOT_WAIT cycle ends without an entry (R122): the fill word, the status, and for a POSTED write
POSTED_WRITE_LOST. -/
def State.endSlotWait (s : State) (st : Status) : State :=
  match s.lbi.slot with
  | none => s
  | some c =>
    if c.phase = .slotWait then
      let s1 := s.endHeld st Config.fillWord
      if c.posted then s1.post (addrNum c.node) .postedWriteLost st.word else s1
    else s

/-- A SLOT_WAIT cycle whose node is among those an event empties or fences ends with the status that
event gives a WAITING entry (R122). -/
def State.endSlotWaitOf (s : State) (p : Addr → Bool) (st : Status) : State :=
  match s.lbi.slot with
  | none => s
  | some c => if p c.node then s.endSlotWait st else s

/-! ### Chain power -/

/-- CHAIN_PWR_EN is deasserted: the port carrier seen flag clears, and the frame being sent is cut (R4, R9). -/
def State.powerOff (s : State) : State :=
  { s with
    chain := { s.chain with pwrEn := false }
    port := { tx := none, carrierSeen := false } }

/-- CHAIN_PWR_EN is asserted, with the port carrier seen flag clear (R4, R47). The caller looks at
CHAIN_FAULT_N (R49). -/
def State.powerOn (s : State) : State :=
  { s with
    chain := { s.chain with pwrEn := true }
    port := { s.port with carrierSeen := false } }

/-- The chain settle timer starts with the current SETTLE (R68). -/
def State.startChainTimer (s : State) : State :=
  { s with chain := { s.chain with settleTimer := some s.ctl.settle } }

/-! ### Windows -/

/-- A window record put in its place. -/
def State.setWindow (s : State) (i : WinIx) (w : Window) : State :=
  { s with windows := s.windows.set i.val w }

/-- A window detached if it is enabled and its node field names one of some addresses (R115). -/
def Window.detachOf (w : Window) (p : Addr → Bool) : Window :=
  if w.enabled && ((addrOf? w.node.toNat).map p).getD false then { w with attached := false } else w

/-- Windows bound to some addresses become DETACHED (R115). -/
def State.detach (s : State) (p : Addr → Bool) : State :=
  { s with windows := Vector.ofFn fun i => (s.window i).detachOf p }

/-- The refresh timer of a window, stopped or started (R132). -/
def State.setRefreshTimer (s : State) (i : WinIx) (x : Option Nat) : State :=
  { s with mirror := { s.mirror with timers := s.mirror.timers.set i.val x } }

end Sys2Proof.Machine
end

