-- ==== Sys2Proof/Machine/Retire.lean ====
section
/-! DEFINITION. Retirement (R91) of a host-class entry or of a set of entries, with the delivery of each
result to the block that queued the entry (R92, R93, R37, R38, R139, R140). -/

namespace Sys2Proof.Machine

/-- A refresh job is current: its window is enabled, MIRROR, and has the recorded segment and generation
(R138). -/
def State.jobCurrent (s : State) (r : RefreshRef) : Bool :=
  let w := s.window r.window
  w.enabled && w.isMirror && w.mirrorSegment == r.segment && w.generation == r.generation

/-- The node a REFRESH completion carries: the window's node field, 0 outside 1..24 (R151). -/
def Window.completionNode (w : Window) : Nat :=
  if (addrOf? w.node.toNat).isSome then w.node.toNat else 0

/-- An APERTURE entry's result reaches the held cycle of its handle, or is dropped; a POSTED write that
is not OK posts POSTED_WRITE_LOST (R92, R123, R125). -/
def State.deliverAperture (s : State) (e : Entry) (r : ApertureRef) (st : Status) (ws : List Word) :
    State :=
  if r.held then
    match s.lbi.slot with
    | none => s
    | some c =>
      if c.phase = .resultWait ∧ c.handle = r.handle then
        s.endHeld st (if st = .ok then ws.headD Config.fillWord else Config.fillWord)
      else s
  else if r.posted ∧ st ≠ .ok then s.post (addrNum e.node) .postedWriteLost st.word
  else s

/-- The count a command's completion record carries (R155). -/
def Entry.completionCount (e : Entry) (kind : CmdKind) : Nat :=
  match kind with
  | .read => e.count
  | .write => e.count
  | _ => 0

/-- The completion record of a COMMAND entry (R155): data for a READ that ends OK. -/
def Entry.completion (e : Entry) (r : CommandRef) (st : Status) (ws : List Word) : Completion :=
  { ticket := r.ticket
    kind := r.kind
    status := st
    node := addrNum e.node
    count := e.completionCount r.kind
    data := if r.kind = .read ∧ st = .ok then ws else [] }

/-- The outcome of a power-off FENCE's LOAD_OFF on the node record (R38, R149). -/
def State.loadOffEnded (s : State) (k : Addr) (st : Status) : State :=
  let s1 := s.modNode k fun r => r.dropStep .poweringOff
  if st = .ok then s1.release k else s1

/-- The DONE of an UNFENCE's PING taken for a FENCED node in step UNFENCING: with powered yes the node
is ONLINE and the command completes, with powered no it is SENSED and the command waits for the
decision (R37, R150). load_fault is left as it is: a trip during the UNFENCE keeps it yes through SENSED and the new
admission, although R36 ends with load_fault yes only with powered no (the model's choice, log 38). -/
def State.unfenceAnswered (s : State) (k : Addr) (e : Entry) (r : CommandRef) : State :=
  let rec0 := s.node k
  if rec0.state = .fenced ∧ rec0.step = some .unfencing then
    if rec0.powered then
      ((s.modNode k fun x => { x with state := .online, step := none }).post (addrNum k) .nodeOnline
        rec0.incarnation).complete (e.completion r .ok [])
    else
      let s1 := (s.modNode k fun x => { x with state := .sensed, step := none }).makeDue (.decision k false)
      { s1 with
        chain :=
          { s1.chain with
            unfenceWaits :=
              insertWait { ticket := r.ticket, node := k, order := r.order } s1.chain.unfenceWaits } }
  else s.complete (e.completion r .ok [])

/-- A COMMAND entry's result: the record changes its end brings, then the completion (R93). -/
def State.deliverCommand (s : State) (e : Entry) (r : CommandRef) (st : Status) (ws : List Word) :
    State :=
  match e.op with
  | .loadOff => (s.loadOffEnded e.node st).complete (e.completion r st ws)
  | .ping =>
    if st = .ok then s.unfenceAnswered e.node e r
    else (s.modNode e.node fun x => x.dropStep .unfencing).complete (e.completion r st ws)
  | _ => s.complete (e.completion r st ws)

/-- The attached commands of a refresh job complete in the order of its list (R135). -/
def State.completeAttached (s : State) (node : Nat) (st : Status) (tickets : List (BitVec 8)) : State :=
  tickets.foldl (fun s t => s.complete (plainCompletion t .refresh st node)) s

/-- A refresh job's end: generation and stale of a current window, MIRROR_STALE for an end that is not
OK, then the attached commands (R139, R140, R142). -/
def State.deliverRefresh (s : State) (r : RefreshRef) (st : Status) : State :=
  let w := s.window r.window
  let s1 :=
    if s.jobCurrent r then
      if st = .ok then s.setWindow r.window { w with generation := w.generation + 1#16, stale := false }
      else
        (s.setWindow r.window { w with stale := true }).post w.node.toNat .mirrorStale
          (BitVec.ofNat 16 r.window.val)
    else s
  s1.completeAttached w.completionNode st r.attached

/-- The result of a retired host-class entry goes to its origin (R92, R93). A MANAGEMENT entry retired
NODE_LOST or ABORTED has no effect (R53); its other outcomes are `State.mgmtDone`, `State.mgmtRefused`
and `State.mgmtFailed`. -/
def State.deliver (s : State) (e : Entry) (st : Status) (ws : List Word) : State :=
  match e.origin with
  | .aperture r => s.deliverAperture e r st ws
  | .command r => s.deliverCommand e r st ws
  | .refresh r => s.deliverRefresh r st
  | .management => s

/-- The request of an entry ends without a taken answer: its tag goes to HOLD, it leaves the resend
list, and its node is in doubt (R91, R96, R100). An ASSIGN set no in_flight_tag. -/
def State.dropFlight (s : State) (e : Entry) : State :=
  match e.tag with
  | none => s
  | some t =>
    if e.op = .assign then s.holdTag t else (s.holdTag t).modNode e.node NodeRecord.doubted

/-- The entries of a kind are retired with a status, oldest first (R91, R104). -/
def State.retireAll (s : State) (p : Entry → Bool) (st : Status) : State :=
  (s.queue.filter p).foldl (fun s e => (s.dropFlight e).deliver e st [])
    { s with queue := s.queue.filter fun e => !p e }

/-- A WAITING entry of a host-class origin for a node (R37). -/
def Entry.waitsAt (e : Entry) (k : Addr) : Bool :=
  e.state == .waiting && e.isHost && e.node == k

/-- A WAITING MANAGEMENT entry of an op for a node (R37). -/
def Entry.mgmtWaitsAt (e : Entry) (op : Op) (k : Addr) : Bool :=
  e.state == .waiting && !e.isHost && e.op == op && e.node == k

/-- A POWERING node leaves for FENCED: its settle timer stops; a LOAD_ON that is still WAITING is
retired ABORTED and the demand released, a confirming PING that is still WAITING is retired ABORTED,
and entries in flight run to their end (R34, R36, R37). -/
def State.fencePowering (s : State) (k : Addr) : State :=
  let s1 := s.stopNodeTimer k
  let s2 := if s1.queue.any (·.mgmtWaitsAt .loadOn k) then s1.release k else s1
  s2.retireAll (fun e => e.mgmtWaitsAt .loadOn k || e.mgmtWaitsAt .ping k) .aborted

/-- Node `k` becomes FENCED, as R37 gives by its state, and its WAITING host-class entries are retired
NODE_NOT_READY. A DENIED node leaves the Admission List; a node FENCED already keeps its step; a VACANT
record is left as it is. -/
def State.fenceNode (s : State) (k : Addr) : State :=
  match (s.node k).state with
  | .vacant => s
  | .fenced => s.retireAll (·.waitsAt k) .nodeNotReady
  | old =>
    let s1 := s.leaveAdmission (· == k)
    let s2 := (s1.modNode k fun r => { r with state := .fenced, step := none }).dropSteps (MgmtStep.awaits k)
    let s3 := if old = .powering then s2.fencePowering k else s2
    s3.retireAll (·.waitsAt k) .nodeNotReady

/-- The load-fault path (R36): NODE_LOAD_FAULT first, load_fault, the demand released, and a node in
POWERING, ONLINE or SUSPECT becomes FENCED with its WAITING entries retired and a cycle of it in
SLOT_WAIT ended (R122). The spec gives that cycle's end, and its POSTED_WRITE_LOST (R162), no place among the
retirements: the model puts it after them (the model's choice, log 14). `cause` is 1 for LOAD_TRIP and 2 for
LOAD_ON_REFUSED. -/
def State.loadFault (s : State) (k : Addr) (cause : Nat) : State :=
  match (s.node k).state with
  | .vacant => s
  | .sensed => s
  | .denied => s
  | st =>
    let s1 := s.post (addrNum k) .nodeLoadFault (BitVec.ofNat 16 cause)
    let s2 := (s1.modNode k fun r => { r with loadFault := true }).release k
    if st = .fenced then s2 else (s2.fenceNode k).endSlotWaitOf (· == k) .nodeNotReady

end Sys2Proof.Machine
end

