-- ==== Sys2Proof/Machine/Chain.lean ====
section
/-! DEFINITION. The Chain Manager's own work: the management backlog, the admission decision and
service, the start and end of a walk, the teardown, and the chain fault (R49 to R52, R54 to R66, R73). -/

namespace Sys2Proof.Machine

/-! ### Backlog and slots -/

/-- The admission decision for node `k` (R64). A decision that a keep reset put back does not wait behind
the Admission List. UNFENCEs that wait on it complete OK. -/
def State.decideAdmission (s : State) (k : Addr) (putBack : Bool) : State :=
  if (s.node k).state = .sensed then
    let fits := decide (s.chain.committed + s.demandOf k ≤ s.chain.budget)
    let s1 := if fits && (s.chain.admission.isEmpty || putBack) then s.admitted k else s.deny k
    s1.completeWaits (· == k) .ok
  else s

/-- Admission service over the list from its head, and whether it ended: it stops at the first head that
does not fit, and is left unfinished at a head that fits when no slot is free (R66). -/
def State.serveAdmission : List Addr → State → State × Bool
  | [], s => (s, true)
  | k :: ks, s =>
    if s.chain.committed + s.demandOf k ≤ s.chain.budget then
      if s.mgmtSlotFree then
        State.serveAdmission ks (({ s with chain := { s.chain with admission := ks } }).admitted k)
      else (s, false)
    else (s, true)

/-- A management step other than the service, taken into the queue or decided (R52). -/
def State.takeStep (s : State) : MgmtStep → State
  | .assign k => s.enqueueMgmt .assign k
  | .openGate k => s.enqueueMgmt .openGate k
  | .closeGate k => s.enqueueMgmt .closeGate k
  | .decision k putBack => s.decideAdmission k putBack
  | .confirm k => s.enqueueMgmt .ping k
  | .service => s

/-- The backlog is served from its head for as long as the queue accepts a MANAGEMENT entry; an
unfinished service stays at the head (R52). -/
def State.serveSteps : List MgmtStep → State → State
  | [], s => s
  | st :: rest, s =>
    if s.mgmtSlotFree then
      let s1 := { s with chain := { s.chain with backlog := rest } }
      match st with
      | .service =>
        let r := State.serveAdmission s1.chain.admission s1
        if r.2 then State.serveSteps rest r.1
        else { r.1 with chain := { r.1.chain with backlog := .service :: rest } }
      | other => State.serveSteps rest (s1.takeStep other)
    else s

/-- The management backlog is served (R52, R73). -/
def State.serveBacklog (s : State) : State := State.serveSteps s.chain.backlog s

/-- The entry of an aperture cycle (R120): held, unless it is a POSTED write. -/
def HeldCycle.entry (c : HeldCycle) : Entry :=
  let origin :=
    Origin.aperture { handle := c.handle, offset := c.offset, held := !c.posted, posted := c.posted }
  match c.access with
  | .read => freshEntry origin .rd c.node c.remote 1 []
  | .write w => freshEntry origin .wr c.node c.remote 1 [w]

/-- The entry of the cycle in the slot is queued: a POSTED write ends with OK, any other access waits
for its result (R120, R122, R125). -/
def State.queueCycle (s : State) (c : HeldCycle) : State :=
  let s1 := s.enqueueHost c.entry
  if c.posted then s1.endHeld .ok Config.fillWord
  else { s1 with lbi := { s1.lbi with slot := some { c with phase := .resultWait } } }

/-- A cycle in SLOT_WAIT is given a host-class slot that is free (R73, R122). -/
def State.serveCycle (s : State) : State :=
  match s.lbi.slot with
  | none => s
  | some c => if c.phase = .slotWait ∧ s.hostSlotFree then s.queueCycle c else s

/-- Free slots are served: the management backlog, then the waiting aperture cycle (R73). -/
def State.serveSlots (s : State) : State := s.serveBacklog.serveCycle

/-! ### Walk -/

/-- A walk starts, or goes on, at step ASSIGNING of pointer `k`, and ASSIGN(k) becomes due (R54). -/
def State.walkAssign (s : State) (k : Addr) : State :=
  ({ s with
    chain := { s.chain with state := .walking, pointer := some k, walkStep := some .assigning } }).makeDue
    (.assign k)

/-- A walk ends: RUNNING, CHAIN_END with the number of non-VACANT records, and every attached RESCAN
completes OK with that count (R55, R57, R60). -/
def State.endWalk (s : State) : State :=
  let n := s.chain.tail
  (({ s with
      chain := { s.chain with state := .running, pointer := none, walkStep := none } }).post 0 .chainEnd
    (BitVec.ofNat 16 n)).completeRescans .ok n

/-- CLOSE(k) stands in the backlog or in the queue (R60). -/
def State.closePending (s : State) (k : Addr) : Bool :=
  s.chain.backlog.any (· == .closeGate k) || s.queue.any fun e => e.op == .closeGate && e.node == k

/-- A RESCAN is attached to the walk under way or about to start (R60). -/
def State.attachRescan (s : State) (ticket : BitVec 8) : State :=
  { s with chain := { s.chain with rescans := s.chain.rescans ++ [ticket] } }

/-- A walk that reopens the closed gate of the tail (R60): it waits for a CLOSE still pending, and the
dark settle after it, before its OPEN. -/
def State.reopenTail (s : State) (k : Addr) : State :=
  let s1 :=
    { s with
      chain := { s.chain with state := .walking, pointer := some k, walkStep := some .opening } }
  if s.closePending k then { s1 with chain := { s1.chain with darkWait := some .closing } }
  else s1.makeDue (.openGate k)

/-! ### Teardown and chain fault -/

/-- Every non-VACANT record becomes VACANT, the Admission List is emptied, the node timers stop and
COMMITTED becomes 0 (R39, R50). -/
def State.vacateAll (s : State) : State :=
  { s with
    nodes := Vector.ofFn fun k => (s.node k).vacate
    chain :=
      { s.chain with
        admission := []
        committed := 0
        nodeTimers := Vector.replicate 24 none } }

/-- A BUSY tag in HOLD for a duration; any other tag as it was (R77). -/
def Tag.toHold (x : Tag) (duration : Nat) : Tag :=
  match x with
  | .busy _ => .hold duration
  | .free => .free
  | .hold d => .hold d

/-- Every BUSY tag goes to HOLD, and the resend list is emptied (R50, R94). -/
def State.holdBusyTags (s : State) : State :=
  { s with
    disp := { tags := Vector.ofFn fun t => (s.tag t).toHold (2 * s.ctl.timeout), resend := [] } }

/-- The Chain Manager's items that a teardown returns to rest (R50). -/
def ChainManager.rest (c : ChainManager) : ChainManager :=
  { c with
    rampPhase := none
    tail := 0
    tailGateOpen := false
    pointer := none
    walkStep := none
    darkWait := none
    rewalk := false
    settleTimer := none
    backlog := [] }

/-- The teardown with a status (R50): the windows, the records, the queue, a cycle in SLOT_WAIT, the
tags, the Chain Manager's items, then the commands that waited on it and the attached RESCANs. -/
def State.teardown (s : State) (st : Status) : State :=
  let s1 := (s.detach fun _ => true).vacateAll.retireAll (fun _ => true) st
  let s2 := (s1.endSlotWait st).holdBusyTags
  let s3 := { s2 with chain := s2.chain.rest }
  (s3.completeWaits (fun _ => true) st).completeRescans st 0

/-- A chain fault (R49): CHAIN_FAULT with the tail just before, FAULTED, CHAIN_PWR_EN deasserted, and the
teardown with NODE_LOST. -/
def State.takeFault (s : State) : State :=
  let s1 := s.post 0 .chainFault (BitVec.ofNat 16 s.chain.tail)
  let s2 := { s1 with chain := { s1.chain with state := .faulted } }
  s2.powerOff.teardown .nodeLost

/-- CHAIN_FAULT_N low while CHAIN_PWR_EN is asserted is a chain fault (R49). -/
def State.lookAtFault (s : State) : State :=
  if s.chain.pwrEn && !s.pins.chainFaultN then s.takeFault else s

/-- Entry into RAMP phase RISING: CHAIN_PWR_EN asserted and the chain settle timer started (R47, R48). -/
def State.rampRising (s : State) : State :=
  ({ s with chain := { s.chain with state := .ramp, rampPhase := some .rising } }).powerOn.startChainTimer

/-- CHAIN_ENABLE goes from 0 to 1 (R47): in OFF the ramp starts, with a walk at its end. -/
def State.enableChain (s : State) : State :=
  if s.chain.state = .off then
    ({ s with chain := { s.chain with rewalk := true } }).rampRising.lookAtFault
  else s

/-- CHAIN_ENABLE goes from 1 to 0 (R51): the teardown with ABORTED unless FAULTED, and OFF. -/
def State.disableChain (s : State) : State :=
  let s1 := if s.chain.state = .faulted then s else s.powerOff.teardown .aborted
  { s1 with chain := { s1.chain with state := .off } }

end Sys2Proof.Machine
end

