-- ==== Sys2Proof/Machine/Recovery.lean ====
section
/-! DEFINITION. Loss reports and the loss cascade (R102 to R106), the outcomes of MANAGEMENT entries
(R53, R33, R34, R56, R57, R106), and final failure (R96 to R99). -/

namespace Sys2Proof.Machine

/-! ### Loss cascade -/

/-- A record becomes VACANT: its demand is released, its settle timer stops, and its fields take their
VACANT values (R39). -/
def State.vacateNode (s : State) (j : Addr) : State :=
  ((s.release j).stopNodeTimer j).modNode j NodeRecord.vacate

/-- The records of some addresses become VACANT, lowest first (R103). -/
def State.vacateThose (s : State) (p : Addr → Bool) : State :=
  (allAddrs.filter p).foldl State.vacateNode s

/-- The tag of a synthesized PING to one of some addresses (R104). -/
def Tag.isPingTo (p : Addr → Bool) : Tag → Bool
  | .busy f =>
    match f.holder with
    | .ping j => p j
    | .entry => false
  | _ => false

/-- The synthesized PINGs in flight to some addresses end, and their tags go to HOLD (R104). -/
def State.holdPings (s : State) (p : Addr → Bool) : State :=
  (allTags.filter fun t => (s.tag t).isPingTo p).foldl State.holdTag s

/-- The addresses from `k` up. -/
def fromAddr (k : Addr) : Addr → Bool := fun j => decide (k ≤ j)

/-- The tail after a cascade at `k`, and a walk under way abandoned (R58, R61, R105). -/
def State.cutTail (s : State) (k : Addr) : State :=
  { s with
    chain :=
      { s.chain with
        tail := k.val
        tailGateOpen := false
        pointer := none
        walkStep := none
        darkWait := none
        settleTimer := none } }

/-- After a cascade at address 1: RAMP in phase DARK, the port dark (R48, R105). -/
def State.rampDark (s : State) : State :=
  ({ s with
    chain :=
      { s.chain with
        state := .ramp
        rampPhase := some .dark
        rewalk := s.ctl.autoRewalk } }).powerOff.startChainTimer

/-- After a cascade at k above 1, `j` being k − 1: a re-walk, or RUNNING with every attached RESCAN
completed; CLOSE(j) becomes due either way (R105). -/
def State.closeBehind (s : State) (j : Addr) : State :=
  let s1 :=
    if s.ctl.autoRewalk then
      { s with
        chain :=
          { s.chain with
            state := .walking
            pointer := some j
            walkStep := some .opening
            darkWait := some .closing } }
    else
      ({ s with chain := { s.chain with state := .running } }).completeRescans .ok s.chain.tail
  s1.makeCloseDue j

/-- A step of the backlog concerns one of some addresses. -/
def MgmtStep.at (p : Addr → Bool) (st : MgmtStep) : Bool := (st.addr?.map p).getD false

/-- What a cascade at `k` empties: NODE_LOST, the backlog steps, window bindings, records, entries,
synthesized PINGs, held cycle and waiting commands of the addresses from `k` up (R103, R104; log 14). -/
def State.loseFrom (s : State) (k : Addr) : State :=
  let p := fromAddr k
  let s1 := (s.post (addrNum k) .nodeLost (BitVec.ofNat 16 (s.chain.tail - k.val))).detach p
  let s2 := ((s1.dropSteps (MgmtStep.at p)).leaveAdmission p).vacateThose p
  let s3 := (s2.retireAll (fun e => p e.node) .nodeLost).holdPings p
  (s3.endSlotWaitOf p .nodeLost).completeWaits p .nodeLost

/-- The loss cascade at `k` (R102 to R105). A report for a VACANT record has no effect. -/
def State.cascade (s : State) (k : Addr) : State :=
  if (s.node k).state = .vacant then s
  else
    let s1 := (s.loseFrom k).cutTail k
    match addrOf? k.val with
    | none => s1.rampDark
    | some j => s1.closeBehind j

/-- A loss reported at the address a number names; 25 has no effect (R102). -/
def State.reportLoss (s : State) (n : Nat) : State :=
  match addrOf? n with
  | none => s
  | some k => s.cascade k

/-! ### Outcomes of MANAGEMENT entries (R53) -/

/-- OPEN(k) retired OK: the tail gate, and a walk in step OPENING at `k` settles (R53, R56, R58). -/
def State.openDone (s : State) (k : Addr) : State :=
  let s1 :=
    if s.chain.tail = addrNum k then { s with chain := { s.chain with tailGateOpen := true } } else s
  if s1.chain.state = .walking ∧ s1.chain.pointer = some k ∧ s1.chain.walkStep = some .opening then
    ({ s1 with chain := { s1.chain with walkStep := some .settling } }).startChainTimer
  else s1

/-- CLOSE(k) retired OK: a dark wait that was CLOSING becomes DARK (R106). -/
def State.closeDone (s : State) : State :=
  if s.chain.darkWait = some .closing then
    ({ s with chain := { s.chain with darkWait := some .dark } }).startChainTimer
  else s

/-- A LOAD_ON of node `k` as a MANAGEMENT entry (R33). -/
def Entry.isLoadOnOf (e : Entry) (k : Addr) : Bool := !e.isHost && e.op == .loadOn && e.node == k

/-- LOAD_ON(k) retired OK, its entry removed: a POWERING node in step LOAD_WAIT settles. Where the node waits for
a later LOAD_ON still in the queue, it left POWERING after the one answered here, whose DONE then leaves its
step (R33, R37; log 22). -/
def State.loadOnDone (s : State) (k : Addr) : State :=
  if (s.node k).state = .powering ∧ (s.node k).step = some .loadWait ∧ s.queue.any (·.isLoadOnOf k) = false then
    (s.modNode k fun r => { r with step := some .settling }).startNodeTimer k
  else s

/-- The confirming PING answered: a POWERING node in step CONFIRMING is ONLINE (R34; log 22). -/
def State.confirmDone (s : State) (k : Addr) : State :=
  if (s.node k).state = .powering ∧ (s.node k).step = some .confirming then
    (s.modNode k fun r => { r with state := .online, step := none }).post (addrNum k) .nodeOnline
      (s.node k).incarnation
  else s

/-- A MANAGEMENT entry retired OK (R53). ASSIGN is taken with its SENSE (`State.senseTaken`). -/
def State.mgmtDone (s : State) (op : Op) (k : Addr) : State :=
  match op with
  | .openGate => s.openDone k
  | .closeGate => s.closeDone
  | .loadOn => s.loadOnDone k
  | .ping => s.confirmDone k
  | _ => s

/-- A MANAGEMENT entry refused: OPEN and CLOSE as done, LOAD_ON by the load-fault path (R53, R33). -/
def State.mgmtRefused (s : State) (op : Op) (k : Addr) : State :=
  match op with
  | .openGate => s.openDone k
  | .closeGate => s.closeDone
  | .loadOn => s.loadFault k 2
  | _ => s

/-- A MANAGEMENT entry that failed finally: the walk ends for an ASSIGN, and otherwise the cascade runs
at its node (R53, R57, R97). -/
def State.mgmtFailed (s : State) (op : Op) (k : Addr) : State :=
  match op with
  | .assign => s.endWalk
  | _ => s.cascade k

/-! ### Final failure -/

/-- fail_count increases by 1, stopping at 7; at FAIL_THRESHOLD or more an ONLINE node becomes SUSPECT
and NODE_SUSPECT is posted (R35, R98, R99). -/
def State.countFail (s : State) (k : Addr) : State :=
  let n := min 7 ((s.node k).failCount + 1)
  let s1 := s.modNode k fun r => { r with failCount := n }
  if (s.node k).state = .online ∧ s.ctl.failThreshold ≤ n then
    (s1.modNode k fun r => { r with state := .suspect }).post (addrNum k) .nodeSuspect (BitVec.ofNat 16 n)
  else s1

/-- A synthesized PING to `k` has failed finally (R99). -/
def State.pingFailed (s : State) (k : Addr) : State :=
  if (s.node k).state = .online then s.countFail k else s.cascade k

/-- The entry of a request that has failed finally ends, its tag and record changed already (R97). The
PING of an UNFENCE is retired by the cascade it causes. -/
def State.entryFailed (s : State) (t : TagId) (e : Entry) : State :=
  match e.origin, e.op with
  | .management, op => (s.removeEntryOf t).mgmtFailed op e.node
  | .command _, .ping => s.cascade e.node
  | _, _ => ((s.removeEntryOf t).deliver e .timeout []).countFail e.node

/-- Final failure of the request that holds tag `t` (R96, R97, R99). -/
def State.finalFailure (s : State) (t : TagId) (f : Flight) : State :=
  match f.holder with
  | .ping k => ((s.holdTag t).modNode k NodeRecord.doubted).pingFailed k
  | .entry =>
    match s.entryOf t with
    | none => s.holdTag t
    | some e => (s.dropFlight e).entryFailed t e

end Sys2Proof.Machine
end

