-- ==== Sys2Proof/Machine/Dispatcher.lean ====
section
/-! DEFINITION. The transmitter arbiter: the claims in the order of R79, the frame each sends, and what
sending it records (R78 to R85). -/

namespace Sys2Proof.Machine

/-! ### Frames -/

/-- The body of a request frame (R5, 12.6). -/
def requestBody (op : Op) (node : Addr) (remote : Word) (count : Nat) (data : List Word) : List Word :=
  match op with
  | .rd => [remote, BitVec.ofNat 16 count]
  | .wr => remote :: BitVec.ofNat 16 count :: data
  | .assign => [BitVec.ofNat 16 (addrNum node)]
  | _ => []

/-- The frame of a request (R5, R82): an ASSIGN goes to destination 0, and the flag bit of a PING is its
sync value, equal to its sequence bit. -/
def requestFrame (op : Op) (node : Addr) (remote : Word) (count : Nat) (data : List Word) (t : TagId)
    (bit : Bool) : DownFrame :=
  { dest := if op = .assign then 0 else addrNum node
    kind := .request op
    tag := t
    seq := bit
    flag := if op = .ping then bit else false
    body := requestBody op node remote count data }

/-- The frame of an entry's request. -/
def Entry.frame (e : Entry) (t : TagId) (bit : Bool) : DownFrame :=
  requestFrame e.op e.node e.remote e.count e.data t bit

/-- The frame of a synthesized PING (R80). -/
def pingFrame (k : Addr) (t : TagId) (bit : Bool) : DownFrame :=
  requestFrame .ping k 0#16 0 [] t bit

/-- The frame of an owed acknowledgement (R5, R83). -/
def ackFrame (k : Addr) (toggle : Bool) : DownFrame :=
  { dest := addrNum k, kind := .attnAck, tag := 0, seq := false, flag := toggle, body := [] }

/-- The frame of the request that holds a tag, as it was first sent (R85). -/
def State.frameOfTag (s : State) (t : TagId) : Option DownFrame :=
  match s.tag t with
  | .busy f =>
    match f.holder with
    | .ping k => some (pingFrame k t f.sentBit)
    | .entry => (s.entryOf t).map fun e => e.frame t f.sentBit
  | _ => none

/-! ### Claims -/

/-- What a choice serves (R79). -/
inductive Claim where
  | ack (k : Addr)
  | resend (t : TagId) (frame : DownFrame)
  | ping (k : Addr) (t : TagId)
  | entry (index : Nat) (e : Entry) (t : TagId)
  deriving DecidableEq, Repr

/-- The lowest address that is owed an acknowledgement its state admits (R79, R83). -/
def State.ackClaim (s : State) : Option Addr :=
  allAddrs.find? fun k => (s.node k).ackOwed && (s.node k).takesAttn

/-- The request at the head of the resend list, with its frame (R79, R85). -/
def State.resendClaim (s : State) : Option (TagId × DownFrame) :=
  s.disp.resend.findSome? fun t => (s.frameOfTag t).map fun f => (t, f)

/-- A node qualifies for a synthesized PING (R80). -/
def NodeRecord.wantsPing (r : NodeRecord) : Bool :=
  r.state != .vacant && r.inFlightTag.isNone && (r.resync || r.state == .suspect)

/-- The lowest address that qualifies for a synthesized PING (R80). -/
def State.pingClaim (s : State) : Option Addr := allAddrs.find? fun k => (s.node k).wantsPing

/-- The node's record lets an entry go: nothing in flight, resync no, and its state admits the op (R81). -/
def State.mayStart (s : State) (e : Entry) : Bool :=
  let r := s.node e.node
  r.inFlightTag.isNone && !r.resync && r.admits e.op

/-- The oldest eligible WAITING entry with its place, no older entry for its node being in the queue;
`seen` lists the nodes of the older entries (R81). -/
def State.firstEligible (s : State) (seen : List Addr) : List Entry → Option (Nat × Entry)
  | [] => none
  | e :: es =>
    if e.state = .waiting ∧ e.node ∉ seen ∧ s.mayStart e then some (0, e)
    else (s.firstEligible (e.node :: seen) es).map fun p => (p.1 + 1, p.2)

/-- The claim that a choice serves, in the order of R79; the last two need a FREE tag. -/
def State.claim (s : State) : Option Claim :=
  match s.ackClaim with
  | some k => some (.ack k)
  | none =>
    match s.resendClaim with
    | some (t, f) => some (.resend t f)
    | none =>
      match s.freeTag with
      | none => none
      | some t =>
        match s.pingClaim with
        | some k => some (.ping k t)
        | none => (s.firstEligible [] s.queue).map fun p => .entry p.1 p.2 t

/-! ### Sending -/

/-- A frame handed to the transmitter, which is SENDING it (R9). -/
def State.transmit (s : State) (f : DownFrame) : State := { s with port := { s.port with tx := some f } }

/-- A response timer started with the current TIMEOUT (R76). -/
def State.responseTimer (s : State) : Option TagTimer :=
  some { use := .response, duration := s.ctl.timeout }

/-- An owed acknowledgement is sent (R83). -/
def State.sendAck (s : State) (k : Addr) : State :=
  (s.modNode k fun r => { r with ackOwed := false }).transmit
    (ackFrame k ((s.node k).attnToggle.getD false))

/-- The attempt of the request that holds a tag is counted (R85). -/
def State.countAttempt (s : State) (t : TagId) : State :=
  match s.tag t with
  | .busy f =>
    let s1 :=
      s.setTag t
        (.busy { f with
          timer := s.responseTimer
          synthAttempts := if f.holder = .entry then f.synthAttempts else f.synthAttempts + 1 })
    if f.holder = .entry then s1.modEntryOf t fun e => { e with attempts := e.attempts + 1 } else s1
  | _ => s

/-- A due retransmission is sent: the same frame, one more attempt, the response timer started again
(R85). -/
def State.sendAgain (s : State) (t : TagId) (f : DownFrame) : State :=
  ((s.countAttempt t).leaveResend t).transmit f

/-- A synthesized PING is sent for the first time (R80, R82). -/
def State.sendPing (s : State) (k : Addr) (t : TagId) : State :=
  let bit := (s.node k).nextSeq
  let flight : Flight :=
    { holder := .ping k, node := k, kind := .ping, sentBit := bit, synthAttempts := 1,
      timer := s.responseTimer }
  ((s.setTag t (.busy flight)).modNode k fun r => { r with inFlightTag := some t }).transmit
    (pingFrame k t bit)

/-- The sequence bit of a request (R82): 0 for ASSIGN, otherwise next_seq. -/
def State.bitFor (s : State) (op : Op) (k : Addr) : Bool :=
  if op = .assign then false else (s.node k).nextSeq

/-- An entry with its request formed: a refresh job reads the next words of its window (R82, R137). -/
def State.formed (s : State) (e : Entry) : Entry :=
  match e.origin with
  | .refresh r =>
    let w := s.window r.window
    { e with
      remote := w.remoteBase + BitVec.ofNat 16 r.nextOffset
      count := min Config.frameWords (w.length.toNat - r.nextOffset) }
  | _ => e

/-- A queue entry is sent for the first time (R82). -/
def State.sendEntry (s : State) (i : Nat) (e0 : Entry) (t : TagId) : State :=
  let e := s.formed e0
  let bit := s.bitFor e.op e.node
  let flight : Flight :=
    { holder := .entry, node := e.node, kind := e.op, sentBit := bit, synthAttempts := 0,
      timer := s.responseTimer }
  let sent : Entry := { e with state := .inFlight, tag := some t, sentBit := some bit, attempts := 1 }
  let s1 := { s.setTag t (.busy flight) with queue := s.queue.set i sent }
  let s2 :=
    if e.op = .assign then s1 else s1.modNode e.node fun r => { r with inFlightTag := some t }
  s2.transmit (e.frame t bit)

/-- A claim is served (R79). -/
def State.serveClaim (s : State) : Claim → State
  | .ack k => s.sendAck k
  | .resend t f => s.sendAgain t f
  | .ping k t => s.sendPing k t
  | .entry i e t => s.sendEntry i e t

/-- The Dispatcher's choice: one frame in IDLE while CHAIN_PWR_EN is asserted and CLK_IN runs, or none (R78, R79,
R181). -/
def State.dispatch (s : State) : State :=
  if s.port.tx.isNone && s.linkUp then
    match s.claim with
    | none => s
    | some c => s.serveClaim c
  else s

/-- The end of an event: the slots are served, and the Dispatcher chooses (R73, R78; log 8). -/
def State.finish (s : State) : State := s.serveSlots.dispatch

end Sys2Proof.Machine
end

