-- ==== Sys2Proof/Machine/Mirror.lean ====
section
/-! DEFINITION. Mirror Pool and Refresh: refresh requests, the creation of a job, and the landing of its
data (R133 to R141). -/

namespace Sys2Proof.Machine

/-- A refresh command attached to the job of window `i` (R135). -/
def Entry.attach (e : Entry) (i : WinIx) (t : BitVec 8) : Entry :=
  match e.origin with
  | .refresh r => if r.window = i then { e with origin := .refresh { r with attached := r.attached ++ [t] } } else e
  | _ => e

/-- A refresh job for window `i` on node `k`, with the commands attached at its creation (R136). -/
def State.newJob (s : State) (i : WinIx) (k : Addr) (attached : List (BitVec 8)) : Entry :=
  let w := s.window i
  freshEntry
    (.refresh
      { window := i, generation := w.generation, segment := w.mirrorSegment, nextOffset := 0,
        attached := attached })
    .rd k w.remoteBase (min Config.frameWords w.length.toNat) []

/-- What a refresh request for a window meets (R133). -/
inductive RefreshCase where
  | merge
  | refuse (st : Status)
  | create (k : Addr)
  deriving DecidableEq, Repr

/-- The first case of R133 that applies to window `i`. -/
def State.refreshCase (s : State) (i : WinIx) : RefreshCase :=
  let w := s.window i
  if s.queue.any (·.isJobOf i) then .merge
  else if !(w.enabled && w.isMirror) then .refuse .detached
  else if !w.attached then .refuse .detached
  else
    match addrOf? w.node.toNat with
    | none => .refuse .nodeNotReady
    | some k =>
      if !(s.node k).serves then .refuse .nodeNotReady
      else if !s.hostSlotFree then .refuse .refusedFull
      else .create k

/-- A timed or attention request: merged, skipped, or a job is created (R133). -/
def State.refreshRequest (s : State) (i : WinIx) : State :=
  match s.refreshCase i with
  | .create k => s.enqueueHost (s.newJob i k [])
  | _ => s

/-- A REFRESH command's request: attached to the window's job, or completed at once (R133, R135, R151). -/
def State.refreshCommand (s : State) (i : WinIx) (ticket : BitVec 8) : State :=
  match s.refreshCase i with
  | .merge => { s with queue := s.queue.map fun e => e.attach i ticket }
  | .refuse st => s.complete (plainCompletion ticket .refresh st (s.window i).completionNode)
  | .create k => s.enqueueHost (s.newJob i k [ticket])

/-- One request for every enabled MIRROR window ATTACHED to node `k`, in order of index (R134). -/
def State.attentionRefresh (s : State) (k : Addr) : State :=
  (allWindows.filter fun i =>
    let w := s.window i
    w.enabled && w.isMirror && w.attached && w.names k).foldl State.refreshRequest s

/-- The words of a job's DATA land in the segment from the next offset on, if the job is current
(R138). -/
def State.land (s : State) (r : RefreshRef) (ws : List Word) : State :=
  if s.jobCurrent r then
    { s with mirror := { s.mirror with pool := Memory.storeRange s.mirror.pool (r.segment + r.nextOffset) ws } }
  else s

/-- A job's entry back in WAITING for its next request, its next offset advanced (R89, R137). -/
def Entry.advance (e : Entry) (n : Nat) : Entry :=
  match e.origin with
  | .refresh r => { e.rewait with origin := .refresh { r with nextOffset := r.nextOffset + n } }
  | _ => e.rewait

/-- A job that has words left after this DATA (R137). -/
def State.jobHasMore (s : State) (r : RefreshRef) (n : Nat) : Bool :=
  decide (r.nextOffset + n < (s.window r.window).length.toNat)

/-- The DATA of a refresh job, its tag released and its record updated (R89, R137 to R141): the words
land; the job waits for its next request, or ends OK after its last, or NODE_NOT_READY where its node
no longer serves. -/
def State.jobData (s : State) (t : TagId) (e : Entry) (r : RefreshRef) (ws : List Word) : State :=
  let s1 := s.land r ws
  if s.jobHasMore r ws.length then
    if (s.node e.node).serves then
      s1.modEntryOf t fun x => x.advance ws.length
    else (s1.removeEntryOf t).deliver e .nodeNotReady []
  else (s1.removeEntryOf t).deliver e .ok ws

end Sys2Proof.Machine
end

