-- ==== Sys2Proof/Machine/Answers.lean ====
section
/-! DEFINITION. Answers from the chain: matching, what a taken answer does, strays (R86 to R90, R31, R55),
attentions (R40 to R42) and HELLO (R59). -/

namespace Sys2Proof.Machine

/-- The request that a tag, a source address and a sequence bit name (R87, first three conditions). -/
def State.requestFor (s : State) (src : BitVec 5) (t : TagId) (seq : Bool) : Option Flight :=
  match s.tag t with
  | .busy f => if src.toNat = addrNum f.node ∧ f.sentBit = seq then some f else none
  | _ => none

/-- A tagged frame that answers no request (R88). -/
def State.stray (s : State) (t : TagId) : State := s.post 0 .strayResponse (BitVec.ofNat 16 t.val)

/-- The kinds a DONE answers (R87). -/
def Op.takesDone (op : Op) : Bool := op != .rd && op != .assign

/-- The kinds a REFUSE answers (R87). -/
def Op.takesRefuse (op : Op) : Bool := op != .ping && op != .assign

/-- A DATA or DONE taken: the tag leaves BUSY, and the record is updated (R89, steps 1 and 2). -/
def State.takeAnswer (s : State) (t : TagId) (f : Flight) : State :=
  (s.releaseTag t (s.attemptsOf t f)).modNode f.node fun r => r.answered f.kind f.sentBit

/-- The entry that holds a tag is retired OK, its answer taken (R89, step 5). -/
def State.entryDone (s : State) (t : TagId) (e : Entry) (ws : List Word) : State :=
  match e.origin with
  | .management => (s.removeEntryOf t).mgmtDone e.op e.node
  | _ => (s.removeEntryOf t).deliver e .ok ws

/-- The DONE of a synthesized PING: a SUSPECT node returns to ONLINE (R35, R89 step 3, R101). -/
def State.pingDone (s : State) (k : Addr) : State :=
  if (s.node k).state = .suspect then
    (s.modNode k fun r => { r with state := .online }).post (addrNum k) .nodeRecovered
      (s.node k).incarnation
  else s

/-- A DONE, taken or stray (R87 to R89). -/
def State.receiveDone (s : State) (src : BitVec 5) (t : TagId) (seq : Bool) : State :=
  match s.requestFor src t seq with
  | none => s.stray t
  | some f =>
    if f.kind.takesDone then
      match f.holder with
      | .ping k => (s.takeAnswer t f).pingDone k
      | .entry =>
        match s.entryOf t with
        | none => s.stray t
        | some e => (s.takeAnswer t f).entryDone t e []
    else s.stray t

/-- A DATA, taken or stray (R87 to R89, R137). -/
def State.receiveData (s : State) (src : BitVec 5) (t : TagId) (seq : Bool) (ws : List Word) : State :=
  match s.requestFor src t seq, s.entryOf t with
  | some f, some e =>
    if f.kind = .rd ∧ f.holder = .entry ∧ ws.length = e.count then
      match e.origin with
      | .refresh r => (s.takeAnswer t f).jobData t e r ws
      | _ => (s.takeAnswer t f).entryDone t e ws
    else s.stray t
  | _, _ => s.stray t

/-- REFUSE BUSY taken: the timer becomes the backoff timer, the request leaves the resend list, and an
entry becomes BACKOFF (R86). -/
def State.takeBusy (s : State) (t : TagId) (f : Flight) : State :=
  ((s.setTag t (.busy { f with timer := some { use := .backoff, duration := s.ctl.timeout } })).leaveResend
    t).modEntryOf t fun e => { e with state := .backoff }

/-- A REFUSE other than BUSY taken for an entry (R90). -/
def State.takeRefusal (s : State) (t : TagId) (f : Flight) (e : Entry) (reason : Reason) : State :=
  let s1 := (s.releaseTag t (s.attemptsOf t f)).modNode f.node NodeRecord.refused
  match e.origin with
  | .management => (s1.removeEntryOf t).mgmtRefused e.op e.node
  | _ => (s1.removeEntryOf t).deliver e (refusalStatus reason) []

/-- A REFUSE, taken or stray (R86 to R88, R90). -/
def State.receiveRefuse (s : State) (src : BitVec 5) (t : TagId) (seq : Bool) (reason : Reason) : State :=
  match s.requestFor src t seq, s.entryOf t with
  | some f, some e =>
    if f.kind.takesRefuse ∧ f.holder = .entry then
      if reason = .busy then s.takeBusy t f else s.takeRefusal t f e reason
    else s.stray t
  | _, _ => s.stray t

/-- The walk after the SENSE of node `k`: OPEN(k) becomes due, or the walk ends at address 24 once the
slots have been served (R55; log 9). -/
def State.walkAfterSense (s : State) (k : Addr) : State :=
  if addrNum k < Config.nodeCapacity then
    ({ s with chain := { s.chain with walkStep := some .opening } }).makeDue (.openGate k)
  else s.serveSlots.endWalk

/-- A SENSE for the ASSIGN of address `k` while its record is VACANT (R25, R31, R55): NODE_SENSED, the
tail, decision(k) due, and the walk goes on. -/
def State.senseTaken (s : State) (k : Addr) (ident : Identity) : State :=
  if (s.node k).state = .vacant then
    let s1 :=
      (s.modNode k fun r => r.sense ident).post (addrNum k) .nodeSensed (ident.cls ++ ident.revision)
    let s2 := { s1 with chain := { s1.chain with tail := addrNum k, tailGateOpen := false } }
    (s2.makeDue (.decision k false)).walkAfterSense k
  else s

/-- A SENSE, taken or stray (R87 to R89, R31). -/
def State.receiveSense (s : State) (src : BitVec 5) (t : TagId) (seq : Bool) (ident : Identity) : State :=
  match s.requestFor src t seq, s.entryOf t with
  | some f, some e =>
    if f.kind = .assign ∧ f.holder = .entry then
      (((s.releaseTag t (s.attemptsOf t f)).removeEntryOf t)).senseTaken e.node ident
    else s.stray t
  | _, _ => s.stray t

/-! ### Attentions -/

/-- A new attention acted on by its code (R42). -/
def State.actOn (s : State) (k : Addr) (code : BitVec 8) : State :=
  if code = Config.downstreamLost then s.reportLoss (addrNum k + 1)
  else if code = Config.loadFaultCode then s.loadFault k 1
  else
    let s1 := s.post (addrNum k) .nodeAttention (code.setWidth 16)
    if (s.node k).refreshOnAttn && (s.node k).serves then s1.attentionRefresh k else s1

/-- An ATTN from node `k`: a new one or a repeat, an acknowledgement owed either way (R41). -/
def State.takeAttn (s : State) (k : Addr) (code : BitVec 8) (toggle : Bool) : State :=
  let s1 := s.modNode k fun r => { r with attnToggle := some toggle, ackOwed := true }
  if (s.node k).attnToggle = some toggle then s1 else s1.actOn k code

/-- An ATTN frame: discarded from an address that is none of 1..24 or whose state takes none (R40). -/
def State.receiveAttn (s : State) (src : BitVec 5) (code : BitVec 8) (toggle : Bool) : State :=
  match addrOf? src.toNat with
  | none => s
  | some k => if (s.node k).takesAttn then s.takeAttn k code toggle else s

/-- A HELLO: in RUNNING with tail below 24 and the way open it starts a walk (R59). -/
def State.receiveHello (s : State) : State :=
  match addrOf? (s.chain.tail + 1) with
  | none => s
  | some k => if s.chain.state = .running ∧ s.wayOpen then s.walkAssign k else s

/-! ### Delivery -/

/-- An upstream frame reaches the blocks, and the event ends (R10, R73, R78). Nothing is delivered while
CHAIN_PWR_EN is deasserted, or while CLK_IN is absent (R181). -/
def State.fromChain (s : State) (f : State → State) : State :=
  if s.linkUp then (f s).finish else s

/-- An accepted frame delivered to its block (R10). The flag bit is the toggle of an ATTN and is ignored
in the other kinds, whose tag and sequence bit answer a request (R6, R184). -/
def State.deliverFrame (s : State) (f : UpFrame) : State :=
  match f.body with
  | .data ws => s.receiveData f.source f.tag f.seq ws
  | .done => s.receiveDone f.source f.tag f.seq
  | .refuse r => s.receiveRefuse f.source f.tag f.seq r
  | .sense i => s.receiveSense f.source f.tag f.seq i
  | .attn c => s.receiveAttn f.source c f.flag
  | .hello => s.receiveHello

/-- The words of a frame on UP: dropped when not accepted, else delivered (R8, R10). -/
def State.receiveWire (s : State) (wire : List Word) (ended : Bool) : State :=
  match acceptFrame wire ended with
  | none => s
  | some f => s.fromChain fun s => s.deliverFrame f

end Sys2Proof.Machine
end

