-- ==== Sys2Proof/Machine/Aperture.lean ====
section
/-! DEFINITION. Aperture accesses from decode to the end of the held cycle (R118 to R125, R173). -/

namespace Sys2Proof.Machine

/-- The checks of R119 on an access through a window, in order: the status of the first that fails. -/
def State.accessRefusal (s : State) (w : Window) (k : Addr) (a : Access) (remote : Word) :
    Option Status :=
  if !w.attached then some .detached
  else if a != .read && (w.isMirror || w.writeProtect) then some .prot
  else if !(s.node k).serves then some .nodeNotReady
  else if (s.node k).span.getD 0 ≤ remote.toNat then some .outOfSpan
  else none

/-- An access refused in its own event: the fill word, APERTURE_RESULT, STRAY_ACCESS (R118, R119). -/
def State.refuseAccess (s : State) (a : Access) (o : BitVec 10) (node : Nat) (st : Status) : State :=
  (s.endAtOnce a st Config.fillWord).post node .strayAccess (o.setWidth 16)

/-- An access that becomes an entry enters the held-cycle slot, or ends at once if it is a POSTED write
that finds a slot (R120, R121, R125). The handle is new (log 11). -/
def State.holdCycle (s : State) (i : WinIx) (k : Addr) (a : Access) (o : BitVec 10) (remote : Word) :
    State :=
  let c : HeldCycle :=
    { handle := s.lbi.nextHandle
      phase := .slotWait
      access := a
      offset := o
      window := i
      holdTimer := s.ctl.holdLimit
      posted := (s.window i).isPosted && a != .read
      node := k
      remote := remote }
  { s with lbi := { s.lbi with slot := some c, nextHandle := s.lbi.nextHandle + 1 } }.serveCycle

/-- The pool word of a MIRROR read (R120). -/
def State.mirrorWord (s : State) (w : Window) (o : BitVec 10) : Word :=
  Memory.read s.mirror.pool (w.mirrorSegment + (o.toNat - w.base.toNat))

/-- An access through window `i` that names node `k` (R118 to R120). -/
def State.accessThrough (s : State) (i : WinIx) (k : Addr) (a : Access) (o : BitVec 10) : State :=
  let w := s.window i
  let remote := w.remoteBase + BitVec.ofNat 16 (o.toNat - w.base.toNat)
  match s.accessRefusal w k a remote with
  | some st => s.refuseAccess a o w.node.toNat st
  | none =>
    if w.isMirror then s.endAtOnce a .ok (s.mirrorWord w o)
    else (s.holdCycle i k a o remote).finish

/-- An aperture access (R118). An enabled window's node field names one of 1..24 (R113, check 1); a
window whose field names none has no node in service (log 30). -/
def State.apertureAccess (s : State) (o : BitVec 10) (a : Access) : State :=
  match s.windowAt o.toNat with
  | none => s.refuseAccess a o 0 .unmapped
  | some i =>
    match addrOf? (s.window i).node.toNat with
    | none => s.refuseAccess a o (s.window i).node.toNat .nodeNotReady
    | some k => s.accessThrough i k a o

/-- The entry of an abandoned cycle: its held flag becomes no (R124). -/
def Entry.abandon (e : Entry) (handle : Nat) : Entry :=
  match e.origin with
  | .aperture r =>
    if r.held ∧ r.handle = handle then { e with origin := .aperture { r with held := false } } else e
  | _ => e

/-- A cycle in RESULT_WAIT is abandoned (R124). -/
def State.abandonCycle (s : State) (c : HeldCycle) : State :=
  let s1 := (s.endHeld .abandoned Config.fillWord).post (addrNum c.node) .apertureAbandoned
    (c.offset.setWidth 16)
  { s1 with queue := s1.queue.map fun e => e.abandon c.handle }

/-- The hold timer of the held cycle expires: QUEUE_FULL in SLOT_WAIT, abandonment in RESULT_WAIT; no
effect with the slot EMPTY (R122, R124). -/
def State.expireHold (s : State) : State :=
  match s.lbi.slot with
  | none => s
  | some c =>
    match c.phase with
    | .slotWait => s.endSlotWait .queueFull
    | .resultWait => s.abandonCycle c

end Sys2Proof.Machine
end

