-- ==== Sys2Proof/Machine/Windows.lean ====
section
/-! DEFINITION. The Window Table: field writes, the enable attempt, and the disable (R112 to R117, R129 to
R132, R142, R183). -/

namespace Sys2Proof.Machine

/-- The writable fields of word 0 other than enabled (12.5). -/
def Window.writeWord0 (w : Window) (v : Word) : Window :=
  { w with kind := fieldAt v 1 2, writeProtect := bitAt v 3, node := fieldAt v 4 5 }

/-- The writable fields of a word of a disabled record take the written bits; words 5 to 7 hold
read-only fields (R112, R183, 12.5). -/
def Window.writeField (w : Window) (word : Fin 8) (v : Word) : Window :=
  match word with
  | 0 => w.writeWord0 v
  | 1 => { w with base := fieldAt v 0 10 }
  | 2 => { w with length := fieldAt v 0 11 }
  | 3 => { w with remoteBase := v }
  | 4 => { w with interval := fieldAt v 0 8 }
  | _ => w

/-- Check 1 of the enable: the fields' ranges (R113). -/
def Window.inRange (w : Window) : Bool :=
  w.kind != 3#2 && (addrOf? w.node.toNat).isSome && decide (1 ≤ w.length.toNat) &&
    decide (w.length.toNat ≤ if w.isMirror then 512 else 1024) &&
    decide (w.base.toNat + w.length.toNat ≤ Config.apertureSize) &&
    decide (w.remoteBase.toNat + w.length.toNat ≤ 65536)

/-- Check 3 of the enable: another enabled window shares an aperture word (R113). -/
def State.conflicts (s : State) (i : WinIx) (w : Window) : Bool :=
  allWindows.any fun j => j != i && (s.window j).enabled && w.overlaps (s.window j)

/-- What the four checks of an enable decide (R113). -/
inductive EnableCase where
  | refuse (st : Status)
  | bind (k : Addr)
  | bindMirror (k : Addr) (base : Nat)
  deriving DecidableEq, Repr

/-- The checks of an enable of record `i` with the fields of `w`, in order (R113). -/
def State.enableCase (s : State) (i : WinIx) (w : Window) : EnableCase :=
  match addrOf? w.node.toNat with
  | none => .refuse .range
  | some k =>
    if !w.inRange then .refuse .range
    else if (s.node k).state = .vacant then .refuse .nodeAbsent
    else if s.conflicts i w then .refuse .conflict
    else if !w.isMirror then .bind k
    else
      match lowestBase s.segments w.length.toNat with
      | none => .refuse .noMirrorSpace
      | some b => .bindMirror k b

/-- A record enabled and bound to the occupant of `k` (R113, R114). -/
def Window.bound (w : Window) (incarnation : Word) : Window :=
  { w with
    enabled := true, enableStatus := .ok, boundIncarnation := incarnation, attached := true }

/-- The enable attempt of record `i` (R113, R114, R129, R131, R132). -/
def State.tryEnable (s : State) (i : WinIx) : State :=
  let w := s.window i
  match s.enableCase i w with
  | .refuse st => s.setWindow i { w with enableStatus := st }
  | .bind k => s.setWindow i (w.bound (s.node k).incarnation)
  | .bindMirror k b =>
    let s1 :=
      s.setWindow i { w.bound (s.node k).incarnation with mirrorSegment := b, stale := true }
    ({ s1 with
      mirror := { s1.mirror with pool := Memory.clear s1.mirror.pool b w.length.toNat } }).setRefreshTimer i
      (if w.interval = 0#8 then none else some w.interval.toNat)

/-- The fields of a record that its disable changes (R116, R131). -/
def Window.disabled (w : Window) : Window :=
  { w with
    enabled := false
    attached := false
    boundIncarnation := 0#16
    mirrorSegment := if w.isMirror then 0 else w.mirrorSegment }

/-- The disable of record `i` by a host write: its timer stops and its refresh job is retired ABORTED
(R116, R132, R142). -/
def State.disableWindow (s : State) (i : WinIx) : State :=
  ((s.setWindow i (s.window i).disabled).setRefreshTimer i none).retireAll (·.isJobOf i) .aborted

/-- A host write to word `word` of record `i` (R112). -/
def State.windowWrite (s : State) (i : WinIx) (word : Fin 8) (v : Word) : State :=
  let w := s.window i
  if w.enabled then
    if word = 0 ∧ bitAt v 0 = false then (s.disableWindow i).finish else s
  else
    let s1 := s.setWindow i (w.writeField word v)
    if word = 0 ∧ bitAt v 0 then s1.tryEnable i else s1

end Sys2Proof.Machine
end

