-- ==== Sys2Proof/Machine/Commands.lean ====
section
/-! DEFINITION. The Command Port: staging, the parameter checks, acceptance, the kinds, and the two POPs
(R144 to R154, R157, R164, R37, R38, R60). -/

namespace Sys2Proof.Machine

/-! ### Staging (R144) -/

/-- A write to staging word `n`, at byte offset 0x080 + 2n (12.4). -/
def Staging.write (g : Staging) (n : Nat) (v : Word) : Staging :=
  match n with
  | 0 => { g with kind := fieldAt v 0 4, powerOff := bitAt v 4, node := fieldAt v 8 5 }
  | 1 => { g with address := v }
  | 2 => { g with count := fieldAt v 0 5, window := fieldAt v 8 4 }
  | 3 => { g with target := fieldAt v 0 8 }
  | m + 4 => if h : m < 16 then { g with data := g.data.set m v } else g

/-- A host write to a staging word (R144). -/
def State.stagingWrite (s : State) (n : Nat) (v : Word) : State :=
  { s with cmd := { s.cmd with staging := s.cmd.staging.write n v } }

/-! ### Parameter checks (R145) -/

/-- The node a command names, if it is one of 1..24. -/
def Staging.node? (g : Staging) : Option Addr := addrOf? g.node.toNat

/-- The window a command names, if it is one of 0..7. -/
def Staging.window? (g : Staging) : Option WinIx :=
  if h : g.window.toNat < 8 then some ⟨g.window.toNat, h⟩ else none

/-- A transfer's count and address range (R145). -/
def Staging.transferOk (g : Staging) : Bool :=
  decide (1 ≤ g.count.toNat) && decide (g.count.toNat ≤ Config.frameWords) &&
    decide (g.address.toNat + g.count.toNat ≤ 65536)

/-- A submitted command with its parameters checked (R145). -/
inductive Request where
  | transfer (op : Op) (k : Addr) (address : Word) (count : Nat) (data : List Word)
  | fence (k : Addr) (powerOff : Bool)
  | unfence (k : Addr)
  | refresh (i : WinIx)
  | rescan
  | cancel (target : BitVec 8)
  deriving DecidableEq, Repr

/-- The command in the staging record, or none where a parameter check fails (R145). -/
def State.request (s : State) (kind : CmdKind) : Option Request :=
  let g := s.cmd.staging
  match kind with
  | .read =>
    if g.transferOk then g.node?.map fun k => .transfer .rd k g.address g.count.toNat [] else none
  | .write =>
    if g.transferOk then
      g.node?.map fun k => .transfer .wr k g.address g.count.toNat (g.data.toList.take g.count.toNat)
    else none
  | .fence => g.node?.map fun k => .fence k g.powerOff
  | .unfence => g.node?.map .unfence
  | .nreset => g.node?.map fun k => .transfer .nreset k 0#16 0 []
  | .refresh =>
    match g.window? with
    | none => none
    | some i => if (s.window i).isMirror then some (.refresh i) else none
  | .rescan => some .rescan
  | .cancel => some (.cancel g.target)

/-! ### The kinds. An action that would queue an entry and finds no host-class slot is none (R145, case 3). -/

/-- READ, WRITE and NRESET (R147, R148). -/
def State.transferAction (s : State) (c : CommandRef) (op : Op) (k : Addr) (address : Word) (count : Nat)
    (data : List Word) : Option State :=
  let e := freshEntry (.command c) op k address count data
  if (s.node k).serves then if s.hostSlotFree then some (s.enqueueHost e) else none
  else some (s.complete (e.completion c .nodeNotReady []))

/-- A COMMAND entry without parameters, of a FENCE or an UNFENCE (R38, R150). -/
def commandEntry (c : CommandRef) (op : Op) (k : Addr) : Entry := freshEntry (.command c) op k 0#16 0 []

/-- The power-off of a FENCE after R37 has acted (R38, R149): with powered no it completes OK, else with
a step present NODE_NOT_READY (log 21), else its LOAD_OFF is queued. -/
def State.powerOffAction (s : State) (c : CommandRef) (k : Addr) : Option State :=
  let done := fun st => some (s.complete (plainCompletion c.ticket .fence st (addrNum k)))
  if !(s.node k).powered then done .ok
  else if (s.node k).step.isSome then done .nodeNotReady
  else if s.hostSlotFree then
    some
      ((s.enqueueHost (commandEntry c .loadOff k)).modNode k fun r =>
        { r with step := some .poweringOff })
  else none

/-- FENCE (R37, R38, R149): an UNFENCE that waits for the node's decision completes NODE_NOT_READY
before the FENCE does (R150). -/
def State.fenceAction (s : State) (c : CommandRef) (k : Addr) (powerOff : Bool) : Option State :=
  let done := fun (s : State) st => some (s.complete (plainCompletion c.ticket .fence st (addrNum k)))
  if (s.node k).state = .vacant then done s .nodeNotReady
  else
    let s1 := (s.fenceNode k).completeWaits (· == k) .nodeNotReady
    if powerOff then s1.powerOffAction c k else done s1 .ok

/-- UNFENCE (R37, R150). -/
def State.unfenceAction (s : State) (c : CommandRef) (k : Addr) : Option State :=
  let r := s.node k
  if r.state = .fenced ∧ r.step = none then
    if r.powered then
      if s.hostSlotFree then
        some
          ((s.modNode k fun x => { x with loadFault := false, step := some .unfencing }).enqueueHost
            (commandEntry c .ping k))
      else none
    else
      let s1 :=
        (s.modNode k fun x => { x with loadFault := false, state := .sensed }).makeDue (.decision k false)
      some
        { s1 with
          chain :=
            { s1.chain with
              unfenceWaits :=
                insertWait { ticket := c.ticket, node := k, order := c.order } s1.chain.unfenceWaits } }
  else some (s.complete (plainCompletion c.ticket .unfence .nodeNotReady (addrNum k)))

/-- A RESCAN's completion record (R152). -/
def State.completeRescan (s : State) (ticket : BitVec 8) (st : Status) (count : Nat) : State :=
  s.complete { ticket := ticket, kind := .rescan, status := st, node := 0, count := count, data := [] }

/-- RESCAN by chain state (R60, R152). -/
def State.rescanAction (s : State) (ticket : BitVec 8) : State :=
  match s.chain.state with
  | .off => s.completeRescan ticket .nodeNotReady 0
  | .faulted => s.completeRescan ticket .nodeNotReady 0
  | .ramp => s.attachRescan ticket
  | .walking => s.attachRescan ticket
  | .running =>
    match addrOf? (s.chain.tail + 1), addrOf? s.chain.tail with
    | none, _ => s.completeRescan ticket .ok s.chain.tail
    | some k, tail? =>
      if s.wayOpen then (s.attachRescan ticket).walkAssign k
      else
        match tail? with
        | some j => (s.attachRescan ticket).reopenTail j
        | none => s.completeRescan ticket .ok s.chain.tail

/-- The entry that a CANCEL looks for: origin COMMAND and the target ticket (R153). -/
def Entry.hasTicket (e : Entry) (t : BitVec 8) : Bool :=
  match e.origin with
  | .command r => r.ticket == t
  | _ => false

/-- CANCEL of the oldest COMMAND entry with the target ticket (R153). -/
def State.cancelAction (s : State) (ticket target : BitVec 8) : State :=
  match s.queue.find? (·.hasTicket target) with
  | none => s.complete (plainCompletion ticket .cancel .notFound 0)
  | some e =>
    if e.state = .waiting then
      (({ s with queue := s.queue.eraseP (·.hasTicket target) }).deliver e .aborted []).complete
        (plainCompletion ticket .cancel .ok (addrNum e.node))
    else s.complete (plainCompletion ticket .cancel .inFlight 0)

/-- The action of an accepted command in its event, or none where it would queue an entry and no slot is
free (R145, R147 to R153). -/
def State.act (s : State) (c : CommandRef) : Request → Option State
  | .transfer op k address count data => s.transferAction c op k address count data
  | .fence k powerOff => s.fenceAction c k powerOff
  | .unfence k => s.unfenceAction c k
  | .refresh i => some (s.refreshCommand i c.ticket)
  | .rescan => some (s.rescanAction c.ticket)
  | .cancel target => some (s.cancelAction c.ticket target)

/-! ### Submission -/

/-- SUBMIT_STATUS set. -/
def State.submitAnswer (s : State) (x : SubmitStatus) : State :=
  { s with cmd := { s.cmd with submitStatus := x } }

/-- Reservations and records leave room for one more command (R145, case 2; R146). -/
def CommandPort.hasRoom (p : CommandPort) : Bool :=
  decide (p.reservations + p.completions.length < Config.completionSize)

/-- A reservation taken, with the command's place in the order of acceptance (R146). -/
def State.reserve (s : State) : State :=
  { s with
    cmd := { s.cmd with reservations := s.cmd.reservations + 1, nextOrder := s.cmd.nextOrder + 1 } }

/-- A host write to SUBMIT: the first case of R145 that applies to the staging record. -/
def State.submit (s : State) (v : Word) : State :=
  match cmdKindOf s.cmd.staging.kind with
  | none => s.submitAnswer .badCommand
  | some kind =>
    match s.request kind with
    | none => s.submitAnswer .badCommand
    | some r =>
      if s.cmd.hasRoom then
        match s.reserve.act { ticket := lowByte v, kind := kind, order := s.cmd.nextOrder } r with
        | none => s.submitAnswer .refusedFull
        | some s1 => (s1.submitAnswer .accepted).finish
      else s.submitAnswer .refusedFull

/-! ### POP words -/

/-- A write to the completion POP word (R157). -/
def State.popCompletion (s : State) : State :=
  { s with cmd := { s.cmd with completions := s.cmd.completions.tail } }

/-- A write to the notice POP word (R164). -/
def State.popNotice (s : State) : State :=
  { s with notices := { s.notices with records := s.notices.records.tail } }

end Sys2Proof.Machine
end

