-- ==== Sys2Proof/Machine/Resets.lean ====
section
/-! DEFINITION. The resets: bus reset and power-on reset (R28, R46, R94, R111, R127, R158, R169, R174, R175),
keep reset (R29, R69, R70, R94, R109, R117, R127, R158, R169, R176), and the lines that cause them. -/

namespace Sys2Proof.Machine

/-! ### Bus reset and power-on reset -/

/-- The word on D[15:0] at a reset: the fill word for a held read, nothing for a held write, and what it
was where no cycle was held (R127, R174; log 19). -/
def State.resetBusData (s : State) : Option Word :=
  match s.lbi.slot with
  | none => s.pins.busData
  | some c => Access.answer c.access Config.fillWord

/-- The reset values with a RESET_CAUSE and given pins; the commands that wait stay (R28, R46, R94, R158). -/
def State.resetTo (s : State) (pins : Pins) (cause : ResetCause) : State :=
  { State.reset with
    pins := pins
    ctl := { Control.reset with resetCause := cause }
    pending := s.pending }

/-- A bus reset taken (R174): RESET_N is low and KEEP_N high; the carrier monitor starts again (log 16). -/
def State.takeBusReset (s : State) : State :=
  s.resetTo
    { s.pins with resetN := false, keepN := true, upCarrier := false, busData := s.resetBusData } .bus

/-- A power-on reset taken (R175): the supply is valid and the hold begins, whatever RESET_N does. -/
def State.takePowerOn (s : State) : State :=
  s.resetTo
    { s.pins with
      supplyValid := true
      powerOnHold := true
      upCarrier := false
      busData := if s.lbi.slot.isSome then s.resetBusData else none } .powerOn

/-- The supply is below the brown-out threshold: nothing holds its state and no output is driven
(R175, R181; log 18). -/
def State.takeBrownOut (s : State) : State :=
  s.resetTo { s.pins with supplyValid := false, powerOnHold := false, upCarrier := false, busData := none }
    .powerOn

/-! ### Keep reset -/

/-- The record after a keep reset (R29), but for the release of a LOAD_ON under way. -/
def NodeRecord.keepReset (r : NodeRecord) : NodeRecord :=
  { r with
    inFlightTag := none
    resync := r.resync || r.inFlightTag.isSome
    state := if r.state = .powering ∧ r.step = some .loadWait then .sensed else r.state
    step :=
      match r.step with
      | some .loadWait => none
      | some .unfencing => none
      | some .poweringOff => none
      | x => x }

/-- A node whose LOAD_ON the reset removed, its demand to be released (R29). -/
def NodeRecord.loadOnLost (r : NodeRecord) : Bool :=
  r.state == .powering && r.step == some .loadWait

/-- The management step that a removed MANAGEMENT entry is put back as, by the table of R70. That table lists
neither a LOAD_ON of a node that is SENSED, DENIED or past LOAD_WAIT, nor a confirming PING of a node that is
not POWERING in step CONFIRMING: such an entry puts nothing back (the model's choice, log 32). -/
def State.putBack (s : State) (e : Entry) : Option MgmtStep :=
  let r := s.node e.node
  if e.isHost then none
  else
    match e.op with
    | .assign => some (.assign e.node)
    | .openGate => some (.openGate e.node)
    | .closeGate => some (.closeGate e.node)
    | .loadOn => if r.loadOnLost then some (.decision e.node true) else none
    | .ping =>
      if r.state = .powering ∧ r.step = some .confirming then some (.confirm e.node) else none
    | _ => none

/-- The demands of the nodes whose LOAD_ON the reset removed are released (R29, R63). -/
def State.releaseLost (s : State) : State :=
  (allAddrs.filter fun k => (s.node k).loadOnLost).foldl State.release s

/-- Every record as a keep reset leaves it (R29). -/
def State.keepRecords (s : State) : State :=
  { s with nodes := Vector.ofFn fun k => (s.node k).keepReset }

/-- Steps placed at the head of the backlog, in which of equal steps the first stays (R52, R70). -/
def State.putBackSteps (s : State) (sts : List MgmtStep) : State :=
  { s with chain := { s.chain with backlog := (sts ++ s.chain.backlog).eraseDups } }

/-- A window record after a keep reset (R117). -/
def Window.keepReset (w : Window) : Window :=
  { (if w.enabled then w.disabled else w) with enableStatus := .ok }

/-- The host side after a keep reset: queue and commands gone, windows disabled, enables and sticky bits
clear, slot EMPTY (R94, R117, R127, R132, R158, R169, R176). -/
def State.clearHostSide (s : State) (cause : ResetCause) : State :=
  { s with
    pins := { s.pins with busData := s.resetBusData }
    ctl :=
      { s.ctl with
        noticeIe := false, completionIe := false, budgetRefused := false, resetCause := cause }
    lbi := { s.lbi with slot := none, result := .ok }
    windows := Vector.ofFn fun i => (s.window i).keepReset
    queue := []
    chain := { s.chain with rescans := [], unfenceWaits := [] }
    mirror := { s.mirror with timers := Vector.replicate 8 none }
    cmd := { s.cmd with submitStatus := .none, reservations := 0, completions := [] }
    notices := { records := [], overflow := false } }

/-- A keep reset taken: the releases, the records, the tags, the host side, and the management steps put
back ahead of the backlog and served (R29, R69, R70, R94, R109). R70 takes those steps in this event, and R78
sends what they queue; R95 and 12.2 read no entry and no BUSY tag after it. The model follows R70 (the
model's choice, log 33). -/
def State.takeKeepReset (s : State) (cause : ResetCause) : State :=
  let back := s.queue.filterMap s.putBack
  let s1 := s.releaseLost.keepRecords.holdBusyTags
  ((s1.clearHostSide cause).putBackSteps back).finish

/-! ### Lines -/

/-- The level that KEEP_N is sampled at, and RESET_N low. -/
def State.linesLow (s : State) (keepN : Bool) : State :=
  { s with pins := { s.pins with resetN := false, keepN := keepN } }

/-- Supply valid and power-on hold over (R175). -/
def State.powered (s : State) : Bool := s.pins.supplyValid && !s.pins.powerOnHold

/-- A low of RESET_N takes one reset, with what KEEP_N is then (R174): in a part whose RESET_N is low already
the line does nothing more (log 17). In the hold, or without supply, only the levels are taken (R175; log 17). -/
def State.resetLine (s : State) (keepN : Bool) (take : State → State) : State :=
  if s.powered then (if s.pins.resetN then take s else s) else s.linesLow keepN

/-- RESET_N low for 1 us with KEEP_N high: a bus reset (R174). -/
def State.busResetLine (s : State) : State := s.resetLine true State.takeBusReset

/-- RESET_N low for 1 us with KEEP_N low: a keep reset (R174). After a bus reset, a fall of KEEP_N while RESET_N
stays low is no keep reset. -/
def State.keepResetLine (s : State) : State :=
  s.resetLine false fun s => (s.linesLow false).takeKeepReset .keepPin

/-- The power-on hold ends after 5 ms; a RESET_N held low then takes its own reset (R175; log 17). -/
def State.endHold (s : State) : State :=
  if s.pins.supplyValid && s.pins.powerOnHold then
    let s1 := { s with pins := { s.pins with powerOnHold := false } }
    if s1.pins.resetN then s1 else if s1.pins.keepN then s1.takeBusReset else s1.takeKeepReset .keepPin
  else s

/-- KEEP_N rises: a bus reset while a keep reset holds RESET_N low, and otherwise only the line's level
(R174). -/
def State.keepRises (s : State) : State :=
  if s.powered && !s.pins.resetN && !s.pins.keepN then s.takeBusReset
  else { s with pins := { s.pins with keepN := true } }

end Sys2Proof.Machine
end

