-- ==== Sys2Proof/Machine/Timers.lean ====
section
/-! DEFINITION. What each timer's expiry does; the expiry of a timer that does not run has no effect
(R34, R48, R56, R68, R76, R77, R84, R106, R132). -/

namespace Sys2Proof.Machine

/-- The timer of a BUSY tag runs for a use (R76). -/
def Flight.timed (f : Flight) (use : TimerUse) : Bool :=
  match f.timer with
  | some x => x.use == use
  | none => false

/-- A retransmission is due: the tag's timer is stopped, the request joins the tail of the resend list,
and an entry is IN_FLIGHT (R84). -/
def State.resendDue (s : State) (t : TagId) (f : Flight) : State :=
  let s1 := s.setTag t (.busy { f with timer := none })
  ({ s1 with disp := { s1.disp with resend := s1.disp.resend ++ [t] } }).modEntryOf t fun e =>
    { e with state := .inFlight }

/-- The comparison of R84 at an expiry of a BUSY tag's timer. -/
def State.attemptExpired (s : State) (t : TagId) (f : Flight) : State :=
  if s.attemptsOf t f < 1 + s.ctl.retryLimit then s.resendDue t f else s.finalFailure t f

/-- The response or backoff timer of tag `t` expires (R84). -/
def State.tagExpiry (s : State) (t : TagId) (use : TimerUse) : State :=
  match s.tag t with
  | .busy f => if f.timed use then (s.attemptExpired t f).finish else s
  | _ => s

/-- The hold timer of tag `t` expires, and the tag is FREE (R77). -/
def State.holdExpiry (s : State) (t : TagId) : State :=
  match s.tag t with
  | .hold _ => (s.setTag t .free).finish
  | _ => s

/-- The chain settle timer stopped. -/
def State.stopChainTimer (s : State) : State :=
  { s with chain := { s.chain with settleTimer := none } }

/-- The end of RAMP: a walk from 1 if one was requested or a RESCAN is attached, else RUNNING (R48). -/
def State.endRamp (s : State) : State :=
  let walks := s.chain.rewalk || !s.chain.rescans.isEmpty
  let s1 := { s.stopChainTimer with chain := { s.stopChainTimer.chain with rampPhase := none, rewalk := false } }
  if walks then s1.walkAssign 0 else { s1 with chain := { s1.chain with state := .running } }

/-- The chain settle timer expires in RAMP (R48, R49). -/
def State.rampExpiry (s : State) : State :=
  if s.chain.state = .ramp ∧ s.chain.settleTimer.isSome then
    match s.chain.rampPhase with
    | some .dark => s.rampRising.lookAtFault.finish
    | some .rising => s.endRamp.finish
    | none => s
  else s

/-- The chain settle timer expires in walk step SETTLING: the walk goes to the next address (R56). -/
def State.walkExpiry (s : State) : State :=
  if s.chain.state = .walking ∧ s.chain.walkStep = some .settling ∧ s.chain.settleTimer.isSome then
    match s.chain.pointer.bind fun k => addrOf? (addrNum k + 1) with
    | none => s
    | some k => (s.stopChainTimer.walkAssign k).finish
  else s

/-- The dark wait's settle expires: OPEN at the walk pointer becomes due (R106). -/
def State.darkExpiry (s : State) : State :=
  if s.chain.darkWait = some .dark ∧ s.chain.settleTimer.isSome then
    match s.chain.pointer with
    | none => s
    | some k =>
      (({ s.stopChainTimer with chain := { s.stopChainTimer.chain with darkWait := none } }).makeDue
        (.openGate k)).finish
  else s

/-- The settle timer of node `k` expires: a POWERING node in step SETTLING is to be confirmed (R34). -/
def State.nodeExpiry (s : State) (k : Addr) : State :=
  if (s.chain.nodeTimers[k.val]).isSome then
    let s1 := s.stopNodeTimer k
    if (s.node k).state = .powering ∧ (s.node k).step = some .settling then
      ((s1.modNode k fun r => { r with step := some .confirming }).makeDue (.confirm k)).finish
    else s1
  else s

/-- The refresh timer of window `i` expires: it starts again, and a timed request is made (R132, R133). -/
def State.refreshExpiry (s : State) (i : WinIx) : State :=
  if (s.mirror.timers[i.val]).isSome then
    ((s.setRefreshTimer i (some (s.window i).interval.toNat)).refreshRequest i).finish
  else s

end Sys2Proof.Machine
end

