-- ==== Sys2Proof/Machine/HostWrite.lean ====
section
/-! DEFINITION. Host writes: CONTROL, STATUS, timing words, BUDGET, the directory view, and the decoder of
the whole 4 KiB window (R45, R62, R166, R168, R170, R171, R176 to R179, 12.2). -/

namespace Sys2Proof.Machine

/-- The four fields of CONTROL set to the written values (R168, R177). -/
def Control.write (c : Control) (v : Word) : Control :=
  { c with
    chainEnable := bitAt v 0
    autoRewalk := bitAt v 1
    noticeIe := bitAt v 2
    completionIe := bitAt v 3 }

/-- A host write to CONTROL: a keep reset if SOFT_RESET is set, otherwise the four fields, and what a
change of CHAIN_ENABLE starts or stops (R47, R51, R176, R177). -/
def State.controlWrite (s : State) (v : Word) : State :=
  if bitAt v 15 then s.takeKeepReset .soft
  else
    let s1 := { s with ctl := s.ctl.write v }
    if s.ctl.chainEnable = bitAt v 0 then s1
    else if bitAt v 0 then s1.enableChain.finish
    else s1.disableChain.finish

/-- A host write to STATUS: each sticky field is cleared by a 1 at its own bit (R166, R178). -/
def State.statusWrite (s : State) (v : Word) : State :=
  { s with
    ctl := { s.ctl with budgetRefused := s.ctl.budgetRefused && !bitAt v 0 }
    notices := { s.notices with overflow := s.notices.overflow && !bitAt v 1 } }

/-- The values a timing register takes (R179). -/
def timingAccepts (r : TimingReg) (n : Nat) : Bool :=
  match r with
  | .settle => decide (1 ≤ n)
  | .timeout => decide (2 ≤ n)
  | .retryLimit => decide (n ≤ 7)
  | .failThreshold => decide (1 ≤ n) && decide (n ≤ 7)
  | .holdLimit => decide (1 ≤ n)

/-- A timing register set (R179). -/
def Control.setTiming (c : Control) (r : TimingReg) (n : Nat) : Control :=
  match r with
  | .settle => { c with settle := n }
  | .timeout => { c with timeout := n }
  | .retryLimit => { c with retryLimit := n }
  | .failThreshold => { c with failThreshold := n }
  | .holdLimit => { c with holdLimit := n }

/-- A host write to a timing register: a value out of its range is refused (R179). -/
def State.timingWrite (s : State) (r : TimingReg) (v : Word) : State :=
  let n := (lowByte v).toNat
  if timingAccepts r n then { s with ctl := s.ctl.setTiming r n } else s

/-- A host write to BUDGET (R62): taken if it is not below COMMITTED, with admission service if BUDGET
rose, and otherwise refused. -/
def State.budgetWrite (s : State) (v : Word) : State :=
  let n := (lowByte v).toNat
  if s.chain.committed ≤ n then
    let s1 := { s with chain := { s.chain with budget := n } }
    (if s.chain.budget < n then s1.requestService else s1).finish
  else { s with ctl := { s.ctl with budgetRefused := true } }

/-- A host write to the directory word that holds refresh_on_attn (R45). -/
def State.refreshOnAttnWrite (s : State) (k : Addr) (v : Word) : State :=
  if (s.node k).state = .vacant then s
  else s.modNode k fun r => { r with refreshOnAttn := bitAt v 0 }

/-- The directory record and word at a byte offset of the view (12.2). -/
def directoryWord (b : Nat) : Option (Addr × Nat) :=
  if 0x200 ≤ b then (addrOf? ((b - 0x200) / 16 + 1)).map fun k => (k, (b - 0x200) % 16 / 2) else none

/-- The window record and word at a byte offset of the Window Table (12.2). -/
def windowWord (b : Nat) : Option (WinIx × Fin 8) :=
  if 0x100 ≤ b ∧ b < 0x180 then
    some (Fin.ofNat 8 ((b - 0x100) / 16), Fin.ofNat 8 ((b - 0x100) % 16 / 2))
  else none

/-- A host write below the aperture, by its byte offset (R170, R171, 12.2): words that have no writable
field, and unassigned words, ignore it. -/
def State.writeRegister (s : State) (b : Nat) (v : Word) : State :=
  if b = 0x000 then s.controlWrite v
  else if b = 0x002 then s.statusWrite v
  else if b = 0x004 then s.timingWrite .settle v
  else if b = 0x006 then s.timingWrite .timeout v
  else if b = 0x008 then s.timingWrite .retryLimit v
  else if b = 0x00A then s.timingWrite .failThreshold v
  else if b = 0x00C then s.timingWrite .holdLimit v
  else if b = 0x00E then s.budgetWrite v
  else if 0x080 ≤ b ∧ b < 0x0A8 then s.stagingWrite ((b - 0x080) / 2) v
  else if b = 0x0A8 then s.submit v
  else if b = 0x0B6 then s.popCompletion
  else if b = 0x186 then s.popNotice
  else
    match windowWord b, directoryWord b with
    | some (i, word), _ => s.windowWrite i word v
    | none, some (k, 6) => s.refreshOnAttnWrite k v
    | none, _ => s

/-- A host write at word address A[11:1] (R170). -/
def State.hostWrite (s : State) (a : BitVec 11) (v : Word) : State :=
  if 0x400 ≤ a.toNat then s.apertureAccess (fieldAt (a.setWidth 16) 0 10) (.write v)
  else s.writeRegister (2 * a.toNat) v

/-- A host cycle (R170): not recognised while the part is unpowered, in its power-on hold, held by
RESET_N, or while a cycle is held, and then without effect (log 7). D[15:0] of the last cycle is
released. -/
def State.hostCycle (s : State) (f : State → State) : State :=
  if s.hostReady then f { s with pins := { s.pins with busData := none } } else s

end Sys2Proof.Machine
end

