-- ==== Sys2Proof/Machine/HostRead.lean ====
section
/-! DEFINITION. What a host read of each word of the window returns (R44, R95, R126, R157, R163, R165, R171,
R177, R178, R180, 12.2 to 12.5), and the host cycle as a whole (R170, R172). A read outside the aperture has no side
effect. -/

namespace Sys2Proof.Machine

/-! ### Control region (12.3) -/

/-- CONTROL. -/
def State.controlWord (s : State) : Word :=
  placeBit s.ctl.chainEnable 0 ||| placeBit s.ctl.autoRewalk 1 ||| placeBit s.ctl.noticeIe 2 |||
    placeBit s.ctl.completionIe 3

/-- STATUS. -/
def State.statusWord (s : State) : Word :=
  placeBit s.ctl.budgetRefused 0 ||| placeBit s.notices.overflow 1 |||
    place s.ctl.resetCause.code 4 ||| placeBit s.chain.pwrEn 8 ||| placeBit (!s.pins.chainFaultN) 9 |||
    placeBit s.pins.upCarrier 10

/-- The phase field of the chain status word: in RAMP the ramp phase, in WALKING the walk step. -/
def ChainManager.phaseCode (c : ChainManager) : Nat :=
  match c.state with
  | .ramp =>
    match c.rampPhase with
    | some .dark => 1
    | some .rising => 2
    | none => 0
  | .walking =>
    match c.walkStep with
    | some .assigning => 1
    | some .opening => 2
    | some .settling => 3
    | none => 0
  | _ => 0

/-- The chain status word. -/
def State.chainStatusWord (s : State) : Word :=
  place s.chain.state.code 0 ||| place s.chain.phaseCode 3 ||| place s.chain.tail 5 |||
    placeBit s.chain.tailGateOpen 10 ||| place ((s.chain.pointer.map addrNum).getD 0) 11

/-- The counts word of the queue status (R95). -/
def State.queueCountsWord (s : State) : Word :=
  place s.queue.length 0 ||| place s.hostCount 5 ||| place s.disp.resend.length 12

/-- The code of a tag's state. -/
def Tag.code : Tag → Nat
  | .free => 0
  | .busy _ => 1
  | .hold _ => 2

/-- The tags word of the queue status (R95). -/
def State.queueTagsWord (s : State) : Word :=
  allTags.foldl (fun w t => w ||| place (s.tag t).code (2 * t.val)) 0#16

/-! ### Command region (12.4) -/

/-- A staging word, at byte offset 0x080 + 2n (R144). -/
def Staging.word (g : Staging) (n : Nat) : Word :=
  match n with
  | 0 => place g.kind.toNat 0 ||| placeBit g.powerOff 4 ||| place g.node.toNat 8
  | 1 => g.address
  | 2 => place g.count.toNat 0 ||| place g.window.toNat 8
  | 3 => place g.target.toNat 0
  | m + 4 => g.data.toList.getD m 0#16

/-- The command status word (R146). -/
def CommandPort.statusWord (p : CommandPort) : Word :=
  place p.reservations 0 ||| place p.completions.length 8

/-- A completion head word at a byte offset (R157). -/
def Completion.word (c : Completion) (b : Nat) : Word :=
  if b = 0x0B0 then place c.ticket.toNat 0 ||| place c.kind.code 8
  else if b = 0x0B2 then place c.status.code 0 ||| place c.node 8
  else if b = 0x0B4 then place c.count 0
  else if 0x0C0 ≤ b ∧ b < 0x0E0 then c.data.getD ((b - 0x0C0) / 2) 0#16
  else 0#16

/-- The completion head words, 0x0000 while the queue is empty (R157). -/
def CommandPort.headWord (p : CommandPort) (b : Nat) : Word :=
  match p.completions with
  | [] => 0#16
  | c :: _ => c.word b

/-! ### Window, directory and notice records (12.5) -/

/-- A word of a window record (R111). -/
def Window.word (w : Window) (n : Fin 8) : Word :=
  match n with
  | 0 =>
    placeBit w.enabled 0 ||| place w.kind.toNat 1 ||| placeBit w.writeProtect 3 |||
      place w.node.toNat 4 ||| placeBit w.attached 9 ||| placeBit w.stale 10 |||
      place w.enableStatus.code 11
  | 1 => place w.base.toNat 0
  | 2 => place w.length.toNat 0
  | 3 => w.remoteBase
  | 4 => place w.interval.toNat 0
  | 5 => w.boundIncarnation
  | 6 => place w.mirrorSegment 0
  | _ => w.generation

/-- A word of the directory view of address `k` (R44). -/
def State.directoryView (s : State) (k : Addr) (n : Nat) : Word :=
  let r := s.node k
  match n with
  | 0 => place r.state.code 0 ||| place (stepCode r.step) 3 ||| place (s.admissionPosition k) 6
  | 1 => r.incarnation
  | 2 => place r.cls.toNat 8 ||| place r.revision.toNat 0
  | 3 => place (r.span.getD 0 / 16) 0
  | 4 =>
    place r.demand.toNat 0 ||| placeBit r.attnCapable 4 ||| placeBit r.powered 5 |||
      placeBit r.loadFault 6
  | 5 =>
    place r.failCount 0 ||| placeBit r.nextSeq 3 ||| placeBit r.resync 4 |||
      placeBit r.inFlightTag.isSome 5 ||| place ((r.inFlightTag.map (·.val)).getD 0) 6 |||
      placeBit r.attnToggle.isSome 9 ||| placeBit (r.attnToggle.getD false) 10 ||| placeBit r.ackOwed 11
  | 6 => placeBit r.refreshOnAttn 0
  | _ => 0#16

/-- A notice head word at a byte offset, 0x0000 while the queue is empty (R163). -/
def NoticeQueue.headWord (q : NoticeQueue) (b : Nat) : Word :=
  match q.records with
  | [] => 0#16
  | n :: _ =>
    if b = 0x180 then place n.node 0 ||| place n.kind.code 8
    else if b = 0x182 then n.detail
    else if b = 0x184 then place n.repeats 0
    else 0#16

/-- The notice occupancy word (R165). -/
def NoticeQueue.occupancyWord (q : NoticeQueue) : Word :=
  place q.records.length 0 ||| placeBit q.overflow 15

/-! ### The window -/

/-- A read of the control region, byte offsets 0x000 to 0x07F (12.2). -/
def State.readControl (s : State) (b : Nat) : Word :=
  if b = 0x000 then s.controlWord
  else if b = 0x002 then s.statusWord
  else if b = 0x004 then place s.ctl.settle 0
  else if b = 0x006 then place s.ctl.timeout 0
  else if b = 0x008 then place s.ctl.retryLimit 0
  else if b = 0x00A then place s.ctl.failThreshold 0
  else if b = 0x00C then place s.ctl.holdLimit 0
  else if b = 0x00E then place s.chain.budget 0
  else if b = 0x010 then place s.chain.committed 0
  else if b = 0x012 then place s.lbi.result.code 0
  else if b = 0x014 then s.chainStatusWord
  else if b = 0x016 then s.queueCountsWord
  else if b = 0x018 then s.queueTagsWord
  else if b = 0x070 then Config.partCode
  else if b = 0x072 then Config.revision
  else if b = 0x074 then Config.capacity
  else 0#16

/-- A read of the command region, byte offsets 0x080 to 0x0FF (12.2). -/
def State.readCommand (s : State) (b : Nat) : Word :=
  if 0x080 ≤ b ∧ b < 0x0A8 then s.cmd.staging.word ((b - 0x080) / 2)
  else if b = 0x0AA then place s.cmd.submitStatus.code 0
  else if b = 0x0AC then s.cmd.statusWord
  else s.cmd.headWord b

/-- A read of a word below the aperture, by its byte offset (R171). -/
def State.readRegister (s : State) (b : Nat) : Word :=
  if b < 0x080 then s.readControl b
  else if b < 0x100 then s.readCommand b
  else if b = 0x188 then s.notices.occupancyWord
  else if 0x180 ≤ b ∧ b < 0x188 then s.notices.headWord b
  else
    match windowWord b, directoryWord b with
    | some (i, n), _ => (s.window i).word n
    | none, some (k, n) => s.directoryView k n
    | none, none => 0#16

/-- The word outside the aperture at a word address A[11:1], as a read returns it (R171, R172). -/
def State.hostRead (s : State) (a : BitVec 11) : Word := s.readRegister (2 * a.toNat)

/-- A host read at word address A[11:1] (R170, R172): the word is driven on D[15:0] until the strobe rises. -/
def State.hostReadCycle (s : State) (a : BitVec 11) : State :=
  if 0x400 ≤ a.toNat then s.apertureAccess (fieldAt (a.setWidth 16) 0 10) .read
  else { s with pins := { s.pins with busData := some (s.hostRead a) } }

/-- The access that the host's lines name at recognition, with the word on D[15:0]: none while CS_N or both
strobes are high, and a write with both strobes low (R170). -/
def strobedAccess (csN rdN wrN : Bool) (d : Word) : Option Access :=
  if csN then none else if !wrN then some (.write d) else if !rdN then some .read else none

/-- A recognised host access at word address A[11:1], handed to the owner of its region (R170). -/
def State.hostAccess (s : State) (a : BitVec 11) (x : Access) : State :=
  match x with
  | .read => s.hostReadCycle a
  | .write v => s.hostWrite a v

end Sys2Proof.Machine
end

