-- ==== Sys2Proof/Machine/ChainEvents.lean ====
section
/-! DEFINITION. The commands of the chain side: CHAIN_FAULT_N, carrier on UP, the transmitter,
and the frames received (R4, R8 to R10, R31, R40, R49, R59, R89, R90). -/

namespace Sys2Proof.Machine

/-- CHAIN_FAULT (R49, R178): CHAIN_FAULT_N is sampled at a level (log 15). -/
def execChainFault (high : Bool) (s : State) : Host.Outcome State Fault Refusal :=
  let s1 := { s with pins := { s.pins with chainFaultN := high } }
  .next (if s.chain.pwrEn && !high then s1.takeFault.finish else s1)

/-- UP_CARRIER_PRESENT (R3, R4): the flag is set while CHAIN_PWR_EN is asserted. -/
def execUpCarrierPresent (s : State) : Host.Outcome State Fault Refusal :=
  .next
    (if s.running then
      { s with
        pins := { s.pins with upCarrier := true }
        port := { s.port with carrierSeen := s.port.carrierSeen || s.chain.pwrEn } }
    else s)

/-- UP_CARRIER_LOST (R4, R102): with the flag set, it clears and a loss at address 1 is reported. -/
def execUpCarrierLost (s : State) : Host.Outcome State Fault Refusal :=
  let s1 := { s with pins := { s.pins with upCarrier := false } }
  .next
    (if s.port.carrierSeen then
      ({ s1 with port := { s1.port with carrierSeen := false } }.reportLoss 1).finish
    else s1)

/-- TRANSMITTER_FREE (R9, R78): the transmitter is IDLE, and the Dispatcher chooses. No frame is sent while CLK_IN
is absent (R181). -/
def execTransmitterFree (s : State) : Host.Outcome State Fault Refusal :=
  .next (s.clocked fun s => ({ s with port := { s.port with tx := none } }).finish)

/-- RECEIVE_DATA (R87 to R89). A count outside 1..16 is no accepted frame (R8). -/
def execReceiveData (src : BitVec 5) (t : TagId) (seq : Bool) (ws : List Word) (s : State) :
    Host.Outcome State Fault Refusal :=
  .next
    (if 1 ≤ ws.length ∧ ws.length ≤ Config.frameWords then
      s.fromChain fun s => s.receiveData src t seq ws
    else s)

/-- RECEIVE_DONE (R87 to R89). -/
def execReceiveDone (src : BitVec 5) (t : TagId) (seq : Bool) (s : State) :
    Host.Outcome State Fault Refusal :=
  .next (s.fromChain fun s => s.receiveDone src t seq)

/-- RECEIVE_REFUSE (R86 to R88, R90). -/
def execReceiveRefuse (src : BitVec 5) (t : TagId) (seq : Bool) (reason : Reason) (s : State) :
    Host.Outcome State Fault Refusal :=
  .next (s.fromChain fun s => s.receiveRefuse src t seq reason)

/-- RECEIVE_SENSE (R31, R55, R87 to R89). -/
def execReceiveSense (src : BitVec 5) (t : TagId) (seq : Bool) (ident : Identity) (s : State) :
    Host.Outcome State Fault Refusal :=
  .next (s.fromChain fun s => s.receiveSense src t seq ident)

/-- RECEIVE_ATTN (R40 to R42). -/
def execReceiveAttn (src : BitVec 5) (code : BitVec 8) (toggle : Bool) (s : State) :
    Host.Outcome State Fault Refusal :=
  .next (s.fromChain fun s => s.receiveAttn src code toggle)

/-- RECEIVE_HELLO (R59): whatever the source address. -/
def execReceiveHello (_src : BitVec 5) (s : State) : Host.Outcome State Fault Refusal :=
  .next (s.fromChain fun s => s.receiveHello)

/-- FRAME_DROPPED (R8, R10): the words of a frame on UP; words that are accepted are delivered (log 29). -/
def execFrameDropped (wire : List Word) (ended : Bool) (s : State) :
    Host.Outcome State Fault Refusal :=
  .next (s.receiveWire wire ended)

end Sys2Proof.Machine
end

