-- ==== Sys2Proof/Machine/CommandPort.lean ====
section
/-! DEFINITION. The commands of the Command Port and the Notice Queue: each kind is a SUBMIT
write that takes the staging record (R145, R147 to R153; log 6), and the two POP words (R157, R164). -/

namespace Sys2Proof.Machine

/-- READ (R147). -/
def execRead (w : Word) (s : State) : Host.Outcome State Fault Refusal :=
  .next (s.hostCycle fun s => s.submit w)

/-- WRITE (R147). -/
def execWrite (w : Word) (s : State) : Host.Outcome State Fault Refusal :=
  .next (s.hostCycle fun s => s.submit w)

/-- FENCE (R149, R37, R38). -/
def execFence (w : Word) (s : State) : Host.Outcome State Fault Refusal :=
  .next (s.hostCycle fun s => s.submit w)

/-- UNFENCE (R150, R37). -/
def execUnfence (w : Word) (s : State) : Host.Outcome State Fault Refusal :=
  .next (s.hostCycle fun s => s.submit w)

/-- NRESET (R148). -/
def execNreset (w : Word) (s : State) : Host.Outcome State Fault Refusal :=
  .next (s.hostCycle fun s => s.submit w)

/-- REFRESH (R151, R133). -/
def execRefresh (w : Word) (s : State) : Host.Outcome State Fault Refusal :=
  .next (s.hostCycle fun s => s.submit w)

/-- RESCAN (R152, R60). -/
def execRescan (w : Word) (s : State) : Host.Outcome State Fault Refusal :=
  .next (s.hostCycle fun s => s.submit w)

/-- CANCEL (R153). -/
def execCancel (w : Word) (s : State) : Host.Outcome State Fault Refusal :=
  .next (s.hostCycle fun s => s.submit w)

/-- SUBMIT_KIND_NAMES_NO_KIND (R145): BAD_COMMAND. -/
def execSubmitKindNamesNoKind (w : Word) (s : State) : Host.Outcome State Fault Refusal :=
  .next (s.hostCycle fun s => s.submit w)

/-- COMPLETION_POP (R157); the written value is ignored. -/
def execCompletionPop (_w : Word) (s : State) : Host.Outcome State Fault Refusal :=
  .next (s.hostCycle fun s => s.popCompletion)

/-- NOTICE_POP (R164); the written value is ignored. -/
def execNoticePop (_w : Word) (s : State) : Host.Outcome State Fault Refusal :=
  .next (s.hostCycle fun s => s.popNotice)

end Sys2Proof.Machine
end

