-- ==== Sys2Proof/Machine/HostBus.lean ====
section
/-! DEFINITION. The commands of the host bus: aperture, CONTROL, STATUS, timing, BUDGET and the
remaining words of the host window. -/

namespace Sys2Proof.Machine

/-- APERTURE_ACCESS (R118 to R122): a host access at aperture word `o`. -/
def execApertureAccess (o : BitVec 10) (access : Access) (s : State) :
    Host.Outcome State Fault Refusal :=
  .next (s.hostCycle fun s => s.apertureAccess o access)

/-- HOST_CYCLE_ABORT (R173): the held cycle ends as at an early expiry of its hold timer, and D[15:0] is not
driven; with the slot EMPTY the strobe's rise ends the data phase (R172). -/
def execHostCycleAbort (s : State) : Host.Outcome State Fault Refusal :=
  .next { s.expireHold with pins := { s.expireHold.pins with busData := none } }

/-- CHAIN_ENABLE_SET (R47, R177). -/
def execChainEnableSet (w : Word) (s : State) : Host.Outcome State Fault Refusal :=
  .next (s.hostCycle fun s => s.controlWrite w)

/-- CHAIN_ENABLE_CLEAR (R51, R177). -/
def execChainEnableClear (w : Word) (s : State) : Host.Outcome State Fault Refusal :=
  .next (s.hostCycle fun s => s.controlWrite w)

/-- AUTO_REWALK_WRITE (R177). -/
def execAutoRewalkWrite (w : Word) (s : State) : Host.Outcome State Fault Refusal :=
  .next (s.hostCycle fun s => s.controlWrite w)

/-- NOTICE_IE_WRITE (R168, R177). -/
def execNoticeIeWrite (w : Word) (s : State) : Host.Outcome State Fault Refusal :=
  .next (s.hostCycle fun s => s.controlWrite w)

/-- COMPLETION_IE_WRITE (R168, R177). -/
def execCompletionIeWrite (w : Word) (s : State) : Host.Outcome State Fault Refusal :=
  .next (s.hostCycle fun s => s.controlWrite w)

/-- SOFT_RESET (R176). -/
def execSoftReset (w : Word) (s : State) : Host.Outcome State Fault Refusal :=
  .next (s.hostCycle fun s => s.controlWrite w)

/-- BUDGET_REFUSED_CLEAR (R178). -/
def execBudgetRefusedClear (w : Word) (s : State) : Host.Outcome State Fault Refusal :=
  .next (s.hostCycle fun s => s.statusWrite w)

/-- NOTICE_OVERFLOW_CLEAR (R166, R178). -/
def execNoticeOverflowClear (w : Word) (s : State) : Host.Outcome State Fault Refusal :=
  .next (s.hostCycle fun s => s.statusWrite w)

/-- TIMING_REGISTER_WRITE (R179). -/
def execTimingRegisterWrite (r : TimingReg) (w : Word) (s : State) :
    Host.Outcome State Fault Refusal :=
  .next (s.hostCycle fun s => s.timingWrite r w)

/-- BUDGET_WRITE (R62). -/
def execBudgetWrite (w : Word) (s : State) : Host.Outcome State Fault Refusal :=
  .next (s.hostCycle fun s => s.budgetWrite w)

/-- REGISTER_WRITE (R170 to R172): a host write at word address `a`, or the host read there, which has no row of
its own (log 34). -/
def execRegisterWrite (a : BitVec 11) (access : Access) (s : State) : Host.Outcome State Fault Refusal :=
  .next (s.hostCycle fun s => s.hostAccess a access)

end Sys2Proof.Machine
end

