-- ==== Sys2Proof/Machine/ResetLines.lean ====
section
/-! DEFINITION. The commands of the supply, RESET_N and KEEP_N (R174, R175). -/

namespace Sys2Proof.Machine

/-- POWER_ON_RESET (R175). -/
def execPowerOnReset (s : State) : Host.Outcome State Fault Refusal :=
  .next s.takePowerOn

/-- POWER_ON_HOLD_END (R175): 5 ms after the supply is valid. -/
def execPowerOnHoldEnd (s : State) : Host.Outcome State Fault Refusal :=
  .next s.endHold

/-- BUS_RESET (R174). -/
def execBusReset (s : State) : Host.Outcome State Fault Refusal :=
  .next s.busResetLine

/-- KEEP_RESET (R174). -/
def execKeepReset (s : State) : Host.Outcome State Fault Refusal :=
  .next s.keepResetLine

/-- KEEP_N_RISE (R174). -/
def execKeepNRise (s : State) : Host.Outcome State Fault Refusal :=
  .next s.keepRises

/-- RESET_RELEASE (R175): the rise of RESET_N is not itself a reset. -/
def execResetRelease (s : State) : Host.Outcome State Fault Refusal :=
  .next { s with pins := { s.pins with resetN := true } }

/-- SUPPLY_BELOW_BROWN_OUT (R175). -/
def execSupplyBelowBrownOut (s : State) : Host.Outcome State Fault Refusal :=
  .next s.takeBrownOut

end Sys2Proof.Machine
end

