-- ==== Sys2Proof/Machine/TimerEvents.lean ====
section
/-! DEFINITION. The commands of the timers (R34, R48, R56, R77, R84, R106, R124, R132). While CLK_IN is absent no timer
expires (R181). -/

namespace Sys2Proof.Machine

/-- RESPONSE_TIMER_EXPIRY (R84, R96). -/
def execResponseTimerExpiry (t : TagId) (s : State) : Host.Outcome State Fault Refusal :=
  .next (s.clocked fun s => s.tagExpiry t .response)

/-- BACKOFF_TIMER_EXPIRY (R84, R86, R96). -/
def execBackoffTimerExpiry (t : TagId) (s : State) : Host.Outcome State Fault Refusal :=
  .next (s.clocked fun s => s.tagExpiry t .backoff)

/-- TAG_HOLD_EXPIRY (R77). -/
def execTagHoldExpiry (t : TagId) (s : State) : Host.Outcome State Fault Refusal :=
  .next (s.clocked fun s => s.holdExpiry t)

/-- RAMP_SETTLE_EXPIRY (R48, R49). -/
def execRampSettleExpiry (s : State) : Host.Outcome State Fault Refusal :=
  .next (s.clocked fun s => s.rampExpiry)

/-- WALK_SETTLE_EXPIRY (R56). -/
def execWalkSettleExpiry (s : State) : Host.Outcome State Fault Refusal :=
  .next (s.clocked fun s => s.walkExpiry)

/-- DARK_WAIT_EXPIRY (R106). -/
def execDarkWaitExpiry (s : State) : Host.Outcome State Fault Refusal :=
  .next (s.clocked fun s => s.darkExpiry)

/-- NODE_SETTLE_EXPIRY (R34). -/
def execNodeSettleExpiry (k : Addr) (s : State) : Host.Outcome State Fault Refusal :=
  .next (s.clocked fun s => s.nodeExpiry k)

/-- HOLD_LIMIT_EXPIRY (R122, R124). -/
def execHoldLimitExpiry (s : State) : Host.Outcome State Fault Refusal :=
  .next (s.clocked fun s => s.expireHold)

/-- REFRESH_TIMER_EXPIRY (R132, R133). -/
def execRefreshTimerExpiry (i : WinIx) (s : State) : Host.Outcome State Fault Refusal :=
  .next (s.clocked fun s => s.refreshExpiry i)

end Sys2Proof.Machine
end

