-- ==== Sys2Proof/Machine/WindowTable.lean ====
section
/-! DEFINITION. The commands of the Window Table and of the directory view (R45, R112, R113,
R116). -/

namespace Sys2Proof.Machine

/-- WINDOW_FIELD_WRITE (R112). -/
def execWindowFieldWrite (i : WinIx) (word : Fin 8) (w : Word) (s : State) :
    Host.Outcome State Fault Refusal :=
  .next (s.hostCycle fun s => s.windowWrite i word w)

/-- WINDOW_ENABLE (R113, R114): a write to word 0. -/
def execWindowEnable (i : WinIx) (w : Word) (s : State) : Host.Outcome State Fault Refusal :=
  .next (s.hostCycle fun s => s.windowWrite i 0 w)

/-- WINDOW_DISABLE (R116, R142): a write to word 0. -/
def execWindowDisable (i : WinIx) (w : Word) (s : State) : Host.Outcome State Fault Refusal :=
  .next (s.hostCycle fun s => s.windowWrite i 0 w)

/-- REFRESH_ON_ATTN_WRITE (R45). -/
def execRefreshOnAttnWrite (k : Addr) (w : Word) (s : State) : Host.Outcome State Fault Refusal :=
  .next (s.hostCycle fun s => s.refreshOnAttnWrite k w)

end Sys2Proof.Machine
end

