-- ==== Sys2Proof/Machine/Dispatch.lean ====
section
/-! DEFINITION. One arm per command: the call of its meaning. -/

namespace Sys2Proof.Machine

def exec (i : Instr) (s : State) : Host.Outcome State Fault Refusal :=
  match i with
  | .apertureAccess o access => Sys2Proof.Machine.execApertureAccess o access s
  | .hostCycleAbort => Sys2Proof.Machine.execHostCycleAbort s
  | .chainEnableSet w => Sys2Proof.Machine.execChainEnableSet w s
  | .chainEnableClear w => Sys2Proof.Machine.execChainEnableClear w s
  | .autoRewalkWrite w => Sys2Proof.Machine.execAutoRewalkWrite w s
  | .noticeIeWrite w => Sys2Proof.Machine.execNoticeIeWrite w s
  | .completionIeWrite w => Sys2Proof.Machine.execCompletionIeWrite w s
  | .softReset w => Sys2Proof.Machine.execSoftReset w s
  | .budgetRefusedClear w => Sys2Proof.Machine.execBudgetRefusedClear w s
  | .noticeOverflowClear w => Sys2Proof.Machine.execNoticeOverflowClear w s
  | .timingRegisterWrite r w => Sys2Proof.Machine.execTimingRegisterWrite r w s
  | .budgetWrite w => Sys2Proof.Machine.execBudgetWrite w s
  | .read w => Sys2Proof.Machine.execRead w s
  | .write w => Sys2Proof.Machine.execWrite w s
  | .fence w => Sys2Proof.Machine.execFence w s
  | .unfence w => Sys2Proof.Machine.execUnfence w s
  | .nreset w => Sys2Proof.Machine.execNreset w s
  | .refresh w => Sys2Proof.Machine.execRefresh w s
  | .rescan w => Sys2Proof.Machine.execRescan w s
  | .cancel w => Sys2Proof.Machine.execCancel w s
  | .completionPop w => Sys2Proof.Machine.execCompletionPop w s
  | .noticePop w => Sys2Proof.Machine.execNoticePop w s
  | .windowFieldWrite rec word w => Sys2Proof.Machine.execWindowFieldWrite rec word w s
  | .windowEnable n w => Sys2Proof.Machine.execWindowEnable n w s
  | .windowDisable n w => Sys2Proof.Machine.execWindowDisable n w s
  | .refreshOnAttnWrite k w => Sys2Proof.Machine.execRefreshOnAttnWrite k w s
  | .registerWrite a access => Sys2Proof.Machine.execRegisterWrite a access s
  | .powerOnReset => Sys2Proof.Machine.execPowerOnReset s
  | .powerOnHoldEnd => Sys2Proof.Machine.execPowerOnHoldEnd s
  | .busReset => Sys2Proof.Machine.execBusReset s
  | .keepReset => Sys2Proof.Machine.execKeepReset s
  | .keepNRise => Sys2Proof.Machine.execKeepNRise s
  | .resetRelease => Sys2Proof.Machine.execResetRelease s
  | .chainFault high => Sys2Proof.Machine.execChainFault high s
  | .upCarrierPresent => Sys2Proof.Machine.execUpCarrierPresent s
  | .upCarrierLost => Sys2Proof.Machine.execUpCarrierLost s
  | .transmitterFree => Sys2Proof.Machine.execTransmitterFree s
  | .receiveData src t seq ws => Sys2Proof.Machine.execReceiveData src t seq ws s
  | .receiveDone src t seq => Sys2Proof.Machine.execReceiveDone src t seq s
  | .receiveRefuse src t seq reason => Sys2Proof.Machine.execReceiveRefuse src t seq reason s
  | .receiveSense src t seq ident => Sys2Proof.Machine.execReceiveSense src t seq ident s
  | .receiveAttn src code toggle => Sys2Proof.Machine.execReceiveAttn src code toggle s
  | .receiveHello src => Sys2Proof.Machine.execReceiveHello src s
  | .frameDropped wire ended => Sys2Proof.Machine.execFrameDropped wire ended s
  | .responseTimerExpiry t => Sys2Proof.Machine.execResponseTimerExpiry t s
  | .backoffTimerExpiry t => Sys2Proof.Machine.execBackoffTimerExpiry t s
  | .tagHoldExpiry t => Sys2Proof.Machine.execTagHoldExpiry t s
  | .rampSettleExpiry => Sys2Proof.Machine.execRampSettleExpiry s
  | .walkSettleExpiry => Sys2Proof.Machine.execWalkSettleExpiry s
  | .darkWaitExpiry => Sys2Proof.Machine.execDarkWaitExpiry s
  | .nodeSettleExpiry k => Sys2Proof.Machine.execNodeSettleExpiry k s
  | .holdLimitExpiry => Sys2Proof.Machine.execHoldLimitExpiry s
  | .refreshTimerExpiry n => Sys2Proof.Machine.execRefreshTimerExpiry n s
  | .supplyBelowBrownOut => Sys2Proof.Machine.execSupplyBelowBrownOut s
  | .submitKindNamesNoKind w => Sys2Proof.Machine.execSubmitKindNamesNoKind w s

end Sys2Proof.Machine
end

