-- ==== Sys2Proof/Machine/NodeSide.lean ====
section
/-! DEFINITION. The node side of the chain protocol (R1 to R3, R6 to R8, R11 to R22): one node, beside the
part. No command of the part runs it; it says what the world that sends the RECEIVE commands does (log 26). -/

namespace Sys2Proof.Machine

/-- What the module's maker fixes: identity, and the registers that need the load domain, that are
read-only, and that have a default other than 0x0000 (R7, R17, R18). -/
structure NodeMake where
  ident : Identity
  needsLoad : List Nat
  readOnly : List Nat
  defaults : List PoolCell
  deriving DecidableEq, Repr

/-- An upstream frame that waits at a node for the frame in progress to end: the node's own, or one that
came from downstream (R12). -/
structure Outgoing where
  own : Bool
  frame : UpFrame
  deriving DecidableEq, Repr

/-- The state of a powered node (R2), the attention events that wait in its module (R20), the upstream
frame in progress, and those that wait behind it in the order in which they were complete (R12). -/
structure NodeSide where
  make : NodeMake
  address : Option Addr
  gateOpen : Bool
  loadOn : Bool
  expected : Bool
  stored : Option UpFrame
  attention : Option (BitVec 8 × Bool)
  waiting : List (BitVec 8)
  nextToggle : Bool
  carrierSeen : Bool
  registers : List PoolCell
  out : Option UpFrame
  line : List Outgoing
  deriving DecidableEq, Repr

/-- A node whose sense domain powers up (R2). -/
def NodeSide.powerUp (m : NodeMake) : NodeSide where
  make := m
  address := none
  gateOpen := false
  loadOn := false
  expected := false
  stored := none
  attention := none
  waiting := []
  nextToggle := false
  carrierSeen := false
  registers := m.defaults
  out := none
  line := []

/-- What the module's own state makes of a request: whether the node can start it, and whether a LOAD_ON
brings the load domain up (R14, R19). -/
structure NodeReadiness where
  canStart : Bool
  loadComesUp : Bool
  deriving DecidableEq, Repr

/-- The source address a node puts in a header: 0 while unaddressed (R6). -/
def NodeSide.source (n : NodeSide) : BitVec 5 := BitVec.ofNat 5 ((n.address.map addrNum).getD 0)

/-- An answer that echoes a request's tag and sequence bit (R13). -/
def NodeSide.answer (n : NodeSide) (f : DownFrame) (b : UpBody) : UpFrame :=
  { source := n.source, tag := f.tag, seq := f.seq, flag := false, body := b }

/-- The first check of R18 that a request for `count` registers from `a` fails. -/
def NodeSide.refusal (n : NodeSide) (op : Op) (a count : Nat) : Option Reason :=
  let inRange := fun r => decide (a ≤ r) && decide (r < a + count)
  if n.make.ident.spanWords ≤ a + count - 1 then some .range
  else if !n.loadOn && n.make.needsLoad.any inRange then some .noload
  else if op == .wr && n.make.readOnly.any inRange then some .readonly
  else none

/-- Words written to registers from an address upward, in address order (R18). -/
def writeRegisters : List PoolCell → Nat → List Word → List PoolCell
  | m, _, [] => m
  | m, a, w :: ws => writeRegisters (Memory.insert m a w) (a + 1) ws

/-- The words of registers from an address upward (R18). -/
def readRegisters (m : List PoolCell) (a count : Nat) : List Word :=
  (List.range count).map fun i => Memory.read m (a + i)

/-- The execution of a new sequenced request: its effect and its answer's body (R17 to R19). Each body
word stands where R5 puts it. -/
def NodeSide.execute (n : NodeSide) (op : Op) (body : List Word) (r : NodeReadiness) :
    NodeSide × UpBody :=
  let a := (body.headD 0#16).toNat
  let count := (fieldAt (body.getD 1 0#16) 0 5).toNat
  match op with
  | .rd =>
    match n.refusal .rd a count with
    | some why => (n, .refuse why)
    | none => (n, .data (readRegisters n.registers a count))
  | .wr =>
    match n.refusal .wr a count with
    | some why => (n, .refuse why)
    | none => ({ n with registers := writeRegisters n.registers a (body.drop 2) }, .done)
  | .openGate =>
    if n.gateOpen then (n, .done) else ({ n with gateOpen := true, carrierSeen := false }, .done)
  | .closeGate => ({ n with gateOpen := false, carrierSeen := false }, .done)
  | .loadOn =>
    if n.loadOn || r.loadComesUp then ({ n with loadOn := true }, .done)
    else ({ n with loadOn := false }, .refuse .noload)
  | .loadOff => ({ n with loadOn := false }, .done)
  | .nreset => ({ n with registers := n.make.defaults }, .done)
  | _ => (n, .done)

/-- The kinds a node may refuse BUSY (R14). -/
def Op.maybeBusy (op : Op) : Bool := op == .rd || op == .wr || op == .loadOn || op == .loadOff

/-- E after the execution of a new request (R14, R17). -/
def expectedAfter (op : Op) (e : Bool) : Bool := if op = .nreset then false else !e

/-- A sequenced request at its own node: a repetition, a REFUSE BUSY, or an execution (R14). -/
def NodeSide.sequenced (n : NodeSide) (op : Op) (f : DownFrame) (r : NodeReadiness) :
    NodeSide × Option UpFrame :=
  if f.seq ≠ n.expected then (n, n.stored)
  else if op.maybeBusy && !r.canStart then (n, some (n.answer f (.refuse .busy)))
  else
    let x := n.execute op f.body r
    let up := n.answer f x.2
    ({ x.1 with expected := expectedAfter op n.expected, stored := some up }, some up)

/-! ### The upstream port (R12) -/

/-- An upstream frame is complete at the node. With no frame in progress it goes out; otherwise it waits
at the end of the line, where four frames from downstream have room (R12; log 36). -/
def NodeSide.offer (n : NodeSide) (own : Bool) (f : UpFrame) : NodeSide :=
  if n.out.isNone then { n with out := some f }
  else if own || decide (n.line.countP (!·.own) < 4) then { n with line := n.line ++ [⟨own, f⟩] }
  else n

/-- The frame in progress has ended: the one that was complete first goes out (R12). -/
def NodeSide.sent (n : NodeSide) : NodeSide :=
  match n.line with
  | [] => { n with out := none }
  | x :: xs => { n with out := some x.frame, line := xs }

/-- An upstream frame arrives from downstream, which a node beyond an OPEN gate alone can send (R1, R12). R12 does not
say what a node does with one that is corrupted or cut off: none enters its line here (the model's choice, log 37). -/
def NodeSide.fromBelow (n : NodeSide) (f : UpFrame) : NodeSide := if n.gateOpen then n.offer false f else n

/-! ### Attentions and HELLO (R20 to R22) -/

/-- The reserved attention codes (R22). -/
def isReserved (code : BitVec 8) : Bool := code == Config.downstreamLost || code == Config.loadFaultCode

/-- The ATTN that a node sends, and sends again every 10 ms, while an attention is outstanding (R20). -/
def NodeSide.attnFrame (n : NodeSide) : Option UpFrame :=
  match n.address, n.attention with
  | some _, some (c, x) => some { source := n.source, tag := 0, seq := false, flag := x, body := .attn c }
  | _, _ => none

/-- The HELLO that an unaddressed node sends every 50 ms (R21). -/
def NodeSide.helloFrame (n : NodeSide) : Option UpFrame :=
  match n.address with
  | none => some { source := 0#5, tag := 0, seq := false, flag := false, body := .hello }
  | some _ => none

/-- A frame of the node's own, if it has one to send, is complete (R12, R20, R21). -/
def NodeSide.sendOwn (n : NodeSide) (f : Option UpFrame) : NodeSide :=
  match f with
  | none => n
  | some f => n.offer true f

/-- The attention that is raised next, with the next toggle, and its ATTN sent at once: a reserved code ahead
of the others (R20). -/
def NodeSide.raiseNext (n : NodeSide) : NodeSide :=
  match n.attention, n.address, (n.waiting.find? isReserved).or n.waiting.head? with
  | none, some _, some c =>
    let n1 := { n with attention := some (c, n.nextToggle), waiting := n.waiting.erase c }
    n1.sendOwn n1.attnFrame
  | _, _, _ => n

/-- An attention event in the module (R20, R22): an unaddressed node keeps it until it has an address, and a
node that is not attention-capable raises the reserved codes only (R7). -/
def NodeSide.attend (n : NodeSide) (code : BitVec 8) : NodeSide :=
  if isReserved code || n.make.ident.attnCapable then ({ n with waiting := n.waiting ++ [code] }).raiseNext
  else n

/-- An ATTN_ACK: the toggle of the outstanding attention clears it, any other is discarded (R20). -/
def NodeSide.acknowledged (n : NodeSide) (toggle : Bool) : NodeSide :=
  match n.attention with
  | none => n
  | some (_, x) =>
    if x = toggle then ({ n with attention := none, nextToggle := !n.nextToggle }).raiseNext else n

/-! ### The downstream path (R11, R16) -/

/-- The SENSE of a node that holds, or takes, address `k`; E 0 and no stored response (R16). Events that
waited for the address are raised behind it (R20). -/
def NodeSide.assigned (n : NodeSide) (k : Addr) (f : DownFrame) : NodeSide :=
  let n1 := { n with address := some k, expected := false, stored := none }
  (n1.offer true
    { source := n1.source, tag := f.tag, seq := false, flag := false, body := .sense n.make.ident }).raiseNext

/-- Where a downstream frame goes at a node (R11, R16). -/
inductive Passage where
  | consume
  | forward
  | discard
  deriving DecidableEq, Repr

/-- The passage of a downstream frame, by its destination and by the address that an ASSIGN gives (R11, R16). A
frame for another node goes through an OPEN gate only. -/
def NodeSide.passage (n : NodeSide) (dest : Nat) (assigns : Option Addr) : Passage :=
  match n.address with
  | none => if dest = 0 ∧ assigns.isSome then .consume else .discard
  | some k =>
    if dest = 0 ∧ assigns = some k ∨ dest = addrNum k then .consume
    else if n.gateOpen then .forward
    else .discard

/-- The address an ASSIGN gives (R16). -/
def DownFrame.newAddress (f : DownFrame) : Option Addr := addrOf? (fieldAt (f.body.headD 0#16) 0 5).toNat

/-- The node after a frame that it consumes (R14 to R20). An ASSIGN has destination 0 (R5). -/
def NodeSide.consume (n : NodeSide) (f : DownFrame) (r : NodeReadiness) : NodeSide :=
  match f.kind with
  | .attnAck => n.acknowledged f.flag
  | .request .ping => ({ n with expected := f.flag }).offer true (n.answer f .done)
  | .request .assign =>
    match f.newAddress with
    | some k => if f.dest = 0 then n.assigned k f else n
    | none => n
  | .request op => (n.sequenced op f r).1.sendOwn (n.sequenced op f r).2

/-- The words of a downstream frame at the node's upstream port: the node after them, and the words that it
sends on (R8, R11). It forwards them as they came, their CRC unchecked, and drops a frame that is corrupted or
malformed where it would consume it. -/
def NodeSide.receiveWire (n : NodeSide) (wire : List Word) (ended : Bool) (r : NodeReadiness) :
    NodeSide × Option (List Word) :=
  match n.passage (wireDest wire) (wireAssigns wire) with
  | .consume =>
    match acceptDown wire ended with
    | none => (n, none)
    | some f => (n.consume f r, none)
  | .forward => (n, some wire)
  | .discard => (n, none)

/-! ### The segment and the load -/

/-- Carrier from the next node becomes present at the downstream port (R3). -/
def NodeSide.carrierPresent (n : NodeSide) : NodeSide :=
  if n.gateOpen then { n with carrierSeen := true } else n

/-- Carrier is lost at the downstream port: with the flag set it clears, and DOWNSTREAM_LOST is raised
(R3, R22). -/
def NodeSide.carrierLost (n : NodeSide) : NodeSide :=
  if n.carrierSeen then ({ n with carrierSeen := false }).attend Config.downstreamLost else n

/-- The load domain trips outside a LOAD_ON: the switch opens, and LOAD_FAULT is raised (R22). -/
def NodeSide.loadTrips (n : NodeSide) : NodeSide :=
  if n.loadOn then ({ n with loadOn := false }).attend Config.loadFaultCode else n

/-- The node at position k is powered exactly while CHAIN_PWR_EN is asserted and the gates of the nodes
before it are all OPEN (R1). -/
def nodePowered (pwrEn : Bool) (gatesBefore : List Bool) : Bool := pwrEn && gatesBefore.all id

end Sys2Proof.Machine
end

