-- ==== Sys2Proof/Safety.lean ====
section
/-! DEFINITION. What a good state is, in the laws that the rules state of every moment, and the terms of the
statements. The laws: the Notice Queue (R161), the completions (R146), the timing registers (R179), the resend list
(R85), the Outbound Queue (R72, R133), the power account (R63, R65), the windows (R113, R114, R129), and the work
that no event leaves undone (R73, R78). The law of the Mirror Pool is `Memory.wf`. -/
namespace Sys2Proof.Machine

/-- At most 32 notices, never two with the same node and kind, repeats 1..255 (R159, R161). -/
structure NoticesOk (q : NoticeQueue) : Prop where
  size : q.records.length ≤ Config.noticeSize
  distinct : (q.records.map fun r => (r.node, r.kind)).Nodup
  repeats : ∀ r ∈ q.records, 1 ≤ r.repeats ∧ r.repeats ≤ 255

/-- Reservations and records never exceed 8 (R146). -/
def CompletionsOk (p : CommandPort) : Prop :=
  p.reservations + p.completions.length ≤ Config.completionSize

/-- Every timing register holds a value in its range (R179). -/
structure TimingOk (c : Control) : Prop where
  settle : 1 ≤ c.settle ∧ c.settle ≤ 255
  timeout : 2 ≤ c.timeout ∧ c.timeout ≤ 255
  retryLimit : c.retryLimit ≤ 7
  failThreshold : 1 ≤ c.failThreshold ∧ c.failThreshold ≤ 7
  holdLimit : 1 ≤ c.holdLimit ∧ c.holdLimit ≤ 255

/-- The resend list holds no request twice, and each of its requests holds a BUSY tag whose timer is
stopped (R84, R85). -/
structure ResendOk (d : Dispatcher) : Prop where
  once : d.resend.Nodup
  due : ∀ t ∈ d.resend, ∃ f, d.tags[t.val] = .busy f ∧ f.timer = none

/-- At most 16 entries, at most 14 of them host-class, and at most one refresh job for each window (R72,
R133). -/
structure QueueOk (q : List Entry) : Prop where
  size : q.length ≤ Config.queueSize
  hosts : q.countP Entry.isHost ≤ Config.hostClassSize
  jobs : ∀ i : WinIx, q.countP (·.isJobOf i) ≤ 1

/-- The sum of demand over the powered records (R63). -/
def State.poweredDemand (s : State) : Nat :=
  ((allAddrs.filter fun k => (s.node k).powered).map s.demandOf).sum

/-- The states in which a record is not powered (section 2.2). -/
def NodeState.unpowered (x : NodeState) : Bool := x == .vacant || x == .sensed || x == .denied

/-- COMMITTED is the sum over the powered records and within BUDGET; VACANT, SENSED and DENIED records
are not powered; the Admission List holds the DENIED nodes, each once, and no other (R63, R65, section 2.2). -/
structure AccountOk (s : State) : Prop where
  sum : s.chain.committed = s.poweredDemand
  bound : s.chain.committed ≤ s.chain.budget
  unpowered : ∀ k, (s.node k).state.unpowered = true → (s.node k).powered = false
  listed : ∀ k ∈ s.chain.admission, (s.node k).state = .denied
  denied : ∀ k, (s.node k).state = .denied → k ∈ s.chain.admission
  once : s.chain.admission.Nodup

/-- An enabled MIRROR window, which holds a segment (R129). -/
def Window.holdsSegment (w : Window) : Bool := w.enabled && w.isMirror

/-- Enabled windows pass check 1 of the enable and share no aperture word; segments lie in the pool and
share no word (R113, R129). -/
structure WindowsOk (s : State) : Prop where
  ranges : ∀ i, (s.window i).enabled = true → (s.window i).inRange = true
  apart : ∀ i j, i ≠ j → (s.window i).enabled = true → (s.window j).enabled = true →
    (s.window i).overlaps (s.window j) = false
  placed : ∀ i, (s.window i).holdsSegment = true →
    (s.window i).mirrorSegment + (s.window i).length.toNat ≤ Config.poolSize
  segments : ∀ i j, i ≠ j → (s.window i).holdsSegment = true → (s.window j).holdsSegment = true →
    (s.window i).mirrorSegment + (s.window i).length.toNat ≤ (s.window j).mirrorSegment ∨
      (s.window j).mirrorSegment + (s.window j).length.toNat ≤ (s.window i).mirrorSegment

/-- An ATTACHED window's node is not VACANT and has the incarnation the window was bound to (R114). -/
def BindingOk (s : State) : Prop :=
  ∀ i k, (s.window i).enabled = true → (s.window i).attached = true →
    addrOf? (s.window i).node.toNat = some k →
      (s.node k).state ≠ .vacant ∧ (s.node k).incarnation = (s.window i).boundIncarnation

/-- No event leaves work that it could have done: the backlog holds steps only while the queue is full,
a cycle waits only while no host-class slot is free, and the transmitter is IDLE with CHAIN_PWR_EN
asserted and CLK_IN running only while no claim can be served (R52, R73, R78, R181). -/
structure Settled (s : State) : Prop where
  backlog : s.chain.backlog = [] ∨ s.mgmtSlotFree = false
  cycle : ∀ c, s.lbi.slot = some c → c.phase = .slotWait → s.hostSlotFree = false
  choice : s.port.tx = none → s.linkUp = true → s.claim = none

/-! ### Terms of the statements -/

/-- The state in which D[15:0] of the last host cycle is released (R172). -/
def State.released (s : State) : State := { s with pins := { s.pins with busData := none } }

/-- The word written, for a row that is a write to SUBMIT (R145). -/
def submitted : Instr → Option Word
  | .read w => some w
  | .write w => some w
  | .fence w => some w
  | .unfence w => some w
  | .nreset w => some w
  | .refresh w => some w
  | .rescan w => some w
  | .cancel w => some w
  | .submitKindNamesNoKind w => some w
  | _ => none

/-- The word written, for a row that is a write to CONTROL (R177). -/
def controlWritten : Instr → Option Word
  | .chainEnableSet w => some w
  | .chainEnableClear w => some w
  | .autoRewalkWrite w => some w
  | .noticeIeWrite w => some w
  | .completionIeWrite w => some w
  | .softReset w => some w
  | _ => none

/-- The rows that are host cycles (R170). -/
def isHostCycle (c : Instr) : Bool :=
  (submitted c).isSome || (controlWritten c).isSome ||
    match c with
    | .apertureAccess _ _ => true
    | .budgetRefusedClear _ => true
    | .noticeOverflowClear _ => true
    | .timingRegisterWrite _ _ => true
    | .budgetWrite _ => true
    | .completionPop _ => true
    | .noticePop _ => true
    | .windowFieldWrite _ _ _ => true
    | .windowEnable _ _ => true
    | .windowDisable _ _ => true
    | .refreshOnAttnWrite _ _ => true
    | .registerWrite _ _ => true
    | _ => false

/-- A CONTROL word with its four fields set from a written word (R177). -/
def Control.written (c : Control) (w : Word) : Control :=
  { c with
    chainEnable := w.getLsbD 0, autoRewalk := w.getLsbD 1, noticeIe := w.getLsbD 2, completionIe := w.getLsbD 3 }

/-- A Command Port that has accepted a command and holds its reservation (R145, R146). -/
def CommandPort.accepting (p : CommandPort) : CommandPort :=
  { p with submitStatus := .accepted, reservations := p.reservations + 1, nextOrder := p.nextOrder + 1 }

/-- A Command Port that has accepted a command which completed in the same event (R146). -/
def CommandPort.completing (p : CommandPort) (c : Completion) : CommandPort :=
  { p with submitStatus := .accepted, completions := p.completions ++ [c], nextOrder := p.nextOrder + 1 }

/-- Reservations and records leave room for one more (R145, case 2). -/
abbrev CommandPort.roomFor (p : CommandPort) : Prop := p.reservations + p.completions.length < 8

/-- Why the parameters in the staging record are bad (R145, R183). -/
inductive BadParameters (s : State) : Prop where
  | kind (h : 8 ≤ s.cmd.staging.kind.toNat)
  | node (h : s.cmd.staging.kind.toNat ≤ 4)
      (hn : s.cmd.staging.node.toNat = 0 ∨ 24 < s.cmd.staging.node.toNat)
  | range (h : s.cmd.staging.kind.toNat ≤ 1)
      (hr : s.cmd.staging.count.toNat = 0 ∨ 16 < s.cmd.staging.count.toNat ∨
        65536 < s.cmd.staging.address.toNat + s.cmd.staging.count.toNat)
  | windowIndex (h : s.cmd.staging.kind.toNat = 5) (hw : 8 ≤ s.cmd.staging.window.toNat)
  | windowKind (h : s.cmd.staging.kind.toNat = 5) (i : WinIx) (hw : s.cmd.staging.window.toNat = i.val)
      (hk : (s.window i).kind ≠ 2#2)

/-- A transfer in the staging record: READ and WRITE within their ranges, and NRESET (R145, R147, R148). -/
inductive StagesTransfer (s : State) (k : Addr) : CmdKind → Op → Word → Nat → List Word → Prop where
  | read (hk : s.cmd.staging.kind = 0#4) (hn : s.cmd.staging.node.toNat = addrNum k)
      (h1 : 1 ≤ s.cmd.staging.count.toNat) (h16 : s.cmd.staging.count.toNat ≤ 16)
      (ha : s.cmd.staging.address.toNat + s.cmd.staging.count.toNat ≤ 65536) :
      StagesTransfer s k .read .rd s.cmd.staging.address s.cmd.staging.count.toNat []
  | write (hk : s.cmd.staging.kind = 1#4) (hn : s.cmd.staging.node.toNat = addrNum k)
      (h1 : 1 ≤ s.cmd.staging.count.toNat) (h16 : s.cmd.staging.count.toNat ≤ 16)
      (ha : s.cmd.staging.address.toNat + s.cmd.staging.count.toNat ≤ 65536) :
      StagesTransfer s k .write .wr s.cmd.staging.address s.cmd.staging.count.toNat
        (s.cmd.staging.data.toList.take s.cmd.staging.count.toNat)
  | nreset (hk : s.cmd.staging.kind = 4#4) (hn : s.cmd.staging.node.toNat = addrNum k) :
      StagesTransfer s k .nreset .nreset 0#16 0 []

/-- A node that register requests can be queued for (R119, R147). -/
abbrev State.inService (s : State) (k : Addr) : Prop := (s.node k).state = .online ∨ (s.node k).state = .suspect

/-- The node that a refresh completion carries: the window's node field, and 0 outside 1..24 (R151). -/
def Window.nodeField (w : Window) : Nat := if 1 ≤ w.node.toNat ∧ w.node.toNat ≤ 24 then w.node.toNat else 0

/-- The records of the commands attached to a refresh job, in the order of its list (R135, R155). -/
def refreshEndings (v : Window) (st : Status) (attached : List (BitVec 8)) : List Completion :=
  attached.map fun t =>
    { ticket := t, kind := .refresh, status := st, node := v.nodeField, count := 0, data := [] }

/-- The completion records of an entry that ends with a status other than OK (R93, R135, R155). -/
def State.endings (s : State) (st : Status) (e : Entry) : List Completion :=
  match e.origin with
  | .command r =>
    [{ ticket := r.ticket, kind := r.kind, status := st, node := addrNum e.node,
       count := if r.kind = .read ∨ r.kind = .write then e.count else 0, data := [] }]
  | .refresh r => refreshEndings (s.window r.window) st r.attached
  | _ => []

/-- The completion record of an UNFENCE that waited for a decision (R150, R155). -/
def unfenceEnding (st : Status) (u : UnfenceWait) : Completion :=
  { ticket := u.ticket, kind := .unfence, status := st, node := addrNum u.node, count := 0, data := [] }

/-- The completion record of an attached RESCAN (R152, R155). -/
def rescanEnding (st : Status) (count : Nat) (t : BitVec 8) : Completion :=
  { ticket := t, kind := .rescan, status := st, node := 0, count := count, data := [] }

/-- The records of a teardown: the entries in queue order, the UNFENCEs that waited, the attached RESCANs (R50). -/
def State.tearRecords (s : State) (st : Status) : List Completion :=
  s.queue.flatMap (s.endings st) ++ s.chain.unfenceWaits.map (unfenceEnding st) ++
    s.chain.rescans.map (rescanEnding st 0)

/-- The records of a cascade at `k`: the entries for the lost nodes, the UNFENCEs that waited on them, and, where
RUNNING follows, the attached RESCANs with the tail that is left (R104, R105). -/
def State.lostRecords (s : State) (k : Addr) : List Completion :=
  (s.queue.filter fun e => decide (k ≤ e.node)).flatMap (s.endings .nodeLost) ++
    (s.chain.unfenceWaits.filter fun u => decide (k ≤ u.node)).map (unfenceEnding .nodeLost) ++
    if k ≠ 0 ∧ s.ctl.autoRewalk = false then s.chain.rescans.map (rescanEnding .ok k.val) else []

/-- A Command Port whose next completions are these records, each taking its command's reservation (R146). -/
def CommandPort.ended (p : CommandPort) (cs : List Completion) : CommandPort :=
  { p with reservations := p.reservations - cs.length, completions := p.completions ++ cs }

/-- A management step is due: it waits in the backlog, or is a MANAGEMENT entry (R52). -/
def State.hasDue (s : State) (st : MgmtStep) (op : Op) (k : Addr) : Prop :=
  st ∈ s.chain.backlog ∨ ∃ e ∈ s.queue, e.origin = .management ∧ e.op = op ∧ e.node = k

/-- A notice with its detail was posted: its record stands in the queue, or the queue was full (R161, R166). -/
def NoticeQueue.shows (q : NoticeQueue) (n : Nat) (k : NoticeKind) (d : Word) : Prop :=
  (∃ r ∈ q.records, r.node = n ∧ r.kind = k ∧ r.detail = d) ∨ q.overflow = true

/-- What a teardown with status `why` leaves (R50), the chain state aside: every record VACANT, the queue empty,
BUSY tags in HOLD, the windows of nodes DETACHED, the Chain Manager at rest, and the commands completed. -/
structure TornDown (s t : State) (st : ChainState) (why : Status) : Prop where
  nodes : ∀ k, t.node k = { NodeRecord.reset with incarnation := (s.node k).incarnation }
  queue : t.queue = []
  busy : ∀ x f, s.tag x = .busy f → t.tag x = .hold (2 * s.ctl.timeout)
  resend : t.disp.resend = []
  detached : ∀ i k, (s.window i).enabled = true → addrOf? (s.window i).node.toNat = some k →
    (t.window i).attached = false
  mapping : ∀ i, (t.window i).enabled = (s.window i).enabled ∧ (t.window i).kind = (s.window i).kind ∧
    (t.window i).node = (s.window i).node ∧ (t.window i).base = (s.window i).base ∧
    (t.window i).length = (s.window i).length ∧ (t.window i).remoteBase = (s.window i).remoteBase ∧
    (t.window i).boundIncarnation = (s.window i).boundIncarnation
  chain : t.chain =
    { ChainManager.reset with state := st, budget := s.chain.budget }
  port : t.port = { tx := none, carrierSeen := false }
  pool : t.mirror = s.mirror
  completions : (s.tearRecords why).length ≤ s.cmd.reservations →
    t.cmd.completions = s.cmd.completions ++ s.tearRecords why ∧
      t.cmd.reservations = s.cmd.reservations - (s.tearRecords why).length
  cycle : ∀ c, s.lbi.slot = some c → c.phase = .slotWait → t.lbi.slot = none ∧ t.lbi.result = why

/-- What a loss cascade at `k` leaves (R102 to R105): the records from `k` up VACANT with their incarnation,
no entry for them, their windows DETACHED, the tags of their requests in HOLD, their commands completed, and the
tail before `k`; above address 1 also the chain state that AUTO_REWALK gives, with CLOSE(k - 1) due. -/
structure LostFrom (s t : State) (k : Addr) : Prop where
  nodes : ∀ j, k ≤ j → t.node j = { NodeRecord.reset with incarnation := (s.node j).incarnation }
  below : ∀ j, j < k → (t.node j).incarnation = (s.node j).incarnation
  queue : ∀ e ∈ t.queue, e.node < k
  detached : ∀ i j, k ≤ j → (s.window i).enabled = true → addrOf? (s.window i).node.toNat = some j →
    (t.window i).attached = false
  tail : t.chain.tail = k.val
  gate : t.chain.tailGateOpen = false
  posted : t.notices.shows (addrNum k) .nodeLost (BitVec.ofNat 16 (s.chain.tail - k.val))
  pool : t.mirror.pool = s.mirror.pool
  control : t.ctl = s.ctl
  tags : ∀ x, (∃ e ∈ s.queue, k ≤ e.node ∧ e.tag = some x) ∨
    (∃ f j, s.tag x = .busy f ∧ f.holder = .ping j ∧ k ≤ j) → t.tag x = .hold (2 * s.ctl.timeout)
  completions : (s.lostRecords k).length ≤ s.cmd.reservations →
    s.cmd.completions ++ s.lostRecords k <+: t.cmd.completions
  cycle : ∀ c, s.lbi.slot = some c → c.phase = .slotWait → k ≤ c.node →
    t.lbi.slot = none ∧ t.lbi.result = .nodeLost
  behind : ∀ j : Addr, addrNum j = k.val →
    t.hasDue (.closeGate j) .closeGate j ∧
      (s.ctl.autoRewalk = false → t.chain.state = .running ∧ t.chain.pointer = none ∧ t.chain.walkStep = none ∧
        t.chain.darkWait = none ∧ t.chain.rescans = []) ∧
      (s.ctl.autoRewalk = true → t.chain.state = .walking ∧ t.chain.pointer = some j ∧
        t.chain.walkStep = some .opening ∧ t.chain.darkWait = some .closing ∧ t.chain.rescans = s.chain.rescans)

/-- A tag as an answer to its request leaves it (R77): FREE after one transmission, HOLD after more. -/
def State.answeredTag (s : State) (attempts : Nat) : Tag :=
  if attempts ≤ 1 then .free else .hold (2 * s.ctl.timeout)

/-- The Dispatcher once the request of tag `t` has ended and the tag is `x` (R77, R85). -/
def State.tagEnded (s : State) (t : TagId) (x : Tag) : Dispatcher :=
  { tags := s.disp.tags.set t.val x, resend := s.disp.resend.filter (· != t) }

/-- fail_count after a request of node `k` has failed finally (R98). -/
def State.failedCount (s : State) (k : Addr) : Nat := min 7 ((s.node k).failCount + 1)

/-- The failure takes node `k` from ONLINE to SUSPECT (R35, R98). -/
abbrev State.turnsSuspect (s : State) (k : Addr) : Prop :=
  (s.node k).state = .online ∧ s.ctl.failThreshold ≤ s.failedCount k

/-- The record of a node whose request has failed finally: in doubt, and the failure counted (R96, R98, R100). -/
def State.failedRecord (s : State) (k : Addr) : NodeRecord :=
  { s.node k with
    inFlightTag := none
    resync := if (s.node k).state = .vacant then (s.node k).resync else true
    failCount := s.failedCount k
    state := if s.turnsSuspect k then .suspect else (s.node k).state }

/-- The Notice Queue with NODE_SUSPECT posted where the failure makes the node SUSPECT (R35). -/
def State.failedNotices (s : State) (k : Addr) (q : NoticeQueue) : NoticeQueue :=
  if s.turnsSuspect k then q.post (addrNum k) .nodeSuspect (BitVec.ofNat 16 (s.failedCount k)) else q

/-- A refresh job is current: its window is enabled, MIRROR, and has the recorded segment and generation (R138). -/
abbrev RefreshRef.current (r : RefreshRef) (v : Window) : Prop :=
  v.enabled = true ∧ v.kind = 2#2 ∧ v.mirrorSegment = r.segment ∧ v.generation = r.generation

/-- A part whose window `i` a failed refresh has left stale, MIRROR_STALE posted (R140). -/
def State.leftStale (s : State) (i : WinIx) : State :=
  { s with
    windows := s.windows.set i.val { s.window i with stale := true }
    notices := s.notices.post (s.window i).node.toNat .mirrorStale (BitVec.ofNat 16 i.val) }

/-- A word of the host window from its fields, each as its lowest bit and its value (chapter 12). -/
def packed (fields : List (Nat × Nat)) : Word :=
  fields.foldl (fun w p => w ||| BitVec.ofNat 16 (p.2 * 2 ^ p.1)) 0#16

/-- The node states in the order of their codes (12.5). -/
def nodeStates : List NodeState := [.vacant, .sensed, .denied, .powering, .online, .suspect, .fenced]

/-- The node steps in the order of their codes, which start at 1 (12.5). -/
def nodeSteps : List NodeStep := [.loadWait, .settling, .confirming, .unfencing, .poweringOff]

/-- The statuses in the order of their codes (12.1). -/
def statuses : List Status :=
  [.ok, .unmapped, .detached, .prot, .nodeNotReady, .outOfSpan, .queueFull, .abandoned, .timeout, .refusedRange,
    .refusedReadonly, .refusedNoload, .nodeLost, .aborted, .notFound, .inFlight, .refusedFull, .conflict, .range,
    .nodeAbsent, .noMirrorSpace]

/-- The notice kinds in the order of their codes, which start at 1 (12.5). -/
def noticeKinds : List NoticeKind :=
  [.nodeSensed, .nodeDenied, .nodeOnline, .nodeSuspect, .nodeRecovered, .nodeLost, .nodeLoadFault, .nodeAttention,
    .chainEnd, .chainFault, .apertureAbandoned, .postedWriteLost, .strayAccess, .strayResponse, .mirrorStale]

/-- The command kinds in the order of their codes (12.4). -/
def cmdKinds : List CmdKind := [.read, .write, .fence, .unfence, .nreset, .refresh, .rescan, .cancel]

/-- The rows that happen only while CLK_IN runs: the expiry of a timer, the end of a frame on DN, and a frame on UP
(R181; log 35). -/
def needsClock : Instr → Bool
  | .responseTimerExpiry _ => true
  | .backoffTimerExpiry _ => true
  | .tagHoldExpiry _ => true
  | .rampSettleExpiry => true
  | .walkSettleExpiry => true
  | .darkWaitExpiry => true
  | .nodeSettleExpiry _ => true
  | .holdLimitExpiry => true
  | .refreshTimerExpiry _ => true
  | .transmitterFree => true
  | .receiveData _ _ _ _ => true
  | .receiveDone _ _ _ => true
  | .receiveRefuse _ _ _ _ => true
  | .receiveSense _ _ _ _ => true
  | .receiveAttn _ _ _ => true
  | .receiveHello _ => true
  | .frameDropped _ _ => true
  | _ => false

/-- A tagged frame that R87 takes as the answer to the request of a kind: the first four conditions. -/
abbrev State.answers (s : State) (src : BitVec 5) (t : TagId) (seq : Bool) (kinds : List Op) (f : Flight) : Prop :=
  s.tag t = .busy f ∧ src.toNat = addrNum f.node ∧ f.sentBit = seq ∧ f.kind ∈ kinds

end Sys2Proof.Machine
end

