-- ==== Sys2Proof/Certificates/Slice0/Obligations.lean ====
section
/-! DEFINITION. The statements for the provers, drawn from the numbered rules. `s.finish` in a next state is
the end of an event (R73, R78; log 8): the free slots are served, then the Dispatcher chooses. It changes
nothing in a `Settled` state, and `NoWorkLeftUndone` says what it leaves. -/

open Sys2Proof Sys2Proof.Machine

/-! ### The queue of commands -/

/-- The model's own rule (logs 1, 2): a step takes the command at the front, and idles when none waits. -/
def Obligations.StepTakesFrontCommand : Prop :=
  (∀ (c : Instr) (s : State) (q : List Instr), step { s with pending := c :: q } = exec c { s with pending := q }) ∧
    ∀ s : State, s.pending = [] → step s = .next s

/-- Every command takes the part to a next state. That it leaves the commands that wait, a reset too, is the model's
choice (log 1: the queue is the model's input and no item of the part). -/
def Obligations.EveryCommandAnswersNext : Prop :=
  ∀ (c : Instr) (s : State), ∃ t, exec c s = .next t ∧ t.pending = s.pending

/-! ### Laws that every step keeps -/

/-- R146, R159, R161: at most 32 notices, no two with one key, repeats 1..255; reservations and completion
records together never exceed 8. -/
def Obligations.NoticesAndCompletionsKept : Prop :=
  ∀ s t : State, step s = .next t →
    (NoticesOk s.notices → NoticesOk t.notices) ∧ (CompletionsOk s.cmd → CompletionsOk t.cmd)

/-- R72, R133: at most 16 entries, 14 of them host-class, and one refresh job for a window. -/
def Obligations.OutboundQueueKept : Prop :=
  ∀ s t : State, QueueOk s.queue → step s = .next t → QueueOk t.queue

/-- R63, R65: COMMITTED is the sum over the powered records and within BUDGET, and the Admission List holds every
DENIED node exactly once and no other node. -/
def Obligations.PowerAccountKept : Prop :=
  ∀ s t : State, AccountOk s → step s = .next t → AccountOk t

/-- R129: the Mirror Pool keeps its canonical form. -/
def Obligations.MirrorPoolKept : Prop :=
  ∀ s t : State, Memory.wf s.mirror.pool = true → step s = .next t → Memory.wf t.mirror.pool = true

/-- R113, R114, R129: enabled windows are in range and share no aperture word, their segments share no pool
word, and an ATTACHED window's node is not VACANT and has the incarnation it was bound to. -/
def Obligations.WindowMapAndBindingKept : Prop :=
  ∀ s t : State, step s = .next t → (WindowsOk s → WindowsOk t) ∧ (BindingOk s → BindingOk t)

/-- R52, R73, R78: no step leaves work that it could have done. -/
def Obligations.NoWorkLeftUndone : Prop :=
  ∀ s t : State, Settled s → step s = .next t → Settled t

/-- R85, R179: the timing registers keep their ranges, and the resend list holds no request twice. -/
def Obligations.TimingAndResendListKept : Prop :=
  ∀ s t : State, step s = .next t →
    (TimingOk s.ctl → TimingOk t.ctl) ∧ (ResendOk s.disp → ResendOk t.disp)

/-- Every law holds in the state after power-on reset, and the words of the host window then read their reset values
(12.2), by their word address (byte offset / 2). -/
def Obligations.ResetIsGoodAndReadsAsTheMapGives : Prop :=
  (NoticesOk State.reset.notices ∧ CompletionsOk State.reset.cmd ∧ QueueOk State.reset.queue ∧
    AccountOk State.reset ∧ Memory.wf State.reset.mirror.pool = true ∧ WindowsOk State.reset ∧
    BindingOk State.reset ∧ Settled State.reset ∧ TimingOk State.reset.ctl ∧ ResendOk State.reset.disp) ∧
  (∀ p ∈ [(0x000, 0x0000), (0x004, 20), (0x006, 50), (0x008, 3), (0x00A, 2), (0x00C, 64), (0x00E, 0), (0x010, 0),
      (0x012, 0), (0x014, 0), (0x016, 0), (0x018, 0), (0x0A8, 0), (0x0AA, 0), (0x0AC, 0), (0x0B0, 0), (0x0B2, 0),
      (0x0B4, 0), (0x0B6, 0), (0x180, 0), (0x182, 0), (0x184, 0), (0x186, 0), (0x188, 0)],
    State.reset.hostRead (BitVec.ofNat 11 (p.1 / 2)) = BitVec.ofNat 16 p.2) ∧
  (∀ b : Fin 20, State.reset.hostRead (BitVec.ofNat 11 (0x40 + b.val)) = 0#16) ∧
  (∀ b : Fin 16, State.reset.hostRead (BitVec.ofNat 11 (0x60 + b.val)) = 0#16) ∧
  (∀ b : Fin 64, State.reset.hostRead (BitVec.ofNat 11 (0x80 + b.val)) = 0#16) ∧
  ∀ b : Fin 192, State.reset.hostRead (BitVec.ofNat 11 (0x100 + b.val)) = 0#16

/-! ### Identification, frames -/

/-- R180: the identification words, in every state, and that writes to them change nothing. -/
def Obligations.IdentificationWordsAreFixed : Prop :=
  ∀ s : State, s.hostRead 0x38#11 = 0x4C18#16 ∧ s.hostRead 0x39#11 = 0x0001#16 ∧ s.hostRead 0x3A#11 = 0x4118#16 ∧
    (s.hostReady = true → ∀ a ∈ [0x38#11, 0x39#11, 0x3A#11], ∀ w,
      exec (.registerWrite a (.write w)) s = .next s.released ∧ s.released.ready = true)

/-- R6, R8, 12.6: what a node sends is what the part accepts, every field at every value; DATA carries 1..16
words. -/
def Obligations.AcceptedFrameIsTheFrameSent : Prop :=
  ∀ f : UpFrame, (∀ ws, f.body = .data ws → 1 ≤ ws.length ∧ ws.length ≤ 16) → acceptFrame f.wire true = some f

/-- R8, R10, R184: a frame cut off before its end delimiter, or whose last word is not the CRC of the others, is
dropped, and a dropped frame has no effect. So is a malformed frame with its CRC right: no header, a kind code that
names no kind or that does not travel upstream, a body of another length than its kind's, a DATA count outside 1..16
or other than the number of its data words. -/
def Obligations.DroppedFrameHasNoEffect : Prop :=
  (∀ (wire : List Word) (ended : Bool) (s : State), acceptFrame wire ended = none →
    exec (.frameDropped wire ended) s = .next s) ∧
  (∀ wire, acceptFrame wire false = none) ∧
  (∀ (ws : List Word) (c : Word), c ≠ crc ws → acceptFrame (ws ++ [c]) true = none) ∧
  acceptFrame (sealed []) true = none ∧
  ∀ (h : Word) (body : List Word),
    (let code := (h.extractLsb' 6 5).toNat
      let count := ((body.headD 0#16).extractLsb' 0 5).toNat;
      code ≤ 9 ∨ 16 ≤ code ∨ (code = 11 ∨ code = 15) ∧ body ≠ [] ∨ (code = 12 ∨ code = 14) ∧ body.length ≠ 1 ∨
        code = 13 ∧ body.length ≠ 3 ∨ code = 10 ∧ (body = [] ∨ count = 0 ∨ 16 < count ∨ body.length ≠ 1 + count)) →
    acceptFrame (sealed (h :: body)) true = none

/-! ### Resets and the supply -/

/-- R175: a power-on reset gives every item its reset value and starts the hold; the hold's end with RESET_N
high changes nothing else, and with RESET_N low the part takes the reset of the KEEP_N level then, as from a line
that falls (log 17); the rise of RESET_N is no reset. -/
def Obligations.PowerOnResetThenHoldThenRelease : Prop :=
  (∀ s : State, ∃ t, exec .powerOnReset s = .next t ∧
    t = { State.reset with pins := t.pins, pending := s.pending } ∧
    t.pins.supplyValid = true ∧ t.pins.powerOnHold = true ∧ t.pins.resetN = s.pins.resetN ∧
    t.ready = true ∧ t.irqN = true ∧ t.dnCarrier = false ∧ t.hostReady = false) ∧
  (∀ s : State, s.pins.supplyValid = true → s.pins.powerOnHold = true → s.pins.resetN = true →
    exec .powerOnHoldEnd s = .next { s with pins := { s.pins with powerOnHold := false } }) ∧
  (∀ s : State, s.pins.supplyValid = true → s.pins.powerOnHold = true → s.pins.resetN = false →
    (let risen : State := { s with pins := { s.pins with powerOnHold := false, resetN := true } };
      exec .powerOnHoldEnd s = exec (if s.pins.keepN then .busReset else .keepReset) risen ∧
        ∃ t, exec .powerOnHoldEnd s = .next t ∧ t.pins.resetN = false ∧ t.pins.keepN = s.pins.keepN ∧
          t.ctl.resetCause = if s.pins.keepN then .bus else .keepPin)) ∧
  (∀ s : State, s.pins.supplyValid = false ∨ s.pins.powerOnHold = false → exec .powerOnHoldEnd s = .next s) ∧
  ∀ s : State, exec .resetRelease s = .next { s with pins := { s.pins with resetN := true } }

/-- R28, R174: RESET_N low for 1 us with KEEP_N high is a bus reset, and so is a rise of KEEP_N while a keep
reset holds RESET_N low. Every item but the pins takes its reset value, RESET_CAUSE BUS. While RESET_N is low already
the line takes no other reset, and a bus reset is not turned into a keep reset. During the power-on hold, and without
supply, the lines only take their levels (the model's choice, log 17). After both resets every record is VACANT with
incarnation 0, and CHAIN_PWR_EN is deasserted. -/
def Obligations.BusResetGivesResetValues : Prop :=
  (∀ (s : State) (c : Instr), s.pins.supplyValid = true → s.pins.powerOnHold = false →
    (c = .busReset ∧ s.pins.resetN = true ∨ c = .keepNRise ∧ s.pins.resetN = false ∧ s.pins.keepN = false) →
    ∃ t, exec c s = .next t ∧
      t = { State.reset with
        pins := t.pins, ctl := { State.reset.ctl with resetCause := .bus }, pending := s.pending } ∧
      t.pins.resetN = false ∧ t.pins.keepN = true ∧ t.ready = true ∧ t.irqN = true ∧ t.dnCarrier = false) ∧
  (∀ s : State, s.pins.supplyValid = true → s.pins.powerOnHold = false → s.pins.resetN = false →
    exec .busReset s = .next s ∧ exec .keepReset s = .next s) ∧
  (∀ s : State, s.pins.supplyValid = false ∨ s.pins.powerOnHold = true →
    exec .busReset s = .next { s with pins := { s.pins with resetN := false, keepN := true } } ∧
      exec .keepReset s = .next { s with pins := { s.pins with resetN := false, keepN := false } }) ∧
  (∀ s : State, s.pins.resetN = true →
    exec .keepNRise s = .next { s with pins := { s.pins with keepN := true } }) ∧
  ∀ (s : State) (c : Instr),
    (c = .powerOnReset ∨
      c = .busReset ∧ s.pins.supplyValid = true ∧ s.pins.powerOnHold = false ∧ s.pins.resetN = true) →
    ∃ t, exec c s = .next t ∧ t.chain.pwrEn = false ∧
      ∀ k, t.node k =
        { state := .vacant, step := none, incarnation := 0#16, cls := 0#8, revision := 0#8, span := none,
          demand := 0#4, attnCapable := false, powered := false, loadFault := false, failCount := 0,
          nextSeq := false, resync := false, inFlightTag := none, attnToggle := none, ackOwed := false,
          refreshOnAttn := false }

/-- R29, R63, R69, R70, R77, R94, R117, R127, R132, R158, R169, R176: what a keep reset leaves, by KEEP_N or by
SOFT_RESET. The records keep their fields but for the request in flight; a node whose LOAD_ON the reset removed is
SENSED again and its demand released; the MANAGEMENT entries are put back at the head of the backlog as R70's table
gives (an entry that the table does not list puts nothing back: the model's choice, log 32), and the event ends with
them taken (log 33). -/
def Obligations.KeepResetKeepsTheChain : Prop :=
  ∀ (s : State) (c : Instr) (cause : ResetCause) (pins : Pins),
    (c = .keepReset ∧ cause = .keepPin ∧ s.pins.supplyValid = true ∧ s.pins.powerOnHold = false ∧
          s.pins.resetN = true ∧
          pins = { s.pins with
            resetN := false
            keepN := false
            busData :=
              match s.lbi.slot with
              | none => s.pins.busData
              | some c => if c.access = .read then some 0xFFFF#16 else none } ∨
      ∃ w, controlWritten c = some w ∧ w.getLsbD 15 = true ∧ cause = .soft ∧ s.hostReady = true ∧
        pins = { s.pins with busData := none }) →
    (let lost := fun k : Addr => (s.node k).state = .powering ∧ (s.node k).step = some .loadWait
      let freed : List Addr := (List.finRange 24).filter fun k => decide (lost k) && (s.node k).powered
      let back : List MgmtStep := s.queue.filterMap fun e =>
        if e.origin ≠ .management then none
        else
          match e.op with
          | .assign => some (.assign e.node)
          | .openGate => some (.openGate e.node)
          | .closeGate => some (.closeGate e.node)
          | .loadOn => if lost e.node then some (.decision e.node true) else none
          | .ping =>
            if (s.node e.node).state = .powering ∧ (s.node e.node).step = some .confirming then
              some (.confirm e.node)
            else none
          | _ => none
      let due : List MgmtStep :=
        if (∃ k ∈ freed, 0 < s.demandOf k) ∧ .service ∉ s.chain.backlog then [.service] else []
      let kept : State :=
        { s with
          pins := pins
          ctl := { s.ctl with noticeIe := false, completionIe := false, budgetRefused := false, resetCause := cause }
          lbi := { s.lbi with slot := none, result := .ok }
          windows := Vector.ofFn fun i : WinIx =>
            let w := s.window i
            { w with
              enabled := false
              enableStatus := .ok
              attached := if w.enabled then false else w.attached
              boundIncarnation := if w.enabled then 0#16 else w.boundIncarnation
              mirrorSegment := if w.enabled = true ∧ w.kind = 2#2 then 0 else w.mirrorSegment }
          queue := []
          disp :=
            { tags := Vector.ofFn fun x : TagId =>
                match s.tag x with
                | .busy _ => .hold (2 * s.ctl.timeout)
                | y => y
              resend := [] }
          chain := { s.chain with
            committed := s.chain.committed - (freed.map s.demandOf).sum
            backlog := (back ++ (s.chain.backlog ++ due)).eraseDups
            rescans := []
            unfenceWaits := [] }
          nodes := Vector.ofFn fun k : Addr =>
            let r := s.node k
            { r with
              state := if lost k then .sensed else r.state
              step :=
                if r.step = some .loadWait ∨ r.step = some .unfencing ∨ r.step = some .poweringOff then none
                else r.step
              powered := if lost k then false else r.powered
              inFlightTag := none
              resync := r.resync || r.inFlightTag.isSome }
          mirror := { s.mirror with timers := Vector.replicate 8 none }
          cmd := { s.cmd with submitStatus := .none, reservations := 0, completions := [] }
          notices := { records := [], overflow := false } };
      exec c s = .next kept.finish ∧
      ∃ t, exec c s = .next t ∧ t.ctl = kept.ctl ∧ t.irqN = true ∧ t.lbi = kept.lbi ∧ t.pins = pins ∧
        t.windows = kept.windows ∧ t.mirror = kept.mirror ∧ t.cmd = kept.cmd ∧
        (∀ r ∈ t.notices.records, r.kind = .nodeDenied) ∧
        (∀ e ∈ t.queue, e.isHost = false) ∧
        t.disp.resend = [] ∧ (∀ x f, s.tag x = .busy f → t.tag x = .hold (2 * s.ctl.timeout)) ∧
        (∀ x d, s.tag x = .hold d → t.tag x = .hold d) ∧
        (t.chain.state = s.chain.state ∧ t.chain.rampPhase = s.chain.rampPhase ∧ t.chain.tail = s.chain.tail ∧
          t.chain.tailGateOpen = s.chain.tailGateOpen ∧ t.chain.pointer = s.chain.pointer ∧
          t.chain.walkStep = s.chain.walkStep ∧ t.chain.darkWait = s.chain.darkWait ∧
          t.chain.rewalk = s.chain.rewalk ∧ t.chain.settleTimer = s.chain.settleTimer ∧
          t.chain.nodeTimers = s.chain.nodeTimers ∧ t.chain.budget = s.chain.budget ∧
          t.chain.pwrEn = s.chain.pwrEn ∧ t.chain.rescans = [] ∧ t.chain.unfenceWaits = []) ∧
        t.port.carrierSeen = s.port.carrierSeen ∧
        ∀ k, (t.node k).incarnation = (s.node k).incarnation ∧ (t.node k).cls = (s.node k).cls ∧
          (t.node k).revision = (s.node k).revision ∧ (t.node k).span = (s.node k).span ∧
          (t.node k).demand = (s.node k).demand ∧ (t.node k).attnCapable = (s.node k).attnCapable ∧
          (t.node k).loadFault = (s.node k).loadFault ∧ (t.node k).failCount = (s.node k).failCount ∧
          (t.node k).nextSeq = (s.node k).nextSeq ∧ (t.node k).attnToggle = (s.node k).attnToggle ∧
          (t.node k).refreshOnAttn = (s.node k).refreshOnAttn ∧
          ((s.node k).inFlightTag.isSome = true → (t.node k).resync = true))

/-! ### Host cycles -/

/-- R170, R175, R181: a host cycle in an unpowered part, in the power-on hold, while RESET_N is low, or while a cycle
is held (log 7), has no effect. Below the brown-out threshold nothing holds its state, no output is driven, and the
part recognises no host cycle; the held values are the model's choice (log 18). -/
def Obligations.UnrecognisedCycleHasNoEffect : Prop :=
  (∀ (c : Instr) (s : State), isHostCycle c = true →
    (s.pins.supplyValid = false ∨ s.pins.powerOnHold = true ∨ s.pins.resetN = false ∨ s.lbi.slot.isSome = true) →
    exec c s = .next s) ∧
  ∀ s : State, ∃ t, exec .supplyBelowBrownOut s = .next t ∧
    t = { State.reset with pins := t.pins, pending := s.pending } ∧ t.pins.supplyValid = false ∧
    t.pins.busData = none ∧ t.hostReady = false ∧ t.dnCarrier = false ∧ t.ready = true ∧ t.irqN = true

/-- R118, R119: an access that no enabled window contains ends at once with UNMAPPED, and the first check that
fails refuses an access through a window. -/
def Obligations.RefusedAccessTakesItsStatus : Prop :=
  ∀ (s : State) (o : BitVec 10) (a : Access), s.hostReady = true →
    (let refused : Nat → Status → Host.Outcome State Fault Refusal := fun node st =>
        .next { s with
          lbi := { s.lbi with result := st }
          pins := { s.pins with busData := if a = .read then some 0xFFFF#16 else none }
          notices := s.notices.post node .strayAccess (o.setWidth 16) };
      ((∀ i : WinIx, ¬((s.window i).enabled = true ∧ (s.window i).base.toNat ≤ o.toNat ∧
          o.toNat < (s.window i).base.toNat + (s.window i).length.toNat)) →
        exec (.apertureAccess o a) s = refused 0 .unmapped) ∧
      ∀ (i : WinIx) (k : Addr) (st : Status), s.windowAt o.toNat = some i →
        (s.window i).node.toNat = addrNum k →
        (let w := s.window i
          let remote := w.remoteBase + BitVec.ofNat 16 (o.toNat - w.base.toNat)
          some st =
            if w.attached = false then some .detached
            else if a ≠ .read ∧ (w.kind = 2#2 ∨ w.writeProtect = true) then some .prot
            else if (s.node k).state ≠ .online ∧ (s.node k).state ≠ .suspect then some .nodeNotReady
            else if (s.node k).span.getD 0 ≤ remote.toNat then some .outOfSpan
            else none) →
        exec (.apertureAccess o a) s = refused (addrNum k) st)

/-- R120: a MIRROR read returns the pool word and changes nothing else. -/
def Obligations.MirrorReadReturnsThePoolWord : Prop :=
  ∀ (s : State) (o : BitVec 10) (i : WinIx) (k : Addr), s.hostReady = true →
    s.windowAt o.toNat = some i → (s.window i).node.toNat = addrNum k → (s.window i).kind = 2#2 →
    (s.window i).attached = true → s.inService k →
    ((s.window i).remoteBase + BitVec.ofNat 16 (o.toNat - (s.window i).base.toNat)).toNat <
      (s.node k).span.getD 0 →
    exec (.apertureAccess o .read) s = .next { s with
      lbi := { s.lbi with result := .ok }
      pins := { s.pins with
        busData := some (Memory.read s.mirror.pool
          ((s.window i).mirrorSegment + (o.toNat - (s.window i).base.toNat))) } }

/-- R120, R121, R122, R125: a DIRECT or POSTED access that passes the checks. With a host-class slot free it
becomes an entry, and a POSTED write ends with OK; without one it is held in SLOT_WAIT. -/
def Obligations.AccessThroughWindowIsQueuedOrHeld : Prop :=
  ∀ (s : State) (o : BitVec 10) (a : Access) (i : WinIx) (k : Addr) (remote : Word) (posted : Bool),
    s.hostReady = true → s.windowAt o.toNat = some i → (s.window i).node.toNat = addrNum k →
    (s.window i).kind ≠ 2#2 → (s.window i).attached = true → s.inService k →
    (a ≠ .read → (s.window i).writeProtect = false) →
    remote = (s.window i).remoteBase + BitVec.ofNat 16 (o.toNat - (s.window i).base.toNat) →
    remote.toNat < (s.node k).span.getD 0 →
    (posted = true ↔ (s.window i).kind = 1#2 ∧ a ≠ .read) →
    (let cycle : HeldCycle :=
        { handle := s.lbi.nextHandle, phase := .slotWait, access := a, offset := o, window := i,
          holdTimer := s.ctl.holdLimit, posted := posted, node := k, remote := remote }
      let entry : Entry :=
        { origin := .aperture { handle := s.lbi.nextHandle, offset := o, held := !posted, posted := posted }
          op := if a = .read then .rd else .wr
          node := k
          remote := remote
          count := 1
          data := match a with
            | .read => []
            | .write v => [v]
          attempts := 0
          sentBit := none
          state := .waiting
          tag := none };
      (s.hostSlotFree = true → posted = true →
        exec (.apertureAccess o a) s = .next (State.finish { s.released with
          queue := s.queue ++ [entry]
          lbi := { slot := none, result := .ok, nextHandle := s.lbi.nextHandle + 1 } })) ∧
      (s.hostSlotFree = true → posted = false →
        exec (.apertureAccess o a) s = .next (State.finish { s.released with
          queue := s.queue ++ [entry]
          lbi := { s.lbi with
            slot := some { cycle with phase := .resultWait }, nextHandle := s.lbi.nextHandle + 1 } })) ∧
      (s.hostSlotFree = false →
        exec (.apertureAccess o a) s = .next (State.finish { s.released with
          lbi := { s.lbi with slot := some cycle, nextHandle := s.lbi.nextHandle + 1 } })))

/-- R122, R124, R173, R181: the hold limit, while CLK_IN runs, or the host's abort, ends the held cycle; the abort
also releases D[15:0]. With the slot EMPTY the limit has no effect. -/
def Obligations.HoldLimitOrAbortEndsTheHeldCycle : Prop :=
  (∀ s : State, s.lbi.slot = none →
    exec .holdLimitExpiry s = .next s ∧ exec .hostCycleAbort s = .next s.released) ∧
  ∀ (s : State) (c : HeldCycle), s.lbi.slot = some c →
    (let fill := if c.access = .read then some 0xFFFF#16 else none
      let waited : State :=
        { s with
          lbi := { s.lbi with slot := none, result := .queueFull }
          pins := { s.pins with busData := fill }
          notices :=
            if c.posted then s.notices.post (addrNum c.node) .postedWriteLost 6#16 else s.notices }
      let abandoned : State :=
        { s with
          lbi := { s.lbi with slot := none, result := .abandoned }
          pins := { s.pins with busData := fill }
          notices := s.notices.post (addrNum c.node) .apertureAbandoned (c.offset.setWidth 16)
          queue := s.queue.map fun e =>
            match e.origin with
            | .aperture r =>
              if r.held ∧ r.handle = c.handle then { e with origin := .aperture { r with held := false } } else e
            | _ => e }
      let t := if c.phase = .slotWait then waited else abandoned
      (s.pins.clkIn = true → exec .holdLimitExpiry s = .next t) ∧ exec .hostCycleAbort s = .next t.released)

/-! ### Control and status words -/

/-- R168, R177: a CONTROL write with SOFT_RESET clear that leaves CHAIN_ENABLE as it is sets the other three
fields and nothing else. -/
def Obligations.ControlWriteSetsItsFields : Prop :=
  ∀ (s : State) (c : Instr) (w : Word), controlWritten c = some w → s.hostReady = true →
    w.getLsbD 15 = false → w.getLsbD 0 = s.ctl.chainEnable →
    exec c s = .next { s.released with ctl := s.ctl.written w }

/-- R47, R49, R50: CHAIN_ENABLE from 0 to 1. In OFF the ramp rises and a walk is requested; a CHAIN_FAULT_N that is
low already is a chain fault, with its notice and the teardown; in another state only the word changes. -/
def Obligations.ChainEnableStartsTheRamp : Prop :=
  ∀ (s : State) (c : Instr) (w : Word), controlWritten c = some w → s.hostReady = true →
    w.getLsbD 15 = false → w.getLsbD 0 = true → s.ctl.chainEnable = false →
    (s.chain.state = .off → s.pins.chainFaultN = true →
      exec c s = .next (State.finish { s.released with
        ctl := s.ctl.written w
        chain := { s.chain with
          state := .ramp, rampPhase := some .rising, rewalk := true, pwrEn := true,
          settleTimer := some s.ctl.settle }
        port := { s.port with carrierSeen := false } })) ∧
    (s.chain.state = .off → s.pins.chainFaultN = false →
      ∃ t, exec c s = .next t ∧ t.ctl = s.ctl.written w ∧ TornDown s t .faulted .nodeLost ∧
        t.notices.shows 0 .chainFault (BitVec.ofNat 16 s.chain.tail)) ∧
    (s.chain.state ≠ .off → exec c s = .next (State.finish { s.released with ctl := s.ctl.written w }))

/-- R50, R51: CHAIN_ENABLE from 1 to 0. The teardown runs with ABORTED unless FAULTED, and the chain is OFF. -/
def Obligations.ChainDisableTearsDown : Prop :=
  ∀ (s : State) (c : Instr) (w : Word), controlWritten c = some w → s.hostReady = true →
    w.getLsbD 15 = false → w.getLsbD 0 = false → s.ctl.chainEnable = true →
    (s.chain.state ≠ .faulted →
      ∃ t, exec c s = .next t ∧ t.ctl = s.ctl.written w ∧ TornDown s t .off .aborted) ∧
    (s.chain.state = .faulted →
      exec c s = .next (State.finish { s.released with
        ctl := s.ctl.written w, chain := { s.chain with state := .off } }))

/-- R48 to R50: CHAIN_FAULT_N low with CHAIN_PWR_EN asserted, at a sample of the line or as the ramp rises from
DARK, is a chain fault. With the line high, or CHAIN_PWR_EN deasserted, only the level is taken. -/
def Obligations.ChainFaultTearsDown : Prop :=
  (∀ (s : State) (c : Instr),
    (c = .chainFault false ∧ s.chain.pwrEn = true ∨
      c = .rampSettleExpiry ∧ s.pins.clkIn = true ∧ s.chain.state = .ramp ∧ s.chain.settleTimer.isSome = true ∧
        s.chain.rampPhase = some .dark ∧ s.pins.chainFaultN = false) →
    ∃ t, exec c s = .next t ∧ t.ctl = s.ctl ∧ t.pins.chainFaultN = false ∧ TornDown s t .faulted .nodeLost ∧
      t.notices.shows 0 .chainFault (BitVec.ofNat 16 s.chain.tail)) ∧
  ∀ (s : State) (high : Bool), s.chain.pwrEn = false ∨ high = true →
    exec (.chainFault high) s = .next { s with pins := { s.pins with chainFaultN := high } }

/-- R45, R166, R178, R179: a 1 written to a sticky bit of STATUS clears that bit, and a 0 leaves it. A timing register
takes the low 8 bits of a value in its range, and keeps its value otherwise. refresh_on_attn takes bit 0 of the written
word, in a record that is not VACANT. -/
def Obligations.SmallWordsTakeTheirFields : Prop :=
  ∀ (s : State) (w : Word), s.hostReady = true →
    (let n := w.toNat % 256;
      (∀ c, c = .budgetRefusedClear w ∨ c = .noticeOverflowClear w →
        exec c s = .next { s.released with
          ctl := { s.ctl with budgetRefused := if w.getLsbD 0 then false else s.ctl.budgetRefused }
          notices := { s.notices with overflow := if w.getLsbD 1 then false else s.notices.overflow } }) ∧
      exec (.timingRegisterWrite .settle w) s = .next { s.released with
        ctl := { s.ctl with settle := if 1 ≤ n then n else s.ctl.settle } } ∧
      exec (.timingRegisterWrite .timeout w) s = .next { s.released with
        ctl := { s.ctl with timeout := if 2 ≤ n then n else s.ctl.timeout } } ∧
      exec (.timingRegisterWrite .retryLimit w) s = .next { s.released with
        ctl := { s.ctl with retryLimit := if n ≤ 7 then n else s.ctl.retryLimit } } ∧
      exec (.timingRegisterWrite .failThreshold w) s = .next { s.released with
        ctl := { s.ctl with failThreshold := if 1 ≤ n ∧ n ≤ 7 then n else s.ctl.failThreshold } } ∧
      exec (.timingRegisterWrite .holdLimit w) s = .next { s.released with
        ctl := { s.ctl with holdLimit := if 1 ≤ n then n else s.ctl.holdLimit } } ∧
      ∀ k : Addr,
        ((s.node k).state = .vacant → exec (.refreshOnAttnWrite k w) s = .next s.released) ∧
        ((s.node k).state ≠ .vacant →
          exec (.refreshOnAttnWrite k w) s = .next { s.released with
            nodes := s.nodes.set k.val { s.node k with refreshOnAttn := w.getLsbD 0 } }))

/-- R62: BUDGET takes a value that is not below COMMITTED, with admission service due if it rose; any other
write is refused and sets BUDGET_REFUSED. -/
def Obligations.BudgetWriteIsTakenOrRefused : Prop :=
  ∀ (s : State) (w : Word), s.hostReady = true →
    (let n := w.toNat % 256
      let due := if s.chain.budget < n ∧ .service ∉ s.chain.backlog then [MgmtStep.service] else []
      exec (.budgetWrite w) s = .next
        (if s.chain.committed ≤ n then
          (State.finish { s.released with
            chain := { s.chain with budget := n, backlog := s.chain.backlog ++ due } })
        else { s.released with ctl := { s.ctl with budgetRefused := true } }))

/-- R144, R171, R183: a write to a word that has no row of its own. A staging word takes the written bits of
its fields; every other word ignores the write. -/
def Obligations.RegisterWriteFillsStagingOnly : Prop :=
  ∀ (s : State) (a : BitVec 11) (w : Word), s.hostReady = true → writeHasOwnRow a = false →
    exec (.registerWrite a (.write w)) s = .next { s.released with
      cmd := { s.cmd with
        staging :=
          if a = 0x40#11 then
            { s.cmd.staging with
              kind := w.extractLsb' 0 4, powerOff := w.getLsbD 4, node := w.extractLsb' 8 5 }
          else if a = 0x41#11 then { s.cmd.staging with address := w }
          else if a = 0x42#11 then
            { s.cmd.staging with count := w.extractLsb' 0 5, window := w.extractLsb' 8 4 }
          else if a = 0x43#11 then { s.cmd.staging with target := w.extractLsb' 0 8 }
          else if h : 0x44 ≤ a.toNat ∧ a.toNat < 0x54 then
            { s.cmd.staging with data := s.cmd.staging.data.set (a.toNat - 0x44) w (by omega) }
          else s.cmd.staging } }

/-- R157, R164: a POP removes the oldest record of its queue, and is ignored when there is none; the written
value does not matter. -/
def Obligations.PopRemovesTheOldestRecord : Prop :=
  ∀ (s : State) (w : Word), s.hostReady = true →
    exec (.completionPop w) s = .next { s.released with
      cmd := { s.cmd with completions := s.cmd.completions.drop 1 } } ∧
    exec (.noticePop w) s = .next { s.released with
      notices := { s.notices with records := s.notices.records.drop 1 } }

/-- R44, R95, R111, R126, R157, R163, R165, R167, R170, R172, R177, R178, R182: what the host sees. The lines name a
write while both strobes are low. A read outside the aperture drives its word on D[15:0] and has no side effect. Each
word shows the fields that chapter 12 places in it, and IRQ_N is low exactly while a condition of R167 holds. -/
def Obligations.HostReadsShowTheState : Prop :=
  (∀ d : Word, strobedAccess false false false d = some (.write d) ∧
    strobedAccess false true false d = some (.write d) ∧
    strobedAccess false false true d = some .read ∧ strobedAccess false true true d = none ∧
    ∀ rdN wrN, strobedAccess true rdN wrN d = none) ∧
  ∀ s : State,
    (∀ a : BitVec 11, s.hostReady = true → a.toNat < 0x400 →
      exec (.registerWrite a .read) s = .next { s with pins := { s.pins with busData := some (s.hostRead a) } }) ∧
    (s.irqN = false ↔
      s.ctl.noticeIe = true ∧ (s.notices.records ≠ [] ∨ s.notices.overflow = true) ∨
        s.ctl.completionIe = true ∧ s.cmd.completions ≠ []) ∧
    (let word := fun b : Nat => s.hostRead (BitVec.ofNat 11 (b / 2));
      (word 0x000 = packed [(0, s.ctl.chainEnable.toNat), (1, s.ctl.autoRewalk.toNat), (2, s.ctl.noticeIe.toNat),
          (3, s.ctl.completionIe.toNat)] ∧
        word 0x002 = packed [(0, s.ctl.budgetRefused.toNat), (1, s.notices.overflow.toNat),
          (4, [ResetCause.powerOn, .bus, .keepPin, .soft].idxOf s.ctl.resetCause), (8, s.chain.pwrEn.toNat),
          (9, (!s.pins.chainFaultN).toNat), (10, s.pins.upCarrier.toNat)] ∧
        word 0x004 = packed [(0, s.ctl.settle)] ∧ word 0x006 = packed [(0, s.ctl.timeout)] ∧
        word 0x008 = packed [(0, s.ctl.retryLimit)] ∧ word 0x00A = packed [(0, s.ctl.failThreshold)] ∧
        word 0x00C = packed [(0, s.ctl.holdLimit)] ∧ word 0x00E = packed [(0, s.chain.budget)] ∧
        word 0x010 = packed [(0, s.chain.committed)] ∧ word 0x012 = packed [(0, statuses.idxOf s.lbi.result)] ∧
        word 0x014 = packed [(0, [ChainState.off, .ramp, .walking, .running, .faulted].idxOf s.chain.state),
          (3, if s.chain.state = .ramp ∧ s.chain.rampPhase = some .dark then 1
            else if s.chain.state = .ramp ∧ s.chain.rampPhase = some .rising then 2
            else if s.chain.state = .walking ∧ s.chain.walkStep = some .assigning then 1
            else if s.chain.state = .walking ∧ s.chain.walkStep = some .opening then 2
            else if s.chain.state = .walking ∧ s.chain.walkStep = some .settling then 3
            else 0),
          (5, s.chain.tail), (10, s.chain.tailGateOpen.toNat), (11, (s.chain.pointer.map addrNum).getD 0)] ∧
        word 0x016 = packed [(0, s.queue.length), (5, s.queue.countP fun e => e.origin != .management),
          (12, s.disp.resend.length)] ∧
        word 0x018 = packed ((List.finRange 8).map fun x =>
          (2 * x.val,
            match s.tag x with
            | .free => 0
            | .busy _ => 1
            | .hold _ => 2))) ∧
      (word 0x080 = packed [(0, s.cmd.staging.kind.toNat), (4, s.cmd.staging.powerOff.toNat),
          (8, s.cmd.staging.node.toNat)] ∧
        word 0x082 = s.cmd.staging.address ∧
        word 0x084 = packed [(0, s.cmd.staging.count.toNat), (8, s.cmd.staging.window.toNat)] ∧
        word 0x086 = packed [(0, s.cmd.staging.target.toNat)] ∧
        (∀ i : Fin 16, word (0x088 + 2 * i.val) = s.cmd.staging.data[i.val]) ∧
        word 0x0AA = packed [(0, [SubmitStatus.none, .accepted, .refusedFull, .badCommand].idxOf s.cmd.submitStatus)] ∧
        word 0x0AC = packed [(0, s.cmd.reservations), (8, s.cmd.completions.length)] ∧
        (s.cmd.completions = [] → ∀ b ∈ [0x0B0, 0x0B2, 0x0B4], word b = 0#16) ∧
        (s.cmd.completions = [] → ∀ i : Fin 16, word (0x0C0 + 2 * i.val) = 0#16) ∧
        ∀ x xs, s.cmd.completions = x :: xs →
          word 0x0B0 = packed [(0, x.ticket.toNat), (8, cmdKinds.idxOf x.kind)] ∧
            word 0x0B2 = packed [(0, statuses.idxOf x.status), (8, x.node)] ∧ word 0x0B4 = packed [(0, x.count)] ∧
            ∀ i : Fin 16, word (0x0C0 + 2 * i.val) = x.data.getD i.val 0#16) ∧
      (∀ i : WinIx,
        (let w := s.window i
          let base := 0x100 + 16 * i.val;
          word base = packed [(0, w.enabled.toNat), (1, w.kind.toNat), (3, w.writeProtect.toNat), (4, w.node.toNat),
              (9, w.attached.toNat), (10, w.stale.toNat), (11, statuses.idxOf w.enableStatus)] ∧
            word (base + 2) = packed [(0, w.base.toNat)] ∧ word (base + 4) = packed [(0, w.length.toNat)] ∧
            word (base + 6) = w.remoteBase ∧ word (base + 8) = packed [(0, w.interval.toNat)] ∧
            word (base + 10) = w.boundIncarnation ∧ word (base + 12) = packed [(0, w.mirrorSegment)] ∧
            word (base + 14) = w.generation)) ∧
      (∀ k : Addr,
        (let r := s.node k
          let base := 0x200 + 16 * k.val;
          word base = packed [(0, nodeStates.idxOf r.state),
              (3, match r.step with
                | none => 0
                | some x => 1 + nodeSteps.idxOf x),
              (6, match s.chain.admission.idxOf? k with
                | none => 0
                | some i => i + 1)] ∧
            word (base + 2) = r.incarnation ∧ word (base + 4) = packed [(8, r.cls.toNat), (0, r.revision.toNat)] ∧
            word (base + 6) = packed [(0, r.span.getD 0 / 16)] ∧
            word (base + 8) = packed [(0, r.demand.toNat), (4, r.attnCapable.toNat), (5, r.powered.toNat),
              (6, r.loadFault.toNat)] ∧
            word (base + 10) = packed [(0, r.failCount), (3, r.nextSeq.toNat), (4, r.resync.toNat),
              (5, r.inFlightTag.isSome.toNat), (6, (r.inFlightTag.map (·.val)).getD 0),
              (9, r.attnToggle.isSome.toNat), (10, (r.attnToggle.getD false).toNat), (11, r.ackOwed.toNat)] ∧
            word (base + 12) = packed [(0, r.refreshOnAttn.toNat)] ∧ word (base + 14) = 0#16)) ∧
      (s.notices.records = [] → ∀ b ∈ [0x180, 0x182, 0x184], word b = 0#16) ∧
      (∀ x xs, s.notices.records = x :: xs →
        word 0x180 = packed [(0, x.node), (8, 1 + noticeKinds.idxOf x.kind)] ∧ word 0x182 = x.detail ∧
          word 0x184 = packed [(0, x.repeats)]) ∧
      word 0x188 = packed [(0, s.notices.records.length), (15, s.notices.overflow.toNat)])

/-- R181: while CLK_IN is absent no timer expires and no frame is sent or received, so those rows have no effect and
the end of an event hands no frame to the transmitter. Which rows these are is the model's reading (log 35). -/
def Obligations.NothingTimedHappensWithoutTheClock : Prop :=
  ∀ s : State, s.pins.clkIn = false →
    (∀ c, needsClock c = true → exec c s = .next s) ∧ s.finish.port = s.port

/-! ### Commands -/

/-- R145, cases 1 and 2: a bad parameter answers BAD_COMMAND; a full Completion Queue answers REFUSED_FULL.
Nothing else changes. -/
def Obligations.SubmitIsTurnedAway : Prop :=
  ∀ (s : State) (c : Instr) (w : Word), submitted c = some w → s.hostReady = true →
    (BadParameters s →
      exec c s = .next { s.released with cmd := { s.cmd with submitStatus := .badCommand } }) ∧
    (¬ BadParameters s → ¬ s.cmd.roomFor →
      exec c s = .next { s.released with cmd := { s.cmd with submitStatus := .refusedFull } })

/-- R145, R147, R148: READ, WRITE and NRESET that pass cases 1 and 2. To a node in service they queue one entry,
or answer REFUSED_FULL with no effect when no host-class slot is free; to any other node they complete at once
NODE_NOT_READY. -/
def Obligations.TransferIsQueuedOrAnswered : Prop :=
  ∀ (s : State) (c : Instr) (w : Word) (k : Addr) (kind : CmdKind) (op : Op) (address : Word) (count : Nat)
    (data : List Word), submitted c = some w → s.hostReady = true →
    StagesTransfer s k kind op address count data → s.cmd.roomFor →
    (s.inService k → s.hostSlotFree = true →
      exec c s = .next (State.finish { s.released with
        queue := s.queue ++ [{
          origin := .command { ticket := w.extractLsb' 0 8, kind := kind, order := s.cmd.nextOrder }
          op := op, node := k, remote := address, count := count, data := data, attempts := 0, sentBit := none,
          state := .waiting, tag := none }]
        cmd := s.cmd.accepting })) ∧
    (s.inService k → s.hostSlotFree = false →
      exec c s = .next { s.released with cmd := { s.cmd with submitStatus := .refusedFull } }) ∧
    (¬ s.inService k →
      exec c s = .next (State.finish { s.released with
        cmd := s.cmd.completing
          { ticket := w.extractLsb' 0 8, kind := kind, status := .nodeNotReady, node := addrNum k,
            count := count, data := [] } }))

/-- R34, R36, R37, R149, R150: FENCE without power-off. A VACANT record completes NODE_NOT_READY. Any other record is
FENCED and the FENCE completes OK, behind the entries that waited for the node and the UNFENCEs that waited for its
decision, all NODE_NOT_READY. Its step is absent, unless it was FENCED already: then the step stays, but for the step
of a LOAD_OFF or an UNFENCE's PING that was WAITING. It is off the Admission List, and its demand is released where its
LOAD_ON was WAITING. -/
def Obligations.FenceTakesTheNodeOutOfService : Prop :=
  ∀ (s : State) (c : Instr) (w : Word) (k : Addr), submitted c = some w → s.hostReady = true →
    s.cmd.staging.kind = 2#4 → s.cmd.staging.node.toNat = addrNum k → s.cmd.staging.powerOff = false →
    s.cmd.roomFor →
    ((s.node k).state = .vacant →
      exec c s = .next (State.finish { s.released with
        cmd := s.cmd.completing
          { ticket := w.extractLsb' 0 8, kind := .fence, status := .nodeNotReady, node := addrNum k,
            count := 0, data := [] } })) ∧
    ((s.node k).state ≠ .vacant → AccountOk s →
      (let waits := fun e : Entry => e.state = .waiting ∧ e.isHost = true ∧ e.node = k
        let records :=
          (s.queue.filter fun e => decide (waits e)).flatMap (s.endings .nodeNotReady) ++
            (s.chain.unfenceWaits.filter fun u => decide (u.node = k)).map (unfenceEnding .nodeNotReady)
        let own : Completion :=
          { ticket := w.extractLsb' 0 8, kind := .fence, status := .ok, node := addrNum k, count := 0, data := [] };
        ∃ t, exec c s = .next t ∧ (t.node k).state = .fenced ∧
          ((s.node k).state ≠ .fenced → (t.node k).step = none) ∧
          ((s.node k).state = .fenced → (∀ e ∈ s.queue, ¬ waits e) → (t.node k).step = (s.node k).step) ∧
          ((s.node k).state = .fenced →
            (∃ e ∈ s.queue, waits e ∧ (∃ r, e.origin = .command r) ∧
              (e.op = .loadOff ∧ (s.node k).step = some .poweringOff ∨
                e.op = .ping ∧ (s.node k).step = some .unfencing)) →
            (t.node k).step = none) ∧
          (t.node k).powered =
            (if (s.node k).state = .powering ∧
                ∃ e ∈ s.queue, e.state = .waiting ∧ e.origin = .management ∧ e.op = .loadOn ∧ e.node = k then false
              else (s.node k).powered) ∧
          (t.node k).failCount = (s.node k).failCount ∧ (t.node k).nextSeq = (s.node k).nextSeq ∧
          (t.node k).incarnation = (s.node k).incarnation ∧
          k ∉ t.chain.admission ∧ AccountOk t ∧
          (∀ e ∈ t.queue, e.node = k → e.isHost = true → e.state ≠ .waiting) ∧
          (records.length ≤ s.cmd.reservations → s.cmd.completions ++ (records ++ [own]) <+: t.cmd.completions) ∧
          t.cmd.submitStatus = .accepted ∧ t.ctl = s.ctl ∧ t.mirror = s.mirror ∧ t.lbi = s.lbi))

/-- R38, R149: a power-off FENCE of a node that is FENCED already, with powered yes, step absent and nothing
waiting for it, queues its LOAD_OFF; with powered no it completes OK; with a step present NODE_NOT_READY. -/
def Obligations.PowerOffFenceQueuesLoadOff : Prop :=
  ∀ (s : State) (c : Instr) (w : Word) (k : Addr), submitted c = some w → s.hostReady = true →
    s.cmd.staging.kind = 2#4 → s.cmd.staging.node.toNat = addrNum k → s.cmd.staging.powerOff = true →
    s.cmd.roomFor → (s.node k).state = .fenced →
    (∀ e ∈ s.queue, e.node = k → e.isHost = true → e.state ≠ .waiting) →
    (∀ u ∈ s.chain.unfenceWaits, u.node ≠ k) →
    (let done : Status → Host.Outcome State Fault Refusal := fun st =>
        .next (State.finish { s.released with
          cmd := s.cmd.completing
            { ticket := w.extractLsb' 0 8, kind := .fence, status := st, node := addrNum k, count := 0,
              data := [] } });
      ((s.node k).powered = false → exec c s = done .ok) ∧
      ((s.node k).powered = true → (s.node k).step.isSome = true → exec c s = done .nodeNotReady) ∧
      ((s.node k).powered = true → (s.node k).step = none → s.hostSlotFree = true →
        exec c s = .next (State.finish { s.released with
          nodes := s.nodes.set k.val { s.node k with step := some .poweringOff }
          queue := s.queue ++ [{
            origin := .command { ticket := w.extractLsb' 0 8, kind := .fence, order := s.cmd.nextOrder }
            op := .loadOff, node := k, remote := 0, count := 0, data := [], attempts := 0, sentBit := none,
            state := .waiting, tag := none }]
          cmd := s.cmd.accepting })) ∧
      ((s.node k).powered = true → (s.node k).step = none → s.hostSlotFree = false →
        exec c s = .next { s.released with cmd := { s.cmd with submitStatus := .refusedFull } }))

/-- R37, R150: UNFENCE. A FENCED node with step absent is confirmed by a PING when it is powered, and otherwise
is SENSED and waits for its decision. Any other record completes NODE_NOT_READY. -/
def Obligations.UnfenceConfirmsOrDecides : Prop :=
  ∀ (s : State) (c : Instr) (w : Word) (k : Addr), submitted c = some w → s.hostReady = true →
    s.cmd.staging.kind = 3#4 → s.cmd.staging.node.toNat = addrNum k → s.cmd.roomFor →
    (¬((s.node k).state = .fenced ∧ (s.node k).step = none) →
      exec c s = .next (State.finish { s.released with
        cmd := s.cmd.completing
          { ticket := w.extractLsb' 0 8, kind := .unfence, status := .nodeNotReady, node := addrNum k,
            count := 0, data := [] } })) ∧
    ((s.node k).state = .fenced → (s.node k).step = none → (s.node k).powered = true → s.hostSlotFree = true →
      exec c s = .next (State.finish { s.released with
        nodes := s.nodes.set k.val { s.node k with loadFault := false, step := some .unfencing }
        queue := s.queue ++ [{
          origin := .command { ticket := w.extractLsb' 0 8, kind := .unfence, order := s.cmd.nextOrder }
          op := .ping, node := k, remote := 0, count := 0, data := [], attempts := 0, sentBit := none,
          state := .waiting, tag := none }]
        cmd := s.cmd.accepting })) ∧
    ((s.node k).state = .fenced → (s.node k).step = none → (s.node k).powered = true → s.hostSlotFree = false →
      exec c s = .next { s.released with cmd := { s.cmd with submitStatus := .refusedFull } }) ∧
    ((s.node k).state = .fenced → (s.node k).step = none → (s.node k).powered = false →
      exec c s = .next (State.finish { s.released with
        nodes := s.nodes.set k.val { s.node k with loadFault := false, state := .sensed }
        chain := { s.chain with
          backlog :=
            if .decision k false ∈ s.chain.backlog then s.chain.backlog
            else s.chain.backlog ++ [.decision k false]
          unfenceWaits :=
            insertWait { ticket := w.extractLsb' 0 8, node := k, order := s.cmd.nextOrder }
              s.chain.unfenceWaits }
        cmd := s.cmd.accepting }))

/-- R133, R135, R136, R151: a REFRESH command for a MIRROR record attaches to the window's job, or completes at
once by the first case that applies, or creates a job. -/
def Obligations.RefreshCommandMergesCompletesOrCreates : Prop :=
  ∀ (s : State) (c : Instr) (w : Word) (i : WinIx), submitted c = some w → s.hostReady = true →
    s.cmd.staging.kind = 5#4 → s.cmd.staging.window.toNat = i.val → (s.window i).kind = 2#2 → s.cmd.roomFor →
    (let v := s.window i
      let done : Status → Host.Outcome State Fault Refusal := fun st =>
        .next (State.finish { s.released with
          cmd := s.cmd.completing
            { ticket := w.extractLsb' 0 8, kind := .refresh, status := st,
              node := if 1 ≤ v.node.toNat ∧ v.node.toNat ≤ 24 then v.node.toNat else 0,
              count := 0, data := [] } });
      ((∃ e ∈ s.queue, e.isJobOf i = true) →
        exec c s = .next (State.finish { s.released with
          queue := s.queue.map fun e =>
            match e.origin with
            | .refresh r =>
              if r.window = i then
                { e with origin := .refresh { r with attached := r.attached ++ [w.extractLsb' 0 8] } }
              else e
            | _ => e
          cmd := s.cmd.accepting })) ∧
      ((∀ e ∈ s.queue, e.isJobOf i = false) → (v.enabled = false ∨ v.attached = false) →
        exec c s = done .detached) ∧
      ∀ k : Addr, (∀ e ∈ s.queue, e.isJobOf i = false) → v.enabled = true → v.attached = true →
        v.node.toNat = addrNum k →
        (¬ s.inService k → exec c s = done .nodeNotReady) ∧
        (s.inService k → s.hostSlotFree = false → exec c s = done .refusedFull) ∧
        (s.inService k → s.hostSlotFree = true →
          exec c s = .next (State.finish { s.released with
            queue := s.queue ++ [{
              origin := .refresh
                { window := i, generation := v.generation, segment := v.mirrorSegment, nextOffset := 0,
                  attached := [w.extractLsb' 0 8] }
              op := .rd, node := k, remote := v.remoteBase, count := min 16 v.length.toNat, data := [],
              attempts := 0, sentBit := none, state := .waiting, tag := none }]
            cmd := s.cmd.accepting })))

/-- R60, R152: RESCAN by chain state. -/
def Obligations.RescanActsByChainState : Prop :=
  ∀ (s : State) (c : Instr) (w : Word), submitted c = some w → s.hostReady = true →
    s.cmd.staging.kind = 6#4 → s.cmd.roomFor →
    (let ticket : BitVec 8 := w.extractLsb' 0 8
      let done : Status → Nat → Host.Outcome State Fault Refusal := fun st n =>
        .next (State.finish { s.released with
          cmd := s.cmd.completing
            { ticket := ticket, kind := .rescan, status := st, node := 0, count := n, data := [] } })
      let attached : ChainManager → Host.Outcome State Fault Refusal := fun ch =>
        .next (State.finish { s.released with
          chain := { ch with rescans := s.chain.rescans ++ [ticket] }, cmd := s.cmd.accepting })
      let due := fun (st : MgmtStep) => if st ∈ s.chain.backlog then s.chain.backlog else s.chain.backlog ++ [st];
      (s.chain.state = .off ∨ s.chain.state = .faulted → exec c s = done .nodeNotReady 0) ∧
      (s.chain.state = .ramp ∨ s.chain.state = .walking → exec c s = attached s.chain) ∧
      (s.chain.state = .running → s.chain.tail = 24 → exec c s = done .ok 24) ∧
      (∀ k : Addr, s.chain.state = .running → s.chain.tail = k.val → s.wayOpen = true →
        exec c s = attached { s.chain with
          state := .walking, pointer := some k, walkStep := some .assigning, backlog := due (.assign k) }) ∧
      (∀ k : Addr, s.chain.state = .running → s.chain.tail = addrNum k → addrNum k < 24 → s.wayOpen = false →
        s.closePending k = false →
        exec c s = attached { s.chain with
          state := .walking, pointer := some k, walkStep := some .opening, backlog := due (.openGate k) }) ∧
      (∀ k : Addr, s.chain.state = .running → s.chain.tail = addrNum k → addrNum k < 24 → s.wayOpen = false →
        s.closePending k = true →
        exec c s = attached { s.chain with
          state := .walking, pointer := some k, walkStep := some .opening, darkWait := some .closing }))

/-- R153: CANCEL looks at the oldest COMMAND entry with its target ticket. A WAITING transfer is retired
ABORTED, its record ahead of the CANCEL's. -/
def Obligations.CancelLooksAtTheOldestEntry : Prop :=
  ∀ (s : State) (c : Instr) (w : Word), submitted c = some w → s.hostReady = true →
    s.cmd.staging.kind = 7#4 → s.cmd.roomFor →
    (let ticket : BitVec 8 := w.extractLsb' 0 8
      let target := s.cmd.staging.target
      let own : Status → Nat → Completion := fun st n => Completion.mk ticket .cancel st n 0 [];
      ((∀ e ∈ s.queue, e.hasTicket target = false) →
        exec c s = .next (State.finish { s.released with cmd := s.cmd.completing (own .notFound 0) })) ∧
      (∀ e, s.queue.find? (·.hasTicket target) = some e → e.state ≠ .waiting →
        exec c s = .next (State.finish { s.released with cmd := s.cmd.completing (own .inFlight 0) })) ∧
      ∀ (e : Entry) (r : CommandRef) (n : Nat), s.queue.find? (·.hasTicket target) = some e →
        e.state = .waiting → e.origin = .command r → (e.op = .rd ∨ e.op = .wr ∨ e.op = .nreset) →
        s.cmd.reservations = n + 1 →
        exec c s = .next (State.finish { s.released with
          queue := s.queue.eraseP (·.hasTicket target)
          cmd := { s.cmd with
            submitStatus := .accepted
            reservations := n
            nextOrder := s.cmd.nextOrder + 1
            completions := s.cmd.completions ++
              [{ ticket := r.ticket, kind := r.kind, status := .aborted, node := addrNum e.node,
                  count := if r.kind = .read ∨ r.kind = .write then e.count else 0, data := [] },
                own .ok (addrNum e.node)] } }))

/-! ### Window records -/

/-- R112: a write to a disabled record's word stores its writable fields; words 5 to 7 ignore it. A write to a
word of an enabled record is ignored, but for a disable. -/
def Obligations.WindowFieldWriteNeedsADisabledRecord : Prop :=
  ∀ (s : State) (i : WinIx) (word : Fin 8) (w : Word), s.hostReady = true →
    ((s.window i).enabled = true → (word ≠ 0 ∨ w.getLsbD 0 = true) →
      exec (.windowFieldWrite i word w) s = .next s.released) ∧
    ((s.window i).enabled = false → (word ≠ 0 ∨ w.getLsbD 0 = false) →
      exec (.windowFieldWrite i word w) s = .next { s.released with
        windows := s.windows.set i.val
          (if word = 0 then
            { s.window i with
              kind := w.extractLsb' 1 2, writeProtect := w.getLsbD 3, node := w.extractLsb' 4 5 }
          else if word = 1 then { s.window i with base := w.extractLsb' 0 10 }
          else if word = 2 then { s.window i with length := w.extractLsb' 0 11 }
          else if word = 3 then { s.window i with remoteBase := w }
          else if word = 4 then { s.window i with interval := w.extractLsb' 0 8 }
          else s.window i) })

/-- R113, R114, R129, R131, R132: an enable of a disabled record makes its four checks in order, on the fields
as the write leaves them; a record that passes is bound, and a MIRROR record takes the lowest run that fits. -/
def Obligations.WindowEnableChecksThenBinds : Prop :=
  ∀ (s : State) (i : WinIx) (w : Word), s.hostReady = true → w.getLsbD 0 = true →
    ((s.window i).enabled = true → exec (.windowEnable i w) s = .next s.released) ∧
    ((s.window i).enabled = false →
      (let v : Window :=
        { s.window i with kind := w.extractLsb' 1 2, writeProtect := w.getLsbD 3, node := w.extractLsb' 4 5 }
      let refused : Status → Host.Outcome State Fault Refusal := fun st =>
        .next { s.released with windows := s.windows.set i.val { v with enableStatus := st } }
      let conflict : Prop := ∃ j, j ≠ i ∧ (s.window j).enabled = true ∧ v.overlaps (s.window j) = true
      let fits := fun b : Nat => b + v.length.toNat ≤ 512 ∧
        ∀ j, j ≠ i → (s.window j).enabled = true → (s.window j).kind = 2#2 →
          (s.window j).mirrorSegment + (s.window j).length.toNat ≤ b ∨
            b + v.length.toNat ≤ (s.window j).mirrorSegment;
      (v.inRange = false → exec (.windowEnable i w) s = refused .range) ∧
      ∀ k : Addr, v.inRange = true → v.node.toNat = addrNum k →
        ((s.node k).state = .vacant → exec (.windowEnable i w) s = refused .nodeAbsent) ∧
        ((s.node k).state ≠ .vacant → conflict → exec (.windowEnable i w) s = refused .conflict) ∧
        ((s.node k).state ≠ .vacant → ¬ conflict → v.kind ≠ 2#2 →
          exec (.windowEnable i w) s = .next { s.released with
            windows := s.windows.set i.val
              { v with
                enabled := true, enableStatus := .ok, attached := true,
                boundIncarnation := (s.node k).incarnation } }) ∧
        ((s.node k).state ≠ .vacant → ¬ conflict → v.kind = 2#2 → (∀ b, ¬ fits b) →
          exec (.windowEnable i w) s = refused .noMirrorSpace) ∧
        ∀ b, (s.node k).state ≠ .vacant → ¬ conflict → v.kind = 2#2 → fits b → (∀ b', b' < b → ¬ fits b') →
          exec (.windowEnable i w) s = .next { s.released with
            windows := s.windows.set i.val
              { v with
                enabled := true, enableStatus := .ok, attached := true,
                boundIncarnation := (s.node k).incarnation, mirrorSegment := b, stale := true }
            mirror :=
              { pool := Memory.storeRange s.mirror.pool b (List.replicate v.length.toNat 0#16)
                timers := s.mirror.timers.set i.val
                  (if v.interval = 0#8 then none else some v.interval.toNat) } }))

/-- R91, R100, R116, R131, R132, R135, R142: the disable of an enabled record. Its refresh job leaves the queue, its
attached commands complete ABORTED in the order of their list, and the request of a job in flight or in backoff goes:
its tag to HOLD, in_flight_tag absent, resync set. The other records keep their mapping. -/
def Obligations.WindowDisableFreesTheRecord : Prop :=
  ∀ (s : State) (i : WinIx) (w : Word), s.hostReady = true → w.getLsbD 0 = false → (s.window i).enabled = true →
    (let v : Window :=
        { s.window i with
          enabled := false, attached := false, boundIncarnation := 0#16,
          mirrorSegment := if (s.window i).kind = 2#2 then 0 else (s.window i).mirrorSegment }
      let freed : State :=
        { s.released with
          windows := s.windows.set i.val v, mirror := { s.mirror with timers := s.mirror.timers.set i.val none } };
      ((∀ e ∈ s.queue, e.isJobOf i = false) → exec (.windowDisable i w) s = .next freed.finish) ∧
      (∀ e r, s.queue.filter (·.isJobOf i) = [e] → e.origin = .refresh r → e.op = .rd →
        r.attached.length ≤ s.cmd.reservations →
        (let aborted : State :=
            { freed with
              queue := s.queue.filter fun x => !x.isJobOf i
              cmd := s.cmd.ended (refreshEndings (s.window i) .aborted r.attached) };
          (e.tag = none → exec (.windowDisable i w) s = .next aborted.finish) ∧
          ∀ x, e.tag = some x →
            exec (.windowDisable i w) s = .next (State.finish { aborted with
              disp := s.tagEnded x (.hold (2 * s.ctl.timeout))
              nodes := s.nodes.set e.node.val
                { s.node e.node with
                  inFlightTag := none
                  resync := if (s.node e.node).state = .vacant then (s.node e.node).resync else true } }))) ∧
      ∃ t, exec (.windowDisable i w) s = .next t ∧ t.window i = v ∧ (∀ j, j ≠ i → t.window j = s.window j) ∧
        (∀ e ∈ t.queue, e.isJobOf i = false) ∧ t.mirror.pool = s.mirror.pool ∧ t.ctl = s.ctl)

/-! ### Carrier and loss -/

/-- R4, R48, R102 to R105: carrier on UP. It sets the flag while CHAIN_PWR_EN is asserted; its loss with the
flag set is a loss at address 1, which takes the part to RAMP in phase DARK. -/
def Obligations.CarrierSetsTheFlagAndItsLossIsReported : Prop :=
  (∀ s : State, s.pins.supplyValid = true → s.pins.powerOnHold = false → s.pins.resetN = true →
    exec .upCarrierPresent s = .next { s with
      pins := { s.pins with upCarrier := true }
      port := { s.port with carrierSeen := if s.chain.pwrEn then true else s.port.carrierSeen } }) ∧
  (∀ s : State, s.port.carrierSeen = false →
    exec .upCarrierLost s = .next { s with pins := { s.pins with upCarrier := false } }) ∧
  (∀ s : State, s.port.carrierSeen = true → (s.node 0).state = .vacant →
    exec .upCarrierLost s = .next (State.finish { s with
      pins := { s.pins with upCarrier := false }, port := { s.port with carrierSeen := false } })) ∧
  ∀ s : State, s.port.carrierSeen = true → (s.node 0).state ≠ .vacant →
    ∃ t, exec .upCarrierLost s = .next t ∧ LostFrom s t 0 ∧ t.queue = [] ∧ t.chain.state = .ramp ∧
      t.chain.rampPhase = some .dark ∧ t.chain.rewalk = s.ctl.autoRewalk ∧ t.chain.pwrEn = false ∧
      t.chain.settleTimer = some s.ctl.settle ∧ t.chain.budget = s.chain.budget ∧
      t.chain.rescans = s.chain.rescans ∧ t.port = { tx := none, carrierSeen := false }

/-! ### The Dispatcher -/

/-- R9, R79, R80, R82, R83, R85, R137: at transmitter free in a settled part, CLK_IN running, the first claim present
is served: an owed acknowledgement, a due retransmission, a synthesized PING, a queue entry. A refresh job reads the
next words of its window; an ASSIGN goes to destination 0 with sequence bit 0 and sets no in_flight_tag. -/
def Obligations.TransmitterFreeServesTheFirstClaim : Prop :=
  ∀ s : State, Settled s → s.pins.clkIn = true →
    (let idle : State := { s with port := { s.port with tx := none } }
      let sends : State → DownFrame → Host.Outcome State Fault Refusal := fun t f =>
        .next { t with port := { t.port with tx := some f } }
      let owes := fun k => (s.node k).ackOwed = true ∧ (s.node k).takesAttn = true
      let timer : Option TagTimer := some { use := .response, duration := s.ctl.timeout }
      let busy : TagId → Entry → Bool → Dispatcher := fun t e bit =>
        { s.disp with
          tags := s.disp.tags.set t.val
            (.busy
              { holder := .entry, node := e.node, kind := e.op, sentBit := bit, synthAttempts := 0, timer := timer }) }
      let flown : TagId → Entry → Bool → Entry := fun t e bit =>
        { e with state := .inFlight, tag := some t, sentBit := some bit, attempts := 1 }
      let tagged : TagId → Entry → Vector NodeRecord 24 := fun t e =>
        s.nodes.set e.node.val { s.node e.node with inFlightTag := some t };
      (s.chain.pwrEn = false → exec .transmitterFree s = .next idle) ∧
      (s.chain.pwrEn = true →
        (∀ k, owes k → (∀ j, j < k → ¬ owes j) →
          exec .transmitterFree s =
            sends { s with nodes := s.nodes.set k.val { s.node k with ackOwed := false } }
              { dest := addrNum k, kind := .attnAck, tag := 0, seq := false,
                flag := (s.node k).attnToggle.getD false, body := [] }) ∧
        ((∀ k, ¬ owes k) →
          (∀ t rest f k, s.disp.resend = t :: rest → s.tag t = .busy f → f.holder = .ping k →
            exec .transmitterFree s =
              sends { s with
                disp :=
                  { tags := s.disp.tags.set t.val
                      (.busy { f with timer := timer, synthAttempts := f.synthAttempts + 1 })
                    resend := s.disp.resend.filter (· != t) } }
                { dest := addrNum k, kind := .request .ping, tag := t, seq := f.sentBit, flag := f.sentBit,
                  body := [] }) ∧
          (∀ t rest f e, s.disp.resend = t :: rest → s.tag t = .busy f → f.holder = .entry →
            s.entryOf t = some e →
            exec .transmitterFree s =
              sends { s with
                disp :=
                  { tags := s.disp.tags.set t.val (.busy { f with timer := timer })
                    resend := s.disp.resend.filter (· != t) }
                queue := s.queue.map fun x =>
                  if x.tag = some t then { x with attempts := x.attempts + 1 } else x }
                (e.frame t f.sentBit)) ∧
          (s.disp.resend = [] →
            (∀ t k, s.freeTag = some t → (s.node k).wantsPing = true →
              (∀ j, j < k → (s.node j).wantsPing = false) →
              exec .transmitterFree s =
                sends { s with
                  disp := { s.disp with
                    tags := s.disp.tags.set t.val
                      (.busy
                        { holder := .ping k, node := k, kind := .ping, sentBit := (s.node k).nextSeq,
                          synthAttempts := 1, timer := timer }) }
                  nodes := s.nodes.set k.val { s.node k with inFlightTag := some t } }
                  { dest := addrNum k, kind := .request .ping, tag := t, seq := (s.node k).nextSeq,
                    flag := (s.node k).nextSeq, body := [] }) ∧
            (∀ t i e, s.freeTag = some t → (∀ k, (s.node k).wantsPing = false) →
              s.firstEligible [] s.queue = some (i, e) →
              (let bit := (s.node e.node).nextSeq;
                ((∀ r, e.origin ≠ .refresh r) → e.op ≠ .assign →
                  exec .transmitterFree s =
                    sends { s with disp := busy t e bit, nodes := tagged t e, queue := s.queue.set i (flown t e bit) }
                      (e.frame t bit)) ∧
                (∀ r, e.origin = .refresh r → e.op = .rd →
                  (let v := s.window r.window
                    let next : Entry :=
                      { e with
                        remote := v.remoteBase + BitVec.ofNat 16 r.nextOffset
                        count := min 16 (v.length.toNat - r.nextOffset) };
                    exec .transmitterFree s =
                      sends
                        { s with
                          disp := busy t e bit, nodes := tagged t e, queue := s.queue.set i (flown t next bit) }
                        { dest := addrNum e.node, kind := .request .rd, tag := t, seq := bit, flag := false,
                          body := [next.remote, BitVec.ofNat 16 next.count] })) ∧
                ((∀ r, e.origin ≠ .refresh r) → e.op = .assign →
                  exec .transmitterFree s =
                    sends { s with disp := busy t e false, queue := s.queue.set i (flown t e false) }
                      { dest := 0, kind := .request .assign, tag := t, seq := false, flag := false,
                        body := [BitVec.ofNat 16 (addrNum e.node)] }))) ∧
            (s.freeTag = none ∨
                (∀ k, (s.node k).wantsPing = false) ∧ s.firstEligible [] s.queue = none →
              exec .transmitterFree s = .next idle)))))

/-! ### The power account -/

/-- R32, R64: the admission decision for a SENSED node, taken with a slot free and no UNFENCE waiting on it. It is
admitted if its demand fits and no node waits for admission, or if it fits and a keep reset put the decision
back, and it is denied otherwise. A decision for a node that is not SENSED has no effect. -/
def Obligations.DecisionAdmitsOrDenies : Prop :=
  ∀ (s : State) (k : Addr) (putBack : Bool),
    ((s.node k).state ≠ .sensed → s.takeStep (.decision k putBack) = s) ∧
    ((s.node k).state = .sensed → s.mgmtSlotFree = true → (∀ u ∈ s.chain.unfenceWaits, u.node ≠ k) →
      s.takeStep (.decision k putBack) =
        if s.chain.committed + s.demandOf k ≤ s.chain.budget ∧ (s.chain.admission = [] ∨ putBack = true) then
          { s with
            chain := { s.chain with committed := s.chain.committed + s.demandOf k }
            nodes := s.nodes.set k.val
              { s.node k with powered := true, state := .powering, step := some .loadWait }
            queue := s.queue ++ [{
              origin := .management, op := .loadOn, node := k, remote := 0, count := 0, data := [],
              attempts := 0, sentBit := none, state := .waiting, tag := none }] }
        else
          { s with
            nodes := s.nodes.set k.val { s.node k with state := .denied }
            chain := { s.chain with admission := s.chain.admission ++ [k] }
            notices := s.notices.post (addrNum k) .nodeDenied (BitVec.ofNat 16 (s.demandOf k)) })

/-! ### Answers -/

/-- R87, R88: a tagged frame that no request's conditions take is stray. In a settled part it posts one
STRAY_RESPONSE and changes nothing else; nothing is delivered while CHAIN_PWR_EN is deasserted or CLK_IN is absent. -/
def Obligations.StrayAnswerPostsANoticeOnly : Prop :=
  ∀ (s : State) (src : BitVec 5) (t : TagId) (seq : Bool), Settled s →
    (let stray : State :=
        if s.chain.pwrEn = true ∧ s.pins.clkIn = true then
          { s with notices := s.notices.post 0 .strayResponse (BitVec.ofNat 16 t.val) }
        else s;
      (∀ ws, 1 ≤ ws.length → ws.length ≤ 16 →
        (¬ ∃ f e, s.answers src t seq [.rd] f ∧ s.entryOf t = some e ∧ e.count = ws.length) →
        exec (.receiveData src t seq ws) s = .next stray) ∧
      ((¬ ∃ f, s.answers src t seq [.wr, .loadOn, .loadOff, .openGate, .closeGate, .nreset, .ping] f) →
        exec (.receiveDone src t seq) s = .next stray) ∧
      (∀ reason,
        (¬ ∃ f, s.answers src t seq [.rd, .wr, .loadOn, .loadOff, .openGate, .closeGate, .nreset] f) →
        exec (.receiveRefuse src t seq reason) s = .next stray) ∧
      ∀ ident, (¬ ∃ f, s.answers src t seq [.assign] f) →
        exec (.receiveSense src t seq ident) s = .next stray)

/-- R77, R89, R93, R123: the DATA for a COMMAND READ completes it OK with its words; the DATA for a held
aperture read ends the cycle with the word. -/
def Obligations.DataCompletesTheRead : Prop :=
  ∀ (s : State) (src : BitVec 5) (t : TagId) (seq : Bool) (ws : List Word) (f : Flight) (e : Entry),
    s.linkUp = true → 1 ≤ ws.length → ws.length ≤ 16 → s.answers src t seq [.rd] f → f.holder = .entry →
    s.entryOf t = some e → e.op = .rd → e.count = ws.length →
    (let record :=
        { s.node f.node with inFlightTag := none, failCount := 0, nextSeq := !(s.node f.node).nextSeq }
      let answered : State :=
        { s with
          disp := s.tagEnded t (s.answeredTag e.attempts)
          nodes := s.nodes.set f.node.val record
          queue := s.queue.filter fun x => x.tag != some t };
      (∀ r n, e.origin = .command r → r.kind = .read → s.cmd.reservations = n + 1 →
        exec (.receiveData src t seq ws) s = .next (State.finish { answered with
          cmd := { s.cmd with
            reservations := n
            completions := s.cmd.completions ++
              [{ ticket := r.ticket, kind := .read, status := .ok, node := addrNum e.node, count := e.count,
                  data := ws }] } })) ∧
      ∀ r c, e.origin = .aperture r → r.held = true → s.lbi.slot = some c → c.phase = .resultWait →
        c.handle = r.handle → c.access = .read →
        exec (.receiveData src t seq ws) s = .next (State.finish { answered with
          lbi := { s.lbi with slot := none, result := .ok }
          pins := { s.pins with busData := some (ws.headD 0xFFFF#16) } }))

/-- R137, R138: the words of a DATA for a current refresh job land at its segment and offset, and every other
pool word is as it was. -/
def Obligations.RefreshDataLandsInItsSegment : Prop :=
  ∀ (s : State) (src : BitVec 5) (t : TagId) (seq : Bool) (ws : List Word) (f : Flight) (e : Entry)
    (r : RefreshRef), s.linkUp = true → 1 ≤ ws.length → ws.length ≤ 16 → s.answers src t seq [.rd] f →
    f.holder = .entry → s.entryOf t = some e → e.count = ws.length → e.origin = .refresh r →
    (s.window r.window).enabled = true → (s.window r.window).kind = 2#2 →
    (s.window r.window).mirrorSegment = r.segment → (s.window r.window).generation = r.generation →
    Memory.wf s.mirror.pool = true → r.segment + r.nextOffset + ws.length ≤ 512 →
    ∃ u, exec (.receiveData src t seq ws) s = .next u ∧ u.ctl = s.ctl ∧ u.mirror.timers = s.mirror.timers ∧
      ∀ a, Memory.read u.mirror.pool a =
        if h : r.segment + r.nextOffset ≤ a ∧ a < r.segment + r.nextOffset + ws.length then
          ws[a - (r.segment + r.nextOffset)]'(by omega)
        else Memory.read s.mirror.pool a

/-- R89, R137 to R141: the DATA of a refresh job. Its words land if the job is current, and nowhere otherwise. A job
with words left waits for its next request, or ends NODE_NOT_READY where its node is out of service. The last DATA ends
it OK: a current window counts a generation and is not stale, and the attached commands complete in order. -/
def Obligations.RefreshDataGoesOnOrEndsTheJob : Prop :=
  ∀ (s : State) (src : BitVec 5) (t : TagId) (seq : Bool) (ws : List Word) (f : Flight) (e : Entry)
    (r : RefreshRef), s.linkUp = true → 1 ≤ ws.length → ws.length ≤ 16 → s.answers src t seq [.rd] f →
    f.holder = .entry → s.entryOf t = some e → (∀ x ∈ s.queue, x.tag = some t → x = e) → e.node = f.node →
    e.count = ws.length → e.origin = .refresh r →
    (let i := r.window
      let v := s.window i
      let answered : State :=
        { s with
          disp := s.tagEnded t (s.answeredTag e.attempts)
          nodes := s.nodes.set f.node.val
            { s.node f.node with inFlightTag := none, failCount := 0, nextSeq := !(s.node f.node).nextSeq }
          mirror :=
            if r.current v then
              { s.mirror with pool := Memory.storeRange s.mirror.pool (r.segment + r.nextOffset) ws }
            else s.mirror }
      let ended : State := { answered with queue := s.queue.filter fun x => x.tag != some t };
      (r.nextOffset + ws.length < v.length.toNat → s.inService e.node →
        exec (.receiveData src t seq ws) s = .next (State.finish { answered with
          queue := s.queue.map fun x =>
            if x.tag = some t then
              { e with
                origin := .refresh { r with nextOffset := r.nextOffset + ws.length }
                state := .waiting, tag := none, sentBit := none, attempts := 0 }
            else x })) ∧
      (r.nextOffset + ws.length < v.length.toNat → ¬ s.inService e.node → r.attached.length ≤ s.cmd.reservations →
        exec (.receiveData src t seq ws) s = .next (State.finish
          { (if r.current v then ended.leftStale i else ended) with
            cmd := s.cmd.ended (refreshEndings v .nodeNotReady r.attached) })) ∧
      (v.length.toNat ≤ r.nextOffset + ws.length → r.attached.length ≤ s.cmd.reservations →
        exec (.receiveData src t seq ws) s = .next (State.finish { ended with
          windows :=
            if r.current v then s.windows.set i.val { v with generation := v.generation + 1#16, stale := false }
            else s.windows
          cmd := s.cmd.ended (refreshEndings v .ok r.attached) })))

/-- R90, R96 to R98, R140: a refresh job that is refused, or that fails finally. A current window is stale with
MIRROR_STALE posted, and the attached commands complete in order with the job's status. Only the failure is counted. -/
def Obligations.RefreshFailureLeavesTheWindowStale : Prop :=
  ∀ (s : State) (t : TagId) (f : Flight) (e : Entry) (r : RefreshRef), s.tag t = .busy f → f.holder = .entry →
    s.entryOf t = some e → e.op = .rd → e.origin = .refresh r → e.node = f.node →
    r.attached.length ≤ s.cmd.reservations →
    (let v := s.window r.window
      let gone : State := { s with queue := s.queue.filter fun x => x.tag != some t }
      let ended : State := if r.current v then gone.leftStale r.window else gone;
      (∀ src seq reason, s.linkUp = true → s.answers src t seq [.rd] f → reason ≠ .busy →
        exec (.receiveRefuse src t seq reason) s = .next (State.finish { ended with
          disp := s.tagEnded t (s.answeredTag e.attempts)
          nodes := s.nodes.set f.node.val
            { s.node f.node with inFlightTag := none, nextSeq := !(s.node f.node).nextSeq }
          cmd := s.cmd.ended
            (refreshEndings v
              (match reason with
                | .range => .refusedRange
                | .readonly => .refusedReadonly
                | _ => .refusedNoload) r.attached) })) ∧
      ∀ (c : Instr) (use : TimerUse) (d : Nat), s.pins.clkIn = true →
        (c = .responseTimerExpiry t ∧ use = .response ∨ c = .backoffTimerExpiry t ∧ use = .backoff) →
        f.timer = some { use := use, duration := d } → 1 + s.ctl.retryLimit ≤ e.attempts →
        exec c s = .next (State.finish { ended with
          disp := s.tagEnded t (.hold (2 * s.ctl.timeout))
          nodes := s.nodes.set e.node.val (s.failedRecord e.node)
          notices := s.failedNotices e.node ended.notices
          cmd := s.cmd.ended (refreshEndings v .timeout r.attached) }))

/-- R26, R77, R89, R93, R101: the DONE for a COMMAND WRITE or NRESET completes it OK; the DONE for the probe of
a SUSPECT node returns it to ONLINE. -/
def Obligations.DoneCompletesTheRequest : Prop :=
  ∀ (s : State) (src : BitVec 5) (t : TagId) (seq : Bool) (f : Flight), s.linkUp = true →
    (∀ e r n, s.answers src t seq [.wr, .nreset] f → f.holder = .entry → s.entryOf t = some e →
      e.op = f.kind → e.origin = .command r → (r.kind = .write ∨ r.kind = .nreset) →
      s.cmd.reservations = n + 1 →
      exec (.receiveDone src t seq) s = .next (State.finish { s with
        disp := s.tagEnded t (s.answeredTag e.attempts)
        nodes := s.nodes.set f.node.val
          { s.node f.node with
            inFlightTag := none, failCount := 0,
            nextSeq := if f.kind = .nreset then false else !(s.node f.node).nextSeq }
        queue := s.queue.filter fun x => x.tag != some t
        cmd := { s.cmd with
          reservations := n
          completions := s.cmd.completions ++
            [{ ticket := r.ticket, kind := r.kind, status := .ok, node := addrNum e.node,
                count := if r.kind = .write then e.count else 0, data := [] }] } })) ∧
    ∀ k, s.answers src t seq [.ping] f → f.holder = .ping k → f.node = k → (s.node k).state = .suspect →
      exec (.receiveDone src t seq) s = .next (State.finish { s with
        disp := s.tagEnded t (s.answeredTag f.synthAttempts)
        nodes := s.nodes.set k.val
          { s.node k with
            inFlightTag := none, failCount := 0, nextSeq := f.sentBit, resync := false, state := .online }
        notices := s.notices.post (addrNum k) .nodeRecovered (s.node k).incarnation })

/-- R33, R34, R53, R56, R106: the DONE for a MANAGEMENT entry. LOAD_ON starts the node's settle, unless the node waits
for a later LOAD_ON of its own, whose DONE then does (R33's last sentence; log 22); the confirming
PING takes it to ONLINE; OPEN to the tail opens its gate and lets the walk settle; CLOSE starts the dark
settle. fail_count is 0 after each, by R27 and R89 against R53's sentence (the model's reading, log 39). -/
def Obligations.ManagementDoneMovesTheChain : Prop :=
  ∀ (s : State) (src : BitVec 5) (t : TagId) (seq : Bool) (f : Flight) (e : Entry), s.linkUp = true →
    s.answers src t seq [.loadOn, .openGate, .closeGate, .ping] f → f.holder = .entry → s.entryOf t = some e →
    e.op = f.kind → e.node = f.node → e.origin = .management →
    (let k := e.node
      let record : NodeRecord :=
        { s.node k with
          inFlightTag := none, failCount := 0,
          nextSeq := if f.kind = .ping then f.sentBit else !(s.node k).nextSeq,
          resync := if f.kind = .ping then false else (s.node k).resync }
      let answered : NodeRecord → State := fun x =>
        { s with
          disp := s.tagEnded t (s.answeredTag e.attempts)
          nodes := s.nodes.set k.val x
          queue := s.queue.filter fun x => x.tag != some t };
      (f.kind = .loadOn →
        (let later := ∃ x ∈ s.queue, x.tag ≠ some t ∧ x.origin = .management ∧ x.op = .loadOn ∧ x.node = k;
          (record.state = .powering → record.step = some .loadWait → ¬ later →
            exec (.receiveDone src t seq) s =
              .next (State.finish { answered { record with step := some .settling } with
                chain := { s.chain with nodeTimers := s.chain.nodeTimers.set k.val (some s.ctl.settle) } })) ∧
          (record.state ≠ .powering ∨ record.step ≠ some .loadWait ∨ later →
            exec (.receiveDone src t seq) s = .next (State.finish (answered record))))) ∧
      (f.kind = .ping → record.state = .powering → record.step = some .confirming →
        exec (.receiveDone src t seq) s =
          .next (State.finish { answered { record with state := .online, step := none } with
            notices := s.notices.post (addrNum k) .nodeOnline record.incarnation })) ∧
      (f.kind = .openGate → s.chain.tail = addrNum k → s.chain.state = .walking → s.chain.pointer = some k →
        s.chain.walkStep = some .opening →
        exec (.receiveDone src t seq) s = .next (State.finish { answered record with
          chain := { s.chain with
            tailGateOpen := true, walkStep := some .settling, settleTimer := some s.ctl.settle } })) ∧
      (f.kind = .closeGate → s.chain.darkWait = some .closing →
        exec (.receiveDone src t seq) s = .next (State.finish { answered record with
          chain := { s.chain with darkWait := some .dark, settleTimer := some s.ctl.settle } })))

/-- R86, R90: REFUSE BUSY starts the backoff of the request; another REFUSE retires a COMMAND transfer with the
status of its reason, fail_count as it was. -/
def Obligations.RefuseBacksOffOrRetires : Prop :=
  ∀ (s : State) (src : BitVec 5) (t : TagId) (seq : Bool) (reason : Reason) (f : Flight) (e : Entry),
    s.linkUp = true →
    s.answers src t seq [.rd, .wr, .loadOn, .loadOff, .openGate, .closeGate, .nreset] f → f.holder = .entry →
    s.entryOf t = some e →
    (reason = .busy →
      exec (.receiveRefuse src t seq reason) s = .next (State.finish { s with
        disp := s.tagEnded t (.busy { f with timer := some { use := .backoff, duration := s.ctl.timeout } })
        queue := s.queue.map fun x => if x.tag = some t then { x with state := .backoff } else x })) ∧
    ∀ r n, reason ≠ .busy → (e.op = .rd ∨ e.op = .wr ∨ e.op = .nreset) → e.origin = .command r →
      s.cmd.reservations = n + 1 →
      exec (.receiveRefuse src t seq reason) s = .next (State.finish { s with
        disp := s.tagEnded t (s.answeredTag e.attempts)
        nodes := s.nodes.set f.node.val
          { s.node f.node with inFlightTag := none, nextSeq := !(s.node f.node).nextSeq }
        queue := s.queue.filter fun x => x.tag != some t
        cmd := { s.cmd with
          reservations := n
          completions := s.cmd.completions ++
            [{ ticket := r.ticket, kind := r.kind
               status :=
                match reason with
                | .range => .refusedRange
                | .readonly => .refusedReadonly
                | _ => .refusedNoload
               node := addrNum e.node
               count := if r.kind = .read ∨ r.kind = .write then e.count else 0
               data := [] }] } })

/-- R25, R31, R55: the SENSE for ASSIGN(k) with record k VACANT. The node is SENSED with its identity and the
next incarnation, NODE_SENSED carries its class and revision, and it is the tail; its decision may follow in the same
event. Below address 24 the walk is in step OPENING with OPEN(k) due; at 24 it ends, RUNNING, with CHAIN_END. -/
def Obligations.SenseMakesTheNodeTheTail : Prop :=
  ∀ (s : State) (src : BitVec 5) (t : TagId) (seq : Bool) (ident : Identity) (f : Flight) (e : Entry),
    s.linkUp = true → s.answers src t seq [.assign] f → f.holder = .entry → s.entryOf t = some e →
    (s.node e.node).state = .vacant → AccountOk s →
    ∃ u, exec (.receiveSense src t seq ident) s = .next u ∧
      ((u.node e.node).state = .sensed ∨ (u.node e.node).state = .denied ∨
        (u.node e.node).state = .powering) ∧
      (u.node e.node).incarnation = (s.node e.node).incarnation + 1#16 ∧
      (u.node e.node).cls = ident.cls ∧ (u.node e.node).revision = ident.revision ∧
      (u.node e.node).span = some (16 * (ident.spanField.toNat + 1)) ∧
      (u.node e.node).demand = ident.demand ∧ (u.node e.node).attnCapable = ident.attnCapable ∧
      (u.node e.node).nextSeq = false ∧
      (u.node e.node).failCount = 0 ∧ (u.node e.node).resync = false ∧
      u.chain.tail = addrNum e.node ∧ u.chain.tailGateOpen = false ∧
      u.notices.shows (addrNum e.node) .nodeSensed (ident.cls ++ ident.revision) ∧
      (addrNum e.node < 24 →
        u.chain.state = s.chain.state ∧ u.chain.pointer = s.chain.pointer ∧ u.chain.walkStep = some .opening ∧
          u.chain.rescans = s.chain.rescans ∧ u.hasDue (.openGate e.node) .openGate e.node) ∧
      (addrNum e.node = 24 →
        u.chain.state = .running ∧ u.chain.pointer = none ∧ u.chain.walkStep = none ∧ u.chain.rescans = [] ∧
          u.notices.shows 0 .chainEnd 24#16) ∧
      u.ctl = s.ctl ∧ u.windows = s.windows ∧ u.mirror = s.mirror

/-- R40 to R42, R102, R133, R134: an ATTN. It is discarded from an address that takes none; a repeat owes an
acknowledgement; an application code posts NODE_ATTENTION, and from a node in service with refresh_on_attn makes one
request for every enabled MIRROR window ATTACHED to the node, in the order of their indices; DOWNSTREAM_LOST from node
k loses the nodes beyond it; LOAD_FAULT takes the load-fault path. -/
def Obligations.AttentionIsTakenByItsCode : Prop :=
  (∀ (s : State) (src : BitVec 5) (code : BitVec 8) (toggle : Bool), Settled s →
    (∀ k, src.toNat = addrNum k → (s.node k).takesAttn = false) →
    exec (.receiveAttn src code toggle) s = .next s) ∧
  ∀ (s : State) (src : BitVec 5) (code : BitVec 8) (toggle : Bool) (k : Addr), s.linkUp = true →
    src.toNat = addrNum k → (s.node k).takesAttn = true →
    (let taken : State :=
        { s with nodes := s.nodes.set k.val { s.node k with attnToggle := some toggle, ackOwed := true } };
      ((s.node k).attnToggle = some toggle → exec (.receiveAttn src code toggle) s = .next taken.finish) ∧
      ((s.node k).attnToggle ≠ some toggle → code ≠ 0xF1#8 → code ≠ 0xF2#8 →
        (s.node k).refreshOnAttn = false ∨ ¬ s.inService k →
        exec (.receiveAttn src code toggle) s = .next (State.finish { taken with
          notices := s.notices.post (addrNum k) .nodeAttention (code.setWidth 16) })) ∧
      ((s.node k).attnToggle ≠ some toggle → code ≠ 0xF1#8 → code ≠ 0xF2#8 →
        (s.node k).refreshOnAttn = true → s.inService k →
        (let asked := fun (q : List Entry) (i : WinIx) =>
            let v := s.window i
            if v.enabled = true ∧ v.kind = 2#2 ∧ v.attached = true ∧ v.node.toNat = addrNum k ∧
                (∀ e ∈ q, e.isJobOf i = false) ∧ q.length < 16 ∧ q.countP Entry.isHost < 14 then
              q ++ [{
                origin := .refresh
                  { window := i, generation := v.generation, segment := v.mirrorSegment, nextOffset := 0,
                    attached := [] }
                op := .rd, node := k, remote := v.remoteBase, count := min 16 v.length.toNat, data := [],
                attempts := 0, sentBit := none, state := .waiting, tag := none }]
            else q;
          exec (.receiveAttn src code toggle) s = .next (State.finish { taken with
            notices := s.notices.post (addrNum k) .nodeAttention (code.setWidth 16)
            queue := (List.finRange 8).foldl asked s.queue }))) ∧
      ((s.node k).attnToggle ≠ some toggle → code = 0xF1#8 →
        ∀ j : Addr, j.val = k.val + 1 → (s.node j).state ≠ .vacant →
          ∃ u, exec (.receiveAttn src code toggle) s = .next u ∧ LostFrom s u j) ∧
      ((s.node k).attnToggle ≠ some toggle → code = 0xF2#8 → AccountOk s →
        ∃ u, exec (.receiveAttn src code toggle) s = .next u ∧ (u.node k).state = .fenced ∧
          (u.node k).loadFault = true ∧ (u.node k).powered = false ∧
          u.notices.shows (addrNum k) .nodeLoadFault 1#16 ∧
          u.ctl = s.ctl ∧ u.mirror = s.mirror))

/-! ### Timers of the chain -/

/-- R48, R56, R59, R106, R181: HELLO in RUNNING with the way open starts a walk; the ramp, the walk and the dark wait
go on at their settle's expiry, CLK_IN running. -/
def Obligations.HelloAndSettlesMoveTheWalk : Prop :=
  ∀ s : State, s.pins.clkIn = true →
    (let due := fun (st : MgmtStep) => if st ∈ s.chain.backlog then s.chain.backlog else s.chain.backlog ++ [st];
      (∀ src (k : Addr), s.chain.state = .running → s.chain.pwrEn = true → s.chain.tail = k.val →
        s.wayOpen = true →
        exec (.receiveHello src) s = .next (State.finish { s with
          chain := { s.chain with
            state := .walking, pointer := some k, walkStep := some .assigning,
            backlog := due (.assign k) } })) ∧
      (∀ src, Settled s → s.chain.state ≠ .running ∨ s.wayOpen = false ∨ s.chain.tail = 24 →
        exec (.receiveHello src) s = .next s) ∧
      (s.chain.state = .ramp → s.chain.settleTimer.isSome = true → s.chain.rampPhase = some .dark →
        s.pins.chainFaultN = true →
        exec .rampSettleExpiry s = .next (State.finish { s with
          chain := { s.chain with
            rampPhase := some .rising, pwrEn := true, settleTimer := some s.ctl.settle }
          port := { s.port with carrierSeen := false } })) ∧
      (s.chain.state = .ramp → s.chain.settleTimer.isSome = true → s.chain.rampPhase = some .rising →
        exec .rampSettleExpiry s = .next (State.finish { s with
          chain :=
            if s.chain.rewalk = true ∨ s.chain.rescans ≠ [] then
              { s.chain with
                state := .walking, rampPhase := none, rewalk := false, settleTimer := none,
                pointer := some 0, walkStep := some .assigning, backlog := due (.assign 0) }
            else
              { s.chain with
                state := .running, rampPhase := none, rewalk := false, settleTimer := none } })) ∧
      (∀ k j : Addr, s.chain.state = .walking → s.chain.walkStep = some .settling →
        s.chain.settleTimer.isSome = true → s.chain.pointer = some k → j.val = k.val + 1 →
        exec .walkSettleExpiry s = .next (State.finish { s with
          chain := { s.chain with
            settleTimer := none, pointer := some j, walkStep := some .assigning,
            backlog := due (.assign j) } })) ∧
      (∀ k, s.chain.darkWait = some .dark → s.chain.settleTimer.isSome = true → s.chain.pointer = some k →
        exec .darkWaitExpiry s = .next (State.finish { s with
          chain := { s.chain with
            settleTimer := none, darkWait := none, backlog := due (.openGate k) } })))

/-- R77, R84, R96 to R98, R181: the expiry of a BUSY tag's timer, CLK_IN running. With transmissions left the request
joins the resend list; with none left a COMMAND transfer completes TIMEOUT and fail_count counts it. The expiry of a
HOLD frees the tag; a timer that does not run has no effect. -/
def Obligations.TagTimerResendsOrFails : Prop :=
  ∀ (s : State) (t : TagId) (c : Instr) (use : TimerUse), s.pins.clkIn = true →
    (c = .responseTimerExpiry t ∧ use = .response ∨ c = .backoffTimerExpiry t ∧ use = .backoff) →
    (∀ f d, s.tag t = .busy f → f.timer = some { use := use, duration := d } →
      s.attemptsOf t f < 1 + s.ctl.retryLimit →
      exec c s = .next (State.finish { s with
        disp :=
          { tags := s.disp.tags.set t.val (.busy { f with timer := none }), resend := s.disp.resend ++ [t] }
        queue := s.queue.map fun x => if x.tag = some t then { x with state := .inFlight } else x })) ∧
    (∀ f d e r, s.tag t = .busy f → f.timer = some { use := use, duration := d } → f.holder = .entry →
      s.entryOf t = some e → e.origin = .command r → (e.op = .rd ∨ e.op = .wr ∨ e.op = .nreset) →
      1 + s.ctl.retryLimit ≤ e.attempts → 0 < s.cmd.reservations → (s.node e.node).state = .online → AccountOk s →
      ∃ u, exec c s = .next u ∧ u.tag t = .hold (2 * s.ctl.timeout) ∧
        (u.node e.node).failCount = min 7 ((s.node e.node).failCount + 1) ∧
        (u.node e.node).state =
          (if s.ctl.failThreshold ≤ min 7 ((s.node e.node).failCount + 1) then .suspect else .online) ∧
        (u.node e.node).resync = true ∧
        (∃ x ∈ u.cmd.completions, x.ticket = r.ticket ∧ x.kind = r.kind ∧ x.status = .timeout ∧
          x.node = addrNum e.node) ∧
        (∀ x ∈ u.queue, x.tag ≠ some t) ∧ u.ctl = s.ctl ∧ u.windows = s.windows ∧ u.mirror = s.mirror) ∧
    ((∀ f, s.tag t = .busy f → ∀ x, f.timer = some x → x.use ≠ use) → exec c s = .next s) ∧
    (∀ d, s.tag t = .hold d →
      exec (.tagHoldExpiry t) s = .next (State.finish { s with
        disp := { s.disp with tags := s.disp.tags.set t.val .free } })) ∧
    ((∀ d, s.tag t ≠ .hold d) → exec (.tagHoldExpiry t) s = .next s)

/-- R36, R38, R53, R57, R96 to R100, R102: a request that has failed finally, other than a transfer. An ASSIGN ends the
walk. A synthesized PING counts against an ONLINE node, and any other node is lost, as it is where an UNFENCE's PING or
a MANAGEMENT entry other than ASSIGN fails. A power-off FENCE's LOAD_OFF completes TIMEOUT, and the failure is counted.
A LOAD_ON that is refused takes the load-fault path. -/
def Obligations.FinalFailureEndsTheRequest : Prop :=
  (∀ (s : State) (t : TagId) (c : Instr) (use : TimerUse) (f : Flight) (d : Nat), s.pins.clkIn = true →
    (c = .responseTimerExpiry t ∧ use = .response ∨ c = .backoffTimerExpiry t ∧ use = .backoff) →
    s.tag t = .busy f → f.timer = some { use := use, duration := d } →
    (let held : State := { s with disp := s.tagEnded t (.hold (2 * s.ctl.timeout)) };
      (∀ k, f.holder = .ping k → 1 + s.ctl.retryLimit ≤ f.synthAttempts →
        ((s.node k).state = .online →
          exec c s = .next (State.finish { held with
            nodes := s.nodes.set k.val (s.failedRecord k), notices := s.failedNotices k s.notices })) ∧
        ((s.node k).state ≠ .online → (s.node k).state ≠ .vacant → ∃ u, exec c s = .next u ∧ LostFrom s u k)) ∧
      ∀ e, f.holder = .entry → s.entryOf t = some e → (∀ x ∈ s.queue, x.tag = some t → x = e) →
        1 + s.ctl.retryLimit ≤ e.attempts →
        (let ended : State := { held with queue := s.queue.filter fun x => x.tag != some t };
          (e.origin = .management → e.op = .assign → s.chain.rescans.length ≤ s.cmd.reservations →
            exec c s = .next (State.finish { ended with
              chain := { s.chain with state := .running, pointer := none, walkStep := none, rescans := [] }
              notices := s.notices.post 0 .chainEnd (BitVec.ofNat 16 s.chain.tail)
              cmd := s.cmd.ended (s.chain.rescans.map (rescanEnding .ok s.chain.tail)) })) ∧
          (e.origin = .management ∧ e.op ≠ .assign ∨ (∃ r, e.origin = .command r) ∧ e.op = .ping →
            (s.node e.node).state ≠ .vacant → ∃ u, exec c s = .next u ∧ LostFrom s u e.node) ∧
          ∀ r, e.origin = .command r → e.op = .loadOff → 0 < s.cmd.reservations →
            exec c s = .next (State.finish { ended with
              nodes := s.nodes.set e.node.val
                { s.failedRecord e.node with
                  step :=
                    if (s.node e.node).step = some .poweringOff then none else (s.node e.node).step }
              notices := s.failedNotices e.node s.notices
              cmd := s.cmd.ended (s.endings .timeout e) })))) ∧
  ∀ (s : State) (src : BitVec 5) (t : TagId) (seq : Bool) (reason : Reason) (f : Flight) (e : Entry),
    s.linkUp = true → s.answers src t seq [.loadOn] f → f.holder = .entry → s.entryOf t = some e → e.op = .loadOn →
    e.origin = .management → e.node = f.node → reason ≠ .busy → (s.node e.node).takesAttn = true → AccountOk s →
    ∃ u, exec (.receiveRefuse src t seq reason) s = .next u ∧ (u.node e.node).state = .fenced ∧
      (u.node e.node).loadFault = true ∧ (u.node e.node).powered = false ∧
      u.notices.shows (addrNum e.node) .nodeLoadFault 2#16 ∧ u.ctl = s.ctl ∧ u.mirror = s.mirror

/-- R34, R132, R133, R181: the settle of a POWERING node makes its confirmation due; a refresh timer starts again and
creates a job where R133 gives one, CLK_IN running. A timer that does not run has no effect. -/
def Obligations.NodeSettleAndRefreshTimersExpire : Prop :=
  (∀ (s : State) (k : Addr), s.pins.clkIn = true →
    (s.chain.nodeTimers[k.val] = none → exec (.nodeSettleExpiry k) s = .next s) ∧
    (s.chain.nodeTimers[k.val].isSome = true → (s.node k).state = .powering →
      (s.node k).step = some .settling →
      exec (.nodeSettleExpiry k) s = .next (State.finish { s with
        nodes := s.nodes.set k.val { s.node k with step := some .confirming }
        chain := { s.chain with
          nodeTimers := s.chain.nodeTimers.set k.val none
          backlog :=
            if .confirm k ∈ s.chain.backlog then s.chain.backlog
            else s.chain.backlog ++ [.confirm k] } }))) ∧
  ∀ (s : State) (i : WinIx), s.pins.clkIn = true →
    (s.mirror.timers[i.val] = none → exec (.refreshTimerExpiry i) s = .next s) ∧
    (s.mirror.timers[i.val].isSome = true →
      (let v := s.window i
        let again : State :=
          { s with mirror := { s.mirror with timers := s.mirror.timers.set i.val (some v.interval.toNat) } };
        ((∃ e ∈ s.queue, e.isJobOf i = true) ∨ v.attached = false ∨ s.hostSlotFree = false →
          exec (.refreshTimerExpiry i) s = .next again.finish) ∧
        ∀ k : Addr, (∀ e ∈ s.queue, e.isJobOf i = false) → v.enabled = true → v.kind = 2#2 →
          v.attached = true → v.node.toNat = addrNum k →
          (¬ s.inService k → exec (.refreshTimerExpiry i) s = .next again.finish) ∧
          (s.inService k → s.hostSlotFree = true →
            exec (.refreshTimerExpiry i) s = .next (State.finish { again with
              queue := s.queue ++ [{
                origin := .refresh
                  { window := i, generation := v.generation, segment := v.mirrorSegment, nextOffset := 0,
                    attached := [] }
                op := .rd, node := k, remote := v.remoteBase, count := min 16 v.length.toNat, data := [],
                attempts := 0, sentBit := none, state := .waiting, tag := none }] }))))

/-! ### The node side -/

/-- R7, R11, R12, R14: the node side (log 26). A node takes a frame for itself, forwards any other as it came through an
OPEN gate, its CRC unchecked, and drops a corrupted or malformed one that it would take. A frame goes out at once or
waits, where four frames from below have room (log 36). A node that is not attention-capable raises no application
code. A request is executed once: a repetition is answered from the stored response and changes nothing; a new request
is executed, E moves on, and its answer is stored. -/
def Obligations.NodeForwardsAndExecutesOnce : Prop :=
  (∀ (n : NodeSide) (k : Addr) (dest : Nat) (a : Option Addr), n.address = some k →
    n.passage dest a =
      if dest = 0 ∧ a = some k ∨ dest = addrNum k then .consume else if n.gateOpen = true then .forward else .discard) ∧
  (∀ (n : NodeSide) (wire : List Word) (ended : Bool) (r : NodeReadiness),
    (n.passage (wireDest wire) (wireAssigns wire) = .forward → n.receiveWire wire ended r = (n, some wire)) ∧
    (n.passage (wireDest wire) (wireAssigns wire) = .consume → acceptDown wire ended = none →
      n.receiveWire wire ended r = (n, none))) ∧
  (∀ (n : NodeSide) (own : Bool) (f : UpFrame),
    (n.out = none → n.offer own f = { n with out := some f }) ∧
    (n.out.isSome = true → (own = true ∨ n.line.countP (!·.own) < 4) →
      n.offer own f = { n with line := n.line ++ [{ own := own, frame := f }] }) ∧
    (n.out.isSome = true → own = false → 4 ≤ n.line.countP (!·.own) → n.offer own f = n)) ∧
  (∀ (n : NodeSide) (code : BitVec 8), n.make.ident.attnCapable = false → code ≠ 0xF1#8 → code ≠ 0xF2#8 →
    n.attend code = n) ∧
  ∀ (n : NodeSide) (op : Op) (f : DownFrame) (r : NodeReadiness),
    (f.seq ≠ n.expected → n.sequenced op f r = (n, n.stored)) ∧
    (f.seq = n.expected → r.canStart = true → op ≠ .nreset →
      ∃ up, (n.sequenced op f r).2 = some up ∧ up.tag = f.tag ∧ up.seq = f.seq ∧
        (n.sequenced op f r).1.expected = !n.expected ∧ (n.sequenced op f r).1.stored = some up ∧
        (n.sequenced op f r).1.sequenced op f r = ((n.sequenced op f r).1, some up))
end

