-- ==== Sys2Proof/Laws/State.lean ====
section
/-! SUPPORT. What each named operation leaves unchanged: one lemma per operation and untouched field of
State, and the reading of a record, tag or window after it was put. -/

namespace Sys2Proof.Machine

variable (s : State)

/-! `State.post` -/

@[simp] theorem State.post_pins (n : Nat) (k : NoticeKind) (d : Word) :
    (s.post n k d).pins = s.pins := rfl
@[simp] theorem State.post_ctl (n : Nat) (k : NoticeKind) (d : Word) :
    (s.post n k d).ctl = s.ctl := rfl
@[simp] theorem State.post_lbi (n : Nat) (k : NoticeKind) (d : Word) :
    (s.post n k d).lbi = s.lbi := rfl
@[simp] theorem State.post_windows (n : Nat) (k : NoticeKind) (d : Word) :
    (s.post n k d).windows = s.windows := rfl
@[simp] theorem State.post_queue (n : Nat) (k : NoticeKind) (d : Word) :
    (s.post n k d).queue = s.queue := rfl
@[simp] theorem State.post_disp (n : Nat) (k : NoticeKind) (d : Word) :
    (s.post n k d).disp = s.disp := rfl
@[simp] theorem State.post_port (n : Nat) (k : NoticeKind) (d : Word) :
    (s.post n k d).port = s.port := rfl
@[simp] theorem State.post_chain (n : Nat) (k : NoticeKind) (d : Word) :
    (s.post n k d).chain = s.chain := rfl
@[simp] theorem State.post_nodes (n : Nat) (k : NoticeKind) (d : Word) :
    (s.post n k d).nodes = s.nodes := rfl
@[simp] theorem State.post_mirror (n : Nat) (k : NoticeKind) (d : Word) :
    (s.post n k d).mirror = s.mirror := rfl
@[simp] theorem State.post_cmd (n : Nat) (k : NoticeKind) (d : Word) :
    (s.post n k d).cmd = s.cmd := rfl
@[simp] theorem State.post_pending (n : Nat) (k : NoticeKind) (d : Word) :
    (s.post n k d).pending = s.pending := rfl
@[simp] theorem State.post_node (n : Nat) (k : NoticeKind) (d : Word) (j : Addr) :
    (s.post n k d).node j = s.node j := rfl
@[simp] theorem State.post_tag (n : Nat) (k : NoticeKind) (d : Word) (u : TagId) :
    (s.post n k d).tag u = s.tag u := rfl
@[simp] theorem State.post_window (n : Nat) (k : NoticeKind) (d : Word) (i' : WinIx) :
    (s.post n k d).window i' = s.window i' := rfl

/-! `State.complete` -/

@[simp] theorem State.complete_pins (c : Completion) : (s.complete c).pins = s.pins := rfl
@[simp] theorem State.complete_ctl (c : Completion) : (s.complete c).ctl = s.ctl := rfl
@[simp] theorem State.complete_lbi (c : Completion) : (s.complete c).lbi = s.lbi := rfl
@[simp] theorem State.complete_windows (c : Completion) : (s.complete c).windows = s.windows := rfl
@[simp] theorem State.complete_queue (c : Completion) : (s.complete c).queue = s.queue := rfl
@[simp] theorem State.complete_disp (c : Completion) : (s.complete c).disp = s.disp := rfl
@[simp] theorem State.complete_port (c : Completion) : (s.complete c).port = s.port := rfl
@[simp] theorem State.complete_chain (c : Completion) : (s.complete c).chain = s.chain := rfl
@[simp] theorem State.complete_nodes (c : Completion) : (s.complete c).nodes = s.nodes := rfl
@[simp] theorem State.complete_mirror (c : Completion) : (s.complete c).mirror = s.mirror := rfl
@[simp] theorem State.complete_notices (c : Completion) : (s.complete c).notices = s.notices := rfl
@[simp] theorem State.complete_pending (c : Completion) : (s.complete c).pending = s.pending := rfl
@[simp] theorem State.complete_node (c : Completion) (j : Addr) :
    (s.complete c).node j = s.node j := rfl
@[simp] theorem State.complete_tag (c : Completion) (u : TagId) :
    (s.complete c).tag u = s.tag u := rfl
@[simp] theorem State.complete_window (c : Completion) (i' : WinIx) :
    (s.complete c).window i' = s.window i' := rfl

/-! `State.setNode` -/

@[simp] theorem State.setNode_pins (k : Addr) (r : NodeRecord) :
    (s.setNode k r).pins = s.pins := rfl
@[simp] theorem State.setNode_ctl (k : Addr) (r : NodeRecord) : (s.setNode k r).ctl = s.ctl := rfl
@[simp] theorem State.setNode_lbi (k : Addr) (r : NodeRecord) : (s.setNode k r).lbi = s.lbi := rfl
@[simp] theorem State.setNode_windows (k : Addr) (r : NodeRecord) :
    (s.setNode k r).windows = s.windows := rfl
@[simp] theorem State.setNode_queue (k : Addr) (r : NodeRecord) :
    (s.setNode k r).queue = s.queue := rfl
@[simp] theorem State.setNode_disp (k : Addr) (r : NodeRecord) :
    (s.setNode k r).disp = s.disp := rfl
@[simp] theorem State.setNode_port (k : Addr) (r : NodeRecord) :
    (s.setNode k r).port = s.port := rfl
@[simp] theorem State.setNode_chain (k : Addr) (r : NodeRecord) :
    (s.setNode k r).chain = s.chain := rfl
@[simp] theorem State.setNode_mirror (k : Addr) (r : NodeRecord) :
    (s.setNode k r).mirror = s.mirror := rfl
@[simp] theorem State.setNode_cmd (k : Addr) (r : NodeRecord) : (s.setNode k r).cmd = s.cmd := rfl
@[simp] theorem State.setNode_notices (k : Addr) (r : NodeRecord) :
    (s.setNode k r).notices = s.notices := rfl
@[simp] theorem State.setNode_pending (k : Addr) (r : NodeRecord) :
    (s.setNode k r).pending = s.pending := rfl
@[simp] theorem State.setNode_tag (k : Addr) (r : NodeRecord) (u : TagId) :
    (s.setNode k r).tag u = s.tag u := rfl
@[simp] theorem State.setNode_window (k : Addr) (r : NodeRecord) (i' : WinIx) :
    (s.setNode k r).window i' = s.window i' := rfl

/-! `State.modNode` -/

@[simp] theorem State.modNode_pins (k : Addr) (f : NodeRecord → NodeRecord) :
    (s.modNode k f).pins = s.pins := rfl
@[simp] theorem State.modNode_ctl (k : Addr) (f : NodeRecord → NodeRecord) :
    (s.modNode k f).ctl = s.ctl := rfl
@[simp] theorem State.modNode_lbi (k : Addr) (f : NodeRecord → NodeRecord) :
    (s.modNode k f).lbi = s.lbi := rfl
@[simp] theorem State.modNode_windows (k : Addr) (f : NodeRecord → NodeRecord) :
    (s.modNode k f).windows = s.windows := rfl
@[simp] theorem State.modNode_queue (k : Addr) (f : NodeRecord → NodeRecord) :
    (s.modNode k f).queue = s.queue := rfl
@[simp] theorem State.modNode_disp (k : Addr) (f : NodeRecord → NodeRecord) :
    (s.modNode k f).disp = s.disp := rfl
@[simp] theorem State.modNode_port (k : Addr) (f : NodeRecord → NodeRecord) :
    (s.modNode k f).port = s.port := rfl
@[simp] theorem State.modNode_chain (k : Addr) (f : NodeRecord → NodeRecord) :
    (s.modNode k f).chain = s.chain := rfl
@[simp] theorem State.modNode_mirror (k : Addr) (f : NodeRecord → NodeRecord) :
    (s.modNode k f).mirror = s.mirror := rfl
@[simp] theorem State.modNode_cmd (k : Addr) (f : NodeRecord → NodeRecord) :
    (s.modNode k f).cmd = s.cmd := rfl
@[simp] theorem State.modNode_notices (k : Addr) (f : NodeRecord → NodeRecord) :
    (s.modNode k f).notices = s.notices := rfl
@[simp] theorem State.modNode_pending (k : Addr) (f : NodeRecord → NodeRecord) :
    (s.modNode k f).pending = s.pending := rfl
@[simp] theorem State.modNode_tag (k : Addr) (f : NodeRecord → NodeRecord) (u : TagId) :
    (s.modNode k f).tag u = s.tag u := rfl
@[simp] theorem State.modNode_window (k : Addr) (f : NodeRecord → NodeRecord) (i' : WinIx) :
    (s.modNode k f).window i' = s.window i' := rfl

/-! `State.setTag` -/

@[simp] theorem State.setTag_pins (t : TagId) (x : Tag) : (s.setTag t x).pins = s.pins := rfl
@[simp] theorem State.setTag_ctl (t : TagId) (x : Tag) : (s.setTag t x).ctl = s.ctl := rfl
@[simp] theorem State.setTag_lbi (t : TagId) (x : Tag) : (s.setTag t x).lbi = s.lbi := rfl
@[simp] theorem State.setTag_windows (t : TagId) (x : Tag) :
    (s.setTag t x).windows = s.windows := rfl
@[simp] theorem State.setTag_queue (t : TagId) (x : Tag) : (s.setTag t x).queue = s.queue := rfl
@[simp] theorem State.setTag_port (t : TagId) (x : Tag) : (s.setTag t x).port = s.port := rfl
@[simp] theorem State.setTag_chain (t : TagId) (x : Tag) : (s.setTag t x).chain = s.chain := rfl
@[simp] theorem State.setTag_nodes (t : TagId) (x : Tag) : (s.setTag t x).nodes = s.nodes := rfl
@[simp] theorem State.setTag_mirror (t : TagId) (x : Tag) : (s.setTag t x).mirror = s.mirror := rfl
@[simp] theorem State.setTag_cmd (t : TagId) (x : Tag) : (s.setTag t x).cmd = s.cmd := rfl
@[simp] theorem State.setTag_notices (t : TagId) (x : Tag) :
    (s.setTag t x).notices = s.notices := rfl
@[simp] theorem State.setTag_pending (t : TagId) (x : Tag) :
    (s.setTag t x).pending = s.pending := rfl
@[simp] theorem State.setTag_node (t : TagId) (x : Tag) (j : Addr) :
    (s.setTag t x).node j = s.node j := rfl
@[simp] theorem State.setTag_window (t : TagId) (x : Tag) (i' : WinIx) :
    (s.setTag t x).window i' = s.window i' := rfl

/-! `State.leaveResend` -/

@[simp] theorem State.leaveResend_pins (t : TagId) : (s.leaveResend t).pins = s.pins := rfl
@[simp] theorem State.leaveResend_ctl (t : TagId) : (s.leaveResend t).ctl = s.ctl := rfl
@[simp] theorem State.leaveResend_lbi (t : TagId) : (s.leaveResend t).lbi = s.lbi := rfl
@[simp] theorem State.leaveResend_windows (t : TagId) : (s.leaveResend t).windows = s.windows := rfl
@[simp] theorem State.leaveResend_queue (t : TagId) : (s.leaveResend t).queue = s.queue := rfl
@[simp] theorem State.leaveResend_port (t : TagId) : (s.leaveResend t).port = s.port := rfl
@[simp] theorem State.leaveResend_chain (t : TagId) : (s.leaveResend t).chain = s.chain := rfl
@[simp] theorem State.leaveResend_nodes (t : TagId) : (s.leaveResend t).nodes = s.nodes := rfl
@[simp] theorem State.leaveResend_mirror (t : TagId) : (s.leaveResend t).mirror = s.mirror := rfl
@[simp] theorem State.leaveResend_cmd (t : TagId) : (s.leaveResend t).cmd = s.cmd := rfl
@[simp] theorem State.leaveResend_notices (t : TagId) : (s.leaveResend t).notices = s.notices := rfl
@[simp] theorem State.leaveResend_pending (t : TagId) : (s.leaveResend t).pending = s.pending := rfl
@[simp] theorem State.leaveResend_node (t : TagId) (j : Addr) :
    (s.leaveResend t).node j = s.node j := rfl
@[simp] theorem State.leaveResend_window (t : TagId) (i' : WinIx) :
    (s.leaveResend t).window i' = s.window i' := rfl

/-! `State.holdTag` -/

@[simp] theorem State.holdTag_pins (t : TagId) : (s.holdTag t).pins = s.pins := rfl
@[simp] theorem State.holdTag_ctl (t : TagId) : (s.holdTag t).ctl = s.ctl := rfl
@[simp] theorem State.holdTag_lbi (t : TagId) : (s.holdTag t).lbi = s.lbi := rfl
@[simp] theorem State.holdTag_windows (t : TagId) : (s.holdTag t).windows = s.windows := rfl
@[simp] theorem State.holdTag_queue (t : TagId) : (s.holdTag t).queue = s.queue := rfl
@[simp] theorem State.holdTag_port (t : TagId) : (s.holdTag t).port = s.port := rfl
@[simp] theorem State.holdTag_chain (t : TagId) : (s.holdTag t).chain = s.chain := rfl
@[simp] theorem State.holdTag_nodes (t : TagId) : (s.holdTag t).nodes = s.nodes := rfl
@[simp] theorem State.holdTag_mirror (t : TagId) : (s.holdTag t).mirror = s.mirror := rfl
@[simp] theorem State.holdTag_cmd (t : TagId) : (s.holdTag t).cmd = s.cmd := rfl
@[simp] theorem State.holdTag_notices (t : TagId) : (s.holdTag t).notices = s.notices := rfl
@[simp] theorem State.holdTag_pending (t : TagId) : (s.holdTag t).pending = s.pending := rfl
@[simp] theorem State.holdTag_node (t : TagId) (j : Addr) :
    (s.holdTag t).node j = s.node j := rfl
@[simp] theorem State.holdTag_window (t : TagId) (i' : WinIx) :
    (s.holdTag t).window i' = s.window i' := rfl

/-! `State.releaseTag` -/

@[simp] theorem State.releaseTag_pins (t : TagId) (n : Nat) : (s.releaseTag t n).pins = s.pins := by
  unfold State.releaseTag; split <;> rfl
@[simp] theorem State.releaseTag_ctl (t : TagId) (n : Nat) : (s.releaseTag t n).ctl = s.ctl := by
  unfold State.releaseTag; split <;> rfl
@[simp] theorem State.releaseTag_lbi (t : TagId) (n : Nat) : (s.releaseTag t n).lbi = s.lbi := by
  unfold State.releaseTag; split <;> rfl
@[simp] theorem State.releaseTag_windows (t : TagId) (n : Nat) :
    (s.releaseTag t n).windows = s.windows := by
  unfold State.releaseTag; split <;> rfl
@[simp] theorem State.releaseTag_queue (t : TagId) (n : Nat) :
    (s.releaseTag t n).queue = s.queue := by
  unfold State.releaseTag; split <;> rfl
@[simp] theorem State.releaseTag_port (t : TagId) (n : Nat) : (s.releaseTag t n).port = s.port := by
  unfold State.releaseTag; split <;> rfl
@[simp] theorem State.releaseTag_chain (t : TagId) (n : Nat) :
    (s.releaseTag t n).chain = s.chain := by
  unfold State.releaseTag; split <;> rfl
@[simp] theorem State.releaseTag_nodes (t : TagId) (n : Nat) :
    (s.releaseTag t n).nodes = s.nodes := by
  unfold State.releaseTag; split <;> rfl
@[simp] theorem State.releaseTag_mirror (t : TagId) (n : Nat) :
    (s.releaseTag t n).mirror = s.mirror := by
  unfold State.releaseTag; split <;> rfl
@[simp] theorem State.releaseTag_cmd (t : TagId) (n : Nat) : (s.releaseTag t n).cmd = s.cmd := by
  unfold State.releaseTag; split <;> rfl
@[simp] theorem State.releaseTag_notices (t : TagId) (n : Nat) :
    (s.releaseTag t n).notices = s.notices := by
  unfold State.releaseTag; split <;> rfl
@[simp] theorem State.releaseTag_pending (t : TagId) (n : Nat) :
    (s.releaseTag t n).pending = s.pending := by
  unfold State.releaseTag; split <;> rfl
@[simp] theorem State.releaseTag_node (t : TagId) (n : Nat) (j : Addr) :
    (s.releaseTag t n).node j = s.node j := by
  simp [State.node]
@[simp] theorem State.releaseTag_window (t : TagId) (n : Nat) (i' : WinIx) :
    (s.releaseTag t n).window i' = s.window i' := by
  simp [State.window]

/-! `State.enqueueHost` -/

@[simp] theorem State.enqueueHost_pins (e : Entry) : (s.enqueueHost e).pins = s.pins := by
  unfold State.enqueueHost; split <;> rfl
@[simp] theorem State.enqueueHost_ctl (e : Entry) : (s.enqueueHost e).ctl = s.ctl := by
  unfold State.enqueueHost; split <;> rfl
@[simp] theorem State.enqueueHost_lbi (e : Entry) : (s.enqueueHost e).lbi = s.lbi := by
  unfold State.enqueueHost; split <;> rfl
@[simp] theorem State.enqueueHost_windows (e : Entry) : (s.enqueueHost e).windows = s.windows := by
  unfold State.enqueueHost; split <;> rfl
@[simp] theorem State.enqueueHost_disp (e : Entry) : (s.enqueueHost e).disp = s.disp := by
  unfold State.enqueueHost; split <;> rfl
@[simp] theorem State.enqueueHost_port (e : Entry) : (s.enqueueHost e).port = s.port := by
  unfold State.enqueueHost; split <;> rfl
@[simp] theorem State.enqueueHost_chain (e : Entry) : (s.enqueueHost e).chain = s.chain := by
  unfold State.enqueueHost; split <;> rfl
@[simp] theorem State.enqueueHost_nodes (e : Entry) : (s.enqueueHost e).nodes = s.nodes := by
  unfold State.enqueueHost; split <;> rfl
@[simp] theorem State.enqueueHost_mirror (e : Entry) : (s.enqueueHost e).mirror = s.mirror := by
  unfold State.enqueueHost; split <;> rfl
@[simp] theorem State.enqueueHost_cmd (e : Entry) : (s.enqueueHost e).cmd = s.cmd := by
  unfold State.enqueueHost; split <;> rfl
@[simp] theorem State.enqueueHost_notices (e : Entry) : (s.enqueueHost e).notices = s.notices := by
  unfold State.enqueueHost; split <;> rfl
@[simp] theorem State.enqueueHost_pending (e : Entry) : (s.enqueueHost e).pending = s.pending := by
  unfold State.enqueueHost; split <;> rfl
@[simp] theorem State.enqueueHost_node (e : Entry) (j : Addr) :
    (s.enqueueHost e).node j = s.node j := by
  simp [State.node]
@[simp] theorem State.enqueueHost_tag (e : Entry) (u : TagId) :
    (s.enqueueHost e).tag u = s.tag u := by
  simp [State.tag]
@[simp] theorem State.enqueueHost_window (e : Entry) (i' : WinIx) :
    (s.enqueueHost e).window i' = s.window i' := by
  simp [State.window]

/-! `State.enqueueMgmt` -/

@[simp] theorem State.enqueueMgmt_pins (op : Op) (k : Addr) :
    (s.enqueueMgmt op k).pins = s.pins := by
  unfold State.enqueueMgmt; split <;> rfl
@[simp] theorem State.enqueueMgmt_ctl (op : Op) (k : Addr) : (s.enqueueMgmt op k).ctl = s.ctl := by
  unfold State.enqueueMgmt; split <;> rfl
@[simp] theorem State.enqueueMgmt_lbi (op : Op) (k : Addr) : (s.enqueueMgmt op k).lbi = s.lbi := by
  unfold State.enqueueMgmt; split <;> rfl
@[simp] theorem State.enqueueMgmt_windows (op : Op) (k : Addr) :
    (s.enqueueMgmt op k).windows = s.windows := by
  unfold State.enqueueMgmt; split <;> rfl
@[simp] theorem State.enqueueMgmt_disp (op : Op) (k : Addr) :
    (s.enqueueMgmt op k).disp = s.disp := by
  unfold State.enqueueMgmt; split <;> rfl
@[simp] theorem State.enqueueMgmt_port (op : Op) (k : Addr) :
    (s.enqueueMgmt op k).port = s.port := by
  unfold State.enqueueMgmt; split <;> rfl
@[simp] theorem State.enqueueMgmt_chain (op : Op) (k : Addr) :
    (s.enqueueMgmt op k).chain = s.chain := by
  unfold State.enqueueMgmt; split <;> rfl
@[simp] theorem State.enqueueMgmt_nodes (op : Op) (k : Addr) :
    (s.enqueueMgmt op k).nodes = s.nodes := by
  unfold State.enqueueMgmt; split <;> rfl
@[simp] theorem State.enqueueMgmt_mirror (op : Op) (k : Addr) :
    (s.enqueueMgmt op k).mirror = s.mirror := by
  unfold State.enqueueMgmt; split <;> rfl
@[simp] theorem State.enqueueMgmt_cmd (op : Op) (k : Addr) : (s.enqueueMgmt op k).cmd = s.cmd := by
  unfold State.enqueueMgmt; split <;> rfl
@[simp] theorem State.enqueueMgmt_notices (op : Op) (k : Addr) :
    (s.enqueueMgmt op k).notices = s.notices := by
  unfold State.enqueueMgmt; split <;> rfl
@[simp] theorem State.enqueueMgmt_pending (op : Op) (k : Addr) :
    (s.enqueueMgmt op k).pending = s.pending := by
  unfold State.enqueueMgmt; split <;> rfl
@[simp] theorem State.enqueueMgmt_node (op : Op) (k : Addr) (j : Addr) :
    (s.enqueueMgmt op k).node j = s.node j := by
  simp [State.node]
@[simp] theorem State.enqueueMgmt_tag (op : Op) (k : Addr) (u : TagId) :
    (s.enqueueMgmt op k).tag u = s.tag u := by
  simp [State.tag]
@[simp] theorem State.enqueueMgmt_window (op : Op) (k : Addr) (i' : WinIx) :
    (s.enqueueMgmt op k).window i' = s.window i' := by
  simp [State.window]

/-! `State.modEntryOf` -/

@[simp] theorem State.modEntryOf_pins (t : TagId) (f : Entry → Entry) :
    (s.modEntryOf t f).pins = s.pins := rfl
@[simp] theorem State.modEntryOf_ctl (t : TagId) (f : Entry → Entry) :
    (s.modEntryOf t f).ctl = s.ctl := rfl
@[simp] theorem State.modEntryOf_lbi (t : TagId) (f : Entry → Entry) :
    (s.modEntryOf t f).lbi = s.lbi := rfl
@[simp] theorem State.modEntryOf_windows (t : TagId) (f : Entry → Entry) :
    (s.modEntryOf t f).windows = s.windows := rfl
@[simp] theorem State.modEntryOf_disp (t : TagId) (f : Entry → Entry) :
    (s.modEntryOf t f).disp = s.disp := rfl
@[simp] theorem State.modEntryOf_port (t : TagId) (f : Entry → Entry) :
    (s.modEntryOf t f).port = s.port := rfl
@[simp] theorem State.modEntryOf_chain (t : TagId) (f : Entry → Entry) :
    (s.modEntryOf t f).chain = s.chain := rfl
@[simp] theorem State.modEntryOf_nodes (t : TagId) (f : Entry → Entry) :
    (s.modEntryOf t f).nodes = s.nodes := rfl
@[simp] theorem State.modEntryOf_mirror (t : TagId) (f : Entry → Entry) :
    (s.modEntryOf t f).mirror = s.mirror := rfl
@[simp] theorem State.modEntryOf_cmd (t : TagId) (f : Entry → Entry) :
    (s.modEntryOf t f).cmd = s.cmd := rfl
@[simp] theorem State.modEntryOf_notices (t : TagId) (f : Entry → Entry) :
    (s.modEntryOf t f).notices = s.notices := rfl
@[simp] theorem State.modEntryOf_pending (t : TagId) (f : Entry → Entry) :
    (s.modEntryOf t f).pending = s.pending := rfl
@[simp] theorem State.modEntryOf_node (t : TagId) (f : Entry → Entry) (j : Addr) :
    (s.modEntryOf t f).node j = s.node j := rfl
@[simp] theorem State.modEntryOf_tag (t : TagId) (f : Entry → Entry) (u : TagId) :
    (s.modEntryOf t f).tag u = s.tag u := rfl
@[simp] theorem State.modEntryOf_window (t : TagId) (f : Entry → Entry) (i' : WinIx) :
    (s.modEntryOf t f).window i' = s.window i' := rfl

/-! `State.removeEntryOf` -/

@[simp] theorem State.removeEntryOf_pins (t : TagId) : (s.removeEntryOf t).pins = s.pins := rfl
@[simp] theorem State.removeEntryOf_ctl (t : TagId) : (s.removeEntryOf t).ctl = s.ctl := rfl
@[simp] theorem State.removeEntryOf_lbi (t : TagId) : (s.removeEntryOf t).lbi = s.lbi := rfl
@[simp] theorem State.removeEntryOf_windows (t : TagId) :
    (s.removeEntryOf t).windows = s.windows := rfl
@[simp] theorem State.removeEntryOf_disp (t : TagId) : (s.removeEntryOf t).disp = s.disp := rfl
@[simp] theorem State.removeEntryOf_port (t : TagId) : (s.removeEntryOf t).port = s.port := rfl
@[simp] theorem State.removeEntryOf_chain (t : TagId) : (s.removeEntryOf t).chain = s.chain := rfl
@[simp] theorem State.removeEntryOf_nodes (t : TagId) : (s.removeEntryOf t).nodes = s.nodes := rfl
@[simp] theorem State.removeEntryOf_mirror (t : TagId) :
    (s.removeEntryOf t).mirror = s.mirror := rfl
@[simp] theorem State.removeEntryOf_cmd (t : TagId) : (s.removeEntryOf t).cmd = s.cmd := rfl
@[simp] theorem State.removeEntryOf_notices (t : TagId) :
    (s.removeEntryOf t).notices = s.notices := rfl
@[simp] theorem State.removeEntryOf_pending (t : TagId) :
    (s.removeEntryOf t).pending = s.pending := rfl
@[simp] theorem State.removeEntryOf_node (t : TagId) (j : Addr) :
    (s.removeEntryOf t).node j = s.node j := rfl
@[simp] theorem State.removeEntryOf_tag (t : TagId) (u : TagId) :
    (s.removeEntryOf t).tag u = s.tag u := rfl
@[simp] theorem State.removeEntryOf_window (t : TagId) (i' : WinIx) :
    (s.removeEntryOf t).window i' = s.window i' := rfl

/-! `State.makeDue` -/

@[simp] theorem State.makeDue_pins (st : MgmtStep) : (s.makeDue st).pins = s.pins := by
  unfold State.makeDue; split <;> rfl
@[simp] theorem State.makeDue_ctl (st : MgmtStep) : (s.makeDue st).ctl = s.ctl := by
  unfold State.makeDue; split <;> rfl
@[simp] theorem State.makeDue_lbi (st : MgmtStep) : (s.makeDue st).lbi = s.lbi := by
  unfold State.makeDue; split <;> rfl
@[simp] theorem State.makeDue_windows (st : MgmtStep) : (s.makeDue st).windows = s.windows := by
  unfold State.makeDue; split <;> rfl
@[simp] theorem State.makeDue_queue (st : MgmtStep) : (s.makeDue st).queue = s.queue := by
  unfold State.makeDue; split <;> rfl
@[simp] theorem State.makeDue_disp (st : MgmtStep) : (s.makeDue st).disp = s.disp := by
  unfold State.makeDue; split <;> rfl
@[simp] theorem State.makeDue_port (st : MgmtStep) : (s.makeDue st).port = s.port := by
  unfold State.makeDue; split <;> rfl
@[simp] theorem State.makeDue_nodes (st : MgmtStep) : (s.makeDue st).nodes = s.nodes := by
  unfold State.makeDue; split <;> rfl
@[simp] theorem State.makeDue_mirror (st : MgmtStep) : (s.makeDue st).mirror = s.mirror := by
  unfold State.makeDue; split <;> rfl
@[simp] theorem State.makeDue_cmd (st : MgmtStep) : (s.makeDue st).cmd = s.cmd := by
  unfold State.makeDue; split <;> rfl
@[simp] theorem State.makeDue_notices (st : MgmtStep) : (s.makeDue st).notices = s.notices := by
  unfold State.makeDue; split <;> rfl
@[simp] theorem State.makeDue_pending (st : MgmtStep) : (s.makeDue st).pending = s.pending := by
  unfold State.makeDue; split <;> rfl
@[simp] theorem State.makeDue_node (st : MgmtStep) (j : Addr) :
    (s.makeDue st).node j = s.node j := by
  simp [State.node]
@[simp] theorem State.makeDue_tag (st : MgmtStep) (u : TagId) :
    (s.makeDue st).tag u = s.tag u := by
  simp [State.tag]
@[simp] theorem State.makeDue_window (st : MgmtStep) (i' : WinIx) :
    (s.makeDue st).window i' = s.window i' := by
  simp [State.window]

/-! `State.makeCloseDue` -/

@[simp] theorem State.makeCloseDue_pins (k : Addr) : (s.makeCloseDue k).pins = s.pins := by
  unfold State.makeCloseDue; split <;> rfl
@[simp] theorem State.makeCloseDue_ctl (k : Addr) : (s.makeCloseDue k).ctl = s.ctl := by
  unfold State.makeCloseDue; split <;> rfl
@[simp] theorem State.makeCloseDue_lbi (k : Addr) : (s.makeCloseDue k).lbi = s.lbi := by
  unfold State.makeCloseDue; split <;> rfl
@[simp] theorem State.makeCloseDue_windows (k : Addr) : (s.makeCloseDue k).windows = s.windows := by
  unfold State.makeCloseDue; split <;> rfl
@[simp] theorem State.makeCloseDue_queue (k : Addr) : (s.makeCloseDue k).queue = s.queue := by
  unfold State.makeCloseDue; split <;> rfl
@[simp] theorem State.makeCloseDue_disp (k : Addr) : (s.makeCloseDue k).disp = s.disp := by
  unfold State.makeCloseDue; split <;> rfl
@[simp] theorem State.makeCloseDue_port (k : Addr) : (s.makeCloseDue k).port = s.port := by
  unfold State.makeCloseDue; split <;> rfl
@[simp] theorem State.makeCloseDue_nodes (k : Addr) : (s.makeCloseDue k).nodes = s.nodes := by
  unfold State.makeCloseDue; split <;> rfl
@[simp] theorem State.makeCloseDue_mirror (k : Addr) : (s.makeCloseDue k).mirror = s.mirror := by
  unfold State.makeCloseDue; split <;> rfl
@[simp] theorem State.makeCloseDue_cmd (k : Addr) : (s.makeCloseDue k).cmd = s.cmd := by
  unfold State.makeCloseDue; split <;> rfl
@[simp] theorem State.makeCloseDue_notices (k : Addr) : (s.makeCloseDue k).notices = s.notices := by
  unfold State.makeCloseDue; split <;> rfl
@[simp] theorem State.makeCloseDue_pending (k : Addr) : (s.makeCloseDue k).pending = s.pending := by
  unfold State.makeCloseDue; split <;> rfl
@[simp] theorem State.makeCloseDue_node (k : Addr) (j : Addr) :
    (s.makeCloseDue k).node j = s.node j := by
  simp [State.node]
@[simp] theorem State.makeCloseDue_tag (k : Addr) (u : TagId) :
    (s.makeCloseDue k).tag u = s.tag u := by
  simp [State.tag]
@[simp] theorem State.makeCloseDue_window (k : Addr) (i' : WinIx) :
    (s.makeCloseDue k).window i' = s.window i' := by
  simp [State.window]

/-! `State.dropSteps` -/

@[simp] theorem State.dropSteps_pins (p : MgmtStep → Bool) : (s.dropSteps p).pins = s.pins := rfl
@[simp] theorem State.dropSteps_ctl (p : MgmtStep → Bool) : (s.dropSteps p).ctl = s.ctl := rfl
@[simp] theorem State.dropSteps_lbi (p : MgmtStep → Bool) : (s.dropSteps p).lbi = s.lbi := rfl
@[simp] theorem State.dropSteps_windows (p : MgmtStep → Bool) :
    (s.dropSteps p).windows = s.windows := rfl
@[simp] theorem State.dropSteps_queue (p : MgmtStep → Bool) : (s.dropSteps p).queue = s.queue := rfl
@[simp] theorem State.dropSteps_disp (p : MgmtStep → Bool) : (s.dropSteps p).disp = s.disp := rfl
@[simp] theorem State.dropSteps_port (p : MgmtStep → Bool) : (s.dropSteps p).port = s.port := rfl
@[simp] theorem State.dropSteps_nodes (p : MgmtStep → Bool) : (s.dropSteps p).nodes = s.nodes := rfl
@[simp] theorem State.dropSteps_mirror (p : MgmtStep → Bool) :
    (s.dropSteps p).mirror = s.mirror := rfl
@[simp] theorem State.dropSteps_cmd (p : MgmtStep → Bool) : (s.dropSteps p).cmd = s.cmd := rfl
@[simp] theorem State.dropSteps_notices (p : MgmtStep → Bool) :
    (s.dropSteps p).notices = s.notices := rfl
@[simp] theorem State.dropSteps_pending (p : MgmtStep → Bool) :
    (s.dropSteps p).pending = s.pending := rfl
@[simp] theorem State.dropSteps_node (p : MgmtStep → Bool) (j : Addr) :
    (s.dropSteps p).node j = s.node j := rfl
@[simp] theorem State.dropSteps_tag (p : MgmtStep → Bool) (u : TagId) :
    (s.dropSteps p).tag u = s.tag u := rfl
@[simp] theorem State.dropSteps_window (p : MgmtStep → Bool) (i' : WinIx) :
    (s.dropSteps p).window i' = s.window i' := rfl

/-! `State.requestService` -/

@[simp] theorem State.requestService_pins : (s.requestService).pins = s.pins := by
  simp [State.requestService]
@[simp] theorem State.requestService_ctl : (s.requestService).ctl = s.ctl := by
  simp [State.requestService]
@[simp] theorem State.requestService_lbi : (s.requestService).lbi = s.lbi := by
  simp [State.requestService]
@[simp] theorem State.requestService_windows : (s.requestService).windows = s.windows := by
  simp [State.requestService]
@[simp] theorem State.requestService_queue : (s.requestService).queue = s.queue := by
  simp [State.requestService]
@[simp] theorem State.requestService_disp : (s.requestService).disp = s.disp := by
  simp [State.requestService]
@[simp] theorem State.requestService_port : (s.requestService).port = s.port := by
  simp [State.requestService]
@[simp] theorem State.requestService_nodes : (s.requestService).nodes = s.nodes := by
  simp [State.requestService]
@[simp] theorem State.requestService_mirror : (s.requestService).mirror = s.mirror := by
  simp [State.requestService]
@[simp] theorem State.requestService_cmd : (s.requestService).cmd = s.cmd := by
  simp [State.requestService]
@[simp] theorem State.requestService_notices : (s.requestService).notices = s.notices := by
  simp [State.requestService]
@[simp] theorem State.requestService_pending : (s.requestService).pending = s.pending := by
  simp [State.requestService]
@[simp] theorem State.requestService_node (j : Addr) :
    (s.requestService).node j = s.node j := by
  simp [State.node]
@[simp] theorem State.requestService_tag (u : TagId) :
    (s.requestService).tag u = s.tag u := by
  simp [State.tag]
@[simp] theorem State.requestService_window (i' : WinIx) :
    (s.requestService).window i' = s.window i' := by
  simp [State.window]

/-! `State.release` -/

@[simp] theorem State.release_pins (k : Addr) : (s.release k).pins = s.pins := by
  simp only [State.release]; split
  · split <;> simp
  · rfl
@[simp] theorem State.release_ctl (k : Addr) : (s.release k).ctl = s.ctl := by
  simp only [State.release]; split
  · split <;> simp
  · rfl
@[simp] theorem State.release_lbi (k : Addr) : (s.release k).lbi = s.lbi := by
  simp only [State.release]; split
  · split <;> simp
  · rfl
@[simp] theorem State.release_windows (k : Addr) : (s.release k).windows = s.windows := by
  simp only [State.release]; split
  · split <;> simp
  · rfl
@[simp] theorem State.release_queue (k : Addr) : (s.release k).queue = s.queue := by
  simp only [State.release]; split
  · split <;> simp
  · rfl
@[simp] theorem State.release_disp (k : Addr) : (s.release k).disp = s.disp := by
  simp only [State.release]; split
  · split <;> simp
  · rfl
@[simp] theorem State.release_port (k : Addr) : (s.release k).port = s.port := by
  simp only [State.release]; split
  · split <;> simp
  · rfl
@[simp] theorem State.release_mirror (k : Addr) : (s.release k).mirror = s.mirror := by
  simp only [State.release]; split
  · split <;> simp
  · rfl
@[simp] theorem State.release_cmd (k : Addr) : (s.release k).cmd = s.cmd := by
  simp only [State.release]; split
  · split <;> simp
  · rfl
@[simp] theorem State.release_notices (k : Addr) : (s.release k).notices = s.notices := by
  simp only [State.release]; split
  · split <;> simp
  · rfl
@[simp] theorem State.release_pending (k : Addr) : (s.release k).pending = s.pending := by
  simp only [State.release]; split
  · split <;> simp
  · rfl
@[simp] theorem State.release_tag (k : Addr) (u : TagId) :
    (s.release k).tag u = s.tag u := by
  simp [State.tag]
@[simp] theorem State.release_window (k : Addr) (i' : WinIx) :
    (s.release k).window i' = s.window i' := by
  simp [State.window]

/-! `State.leaveAdmission` -/

@[simp] theorem State.leaveAdmission_pins (p : Addr → Bool) :
    (s.leaveAdmission p).pins = s.pins := by
  simp only [State.leaveAdmission]; split <;> simp
@[simp] theorem State.leaveAdmission_ctl (p : Addr → Bool) : (s.leaveAdmission p).ctl = s.ctl := by
  simp only [State.leaveAdmission]; split <;> simp
@[simp] theorem State.leaveAdmission_lbi (p : Addr → Bool) : (s.leaveAdmission p).lbi = s.lbi := by
  simp only [State.leaveAdmission]; split <;> simp
@[simp] theorem State.leaveAdmission_windows (p : Addr → Bool) :
    (s.leaveAdmission p).windows = s.windows := by
  simp only [State.leaveAdmission]; split <;> simp
@[simp] theorem State.leaveAdmission_queue (p : Addr → Bool) :
    (s.leaveAdmission p).queue = s.queue := by
  simp only [State.leaveAdmission]; split <;> simp
@[simp] theorem State.leaveAdmission_disp (p : Addr → Bool) :
    (s.leaveAdmission p).disp = s.disp := by
  simp only [State.leaveAdmission]; split <;> simp
@[simp] theorem State.leaveAdmission_port (p : Addr → Bool) :
    (s.leaveAdmission p).port = s.port := by
  simp only [State.leaveAdmission]; split <;> simp
@[simp] theorem State.leaveAdmission_nodes (p : Addr → Bool) :
    (s.leaveAdmission p).nodes = s.nodes := by
  simp only [State.leaveAdmission]; split <;> simp
@[simp] theorem State.leaveAdmission_mirror (p : Addr → Bool) :
    (s.leaveAdmission p).mirror = s.mirror := by
  simp only [State.leaveAdmission]; split <;> simp
@[simp] theorem State.leaveAdmission_cmd (p : Addr → Bool) : (s.leaveAdmission p).cmd = s.cmd := by
  simp only [State.leaveAdmission]; split <;> simp
@[simp] theorem State.leaveAdmission_notices (p : Addr → Bool) :
    (s.leaveAdmission p).notices = s.notices := by
  simp only [State.leaveAdmission]; split <;> simp
@[simp] theorem State.leaveAdmission_pending (p : Addr → Bool) :
    (s.leaveAdmission p).pending = s.pending := by
  simp only [State.leaveAdmission]; split <;> simp
@[simp] theorem State.leaveAdmission_node (p : Addr → Bool) (j : Addr) :
    (s.leaveAdmission p).node j = s.node j := by
  simp [State.node]
@[simp] theorem State.leaveAdmission_tag (p : Addr → Bool) (u : TagId) :
    (s.leaveAdmission p).tag u = s.tag u := by
  simp [State.tag]
@[simp] theorem State.leaveAdmission_window (p : Addr → Bool) (i' : WinIx) :
    (s.leaveAdmission p).window i' = s.window i' := by
  simp [State.window]

/-! `State.stopNodeTimer` -/

@[simp] theorem State.stopNodeTimer_pins (k : Addr) : (s.stopNodeTimer k).pins = s.pins := rfl
@[simp] theorem State.stopNodeTimer_ctl (k : Addr) : (s.stopNodeTimer k).ctl = s.ctl := rfl
@[simp] theorem State.stopNodeTimer_lbi (k : Addr) : (s.stopNodeTimer k).lbi = s.lbi := rfl
@[simp] theorem State.stopNodeTimer_windows (k : Addr) :
    (s.stopNodeTimer k).windows = s.windows := rfl
@[simp] theorem State.stopNodeTimer_queue (k : Addr) : (s.stopNodeTimer k).queue = s.queue := rfl
@[simp] theorem State.stopNodeTimer_disp (k : Addr) : (s.stopNodeTimer k).disp = s.disp := rfl
@[simp] theorem State.stopNodeTimer_port (k : Addr) : (s.stopNodeTimer k).port = s.port := rfl
@[simp] theorem State.stopNodeTimer_nodes (k : Addr) : (s.stopNodeTimer k).nodes = s.nodes := rfl
@[simp] theorem State.stopNodeTimer_mirror (k : Addr) : (s.stopNodeTimer k).mirror = s.mirror := rfl
@[simp] theorem State.stopNodeTimer_cmd (k : Addr) : (s.stopNodeTimer k).cmd = s.cmd := rfl
@[simp] theorem State.stopNodeTimer_notices (k : Addr) :
    (s.stopNodeTimer k).notices = s.notices := rfl
@[simp] theorem State.stopNodeTimer_pending (k : Addr) :
    (s.stopNodeTimer k).pending = s.pending := rfl
@[simp] theorem State.stopNodeTimer_node (k : Addr) (j : Addr) :
    (s.stopNodeTimer k).node j = s.node j := rfl
@[simp] theorem State.stopNodeTimer_tag (k : Addr) (u : TagId) :
    (s.stopNodeTimer k).tag u = s.tag u := rfl
@[simp] theorem State.stopNodeTimer_window (k : Addr) (i' : WinIx) :
    (s.stopNodeTimer k).window i' = s.window i' := rfl

/-! `State.startNodeTimer` -/

@[simp] theorem State.startNodeTimer_pins (k : Addr) : (s.startNodeTimer k).pins = s.pins := rfl
@[simp] theorem State.startNodeTimer_ctl (k : Addr) : (s.startNodeTimer k).ctl = s.ctl := rfl
@[simp] theorem State.startNodeTimer_lbi (k : Addr) : (s.startNodeTimer k).lbi = s.lbi := rfl
@[simp] theorem State.startNodeTimer_windows (k : Addr) :
    (s.startNodeTimer k).windows = s.windows := rfl
@[simp] theorem State.startNodeTimer_queue (k : Addr) : (s.startNodeTimer k).queue = s.queue := rfl
@[simp] theorem State.startNodeTimer_disp (k : Addr) : (s.startNodeTimer k).disp = s.disp := rfl
@[simp] theorem State.startNodeTimer_port (k : Addr) : (s.startNodeTimer k).port = s.port := rfl
@[simp] theorem State.startNodeTimer_nodes (k : Addr) : (s.startNodeTimer k).nodes = s.nodes := rfl
@[simp] theorem State.startNodeTimer_mirror (k : Addr) :
    (s.startNodeTimer k).mirror = s.mirror := rfl
@[simp] theorem State.startNodeTimer_cmd (k : Addr) : (s.startNodeTimer k).cmd = s.cmd := rfl
@[simp] theorem State.startNodeTimer_notices (k : Addr) :
    (s.startNodeTimer k).notices = s.notices := rfl
@[simp] theorem State.startNodeTimer_pending (k : Addr) :
    (s.startNodeTimer k).pending = s.pending := rfl
@[simp] theorem State.startNodeTimer_node (k : Addr) (j : Addr) :
    (s.startNodeTimer k).node j = s.node j := rfl
@[simp] theorem State.startNodeTimer_tag (k : Addr) (u : TagId) :
    (s.startNodeTimer k).tag u = s.tag u := rfl
@[simp] theorem State.startNodeTimer_window (k : Addr) (i' : WinIx) :
    (s.startNodeTimer k).window i' = s.window i' := rfl

/-! `State.endAtOnce` -/

@[simp] theorem State.endAtOnce_ctl (a : Access) (st : Status) (w : Word) :
    (s.endAtOnce a st w).ctl = s.ctl := rfl
@[simp] theorem State.endAtOnce_windows (a : Access) (st : Status) (w : Word) :
    (s.endAtOnce a st w).windows = s.windows := rfl
@[simp] theorem State.endAtOnce_queue (a : Access) (st : Status) (w : Word) :
    (s.endAtOnce a st w).queue = s.queue := rfl
@[simp] theorem State.endAtOnce_disp (a : Access) (st : Status) (w : Word) :
    (s.endAtOnce a st w).disp = s.disp := rfl
@[simp] theorem State.endAtOnce_port (a : Access) (st : Status) (w : Word) :
    (s.endAtOnce a st w).port = s.port := rfl
@[simp] theorem State.endAtOnce_chain (a : Access) (st : Status) (w : Word) :
    (s.endAtOnce a st w).chain = s.chain := rfl
@[simp] theorem State.endAtOnce_nodes (a : Access) (st : Status) (w : Word) :
    (s.endAtOnce a st w).nodes = s.nodes := rfl
@[simp] theorem State.endAtOnce_mirror (a : Access) (st : Status) (w : Word) :
    (s.endAtOnce a st w).mirror = s.mirror := rfl
@[simp] theorem State.endAtOnce_cmd (a : Access) (st : Status) (w : Word) :
    (s.endAtOnce a st w).cmd = s.cmd := rfl
@[simp] theorem State.endAtOnce_notices (a : Access) (st : Status) (w : Word) :
    (s.endAtOnce a st w).notices = s.notices := rfl
@[simp] theorem State.endAtOnce_pending (a : Access) (st : Status) (w : Word) :
    (s.endAtOnce a st w).pending = s.pending := rfl
@[simp] theorem State.endAtOnce_node (a : Access) (st : Status) (w : Word) (j : Addr) :
    (s.endAtOnce a st w).node j = s.node j := rfl
@[simp] theorem State.endAtOnce_tag (a : Access) (st : Status) (w : Word) (u : TagId) :
    (s.endAtOnce a st w).tag u = s.tag u := rfl
@[simp] theorem State.endAtOnce_window (a : Access) (st : Status) (w : Word) (i' : WinIx) :
    (s.endAtOnce a st w).window i' = s.window i' := rfl

/-! `State.endHeld` -/

@[simp] theorem State.endHeld_ctl (st : Status) (w : Word) : (s.endHeld st w).ctl = s.ctl := by
  unfold State.endHeld; split <;> rfl
@[simp] theorem State.endHeld_windows (st : Status) (w : Word) :
    (s.endHeld st w).windows = s.windows := by
  unfold State.endHeld; split <;> rfl
@[simp] theorem State.endHeld_queue (st : Status) (w : Word) :
    (s.endHeld st w).queue = s.queue := by
  unfold State.endHeld; split <;> rfl
@[simp] theorem State.endHeld_disp (st : Status) (w : Word) : (s.endHeld st w).disp = s.disp := by
  unfold State.endHeld; split <;> rfl
@[simp] theorem State.endHeld_port (st : Status) (w : Word) : (s.endHeld st w).port = s.port := by
  unfold State.endHeld; split <;> rfl
@[simp] theorem State.endHeld_chain (st : Status) (w : Word) :
    (s.endHeld st w).chain = s.chain := by
  unfold State.endHeld; split <;> rfl
@[simp] theorem State.endHeld_nodes (st : Status) (w : Word) :
    (s.endHeld st w).nodes = s.nodes := by
  unfold State.endHeld; split <;> rfl
@[simp] theorem State.endHeld_mirror (st : Status) (w : Word) :
    (s.endHeld st w).mirror = s.mirror := by
  unfold State.endHeld; split <;> rfl
@[simp] theorem State.endHeld_cmd (st : Status) (w : Word) : (s.endHeld st w).cmd = s.cmd := by
  unfold State.endHeld; split <;> rfl
@[simp] theorem State.endHeld_notices (st : Status) (w : Word) :
    (s.endHeld st w).notices = s.notices := by
  unfold State.endHeld; split <;> rfl
@[simp] theorem State.endHeld_pending (st : Status) (w : Word) :
    (s.endHeld st w).pending = s.pending := by
  unfold State.endHeld; split <;> rfl
@[simp] theorem State.endHeld_node (st : Status) (w : Word) (j : Addr) :
    (s.endHeld st w).node j = s.node j := by
  simp [State.node]
@[simp] theorem State.endHeld_tag (st : Status) (w : Word) (u : TagId) :
    (s.endHeld st w).tag u = s.tag u := by
  simp [State.tag]
@[simp] theorem State.endHeld_window (st : Status) (w : Word) (i' : WinIx) :
    (s.endHeld st w).window i' = s.window i' := by
  simp [State.window]

/-! `State.powerOff` -/

@[simp] theorem State.powerOff_pins : (s.powerOff).pins = s.pins := rfl
@[simp] theorem State.powerOff_ctl : (s.powerOff).ctl = s.ctl := rfl
@[simp] theorem State.powerOff_lbi : (s.powerOff).lbi = s.lbi := rfl
@[simp] theorem State.powerOff_windows : (s.powerOff).windows = s.windows := rfl
@[simp] theorem State.powerOff_queue : (s.powerOff).queue = s.queue := rfl
@[simp] theorem State.powerOff_disp : (s.powerOff).disp = s.disp := rfl
@[simp] theorem State.powerOff_nodes : (s.powerOff).nodes = s.nodes := rfl
@[simp] theorem State.powerOff_mirror : (s.powerOff).mirror = s.mirror := rfl
@[simp] theorem State.powerOff_cmd : (s.powerOff).cmd = s.cmd := rfl
@[simp] theorem State.powerOff_notices : (s.powerOff).notices = s.notices := rfl
@[simp] theorem State.powerOff_pending : (s.powerOff).pending = s.pending := rfl
@[simp] theorem State.powerOff_node (j : Addr) :
    (s.powerOff).node j = s.node j := rfl
@[simp] theorem State.powerOff_tag (u : TagId) :
    (s.powerOff).tag u = s.tag u := rfl
@[simp] theorem State.powerOff_window (i' : WinIx) :
    (s.powerOff).window i' = s.window i' := rfl

/-! `State.powerOn` -/

@[simp] theorem State.powerOn_pins : (s.powerOn).pins = s.pins := rfl
@[simp] theorem State.powerOn_ctl : (s.powerOn).ctl = s.ctl := rfl
@[simp] theorem State.powerOn_lbi : (s.powerOn).lbi = s.lbi := rfl
@[simp] theorem State.powerOn_windows : (s.powerOn).windows = s.windows := rfl
@[simp] theorem State.powerOn_queue : (s.powerOn).queue = s.queue := rfl
@[simp] theorem State.powerOn_disp : (s.powerOn).disp = s.disp := rfl
@[simp] theorem State.powerOn_nodes : (s.powerOn).nodes = s.nodes := rfl
@[simp] theorem State.powerOn_mirror : (s.powerOn).mirror = s.mirror := rfl
@[simp] theorem State.powerOn_cmd : (s.powerOn).cmd = s.cmd := rfl
@[simp] theorem State.powerOn_notices : (s.powerOn).notices = s.notices := rfl
@[simp] theorem State.powerOn_pending : (s.powerOn).pending = s.pending := rfl
@[simp] theorem State.powerOn_node (j : Addr) :
    (s.powerOn).node j = s.node j := rfl
@[simp] theorem State.powerOn_tag (u : TagId) :
    (s.powerOn).tag u = s.tag u := rfl
@[simp] theorem State.powerOn_window (i' : WinIx) :
    (s.powerOn).window i' = s.window i' := rfl

/-! `State.startChainTimer` -/

@[simp] theorem State.startChainTimer_pins : (s.startChainTimer).pins = s.pins := rfl
@[simp] theorem State.startChainTimer_ctl : (s.startChainTimer).ctl = s.ctl := rfl
@[simp] theorem State.startChainTimer_lbi : (s.startChainTimer).lbi = s.lbi := rfl
@[simp] theorem State.startChainTimer_windows : (s.startChainTimer).windows = s.windows := rfl
@[simp] theorem State.startChainTimer_queue : (s.startChainTimer).queue = s.queue := rfl
@[simp] theorem State.startChainTimer_disp : (s.startChainTimer).disp = s.disp := rfl
@[simp] theorem State.startChainTimer_port : (s.startChainTimer).port = s.port := rfl
@[simp] theorem State.startChainTimer_nodes : (s.startChainTimer).nodes = s.nodes := rfl
@[simp] theorem State.startChainTimer_mirror : (s.startChainTimer).mirror = s.mirror := rfl
@[simp] theorem State.startChainTimer_cmd : (s.startChainTimer).cmd = s.cmd := rfl
@[simp] theorem State.startChainTimer_notices : (s.startChainTimer).notices = s.notices := rfl
@[simp] theorem State.startChainTimer_pending : (s.startChainTimer).pending = s.pending := rfl
@[simp] theorem State.startChainTimer_node (j : Addr) :
    (s.startChainTimer).node j = s.node j := rfl
@[simp] theorem State.startChainTimer_tag (u : TagId) :
    (s.startChainTimer).tag u = s.tag u := rfl
@[simp] theorem State.startChainTimer_window (i' : WinIx) :
    (s.startChainTimer).window i' = s.window i' := rfl

/-! `State.stopChainTimer` -/

@[simp] theorem State.stopChainTimer_pins : (s.stopChainTimer).pins = s.pins := rfl
@[simp] theorem State.stopChainTimer_ctl : (s.stopChainTimer).ctl = s.ctl := rfl
@[simp] theorem State.stopChainTimer_lbi : (s.stopChainTimer).lbi = s.lbi := rfl
@[simp] theorem State.stopChainTimer_windows : (s.stopChainTimer).windows = s.windows := rfl
@[simp] theorem State.stopChainTimer_queue : (s.stopChainTimer).queue = s.queue := rfl
@[simp] theorem State.stopChainTimer_disp : (s.stopChainTimer).disp = s.disp := rfl
@[simp] theorem State.stopChainTimer_port : (s.stopChainTimer).port = s.port := rfl
@[simp] theorem State.stopChainTimer_nodes : (s.stopChainTimer).nodes = s.nodes := rfl
@[simp] theorem State.stopChainTimer_mirror : (s.stopChainTimer).mirror = s.mirror := rfl
@[simp] theorem State.stopChainTimer_cmd : (s.stopChainTimer).cmd = s.cmd := rfl
@[simp] theorem State.stopChainTimer_notices : (s.stopChainTimer).notices = s.notices := rfl
@[simp] theorem State.stopChainTimer_pending : (s.stopChainTimer).pending = s.pending := rfl
@[simp] theorem State.stopChainTimer_node (j : Addr) :
    (s.stopChainTimer).node j = s.node j := rfl
@[simp] theorem State.stopChainTimer_tag (u : TagId) :
    (s.stopChainTimer).tag u = s.tag u := rfl
@[simp] theorem State.stopChainTimer_window (i' : WinIx) :
    (s.stopChainTimer).window i' = s.window i' := rfl

/-! `State.setWindow` -/

@[simp] theorem State.setWindow_pins (i : WinIx) (w : Window) :
    (s.setWindow i w).pins = s.pins := rfl
@[simp] theorem State.setWindow_ctl (i : WinIx) (w : Window) : (s.setWindow i w).ctl = s.ctl := rfl
@[simp] theorem State.setWindow_lbi (i : WinIx) (w : Window) : (s.setWindow i w).lbi = s.lbi := rfl
@[simp] theorem State.setWindow_queue (i : WinIx) (w : Window) :
    (s.setWindow i w).queue = s.queue := rfl
@[simp] theorem State.setWindow_disp (i : WinIx) (w : Window) :
    (s.setWindow i w).disp = s.disp := rfl
@[simp] theorem State.setWindow_port (i : WinIx) (w : Window) :
    (s.setWindow i w).port = s.port := rfl
@[simp] theorem State.setWindow_chain (i : WinIx) (w : Window) :
    (s.setWindow i w).chain = s.chain := rfl
@[simp] theorem State.setWindow_nodes (i : WinIx) (w : Window) :
    (s.setWindow i w).nodes = s.nodes := rfl
@[simp] theorem State.setWindow_mirror (i : WinIx) (w : Window) :
    (s.setWindow i w).mirror = s.mirror := rfl
@[simp] theorem State.setWindow_cmd (i : WinIx) (w : Window) : (s.setWindow i w).cmd = s.cmd := rfl
@[simp] theorem State.setWindow_notices (i : WinIx) (w : Window) :
    (s.setWindow i w).notices = s.notices := rfl
@[simp] theorem State.setWindow_pending (i : WinIx) (w : Window) :
    (s.setWindow i w).pending = s.pending := rfl
@[simp] theorem State.setWindow_node (i : WinIx) (w : Window) (j : Addr) :
    (s.setWindow i w).node j = s.node j := rfl
@[simp] theorem State.setWindow_tag (i : WinIx) (w : Window) (u : TagId) :
    (s.setWindow i w).tag u = s.tag u := rfl

/-! `State.detach` -/

@[simp] theorem State.detach_pins (p : Addr → Bool) : (s.detach p).pins = s.pins := rfl
@[simp] theorem State.detach_ctl (p : Addr → Bool) : (s.detach p).ctl = s.ctl := rfl
@[simp] theorem State.detach_lbi (p : Addr → Bool) : (s.detach p).lbi = s.lbi := rfl
@[simp] theorem State.detach_queue (p : Addr → Bool) : (s.detach p).queue = s.queue := rfl
@[simp] theorem State.detach_disp (p : Addr → Bool) : (s.detach p).disp = s.disp := rfl
@[simp] theorem State.detach_port (p : Addr → Bool) : (s.detach p).port = s.port := rfl
@[simp] theorem State.detach_chain (p : Addr → Bool) : (s.detach p).chain = s.chain := rfl
@[simp] theorem State.detach_nodes (p : Addr → Bool) : (s.detach p).nodes = s.nodes := rfl
@[simp] theorem State.detach_mirror (p : Addr → Bool) : (s.detach p).mirror = s.mirror := rfl
@[simp] theorem State.detach_cmd (p : Addr → Bool) : (s.detach p).cmd = s.cmd := rfl
@[simp] theorem State.detach_notices (p : Addr → Bool) : (s.detach p).notices = s.notices := rfl
@[simp] theorem State.detach_pending (p : Addr → Bool) : (s.detach p).pending = s.pending := rfl
@[simp] theorem State.detach_node (p : Addr → Bool) (j : Addr) :
    (s.detach p).node j = s.node j := rfl
@[simp] theorem State.detach_tag (p : Addr → Bool) (u : TagId) :
    (s.detach p).tag u = s.tag u := rfl

/-! `State.setRefreshTimer` -/

@[simp] theorem State.setRefreshTimer_pins (i : WinIx) (x : Option Nat) :
    (s.setRefreshTimer i x).pins = s.pins := rfl
@[simp] theorem State.setRefreshTimer_ctl (i : WinIx) (x : Option Nat) :
    (s.setRefreshTimer i x).ctl = s.ctl := rfl
@[simp] theorem State.setRefreshTimer_lbi (i : WinIx) (x : Option Nat) :
    (s.setRefreshTimer i x).lbi = s.lbi := rfl
@[simp] theorem State.setRefreshTimer_windows (i : WinIx) (x : Option Nat) :
    (s.setRefreshTimer i x).windows = s.windows := rfl
@[simp] theorem State.setRefreshTimer_queue (i : WinIx) (x : Option Nat) :
    (s.setRefreshTimer i x).queue = s.queue := rfl
@[simp] theorem State.setRefreshTimer_disp (i : WinIx) (x : Option Nat) :
    (s.setRefreshTimer i x).disp = s.disp := rfl
@[simp] theorem State.setRefreshTimer_port (i : WinIx) (x : Option Nat) :
    (s.setRefreshTimer i x).port = s.port := rfl
@[simp] theorem State.setRefreshTimer_chain (i : WinIx) (x : Option Nat) :
    (s.setRefreshTimer i x).chain = s.chain := rfl
@[simp] theorem State.setRefreshTimer_nodes (i : WinIx) (x : Option Nat) :
    (s.setRefreshTimer i x).nodes = s.nodes := rfl
@[simp] theorem State.setRefreshTimer_cmd (i : WinIx) (x : Option Nat) :
    (s.setRefreshTimer i x).cmd = s.cmd := rfl
@[simp] theorem State.setRefreshTimer_notices (i : WinIx) (x : Option Nat) :
    (s.setRefreshTimer i x).notices = s.notices := rfl
@[simp] theorem State.setRefreshTimer_pending (i : WinIx) (x : Option Nat) :
    (s.setRefreshTimer i x).pending = s.pending := rfl
@[simp] theorem State.setRefreshTimer_node (i : WinIx) (x : Option Nat) (j : Addr) :
    (s.setRefreshTimer i x).node j = s.node j := rfl
@[simp] theorem State.setRefreshTimer_tag (i : WinIx) (x : Option Nat) (u : TagId) :
    (s.setRefreshTimer i x).tag u = s.tag u := rfl
@[simp] theorem State.setRefreshTimer_window (i : WinIx) (x : Option Nat) (i' : WinIx) :
    (s.setRefreshTimer i x).window i' = s.window i' := rfl

/-! `State.transmit` -/

@[simp] theorem State.transmit_pins (f : DownFrame) : (s.transmit f).pins = s.pins := rfl
@[simp] theorem State.transmit_ctl (f : DownFrame) : (s.transmit f).ctl = s.ctl := rfl
@[simp] theorem State.transmit_lbi (f : DownFrame) : (s.transmit f).lbi = s.lbi := rfl
@[simp] theorem State.transmit_windows (f : DownFrame) : (s.transmit f).windows = s.windows := rfl
@[simp] theorem State.transmit_queue (f : DownFrame) : (s.transmit f).queue = s.queue := rfl
@[simp] theorem State.transmit_disp (f : DownFrame) : (s.transmit f).disp = s.disp := rfl
@[simp] theorem State.transmit_chain (f : DownFrame) : (s.transmit f).chain = s.chain := rfl
@[simp] theorem State.transmit_nodes (f : DownFrame) : (s.transmit f).nodes = s.nodes := rfl
@[simp] theorem State.transmit_mirror (f : DownFrame) : (s.transmit f).mirror = s.mirror := rfl
@[simp] theorem State.transmit_cmd (f : DownFrame) : (s.transmit f).cmd = s.cmd := rfl
@[simp] theorem State.transmit_notices (f : DownFrame) : (s.transmit f).notices = s.notices := rfl
@[simp] theorem State.transmit_pending (f : DownFrame) : (s.transmit f).pending = s.pending := rfl
@[simp] theorem State.transmit_node (f : DownFrame) (j : Addr) :
    (s.transmit f).node j = s.node j := rfl
@[simp] theorem State.transmit_tag (f : DownFrame) (u : TagId) :
    (s.transmit f).tag u = s.tag u := rfl
@[simp] theorem State.transmit_window (f : DownFrame) (i' : WinIx) :
    (s.transmit f).window i' = s.window i' := rfl

/-! `State.submitAnswer` -/

@[simp] theorem State.submitAnswer_pins (x : SubmitStatus) : (s.submitAnswer x).pins = s.pins := rfl
@[simp] theorem State.submitAnswer_ctl (x : SubmitStatus) : (s.submitAnswer x).ctl = s.ctl := rfl
@[simp] theorem State.submitAnswer_lbi (x : SubmitStatus) : (s.submitAnswer x).lbi = s.lbi := rfl
@[simp] theorem State.submitAnswer_windows (x : SubmitStatus) :
    (s.submitAnswer x).windows = s.windows := rfl
@[simp] theorem State.submitAnswer_queue (x : SubmitStatus) :
    (s.submitAnswer x).queue = s.queue := rfl
@[simp] theorem State.submitAnswer_disp (x : SubmitStatus) : (s.submitAnswer x).disp = s.disp := rfl
@[simp] theorem State.submitAnswer_port (x : SubmitStatus) : (s.submitAnswer x).port = s.port := rfl
@[simp] theorem State.submitAnswer_chain (x : SubmitStatus) :
    (s.submitAnswer x).chain = s.chain := rfl
@[simp] theorem State.submitAnswer_nodes (x : SubmitStatus) :
    (s.submitAnswer x).nodes = s.nodes := rfl
@[simp] theorem State.submitAnswer_mirror (x : SubmitStatus) :
    (s.submitAnswer x).mirror = s.mirror := rfl
@[simp] theorem State.submitAnswer_notices (x : SubmitStatus) :
    (s.submitAnswer x).notices = s.notices := rfl
@[simp] theorem State.submitAnswer_pending (x : SubmitStatus) :
    (s.submitAnswer x).pending = s.pending := rfl
@[simp] theorem State.submitAnswer_node (x : SubmitStatus) (j : Addr) :
    (s.submitAnswer x).node j = s.node j := rfl
@[simp] theorem State.submitAnswer_tag (x : SubmitStatus) (u : TagId) :
    (s.submitAnswer x).tag u = s.tag u := rfl
@[simp] theorem State.submitAnswer_window (x : SubmitStatus) (i' : WinIx) :
    (s.submitAnswer x).window i' = s.window i' := rfl

/-! `State.reserve` -/

@[simp] theorem State.reserve_pins : (s.reserve).pins = s.pins := rfl
@[simp] theorem State.reserve_ctl : (s.reserve).ctl = s.ctl := rfl
@[simp] theorem State.reserve_lbi : (s.reserve).lbi = s.lbi := rfl
@[simp] theorem State.reserve_windows : (s.reserve).windows = s.windows := rfl
@[simp] theorem State.reserve_queue : (s.reserve).queue = s.queue := rfl
@[simp] theorem State.reserve_disp : (s.reserve).disp = s.disp := rfl
@[simp] theorem State.reserve_port : (s.reserve).port = s.port := rfl
@[simp] theorem State.reserve_chain : (s.reserve).chain = s.chain := rfl
@[simp] theorem State.reserve_nodes : (s.reserve).nodes = s.nodes := rfl
@[simp] theorem State.reserve_mirror : (s.reserve).mirror = s.mirror := rfl
@[simp] theorem State.reserve_notices : (s.reserve).notices = s.notices := rfl
@[simp] theorem State.reserve_pending : (s.reserve).pending = s.pending := rfl
@[simp] theorem State.reserve_node (j : Addr) :
    (s.reserve).node j = s.node j := rfl
@[simp] theorem State.reserve_tag (u : TagId) :
    (s.reserve).tag u = s.tag u := rfl
@[simp] theorem State.reserve_window (i' : WinIx) :
    (s.reserve).window i' = s.window i' := rfl

/-! `State.popCompletion` -/

@[simp] theorem State.popCompletion_pins : (s.popCompletion).pins = s.pins := rfl
@[simp] theorem State.popCompletion_ctl : (s.popCompletion).ctl = s.ctl := rfl
@[simp] theorem State.popCompletion_lbi : (s.popCompletion).lbi = s.lbi := rfl
@[simp] theorem State.popCompletion_windows : (s.popCompletion).windows = s.windows := rfl
@[simp] theorem State.popCompletion_queue : (s.popCompletion).queue = s.queue := rfl
@[simp] theorem State.popCompletion_disp : (s.popCompletion).disp = s.disp := rfl
@[simp] theorem State.popCompletion_port : (s.popCompletion).port = s.port := rfl
@[simp] theorem State.popCompletion_chain : (s.popCompletion).chain = s.chain := rfl
@[simp] theorem State.popCompletion_nodes : (s.popCompletion).nodes = s.nodes := rfl
@[simp] theorem State.popCompletion_mirror : (s.popCompletion).mirror = s.mirror := rfl
@[simp] theorem State.popCompletion_notices : (s.popCompletion).notices = s.notices := rfl
@[simp] theorem State.popCompletion_pending : (s.popCompletion).pending = s.pending := rfl
@[simp] theorem State.popCompletion_node (j : Addr) :
    (s.popCompletion).node j = s.node j := rfl
@[simp] theorem State.popCompletion_tag (u : TagId) :
    (s.popCompletion).tag u = s.tag u := rfl
@[simp] theorem State.popCompletion_window (i' : WinIx) :
    (s.popCompletion).window i' = s.window i' := rfl

/-! `State.popNotice` -/

@[simp] theorem State.popNotice_pins : (s.popNotice).pins = s.pins := rfl
@[simp] theorem State.popNotice_ctl : (s.popNotice).ctl = s.ctl := rfl
@[simp] theorem State.popNotice_lbi : (s.popNotice).lbi = s.lbi := rfl
@[simp] theorem State.popNotice_windows : (s.popNotice).windows = s.windows := rfl
@[simp] theorem State.popNotice_queue : (s.popNotice).queue = s.queue := rfl
@[simp] theorem State.popNotice_disp : (s.popNotice).disp = s.disp := rfl
@[simp] theorem State.popNotice_port : (s.popNotice).port = s.port := rfl
@[simp] theorem State.popNotice_chain : (s.popNotice).chain = s.chain := rfl
@[simp] theorem State.popNotice_nodes : (s.popNotice).nodes = s.nodes := rfl
@[simp] theorem State.popNotice_mirror : (s.popNotice).mirror = s.mirror := rfl
@[simp] theorem State.popNotice_cmd : (s.popNotice).cmd = s.cmd := rfl
@[simp] theorem State.popNotice_pending : (s.popNotice).pending = s.pending := rfl
@[simp] theorem State.popNotice_node (j : Addr) :
    (s.popNotice).node j = s.node j := rfl
@[simp] theorem State.popNotice_tag (u : TagId) :
    (s.popNotice).tag u = s.tag u := rfl
@[simp] theorem State.popNotice_window (i' : WinIx) :
    (s.popNotice).window i' = s.window i' := rfl

/-! `State.stagingWrite` -/

@[simp] theorem State.stagingWrite_pins (n : Nat) (v : Word) :
    (s.stagingWrite n v).pins = s.pins := rfl
@[simp] theorem State.stagingWrite_ctl (n : Nat) (v : Word) :
    (s.stagingWrite n v).ctl = s.ctl := rfl
@[simp] theorem State.stagingWrite_lbi (n : Nat) (v : Word) :
    (s.stagingWrite n v).lbi = s.lbi := rfl
@[simp] theorem State.stagingWrite_windows (n : Nat) (v : Word) :
    (s.stagingWrite n v).windows = s.windows := rfl
@[simp] theorem State.stagingWrite_queue (n : Nat) (v : Word) :
    (s.stagingWrite n v).queue = s.queue := rfl
@[simp] theorem State.stagingWrite_disp (n : Nat) (v : Word) :
    (s.stagingWrite n v).disp = s.disp := rfl
@[simp] theorem State.stagingWrite_port (n : Nat) (v : Word) :
    (s.stagingWrite n v).port = s.port := rfl
@[simp] theorem State.stagingWrite_chain (n : Nat) (v : Word) :
    (s.stagingWrite n v).chain = s.chain := rfl
@[simp] theorem State.stagingWrite_nodes (n : Nat) (v : Word) :
    (s.stagingWrite n v).nodes = s.nodes := rfl
@[simp] theorem State.stagingWrite_mirror (n : Nat) (v : Word) :
    (s.stagingWrite n v).mirror = s.mirror := rfl
@[simp] theorem State.stagingWrite_notices (n : Nat) (v : Word) :
    (s.stagingWrite n v).notices = s.notices := rfl
@[simp] theorem State.stagingWrite_pending (n : Nat) (v : Word) :
    (s.stagingWrite n v).pending = s.pending := rfl
@[simp] theorem State.stagingWrite_node (n : Nat) (v : Word) (j : Addr) :
    (s.stagingWrite n v).node j = s.node j := rfl
@[simp] theorem State.stagingWrite_tag (n : Nat) (v : Word) (u : TagId) :
    (s.stagingWrite n v).tag u = s.tag u := rfl
@[simp] theorem State.stagingWrite_window (n : Nat) (v : Word) (i' : WinIx) :
    (s.stagingWrite n v).window i' = s.window i' := rfl

/-! `State.holdBusyTags` -/

@[simp] theorem State.holdBusyTags_pins : (s.holdBusyTags).pins = s.pins := rfl
@[simp] theorem State.holdBusyTags_ctl : (s.holdBusyTags).ctl = s.ctl := rfl
@[simp] theorem State.holdBusyTags_lbi : (s.holdBusyTags).lbi = s.lbi := rfl
@[simp] theorem State.holdBusyTags_windows : (s.holdBusyTags).windows = s.windows := rfl
@[simp] theorem State.holdBusyTags_queue : (s.holdBusyTags).queue = s.queue := rfl
@[simp] theorem State.holdBusyTags_port : (s.holdBusyTags).port = s.port := rfl
@[simp] theorem State.holdBusyTags_chain : (s.holdBusyTags).chain = s.chain := rfl
@[simp] theorem State.holdBusyTags_nodes : (s.holdBusyTags).nodes = s.nodes := rfl
@[simp] theorem State.holdBusyTags_mirror : (s.holdBusyTags).mirror = s.mirror := rfl
@[simp] theorem State.holdBusyTags_cmd : (s.holdBusyTags).cmd = s.cmd := rfl
@[simp] theorem State.holdBusyTags_notices : (s.holdBusyTags).notices = s.notices := rfl
@[simp] theorem State.holdBusyTags_pending : (s.holdBusyTags).pending = s.pending := rfl
@[simp] theorem State.holdBusyTags_node (j : Addr) :
    (s.holdBusyTags).node j = s.node j := rfl
@[simp] theorem State.holdBusyTags_window (i' : WinIx) :
    (s.holdBusyTags).window i' = s.window i' := rfl

/-! `State.attachRescan` -/

@[simp] theorem State.attachRescan_pins (t : BitVec 8) : (s.attachRescan t).pins = s.pins := rfl
@[simp] theorem State.attachRescan_ctl (t : BitVec 8) : (s.attachRescan t).ctl = s.ctl := rfl
@[simp] theorem State.attachRescan_lbi (t : BitVec 8) : (s.attachRescan t).lbi = s.lbi := rfl
@[simp] theorem State.attachRescan_windows (t : BitVec 8) :
    (s.attachRescan t).windows = s.windows := rfl
@[simp] theorem State.attachRescan_queue (t : BitVec 8) : (s.attachRescan t).queue = s.queue := rfl
@[simp] theorem State.attachRescan_disp (t : BitVec 8) : (s.attachRescan t).disp = s.disp := rfl
@[simp] theorem State.attachRescan_port (t : BitVec 8) : (s.attachRescan t).port = s.port := rfl
@[simp] theorem State.attachRescan_nodes (t : BitVec 8) : (s.attachRescan t).nodes = s.nodes := rfl
@[simp] theorem State.attachRescan_mirror (t : BitVec 8) :
    (s.attachRescan t).mirror = s.mirror := rfl
@[simp] theorem State.attachRescan_cmd (t : BitVec 8) : (s.attachRescan t).cmd = s.cmd := rfl
@[simp] theorem State.attachRescan_notices (t : BitVec 8) :
    (s.attachRescan t).notices = s.notices := rfl
@[simp] theorem State.attachRescan_pending (t : BitVec 8) :
    (s.attachRescan t).pending = s.pending := rfl
@[simp] theorem State.attachRescan_node (t : BitVec 8) (j : Addr) :
    (s.attachRescan t).node j = s.node j := rfl
@[simp] theorem State.attachRescan_tag (t : BitVec 8) (u : TagId) :
    (s.attachRescan t).tag u = s.tag u := rfl
@[simp] theorem State.attachRescan_window (t : BitVec 8) (i' : WinIx) :
    (s.attachRescan t).window i' = s.window i' := rfl

/-! `State.cutTail` -/

@[simp] theorem State.cutTail_pins (k : Addr) : (s.cutTail k).pins = s.pins := rfl
@[simp] theorem State.cutTail_ctl (k : Addr) : (s.cutTail k).ctl = s.ctl := rfl
@[simp] theorem State.cutTail_lbi (k : Addr) : (s.cutTail k).lbi = s.lbi := rfl
@[simp] theorem State.cutTail_windows (k : Addr) : (s.cutTail k).windows = s.windows := rfl
@[simp] theorem State.cutTail_queue (k : Addr) : (s.cutTail k).queue = s.queue := rfl
@[simp] theorem State.cutTail_disp (k : Addr) : (s.cutTail k).disp = s.disp := rfl
@[simp] theorem State.cutTail_port (k : Addr) : (s.cutTail k).port = s.port := rfl
@[simp] theorem State.cutTail_nodes (k : Addr) : (s.cutTail k).nodes = s.nodes := rfl
@[simp] theorem State.cutTail_mirror (k : Addr) : (s.cutTail k).mirror = s.mirror := rfl
@[simp] theorem State.cutTail_cmd (k : Addr) : (s.cutTail k).cmd = s.cmd := rfl
@[simp] theorem State.cutTail_notices (k : Addr) : (s.cutTail k).notices = s.notices := rfl
@[simp] theorem State.cutTail_pending (k : Addr) : (s.cutTail k).pending = s.pending := rfl
@[simp] theorem State.cutTail_node (k : Addr) (j : Addr) :
    (s.cutTail k).node j = s.node j := rfl
@[simp] theorem State.cutTail_tag (k : Addr) (u : TagId) :
    (s.cutTail k).tag u = s.tag u := rfl
@[simp] theorem State.cutTail_window (k : Addr) (i' : WinIx) :
    (s.cutTail k).window i' = s.window i' := rfl

/-! `State.keepRecords` -/

@[simp] theorem State.keepRecords_pins : (s.keepRecords).pins = s.pins := by
  simp only [State.keepRecords]
@[simp] theorem State.keepRecords_ctl : (s.keepRecords).ctl = s.ctl := by
  simp only [State.keepRecords]
@[simp] theorem State.keepRecords_lbi : (s.keepRecords).lbi = s.lbi := by
  simp only [State.keepRecords]
@[simp] theorem State.keepRecords_windows : (s.keepRecords).windows = s.windows := by
  simp only [State.keepRecords]
@[simp] theorem State.keepRecords_queue : (s.keepRecords).queue = s.queue := by
  simp only [State.keepRecords]
@[simp] theorem State.keepRecords_disp : (s.keepRecords).disp = s.disp := by
  simp only [State.keepRecords]
@[simp] theorem State.keepRecords_port : (s.keepRecords).port = s.port := by
  simp only [State.keepRecords]
@[simp] theorem State.keepRecords_chain : (s.keepRecords).chain = s.chain := by
  simp only [State.keepRecords]
@[simp] theorem State.keepRecords_mirror : (s.keepRecords).mirror = s.mirror := by
  simp only [State.keepRecords]
@[simp] theorem State.keepRecords_cmd : (s.keepRecords).cmd = s.cmd := by
  simp only [State.keepRecords]
@[simp] theorem State.keepRecords_notices : (s.keepRecords).notices = s.notices := by
  simp only [State.keepRecords]
@[simp] theorem State.keepRecords_pending : (s.keepRecords).pending = s.pending := by
  simp only [State.keepRecords]
@[simp] theorem State.keepRecords_tag (u : TagId) :
    (s.keepRecords).tag u = s.tag u := by
  simp [State.tag]
@[simp] theorem State.keepRecords_window (i' : WinIx) :
    (s.keepRecords).window i' = s.window i' := by
  simp [State.window]

/-! `State.putBackSteps` -/

@[simp] theorem State.putBackSteps_pins (l : List MgmtStep) :
    (s.putBackSteps l).pins = s.pins := rfl
@[simp] theorem State.putBackSteps_ctl (l : List MgmtStep) : (s.putBackSteps l).ctl = s.ctl := rfl
@[simp] theorem State.putBackSteps_lbi (l : List MgmtStep) : (s.putBackSteps l).lbi = s.lbi := rfl
@[simp] theorem State.putBackSteps_windows (l : List MgmtStep) :
    (s.putBackSteps l).windows = s.windows := rfl
@[simp] theorem State.putBackSteps_queue (l : List MgmtStep) :
    (s.putBackSteps l).queue = s.queue := rfl
@[simp] theorem State.putBackSteps_disp (l : List MgmtStep) :
    (s.putBackSteps l).disp = s.disp := rfl
@[simp] theorem State.putBackSteps_port (l : List MgmtStep) :
    (s.putBackSteps l).port = s.port := rfl
@[simp] theorem State.putBackSteps_nodes (l : List MgmtStep) :
    (s.putBackSteps l).nodes = s.nodes := rfl
@[simp] theorem State.putBackSteps_mirror (l : List MgmtStep) :
    (s.putBackSteps l).mirror = s.mirror := rfl
@[simp] theorem State.putBackSteps_cmd (l : List MgmtStep) : (s.putBackSteps l).cmd = s.cmd := rfl
@[simp] theorem State.putBackSteps_notices (l : List MgmtStep) :
    (s.putBackSteps l).notices = s.notices := rfl
@[simp] theorem State.putBackSteps_pending (l : List MgmtStep) :
    (s.putBackSteps l).pending = s.pending := rfl
@[simp] theorem State.putBackSteps_node (l : List MgmtStep) (j : Addr) :
    (s.putBackSteps l).node j = s.node j := rfl
@[simp] theorem State.putBackSteps_tag (l : List MgmtStep) (u : TagId) :
    (s.putBackSteps l).tag u = s.tag u := rfl
@[simp] theorem State.putBackSteps_window (l : List MgmtStep) (i' : WinIx) :
    (s.putBackSteps l).window i' = s.window i' := rfl

/-! `State.admitted` -/

@[simp] theorem State.admit_pins (k : Addr) : (s.admitted k).pins = s.pins := by
  unfold State.admitted; split
  · simp
  · rfl
@[simp] theorem State.admit_ctl (k : Addr) : (s.admitted k).ctl = s.ctl := by
  unfold State.admitted; split
  · simp
  · rfl
@[simp] theorem State.admit_lbi (k : Addr) : (s.admitted k).lbi = s.lbi := by
  unfold State.admitted; split
  · simp
  · rfl
@[simp] theorem State.admit_windows (k : Addr) : (s.admitted k).windows = s.windows := by
  unfold State.admitted; split
  · simp
  · rfl
@[simp] theorem State.admit_disp (k : Addr) : (s.admitted k).disp = s.disp := by
  unfold State.admitted; split
  · simp
  · rfl
@[simp] theorem State.admit_port (k : Addr) : (s.admitted k).port = s.port := by
  unfold State.admitted; split
  · simp
  · rfl
@[simp] theorem State.admit_mirror (k : Addr) : (s.admitted k).mirror = s.mirror := by
  unfold State.admitted; split
  · simp
  · rfl
@[simp] theorem State.admit_cmd (k : Addr) : (s.admitted k).cmd = s.cmd := by
  unfold State.admitted; split
  · simp
  · rfl
@[simp] theorem State.admit_notices (k : Addr) : (s.admitted k).notices = s.notices := by
  unfold State.admitted; split
  · simp
  · rfl
@[simp] theorem State.admit_pending (k : Addr) : (s.admitted k).pending = s.pending := by
  unfold State.admitted; split
  · simp
  · rfl
@[simp] theorem State.admit_tag (k : Addr) (u : TagId) :
    (s.admitted k).tag u = s.tag u := by
  simp [State.tag]
@[simp] theorem State.admit_window (k : Addr) (i' : WinIx) :
    (s.admitted k).window i' = s.window i' := by
  simp [State.window]

/-! `State.deny` -/

@[simp] theorem State.deny_pins (k : Addr) : (s.deny k).pins = s.pins := rfl
@[simp] theorem State.deny_ctl (k : Addr) : (s.deny k).ctl = s.ctl := rfl
@[simp] theorem State.deny_lbi (k : Addr) : (s.deny k).lbi = s.lbi := rfl
@[simp] theorem State.deny_windows (k : Addr) : (s.deny k).windows = s.windows := rfl
@[simp] theorem State.deny_queue (k : Addr) : (s.deny k).queue = s.queue := rfl
@[simp] theorem State.deny_disp (k : Addr) : (s.deny k).disp = s.disp := rfl
@[simp] theorem State.deny_port (k : Addr) : (s.deny k).port = s.port := rfl
@[simp] theorem State.deny_mirror (k : Addr) : (s.deny k).mirror = s.mirror := rfl
@[simp] theorem State.deny_cmd (k : Addr) : (s.deny k).cmd = s.cmd := rfl
@[simp] theorem State.deny_pending (k : Addr) : (s.deny k).pending = s.pending := rfl
@[simp] theorem State.deny_tag (k : Addr) (u : TagId) :
    (s.deny k).tag u = s.tag u := rfl
@[simp] theorem State.deny_window (k : Addr) (i' : WinIx) :
    (s.deny k).window i' = s.window i' := rfl

/-! `State.vacateAll` -/

@[simp] theorem State.vacateAll_pins : (s.vacateAll).pins = s.pins := by
  simp only [State.vacateAll]
@[simp] theorem State.vacateAll_ctl : (s.vacateAll).ctl = s.ctl := by
  simp only [State.vacateAll]
@[simp] theorem State.vacateAll_lbi : (s.vacateAll).lbi = s.lbi := by
  simp only [State.vacateAll]
@[simp] theorem State.vacateAll_windows : (s.vacateAll).windows = s.windows := by
  simp only [State.vacateAll]
@[simp] theorem State.vacateAll_queue : (s.vacateAll).queue = s.queue := by
  simp only [State.vacateAll]
@[simp] theorem State.vacateAll_disp : (s.vacateAll).disp = s.disp := by
  simp only [State.vacateAll]
@[simp] theorem State.vacateAll_port : (s.vacateAll).port = s.port := by
  simp only [State.vacateAll]
@[simp] theorem State.vacateAll_mirror : (s.vacateAll).mirror = s.mirror := by
  simp only [State.vacateAll]
@[simp] theorem State.vacateAll_cmd : (s.vacateAll).cmd = s.cmd := by
  simp only [State.vacateAll]
@[simp] theorem State.vacateAll_notices : (s.vacateAll).notices = s.notices := by
  simp only [State.vacateAll]
@[simp] theorem State.vacateAll_pending : (s.vacateAll).pending = s.pending := by
  simp only [State.vacateAll]
@[simp] theorem State.vacateAll_tag (u : TagId) :
    (s.vacateAll).tag u = s.tag u := by
  simp [State.tag]
@[simp] theorem State.vacateAll_window (i' : WinIx) :
    (s.vacateAll).window i' = s.window i' := by
  simp [State.window]

/-! `State.tryEnable` -/

@[simp] theorem State.tryEnable_pins (i : WinIx) : (s.tryEnable i).pins = s.pins := by
  unfold State.tryEnable; dsimp only; split <;> simp
@[simp] theorem State.tryEnable_ctl (i : WinIx) : (s.tryEnable i).ctl = s.ctl := by
  unfold State.tryEnable; dsimp only; split <;> simp
@[simp] theorem State.tryEnable_lbi (i : WinIx) : (s.tryEnable i).lbi = s.lbi := by
  unfold State.tryEnable; dsimp only; split <;> simp
@[simp] theorem State.tryEnable_queue (i : WinIx) : (s.tryEnable i).queue = s.queue := by
  unfold State.tryEnable; dsimp only; split <;> simp
@[simp] theorem State.tryEnable_disp (i : WinIx) : (s.tryEnable i).disp = s.disp := by
  unfold State.tryEnable; dsimp only; split <;> simp
@[simp] theorem State.tryEnable_port (i : WinIx) : (s.tryEnable i).port = s.port := by
  unfold State.tryEnable; dsimp only; split <;> simp
@[simp] theorem State.tryEnable_chain (i : WinIx) : (s.tryEnable i).chain = s.chain := by
  unfold State.tryEnable; dsimp only; split <;> simp
@[simp] theorem State.tryEnable_nodes (i : WinIx) : (s.tryEnable i).nodes = s.nodes := by
  unfold State.tryEnable; dsimp only; split <;> simp
@[simp] theorem State.tryEnable_cmd (i : WinIx) : (s.tryEnable i).cmd = s.cmd := by
  unfold State.tryEnable; dsimp only; split <;> simp
@[simp] theorem State.tryEnable_notices (i : WinIx) : (s.tryEnable i).notices = s.notices := by
  unfold State.tryEnable; dsimp only; split <;> simp
@[simp] theorem State.tryEnable_pending (i : WinIx) : (s.tryEnable i).pending = s.pending := by
  unfold State.tryEnable; dsimp only; split <;> simp
@[simp] theorem State.tryEnable_node (i : WinIx) (j : Addr) :
    (s.tryEnable i).node j = s.node j := by
  simp [State.node]
@[simp] theorem State.tryEnable_tag (i : WinIx) (u : TagId) :
    (s.tryEnable i).tag u = s.tag u := by
  simp [State.tag]

/-! ### Records, tags and windows in their places -/

theorem State.setNode_node (k j : Addr) (r : NodeRecord) :
    (s.setNode k r).node j = if j = k then r else s.node j := by
  simp only [State.node, State.setNode]
  by_cases h : j = k
  · subst h; simp
  · have : k.val ≠ j.val := fun e => h (Fin.ext e.symm)
    simp [h, this]

theorem State.modNode_node (k j : Addr) (f : NodeRecord → NodeRecord) :
    (s.modNode k f).node j = if j = k then f (s.node k) else s.node j :=
  s.setNode_node k j _

@[simp] theorem State.setNode_node_self (k : Addr) (r : NodeRecord) : (s.setNode k r).node k = r := by
  simp [State.setNode_node]

@[simp] theorem State.modNode_node_self (k : Addr) (f : NodeRecord → NodeRecord) :
    (s.modNode k f).node k = f (s.node k) := by simp [State.modNode_node]

theorem State.setTag_tag (t u : TagId) (x : Tag) :
    (s.setTag t x).tag u = if u = t then x else s.tag u := by
  simp only [State.tag, State.setTag]
  by_cases h : u = t
  · subst h; simp
  · have : t.val ≠ u.val := fun e => h (Fin.ext e.symm)
    simp [h, this]

@[simp] theorem State.setTag_tag_self (t : TagId) (x : Tag) : (s.setTag t x).tag t = x := by
  simp [State.setTag_tag]

@[simp] theorem State.leaveResend_tag (t u : TagId) : (s.leaveResend t).tag u = s.tag u := rfl

theorem State.holdTag_tag (t u : TagId) :
    (s.holdTag t).tag u = if u = t then .hold (2 * s.ctl.timeout) else s.tag u := by
  simp [State.holdTag, State.setTag_tag]

theorem State.setWindow_window (i j : WinIx) (w : Window) :
    (s.setWindow i w).window j = if j = i then w else s.window j := by
  simp only [State.window, State.setWindow]
  by_cases h : j = i
  · subst h; simp
  · have : i.val ≠ j.val := fun e => h (Fin.ext e.symm)
    simp [h, this]

@[simp] theorem State.setWindow_window_self (i : WinIx) (w : Window) :
    (s.setWindow i w).window i = w := by simp [State.setWindow_window]

@[simp] theorem State.detach_window (p : Addr → Bool) (i : WinIx) :
    (s.detach p).window i = (s.window i).detachOf p := by simp [State.detach, State.window]

@[simp] theorem State.vacateAll_node (k : Addr) : s.vacateAll.node k = (s.node k).vacate := by
  simp [State.vacateAll, State.node]

@[simp] theorem State.keepRecords_node (k : Addr) : s.keepRecords.node k = (s.node k).keepReset := by
  simp [State.keepRecords, State.node]

@[simp] theorem State.holdBusyTags_tag (t : TagId) :
    s.holdBusyTags.tag t = (s.tag t).toHold (2 * s.ctl.timeout) := by
  simp [State.holdBusyTags, State.tag]

/-! ### The fields an operation sets -/

@[simp] theorem State.post_notices (n : Nat) (k : NoticeKind) (d : Word) :
    (s.post n k d).notices = s.notices.post n k d := rfl

@[simp] theorem State.complete_cmd (c : Completion) : (s.complete c).cmd = s.cmd.complete c := rfl

@[simp] theorem State.transmit_tx (f : DownFrame) : (s.transmit f).port.tx = some f := rfl

@[simp] theorem State.transmit_carrierSeen (f : DownFrame) :
    (s.transmit f).port.carrierSeen = s.port.carrierSeen := rfl

@[simp] theorem State.powerOff_pwrEn : s.powerOff.chain.pwrEn = false := rfl

@[simp] theorem State.powerOff_tx : s.powerOff.port.tx = none := rfl

@[simp] theorem State.powerOn_pwrEn : s.powerOn.chain.pwrEn = true := rfl

@[simp] theorem State.startChainTimer_settleTimer :
    s.startChainTimer.chain.settleTimer = some s.ctl.settle := rfl

end Sys2Proof.Machine
end

