-- ==== Sys2Proof/Laws/Micro.lean ====
section
/-! SUPPORT. Said once, everything a command can do to the state: each command's effect is a chain of the
small changes listed in `Micro`, so a law that each small change keeps is kept by every step. -/

namespace Sys2Proof.Machine

/-- A window record after a change that keeps its mapping, or a record that is not enabled. -/
def Window.follows (w v : Window) : Prop :=
  w.enabled = false ∨
    (w.enabled = v.enabled ∧ w.kind = v.kind ∧ w.base = v.base ∧ w.length = v.length ∧
      w.remoteBase = v.remoteBase ∧ w.node = v.node ∧ w.mirrorSegment = v.mirrorSegment ∧
      w.boundIncarnation = v.boundIncarnation ∧ (w.attached = true → v.attached = true))

/-- A record after a change that keeps its power, demand, incarnation and occupancy; a DENIED node that is
on the Admission List stays DENIED, no other becomes it, and a node that goes to an unpowered state is not
powered. -/
structure NodeFollows (s : State) (k : Addr) (r : NodeRecord) : Prop where
  powered : r.powered = (s.node k).powered
  demand : r.demand = (s.node k).demand
  incarnation : r.incarnation = (s.node k).incarnation
  occupied : (s.node k).state ≠ .vacant → r.state ≠ .vacant
  listed : (s.node k).state = .denied → r.state = .denied ∨ k ∉ s.chain.admission
  denied : r.state = .denied → (s.node k).state = .denied
  unpowered : r.state.unpowered = true → r.state = (s.node k).state ∨ r.powered = false

/-- No ATTACHED window names a node. -/
def State.unbound (s : State) (k : Addr) : Prop :=
  ∀ i, (s.window i).enabled = true → (s.window i).attached = true →
    addrOf? (s.window i).node.toNat ≠ some k

/-- What a change of other items keeps: the commands that wait, and the laws of the timing registers and of
the resend list. -/
structure Keeps (s t : State) : Prop where
  pending : t.pending = s.pending
  timing : TimingOk s.ctl → TimingOk t.ctl
  resend : ResendOk s.disp → ResendOk t.disp

/-- The small changes. -/
inductive Micro : State → State → Prop where
  | other {s t : State} (hw : t.windows = s.windows) (hq : t.queue = s.queue) (hc : t.chain = s.chain)
      (hn : t.nodes = s.nodes) (hp : t.mirror.pool = s.mirror.pool) (hcmd : t.cmd = s.cmd)
      (hno : t.notices = s.notices) (hk : Keeps s t) : Micro s t
  | notices (s : State) (q : NoticeQueue) (h : q.records.Sublist s.notices.records) :
      Micro s { s with notices := q }
  | post (s : State) (n : Nat) (k : NoticeKind) (d : Word) : Micro s (s.post n k d)
  | cmd (s : State) (p : CommandPort)
      (h : p.reservations + p.completions.length ≤ s.cmd.reservations + s.cmd.completions.length) :
      Micro s { s with cmd := p }
  | reserve (s : State) (h : s.cmd.hasRoom = true) : Micro s s.reserve
  | queue (s : State) (q : List Entry) (hl : q.length ≤ s.queue.length)
      (hh : q.countP Entry.isHost ≤ s.queue.countP Entry.isHost)
      (hj : ∀ i : WinIx, q.countP (·.isJobOf i) ≤ s.queue.countP (·.isJobOf i)) :
      Micro s { s with queue := q }
  | enqueueHost (s : State) (e : Entry)
      (h : ∀ i : WinIx, e.isJobOf i = true → s.queue.countP (·.isJobOf i) = 0) : Micro s (s.enqueueHost e)
  | enqueueMgmt (s : State) (op : Op) (k : Addr) : Micro s (s.enqueueMgmt op k)
  | chain (s : State) (c : ChainManager) (hb : c.budget = s.chain.budget)
      (hc : c.committed = s.chain.committed) (ha : c.admission = s.chain.admission) :
      Micro s { s with chain := c }
  | budget (s : State) (n : Nat) (h : s.chain.committed ≤ n) :
      Micro s { s with chain := { s.chain with budget := n } }
  | node (s : State) (k : Addr) (r : NodeRecord) (h : NodeFollows s k r) : Micro s (s.setNode k r)
  | release (s : State) (k : Addr) : Micro s (s.release k)
  | sense (s : State) (k : Addr) (i : Identity) (h : (s.node k).state = .vacant) :
      Micro s (s.modNode k fun r => r.sense i)
  | admitted (s : State) (k : Addr) (h : (s.node k).state = .sensed) : Micro s (s.admitted k)
  | admitHead (s : State) (k : Addr) (ks : List Addr) (h : s.chain.admission = k :: ks)
      (hf : s.chain.committed + s.demandOf k ≤ s.chain.budget) :
      Micro s (({ s with chain := { s.chain with admission := ks } }).admitted k)
  | deny (s : State) (k : Addr) (h : (s.node k).state = .sensed) : Micro s (s.deny k)
  | vacate (s : State) (k : Addr) (hp : (s.node k).powered = false) (ha : k ∉ s.chain.admission)
      (hw : s.unbound k) : Micro s (s.modNode k NodeRecord.vacate)
  | vacateAll (s : State) (hw : ∀ k, s.unbound k) : Micro s s.vacateAll
  | keepRecords (s : State) (h : ∀ k, (s.node k).loadOnLost = true → (s.node k).powered = false) :
      Micro s s.keepRecords
  | land (s : State) (a : Nat) (ws : List Word) :
      Micro s { s with mirror := { s.mirror with pool := Memory.storeRange s.mirror.pool a ws } }
  | windows (s : State) (ws : Vector Window 8) (h : ∀ i : WinIx, ws[i.val].follows (s.window i)) :
      Micro s { s with windows := ws }
  | enable (s : State) (i : WinIx) (h : (s.window i).enabled = false) : Micro s (s.tryEnable i)
  | reset (s : State) (pins : Pins) (cause : ResetCause) : Micro s (s.resetTo pins cause)

/-- Nodes off the Admission List, nothing else changed. -/
def State.unlist (s : State) (p : Addr → Bool) : State :=
  { s with chain := { s.chain with admission := s.chain.admission.filter fun k => !p k } }

/-- The small changes, and nodes that leave the Admission List, whose records follow later in the chain. -/
inductive Small : State → State → Prop where
  | micro {s t : State} (h : Micro s t) : Small s t
  | unlist (s : State) (p : Addr → Bool) : Small s (s.unlist p)

/-- A DENIED node that is not on the Admission List was such a node before. -/
def Tracks (s t : State) : Prop :=
  ∀ k, (t.node k).state = .denied → k ∉ t.chain.admission → (s.node k).state = .denied ∧ k ∉ s.chain.admission

/-- A chain of small changes that, as a whole, leaves no DENIED node off the Admission List. -/
structure Chain (s t : State) : Prop where
  steps : Relation.ReflTransGen Small s t
  tracks : Tracks s t

theorem Chain.refl {s : State} : Chain s s := ⟨.refl, fun _ h g => ⟨h, g⟩⟩

theorem Chain.trans {s t u : State} (h : Chain s t) (g : Chain t u) : Chain s u :=
  ⟨h.steps.trans g.steps, fun k hd hk => by
    obtain ⟨hd, hk⟩ := g.tracks k hd hk
    exact h.tracks k hd hk⟩

/-- A law that every small change keeps is kept by a chain of them. -/
theorem Chain.keeps {P : State → Prop} (hP : ∀ {s t}, Micro s t → P s → P t) {s t : State} (h : Chain s t)
    (hs : P s) (hL : ∀ s p, P s → P (s.unlist p) := by exact fun _ _ h => h) : P t := by
  replace h := h.steps
  induction h with
  | refl => exact hs
  | tail _ hm ih =>
    cases hm with
    | micro hm => exact hP hm ih
    | unlist p => exact hL _ p ih

theorem Tracks.of_eq {s t : State} (hn : ∀ k, (t.node k).state = (s.node k).state)
    (ha : t.chain.admission = s.chain.admission) : Tracks s t := fun k hd hk => ⟨hn k ▸ hd, ha ▸ hk⟩

/-- One record changed, its node not DENIED after it or as it was, and no other node off the list. -/
theorem Tracks.of_record {s t : State} (k : Addr) (hn : ∀ j, j ≠ k → (t.node j).state = (s.node j).state)
    (hk : (t.node k).state = .denied → k ∉ t.chain.admission →
      (s.node k).state = .denied ∧ k ∉ s.chain.admission)
    (ha : ∀ j, j ≠ k → j ∈ s.chain.admission → j ∈ t.chain.admission) : Tracks s t := fun j hd hj => by
  by_cases e : j = k
  · subst e; exact hk hd hj
  · exact ⟨hn j e ▸ hd, fun hm => hj (ha j e hm)⟩

theorem Micro.tracks {s t : State} (h : Micro s t) : Tracks s t := by
  cases h with
  | other _ _ hc hn => exact .of_eq (fun k => by simp only [State.node, hn]) (by rw [hc])
  | notices | post | cmd | reserve | queue | land | windows | budget => exact .of_eq (fun _ => rfl) rfl
  | enqueueHost | enqueueMgmt | enable => exact .of_eq (fun _ => by simp) (by simp)
  | chain c hb hc ha => exact .of_eq (fun _ => rfl) ha
  | node k r hr =>
    refine .of_record k (fun j e => ?_) (fun hd hk => ?_) fun _ _ h => h
    · rw [State.setNode_node, if_neg e]
    · rw [State.setNode_node, if_pos rfl] at hd; exact ⟨hr.denied hd, hk⟩
  | release k =>
    refine .of_eq (fun j => ?_) ?_
    · unfold State.release; split
      · have h1 : ∀ u : State, (u.requestService).node j = u.node j := fun u => by
          unfold State.requestService State.makeDue; split <;> rfl
        have h2 : ∀ c : ChainManager, (({ (s.modNode k fun r => { r with powered := false }) with chain := c } :
            State).node j).state = (s.node j).state := fun c => by
          show ((s.modNode k fun r => { r with powered := false }).node j).state = _
          rw [State.modNode_node]; split
          · subst_vars; rfl
          · rfl
        dsimp only; split
        · rw [h1]; exact h2 _
        · exact h2 _
      · rfl
    · unfold State.release; split
      · dsimp only; split
        · unfold State.requestService State.makeDue; split <;> rfl
        · rfl
      · rfl
  | sense k i hv =>
    refine .of_record k (fun j e => ?_) (fun hd _ => ?_) fun _ _ h => h
    · rw [State.modNode_node, if_neg e]
    · rw [State.modNode_node, if_pos rfl] at hd; cases hd
  | admitted k hv =>
    unfold State.admitted; split
    · refine .of_record k (fun j e => ?_) (fun hd _ => ?_) fun j _ hj => by simpa using hj
      · rw [State.enqueueMgmt_node, State.modNode_node, if_neg e]; rfl
      · rw [State.enqueueMgmt_node, State.modNode_node, if_pos rfl] at hd; cases hd
    · exact .of_eq (fun _ => rfl) rfl
  | admitHead k ks ha hf =>
    unfold State.admitted
    rw [if_pos (by exact hf)]
    refine .of_record k (fun j e => ?_) (fun hd _ => ?_) fun j e hj => ?_
    · rw [State.enqueueMgmt_node, State.modNode_node, if_neg e]; rfl
    · rw [State.enqueueMgmt_node, State.modNode_node, if_pos rfl] at hd; cases hd
    · rw [ha, List.mem_cons] at hj
      simpa using hj.resolve_left e
  | deny k hv =>
    refine .of_record k (fun j e => ?_) (fun _ hk => ?_) fun j _ hj => List.mem_append_left _ hj
    · show ((s.modNode k fun r => { r with state := .denied }).node j).state = _
      rw [State.modNode_node, if_neg e]
    · exact absurd (List.mem_append_right _ (List.mem_singleton.2 rfl)) hk
  | vacate k =>
    refine .of_record k (fun j e => ?_) (fun hd _ => ?_) fun _ _ h => h
    · rw [State.modNode_node, if_neg e]
    · rw [State.modNode_node, if_pos rfl] at hd; cases hd
  | vacateAll => exact fun k hd _ => by rw [State.vacateAll_node] at hd; cases hd
  | keepRecords =>
    refine fun k hd hk => ⟨?_, hk⟩
    rw [State.keepRecords_node] at hd
    simp only [NodeRecord.keepReset] at hd
    split at hd
    · cases hd
    · exact hd
  | reset pins cause =>
    have hn : ∀ k, ((s.resetTo pins cause).node k).state = .vacant :=
      show ∀ k, (State.reset.node k).state = .vacant by decide
    exact fun k hd _ => by rw [hn] at hd; cases hd

theorem Micro.once {s t : State} (h : Micro s t) : Chain s t := ⟨.single (.micro h), h.tracks⟩

/-- A fold of chains is a chain. -/
theorem chain_foldl {α : Type} {f : State → α → State} (hf : ∀ s a, Chain s (f s a)) (l : List α) :
    ∀ s, Chain s (l.foldl f s) := by
  induction l with
  | nil => exact fun s => .refl
  | cons a l ih => exact fun s => (hf s a).trans (ih _)

/-! ### Changes outside the seven blocks the laws speak of -/

theorem chain_keeps {s t : State} (hw : t.windows = s.windows) (hq : t.queue = s.queue)
    (hc : t.chain = s.chain) (hn : t.nodes = s.nodes) (hp : t.mirror.pool = s.mirror.pool)
    (hcmd : t.cmd = s.cmd) (hno : t.notices = s.notices) (hk : Keeps s t) : Chain s t :=
  (Micro.other hw hq hc hn hp hcmd hno hk).once

theorem chain_other {s t : State} (hw : t.windows = s.windows) (hq : t.queue = s.queue)
    (hc : t.chain = s.chain) (hn : t.nodes = s.nodes) (hp : t.mirror.pool = s.mirror.pool)
    (hcmd : t.cmd = s.cmd) (hno : t.notices = s.notices) (hpe : t.pending = s.pending) (hctl : t.ctl = s.ctl)
    (hd : t.disp = s.disp) : Chain s t :=
  chain_keeps hw hq hc hn hp hcmd hno ⟨hpe, fun h => hctl ▸ h, fun h => hd ▸ h⟩

/-- A change of the Dispatcher's tags and resend list that keeps its law. -/
theorem chain_disp (s : State) (d : Dispatcher) (h : ResendOk s.disp → ResendOk d) :
    Chain s { s with disp := d } :=
  chain_keeps rfl rfl rfl rfl rfl rfl rfl ⟨rfl, id, h⟩

/-- A change of the control words that keeps the law of the timing registers. -/
theorem chain_ctl (s : State) (c : Control) (h : TimingOk s.ctl → TimingOk c) : Chain s { s with ctl := c } :=
  chain_keeps rfl rfl rfl rfl rfl rfl rfl ⟨rfl, h, id⟩

/-- A tag put in its place, its request off the resend list. -/
theorem ResendOk.put {d : Dispatcher} (h : ResendOk d) (t : TagId) (x : Tag) :
    ResendOk { tags := d.tags.set t.val x, resend := d.resend.filter (· != t) } where
  once := h.once.filter _
  due u hu := by
    obtain ⟨hu, hne⟩ := List.mem_filter.mp hu
    obtain ⟨f, hf, hn⟩ := h.due u hu
    have : t.val ≠ u.val := fun e => by simp [Fin.ext e] at hne
    exact ⟨f, by simpa [this] using hf, hn⟩

/-- A tag put in the place of one that is not on the resend list. -/
theorem ResendOk.put_new {d : Dispatcher} (h : ResendOk d) (t : TagId) (x : Tag)
    (ht : ∀ f, d.tags[t.val] ≠ .busy f) : ResendOk { d with tags := d.tags.set t.val x } where
  once := h.once
  due u hu := by
    obtain ⟨f, hf, hn⟩ := h.due u hu
    have : t.val ≠ u.val := fun e => ht f (by simpa only [e] using hf)
    exact ⟨f, by simpa [this] using hf, hn⟩

/-- A BUSY tag whose timer ran, due for retransmission. -/
theorem ResendOk.append {d : Dispatcher} (h : ResendOk d) (t : TagId) (f g : Flight)
    (ht : d.tags[t.val] = .busy f) (hf : f.timer.isSome) (hg : g.timer = none) :
    ResendOk { tags := d.tags.set t.val (.busy g), resend := d.resend ++ [t] } where
  once := by
    rw [List.nodup_append]
    refine ⟨h.once, by simp, fun a ha b hb e => ?_⟩
    simp only [List.mem_singleton] at hb
    subst hb; subst e
    obtain ⟨f', hf', hn⟩ := h.due a ha
    rw [ht] at hf'; cases hf'; simp [hn] at hf
  due u hu := by
    by_cases e : t.val = u.val
    · exact ⟨g, by simp [e], hg⟩
    · rcases List.mem_append.mp hu with hu | hu
      · obtain ⟨f', hf', hn⟩ := h.due u hu
        exact ⟨f', by simpa [e] using hf', hn⟩
      · exact absurd (congrArg Fin.val (List.mem_singleton.mp hu)).symm e

theorem ResendOk.empty (v : Vector Tag 8) : ResendOk { tags := v, resend := [] } := ⟨List.nodup_nil, nofun⟩

variable (s : State)

/-- A tag put in its place, its request off the resend list. -/
theorem chain_putTag (t : TagId) (x : Tag) : Chain s ((s.setTag t x).leaveResend t) :=
  chain_disp s _ fun h => h.put t x

theorem chain_newTag (t : TagId) (x : Tag) (ht : ∀ f, s.tag t ≠ .busy f) : Chain s (s.setTag t x) :=
  chain_disp s _ fun h => h.put_new t x ht

theorem chain_holdTag (t : TagId) : Chain s (s.holdTag t) := chain_putTag s t _

theorem chain_releaseTag (t : TagId) (n : Nat) : Chain s (s.releaseTag t n) := by
  unfold State.releaseTag; split
  · exact chain_putTag s t _
  · exact chain_holdTag s t

theorem chain_transmit (f : DownFrame) : Chain s (s.transmit f) := chain_other rfl rfl rfl rfl rfl rfl rfl rfl rfl rfl

theorem chain_endAtOnce (a : Access) (st : Status) (w : Word) : Chain s (s.endAtOnce a st w) :=
  chain_other rfl rfl rfl rfl rfl rfl rfl rfl rfl rfl

theorem chain_endHeld (st : Status) (w : Word) : Chain s (s.endHeld st w) :=
  chain_other (by simp) (by simp) (by simp) (by simp) (by simp) (by simp) (by simp) (by simp) (by simp)
    (by simp)

theorem chain_setRefreshTimer (i : WinIx) (x : Option Nat) : Chain s (s.setRefreshTimer i x) :=
  chain_other rfl rfl rfl rfl rfl rfl rfl rfl rfl rfl

theorem chain_holdBusyTags : Chain s s.holdBusyTags := chain_disp s _ fun _ => .empty _

/-! ### Notices and completions -/

theorem chain_post (n : Nat) (k : NoticeKind) (d : Word) : Chain s (s.post n k d) := (Micro.post s n k d).once

theorem chain_complete (c : Completion) : Chain s (s.complete c) := by
  refine (Micro.cmd s _ ?_).once
  simp only [CommandPort.complete]
  split
  · exact Nat.le_refl _
  · simp_all; omega

theorem chain_submitAnswer (x : SubmitStatus) : Chain s (s.submitAnswer x) :=
  (Micro.cmd s { s.cmd with submitStatus := x } (Nat.le_refl _)).once

/-! ### The Chain Manager's items -/

theorem chain_chain (c : ChainManager) (hb : c.budget = s.chain.budget)
    (hc : c.committed = s.chain.committed) (ha : c.admission = s.chain.admission) :
    Chain s { s with chain := c } :=
  (Micro.chain s c hb hc ha).once

/-- A change of the Chain Manager's items, the budget account aside, and of items the laws do not speak of. -/
theorem chain_quiet {s t : State} (hw : t.windows = s.windows) (hq : t.queue = s.queue)
    (hn : t.nodes = s.nodes) (hp : t.mirror.pool = s.mirror.pool) (hcmd : t.cmd = s.cmd)
    (hno : t.notices = s.notices) (hb : t.chain.budget = s.chain.budget)
    (hc : t.chain.committed = s.chain.committed) (ha : t.chain.admission = s.chain.admission)
    (hpe : t.pending = s.pending) (hctl : t.ctl = s.ctl) (hd : t.disp = s.disp) : Chain s t :=
  (chain_chain s t.chain hb hc ha).trans (chain_other hw hq rfl hn hp hcmd hno hpe hctl hd)

theorem chain_makeDue (st : MgmtStep) : Chain s (s.makeDue st) := by
  unfold State.makeDue; split
  · exact .refl
  · exact chain_chain s _ rfl rfl rfl

theorem chain_requestService : Chain s s.requestService := chain_makeDue s _

theorem chain_makeCloseDue (k : Addr) : Chain s (s.makeCloseDue k) := by
  unfold State.makeCloseDue; split
  · exact .refl
  · exact chain_chain s _ rfl rfl rfl

theorem chain_dropSteps (p : MgmtStep → Bool) : Chain s (s.dropSteps p) := chain_chain s _ rfl rfl rfl

/-- Nodes leave the Admission List, and a chain follows after which none of them is DENIED. -/
theorem chain_leaveThen (p : Addr → Bool) {t : State} (h : Chain (s.leaveAdmission p) t)
    (hd : ∀ k, p k = true → (t.node k).state ≠ .denied) : Chain s t := by
  have hc : Chain (s.unlist p) (s.leaveAdmission p) := by
    unfold State.leaveAdmission; dsimp only; split
    · exact chain_requestService _
    · exact .refl
  have g := hc.trans h
  refine ⟨.head (.unlist s p) g.steps, fun k h1 h2 => ?_⟩
  obtain ⟨h3, h4⟩ := g.tracks k h1 h2
  refine ⟨h3, fun hm => h4 (List.mem_filter.2 ⟨hm, ?_⟩)⟩
  by_contra hp
  exact hd k (by simpa using hp) h1

theorem chain_stopNodeTimer (k : Addr) : Chain s (s.stopNodeTimer k) := chain_chain s _ rfl rfl rfl

theorem chain_startNodeTimer (k : Addr) : Chain s (s.startNodeTimer k) := chain_chain s _ rfl rfl rfl

theorem chain_startChainTimer : Chain s s.startChainTimer := chain_chain s _ rfl rfl rfl

theorem chain_stopChainTimer : Chain s s.stopChainTimer := chain_chain s _ rfl rfl rfl

theorem chain_powerOff : Chain s s.powerOff :=
  (chain_chain s { s.chain with pwrEn := false } rfl rfl rfl).trans (chain_other rfl rfl rfl rfl rfl rfl rfl rfl rfl rfl)

theorem chain_powerOn : Chain s s.powerOn :=
  (chain_chain s { s.chain with pwrEn := true } rfl rfl rfl).trans (chain_other rfl rfl rfl rfl rfl rfl rfl rfl rfl rfl)

theorem chain_attachRescan (t : BitVec 8) : Chain s (s.attachRescan t) := chain_chain s _ rfl rfl rfl

theorem chain_completeWaits (p : Addr → Bool) (st : Status) : Chain s (s.completeWaits p st) :=
  (chain_chain s { s.chain with unfenceWaits := s.chain.unfenceWaits.filter fun u => !p u.node } rfl rfl
    rfl).trans (chain_foldl (fun s _ => chain_complete s _) _ _)

theorem chain_completeRescans (st : Status) (n : Nat) : Chain s (s.completeRescans st n) :=
  (chain_chain s { s.chain with rescans := [] } rfl rfl rfl).trans
    (chain_foldl (fun s _ => chain_complete s _) _ _)

/-! ### The queue -/

/-- A map that keeps each entry's class and job. -/
theorem chain_mapQueue (f : Entry → Entry) (hh : ∀ e, (f e).isHost = e.isHost)
    (hj : ∀ e i, (f e).isJobOf i = e.isJobOf i) : Chain s { s with queue := s.queue.map f } := by
  refine (Micro.queue s _ (by simp) ?_ fun i => ?_).once
  · rw [List.countP_map]; exact Nat.le_of_eq (List.countP_congr fun e _ => by simp [hh])
  · rw [List.countP_map]; exact Nat.le_of_eq (List.countP_congr fun e _ => by simp [hj])

theorem chain_sublistQueue (q : List Entry) (h : q.Sublist s.queue) : Chain s { s with queue := q } :=
  (Micro.queue s q h.length_le (h.countP_le) fun _ => h.countP_le).once

theorem chain_modEntryOf (t : TagId) (f : Entry → Entry) (hh : ∀ e, (f e).isHost = e.isHost)
    (hj : ∀ e i, (f e).isJobOf i = e.isJobOf i) : Chain s (s.modEntryOf t f) := by
  refine chain_mapQueue s _ (fun e => ?_) (fun e i => ?_) <;> split <;> simp [hh, hj]

theorem chain_removeEntryOf (t : TagId) : Chain s (s.removeEntryOf t) :=
  chain_sublistQueue s _ List.filter_sublist

theorem chain_enqueueMgmt (op : Op) (k : Addr) : Chain s (s.enqueueMgmt op k) :=
  (Micro.enqueueMgmt s op k).once

/-- An entry that is no refresh job. -/
theorem chain_enqueueHost (e : Entry) (h : ∀ i, e.isJobOf i = false) : Chain s (s.enqueueHost e) :=
  (Micro.enqueueHost s e fun i hi => by simp [h i] at hi).once

/-! ### Records -/

/-- A change of bookkeeping fields only. -/
theorem chain_modNode (k : Addr) (f : NodeRecord → NodeRecord)
    (h : (f (s.node k)).powered = (s.node k).powered ∧ (f (s.node k)).demand = (s.node k).demand ∧
      (f (s.node k)).incarnation = (s.node k).incarnation ∧ (f (s.node k)).state = (s.node k).state) :
    Chain s (s.modNode k f) := by
  obtain ⟨h1, h2, h3, h4⟩ := h
  exact (Micro.node s k _
    ⟨h1, h2, h3, by simp [h4], fun h => .inl (h4.trans h), fun h => h4 ▸ h, fun _ => .inl h4⟩).once

/-- A change of state among the powered states, the node not on the Admission List. -/
theorem chain_moveNode (k : Addr) (f : NodeRecord → NodeRecord)
    (h : (f (s.node k)).powered = (s.node k).powered ∧ (f (s.node k)).demand = (s.node k).demand ∧
      (f (s.node k)).incarnation = (s.node k).incarnation)
    (hs : (f (s.node k)).state.unpowered = false)
    (hl : (s.node k).state = .denied → k ∉ s.chain.admission) : Chain s (s.modNode k f) := by
  obtain ⟨h1, h2, h3⟩ := h
  refine (Micro.node s k _ ⟨h1, h2, h3, fun _ hv => ?_, fun h => .inr (hl h), fun hv => ?_, fun h => ?_⟩).once
  · rw [hv] at hs; cases hs
  · rw [hv] at hs; cases hs
  · rw [hs] at h; cases h

theorem chain_doubted (k : Addr) : Chain s (s.modNode k NodeRecord.doubted) :=
  chain_modNode s k _ ⟨rfl, rfl, rfl, rfl⟩

theorem chain_release (k : Addr) : Chain s (s.release k) := (Micro.release s k).once

end Sys2Proof.Machine
end

