-- ==== Sys2Proof/Laws/Chains.lean ====
section
/-! SUPPORT. Every named operation, and every command, is a chain of small changes (`Micro`). -/

namespace Sys2Proof.Machine

variable (s : State)

theorem chain_ite {p : Prop} [Decidable p] {s a b : State} (ha : Chain s a) (hb : Chain s b) :
    Chain s (if p then a else b) := by
  split
  · exact ha
  · exact hb

/-! ### Windows -/

theorem Window.follows_refl (w : Window) : w.follows w :=
  .inr ⟨rfl, rfl, rfl, rfl, rfl, rfl, rfl, rfl, id⟩

theorem chain_setWindow (i : WinIx) (w : Window) (h : w.follows (s.window i)) :
    Chain s (s.setWindow i w) := by
  refine (Micro.windows s (s.windows.set i.val w) fun j => ?_).once
  have := State.setWindow_window s i j w
  simp only [State.window, State.setWindow] at this
  rw [this]; split
  · subst_vars; exact h
  · exact Window.follows_refl _

theorem Window.detachOf_follows (w : Window) (p : Addr → Bool) : (w.detachOf p).follows w := by
  unfold Window.detachOf; split
  · exact .inr ⟨rfl, rfl, rfl, rfl, rfl, rfl, rfl, rfl, fun h => by cases h⟩
  · exact Window.follows_refl _

theorem chain_detach (p : Addr → Bool) : Chain s (s.detach p) :=
  (Micro.windows s _ fun i => by
    simpa using Window.detachOf_follows (s.window i) p).once

/-! ### Retirement -/

theorem chain_deliverAperture (e : Entry) (r : ApertureRef) (st : Status) (ws : List Word) :
    Chain s (s.deliverAperture e r st ws) := by
  unfold State.deliverAperture; split
  · split
    · exact .refl
    · split
      · exact chain_endHeld _ _ _
      · exact .refl
  · split
    · exact chain_post _ _ _ _
    · exact .refl

theorem chain_dropStep (k : Addr) (x : NodeStep) : Chain s (s.modNode k fun r => r.dropStep x) :=
  chain_modNode s k _ (by unfold NodeRecord.dropStep; split <;> simp)

theorem chain_loadOffEnded (k : Addr) (st : Status) : Chain s (s.loadOffEnded k st) := by
  unfold State.loadOffEnded; dsimp only; split
  · exact (chain_dropStep s k _).trans (chain_release _ k)
  · exact chain_dropStep s k _

theorem chain_unfenceAnswered (k : Addr) (e : Entry) (r : CommandRef) :
    Chain s (s.unfenceAnswered k e r) := by
  unfold State.unfenceAnswered; dsimp only; split
  · rename_i hf
    split
    · exact ((chain_moveNode s k _ ⟨rfl, rfl, rfl⟩ rfl fun h => by simp [hf.1] at h).trans
        (chain_post _ _ _ _)).trans (chain_complete _ _)
    · rename_i hp
      have h1 : Chain s (s.modNode k fun x => { x with state := .sensed, step := none }) :=
        (Micro.node s k { s.node k with state := .sensed, step := none }
          { powered := rfl, demand := rfl, incarnation := rfl
            occupied := fun _ h => by cases h
            listed := fun h => by rw [hf.1] at h; cases h
            denied := fun h => by cases h
            unpowered := fun _ => .inr (by simpa using hp) }).once
      exact (h1.trans (chain_makeDue _ _)).trans (chain_quiet rfl rfl rfl rfl rfl rfl rfl rfl rfl rfl rfl rfl)
  · exact chain_complete _ _

theorem chain_deliverCommand (e : Entry) (r : CommandRef) (st : Status) (ws : List Word) :
    Chain s (s.deliverCommand e r st ws) := by
  unfold State.deliverCommand; split
  · exact (chain_loadOffEnded _ _ _).trans (chain_complete _ _)
  · split
    · exact chain_unfenceAnswered _ _ _ _
    · exact (chain_dropStep _ _ _).trans (chain_complete _ _)
  · exact chain_complete _ _

theorem chain_completeAttached (n : Nat) (st : Status) (l : List (BitVec 8)) :
    Chain s (s.completeAttached n st l) :=
  chain_foldl (fun s _ => chain_complete s _) _ _

theorem chain_deliverRefresh (r : RefreshRef) (st : Status) : Chain s (s.deliverRefresh r st) := by
  unfold State.deliverRefresh; dsimp only
  refine .trans ?_ (chain_completeAttached _ _ _ _)
  have hw : ∀ w : Window, w = { s.window r.window with generation := w.generation, stale := w.stale } →
      Chain s (s.setWindow r.window w) := fun w h => by
    refine chain_setWindow s _ w (.inr ?_)
    rw [h]; exact ⟨rfl, rfl, rfl, rfl, rfl, rfl, rfl, rfl, id⟩
  split
  · split
    · exact hw _ rfl
    · exact (hw _ rfl).trans (chain_post _ _ _ _)
  · exact .refl

theorem chain_deliver (e : Entry) (st : Status) (ws : List Word) : Chain s (s.deliver e st ws) := by
  unfold State.deliver; split
  · exact chain_deliverAperture _ _ _ _ _
  · exact chain_deliverCommand _ _ _ _ _
  · exact chain_deliverRefresh _ _ _
  · exact .refl

theorem chain_dropFlight (e : Entry) : Chain s (s.dropFlight e) := by
  unfold State.dropFlight; split
  · exact .refl
  · split
    · exact chain_holdTag _ _
    · exact (chain_holdTag _ _).trans (chain_doubted _ _)

theorem chain_retireAll (p : Entry → Bool) (st : Status) : Chain s (s.retireAll p st) :=
  (chain_sublistQueue s _ List.filter_sublist).trans
    (chain_foldl (fun s e => (chain_dropFlight s e).trans (chain_deliver _ _ _ _)) _ _)

theorem chain_fencePowering (k : Addr) : Chain s (s.fencePowering k) := by
  unfold State.fencePowering; dsimp only
  refine .trans ?_ (chain_retireAll _ _ _)
  split
  · exact (chain_stopNodeTimer _ _).trans (chain_release _ _)
  · exact chain_stopNodeTimer _ _

/-- A node off the Admission List. -/
theorem leaveAdmission_not_mem (k : Addr) (p : Addr → Bool) (hp : p k = true) :
    k ∉ (s.leaveAdmission p).chain.admission := by
  have h : (s.leaveAdmission p).chain.admission = s.chain.admission.filter fun k => !p k := by
    unfold State.leaveAdmission; dsimp only; split
    · simp only [State.requestService, State.makeDue]; split <;> rfl
    · rfl
  simp [h, hp]

theorem chain_fenceNode (k : Addr) : Chain s (s.fenceNode k) := by
  have hm : Chain s (((s.leaveAdmission (· == k)).modNode k fun r => { r with state := .fenced, step := none })) := by
    refine chain_leaveThen s (· == k)
      (chain_moveNode _ k _ ⟨rfl, rfl, rfl⟩ rfl fun _ => leaveAdmission_not_mem s k _ (by simp)) fun j hj => ?_
    rw [State.modNode_node, if_pos (by simpa using hj)]; exact fun h => NodeState.noConfusion h
  unfold State.fenceNode; split
  · exact .refl
  · exact chain_retireAll _ _ _
  · dsimp only
    refine .trans ?_ (chain_retireAll _ _ _)
    split
    · exact (hm.trans (chain_dropSteps _ _)).trans (chain_fencePowering _ _)
    · exact hm.trans (chain_dropSteps _ _)

theorem chain_endSlotWait (st : Status) : Chain s (s.endSlotWait st) := by
  unfold State.endSlotWait; split
  · exact .refl
  · split
    · dsimp only; split
      · exact (chain_endHeld _ _ _).trans (chain_post _ _ _ _)
      · exact chain_endHeld _ _ _
    · exact .refl

theorem chain_endSlotWaitOf (p : Addr → Bool) (st : Status) : Chain s (s.endSlotWaitOf p st) := by
  unfold State.endSlotWaitOf; split
  · exact .refl
  · split
    · exact chain_endSlotWait _ _
    · exact .refl

theorem chain_loadFault (k : Addr) (cause : Nat) : Chain s (s.loadFault k cause) := by
  unfold State.loadFault; split
  · exact .refl
  · exact .refl
  · exact .refl
  · dsimp only
    have h : Chain s (((s.post (addrNum k) .nodeLoadFault (BitVec.ofNat 16 cause)).modNode k fun r =>
        { r with loadFault := true }).release k) :=
      ((chain_post _ _ _ _).trans (chain_modNode _ _ _ ⟨rfl, rfl, rfl, rfl⟩)).trans (chain_release _ _)
    split
    · exact h
    · exact (h.trans (chain_fenceNode _ _)).trans (chain_endSlotWaitOf _ _ _)

/-! ### Chain Manager -/

theorem chain_decideAdmission (k : Addr) (b : Bool) : Chain s (s.decideAdmission k b) := by
  unfold State.decideAdmission; split
  · rename_i h
    dsimp only
    refine .trans ?_ (chain_completeWaits _ _ _)
    split
    · exact (Micro.admitted s k h).once
    · exact (Micro.deny s k h).once
  · exact .refl

@[simp] theorem State.admit_admission (k : Addr) : (s.admitted k).chain.admission = s.chain.admission := by
  unfold State.admitted; split
  · simp
  · rfl

theorem chain_serveAdmission (l : List Addr) :
    ∀ s : State, s.chain.admission = l → Chain s (State.serveAdmission l s).1 := by
  induction l with
  | nil => exact fun s _ => .refl
  | cons k ks ih =>
    intro s h
    unfold State.serveAdmission; split
    · split
      · rename_i hf _
        exact (Micro.admitHead s k ks h hf).once.trans (ih _ (by simp))
      · exact .refl
    · exact .refl

theorem chain_takeStep (st : MgmtStep) : Chain s (s.takeStep st) := by
  unfold State.takeStep; split
  · exact chain_enqueueMgmt _ _ _
  · exact chain_enqueueMgmt _ _ _
  · exact chain_enqueueMgmt _ _ _
  · exact chain_decideAdmission _ _ _
  · exact chain_enqueueMgmt _ _ _
  · exact .refl

theorem chain_serveSteps (l : List MgmtStep) : ∀ s : State, Chain s (State.serveSteps l s) := by
  induction l with
  | nil => exact fun s => .refl
  | cons st rest ih =>
    intro s
    have h : Chain s { s with chain := { s.chain with backlog := rest } } := chain_chain s _ rfl rfl rfl
    unfold State.serveSteps; split
    · dsimp only; split
      · split
        · exact (h.trans (chain_serveAdmission _ _ rfl)).trans (ih _)
        · exact (h.trans (chain_serveAdmission _ _ rfl)).trans (chain_quiet rfl rfl rfl rfl rfl rfl rfl rfl rfl rfl rfl rfl)
      · exact (h.trans (chain_takeStep _ _)).trans (ih _)
    · exact .refl

theorem chain_serveBacklog : Chain s s.serveBacklog := chain_serveSteps _ _

theorem HeldCycle.entry_not_job (c : HeldCycle) (i : WinIx) : c.entry.isJobOf i = false := by
  unfold HeldCycle.entry; cases c.access <;> rfl

theorem chain_queueCycle (c : HeldCycle) : Chain s (s.queueCycle c) := by
  have h : Chain s (s.enqueueHost c.entry) := chain_enqueueHost _ _ c.entry_not_job
  unfold State.queueCycle; dsimp only; split
  · exact h.trans (chain_endHeld _ _ _)
  · exact h.trans (chain_other rfl rfl rfl rfl rfl rfl rfl rfl rfl rfl)

theorem chain_serveCycle : Chain s s.serveCycle := by
  unfold State.serveCycle; split
  · exact .refl
  · split
    · exact chain_queueCycle _ _
    · exact .refl

theorem chain_serveSlots : Chain s s.serveSlots := (chain_serveBacklog s).trans (chain_serveCycle _)

theorem chain_walkAssign (k : Addr) : Chain s (s.walkAssign k) :=
  (chain_chain s { s.chain with state := .walking, pointer := some k, walkStep := some .assigning } rfl rfl rfl).trans (chain_makeDue _ _)

theorem chain_endWalk : Chain s s.endWalk :=
  ((chain_chain s { s.chain with state := .running, pointer := none, walkStep := none } rfl rfl rfl).trans
    (chain_post _ _ _ _)).trans (chain_completeRescans _ _ _)

theorem chain_reopenTail (k : Addr) : Chain s (s.reopenTail k) := by
  have h : Chain s { s with
      chain := { s.chain with state := .walking, pointer := some k, walkStep := some .opening } } :=
    chain_chain s _ rfl rfl rfl
  unfold State.reopenTail; dsimp only; split
  · exact h.trans (chain_quiet rfl rfl rfl rfl rfl rfl rfl rfl rfl rfl rfl rfl)
  · exact h.trans (chain_makeDue _ _)

theorem detach_all_unbound (k : Addr) : (s.detach fun _ => true).unbound k := by
  intro i he ha hk
  simp only [State.detach_window, Window.detachOf] at he ha hk
  by_cases h : ((s.window i).enabled && ((addrOf? (s.window i).node.toNat).map fun _ => true).getD false) = true
  · rw [if_pos h] at ha; cases ha
  · rw [if_neg h] at he hk
    simp [he, hk] at h

theorem chain_rest : Chain s { s with chain := s.chain.rest } := chain_chain s s.chain.rest rfl rfl rfl

theorem chain_teardown (st : Status) : Chain s (s.teardown st) := by
  have h1 : Chain s ((s.detach fun _ => true).vacateAll) :=
    (chain_detach s _).trans (Micro.vacateAll _ (detach_all_unbound s)).once
  have h2 := ((h1.trans (chain_retireAll _ (fun _ => true) st)).trans (chain_endSlotWait _ st)).trans
    (chain_holdBusyTags _)
  exact ((h2.trans (chain_rest _)).trans (chain_completeWaits _ _ _)).trans (chain_completeRescans _ _ _)

theorem chain_faulted : Chain s { s with chain := { s.chain with state := .faulted } } :=
  chain_chain s _ rfl rfl rfl

theorem chain_takeFault : Chain s s.takeFault :=
  (((chain_post s 0 .chainFault (BitVec.ofNat 16 s.chain.tail)).trans (chain_faulted _)).trans
    (chain_powerOff _)).trans (chain_teardown _ _)

theorem chain_lookAtFault : Chain s s.lookAtFault := by
  unfold State.lookAtFault; split
  · exact chain_takeFault _
  · exact .refl

theorem chain_rampRising : Chain s s.rampRising :=
  ((chain_chain s { s.chain with state := .ramp, rampPhase := some .rising } rfl rfl rfl).trans
    (chain_powerOn _)).trans (chain_startChainTimer _)

theorem chain_enableChain : Chain s s.enableChain := by
  unfold State.enableChain; split
  · exact ((chain_chain s { s.chain with rewalk := true } rfl rfl rfl).trans (chain_rampRising _)).trans
      (chain_lookAtFault _)
  · exact .refl

theorem chain_disableChain : Chain s s.disableChain := by
  have h : ∀ u : State, Chain s u → Chain s { u with chain := { u.chain with state := .off } } :=
    fun u hu => hu.trans (chain_chain u _ rfl rfl rfl)
  refine h (if s.chain.state = .faulted then s else s.powerOff.teardown .aborted) ?_
  split
  · exact .refl
  · exact (chain_powerOff _).trans (chain_teardown _ _)

/-! ### Loss cascade -/

theorem release_powered (k : Addr) : ((s.release k).node k).powered = false := by
  unfold State.release; split
  · dsimp only; split
    · simp only [State.requestService, State.makeDue_node]; simp [State.node, State.modNode, State.setNode]
    · simp [State.node, State.modNode, State.setNode]
  · rename_i h; simpa using h

theorem release_node (k j : Addr) :
    (s.release k).node j = if j = k then { s.node k with powered := false } else s.node j := by
  have hm := State.modNode_node s k j fun r => { r with powered := false }
  unfold State.release; split
  · dsimp only
    split
    · simp only [State.requestService, State.makeDue_node]; exact hm
    · exact hm
  · rename_i h
    split
    · subst_vars
      have : (s.node j).powered = false := by simpa using h
      rw [← this]
    · rfl

@[simp] theorem requestService_admission : s.requestService.chain.admission = s.chain.admission := by
  simp only [State.requestService, State.makeDue]; split <;> rfl

@[simp] theorem release_admission (k : Addr) : (s.release k).chain.admission = s.chain.admission := by
  unfold State.release; split
  · dsimp only; split
    · simp
    · rfl
  · rfl

theorem chain_vacateNode (k : Addr) (ha : k ∉ s.chain.admission) (hw : s.unbound k) :
    Chain s (s.vacateNode k) := by
  refine ((chain_release s k).trans (chain_stopNodeTimer _ k)).trans
    (Micro.vacate _ k ?_ ?_ ?_).once
  · exact release_powered s k
  · simpa [State.stopNodeTimer] using ha
  · intro i; simpa using hw i

theorem vacateNode_admission (k : Addr) : (s.vacateNode k).chain.admission = s.chain.admission := by
  simp [State.vacateNode, State.stopNodeTimer]

theorem vacateNode_unbound (k j : Addr) (h : s.unbound j) : (s.vacateNode k).unbound j := by
  intro i; simpa [State.vacateNode] using h i

theorem chain_vacateThose (p : Addr → Bool) (ha : ∀ k, p k = true → k ∉ s.chain.admission)
    (hw : ∀ k, p k = true → s.unbound k) : Chain s (s.vacateThose p) := by
  suffices h : ∀ (l : List Addr), (∀ k ∈ l, p k = true) → ∀ s : State,
      (∀ k, p k = true → k ∉ s.chain.admission) → (∀ k, p k = true → s.unbound k) →
      Chain s (l.foldl State.vacateNode s) from
    h _ (fun k hk => (List.mem_filter.mp hk).2) s ha hw
  intro l
  induction l with
  | nil => exact fun _ s _ _ => .refl
  | cons k l ih =>
    intro hl s ha hw
    have hk := hl k (by simp)
    refine (chain_vacateNode s k (ha k hk) (hw k hk)).trans
      (ih (fun j hj => hl j (by simp [hj])) _ ?_ ?_)
    · intro j hj; rw [vacateNode_admission]; exact ha j hj
    · intro j hj; exact vacateNode_unbound s k j (hw j hj)

theorem vacateThose_node (p : Addr → Bool) (k : Addr) (hp : p k = true) :
    ((s.vacateThose p).node k).state = .vacant := by
  have h1 : ∀ (u : State) (j : Addr), ((u.vacateNode j).node k).state = if k = j then .vacant else (u.node k).state := by
    intro u j
    unfold State.vacateNode
    rw [State.modNode_node]
    split
    · rfl
    · rw [show ((u.release j).stopNodeTimer j).node k = (u.release j).node k from rfl, release_node]
      rename_i hne; rw [if_neg hne]
  have h2 : ∀ (l : List Addr) (u : State), ((u.node k).state = .vacant ∨ k ∈ l) →
      ((l.foldl State.vacateNode u).node k).state = .vacant := by
    intro l
    induction l with
    | nil => intro u h; exact h.resolve_right (List.not_mem_nil)
    | cons j l ih =>
      intro u h
      refine ih _ ?_
      rw [h1]
      by_cases e : k = j
      · left; rw [if_pos e]
      · rw [if_neg e]
        rcases h with h | h
        · exact .inl h
        · exact .inr ((List.mem_cons.1 h).resolve_left e)
  exact h2 _ s (.inr (List.mem_filter.2 ⟨by simp [allAddrs], hp⟩))

theorem chain_holdPings (p : Addr → Bool) : Chain s (s.holdPings p) :=
  chain_foldl (fun s t => chain_holdTag s t) _ _

theorem detach_unbound (p : Addr → Bool) (k : Addr) (hp : p k = true) : (s.detach p).unbound k := by
  intro i he ha hk
  simp only [State.detach_window, Window.detachOf] at he ha hk
  by_cases h : ((s.window i).enabled && ((addrOf? (s.window i).node.toNat).map p).getD false) = true
  · rw [if_pos h] at ha; cases ha
  · rw [if_neg h] at he hk
    simp [he, hk, hp] at h

theorem chain_loseFrom (k : Addr) : Chain s (s.loseFrom k) := by
  have h1 : Chain s (((s.post (addrNum k) .nodeLost (BitVec.ofNat 16 (s.chain.tail - k.val))).detach
      (fromAddr k)).dropSteps (MgmtStep.at (fromAddr k))) :=
    ((chain_post s _ _ _).trans (chain_detach _ _)).trans (chain_dropSteps _ _)
  refine ((((h1.trans (chain_leaveThen _ (fromAddr k) (chain_vacateThose _ (fromAddr k) ?_ ?_) ?_)).trans
    (chain_retireAll _ _ _)).trans (chain_holdPings _ _)).trans (chain_endSlotWaitOf _ _ _)).trans
    (chain_completeWaits _ _ _)
  · exact fun j hj => leaveAdmission_not_mem _ j _ hj
  · intro j hj i
    simpa using detach_unbound (s.post (addrNum k) .nodeLost (BitVec.ofNat 16 (s.chain.tail - k.val))) _ j hj i
  · exact fun j hj => by rw [vacateThose_node _ _ j hj]; decide

theorem chain_rampDark : Chain s s.rampDark :=
  ((chain_chain s { s.chain with state := .ramp, rampPhase := some .dark, rewalk := s.ctl.autoRewalk } rfl rfl rfl).trans (chain_powerOff _)).trans (chain_startChainTimer _)

theorem chain_closeBehind (j : Addr) : Chain s (s.closeBehind j) := by
  unfold State.closeBehind; dsimp only
  refine .trans ?_ (chain_makeCloseDue _ _)
  split
  · exact chain_quiet rfl rfl rfl rfl rfl rfl rfl rfl rfl rfl rfl rfl
  · exact (chain_chain s { s.chain with state := .running } rfl rfl rfl).trans (chain_completeRescans _ _ _)

theorem chain_cutTail (k : Addr) : Chain s (s.cutTail k) := chain_chain s _ rfl rfl rfl

theorem chain_cascade (k : Addr) : Chain s (s.cascade k) := by
  unfold State.cascade; split
  · exact .refl
  · have h : Chain s ((s.loseFrom k).cutTail k) := (chain_loseFrom s k).trans (chain_cutTail _ k)
    dsimp only; split
    · exact h.trans (chain_rampDark _)
    · exact h.trans (chain_closeBehind _ _)

theorem chain_reportLoss (n : Nat) : Chain s (s.reportLoss n) := by
  unfold State.reportLoss; split
  · exact .refl
  · exact chain_cascade _ _

/-! ### Outcomes -/

theorem chain_walkSettling : Chain s { s with chain := { s.chain with walkStep := some .settling } } :=
  chain_chain s _ rfl rfl rfl

theorem chain_openDone (k : Addr) : Chain s (s.openDone k) := by
  have h : ∀ b : Bool, Chain s { s with chain := { s.chain with tailGateOpen := b } } :=
    fun b => chain_chain s _ rfl rfl rfl
  unfold State.openDone; dsimp only
  split <;> split
  · exact ((h true).trans (chain_walkSettling _)).trans (chain_startChainTimer _)
  · exact h true
  · exact (chain_walkSettling s).trans (chain_startChainTimer _)
  · exact .refl

theorem chain_closeDone : Chain s s.closeDone := by
  unfold State.closeDone; split
  · exact (chain_chain s { s.chain with darkWait := some .dark } rfl rfl rfl).trans (chain_startChainTimer _)
  · exact .refl

theorem chain_loadOnDone (k : Addr) : Chain s (s.loadOnDone k) := by
  unfold State.loadOnDone; split
  · exact (chain_modNode s k _ ⟨rfl, rfl, rfl, rfl⟩).trans (chain_startNodeTimer _ _)
  · exact .refl

theorem chain_confirmDone (k : Addr) : Chain s (s.confirmDone k) := by
  unfold State.confirmDone; split
  · rename_i h
    exact (chain_moveNode s k _ ⟨rfl, rfl, rfl⟩ rfl fun hd => by simp [h.1] at hd).trans (chain_post _ _ _ _)
  · exact .refl

theorem chain_mgmtDone (op : Op) (k : Addr) : Chain s (s.mgmtDone op k) := by
  unfold State.mgmtDone; split
  · exact chain_openDone _ _
  · exact chain_closeDone _
  · exact chain_loadOnDone _ _
  · exact chain_confirmDone _ _
  · exact .refl

theorem chain_mgmtRefused (op : Op) (k : Addr) : Chain s (s.mgmtRefused op k) := by
  unfold State.mgmtRefused; split
  · exact chain_openDone _ _
  · exact chain_closeDone _
  · exact chain_loadFault _ _ _
  · exact .refl

theorem chain_mgmtFailed (op : Op) (k : Addr) : Chain s (s.mgmtFailed op k) := by
  unfold State.mgmtFailed; split
  · exact chain_endWalk _
  · exact chain_cascade _ _

theorem chain_countFail (k : Addr) : Chain s (s.countFail k) := by
  have h : Chain s (s.modNode k fun r => { r with failCount := min 7 ((s.node k).failCount + 1) }) :=
    chain_modNode s k _ ⟨rfl, rfl, rfl, rfl⟩
  unfold State.countFail; dsimp only; split
  · rename_i ho
    exact (h.trans (chain_moveNode _ k _ ⟨rfl, rfl, rfl⟩ rfl fun hd => by simp [ho.1] at hd)).trans
      (chain_post _ _ _ _)
  · exact h

theorem chain_pingFailed (k : Addr) : Chain s (s.pingFailed k) := by
  unfold State.pingFailed; split
  · exact chain_countFail _ _
  · exact chain_cascade _ _

theorem chain_entryFailed (t : TagId) (e : Entry) : Chain s (s.entryFailed t e) := by
  unfold State.entryFailed; split
  · exact (chain_removeEntryOf _ _).trans (chain_mgmtFailed _ _ _)
  · exact chain_cascade _ _
  · exact ((chain_removeEntryOf _ _).trans (chain_deliver _ _ _ _)).trans (chain_countFail _ _)

theorem chain_finalFailure (t : TagId) (f : Flight) : Chain s (s.finalFailure t f) := by
  unfold State.finalFailure; split
  · exact ((chain_holdTag _ _).trans (chain_doubted _ _)).trans (chain_pingFailed _ _)
  · split
    · exact chain_holdTag _ _
    · exact (chain_dropFlight _ _).trans (chain_entryFailed _ _ _)

/-! ### Dispatcher -/

theorem chain_sendAck (k : Addr) : Chain s (s.sendAck k) :=
  (chain_modNode s k _ ⟨rfl, rfl, rfl, rfl⟩).trans (chain_transmit _ _)

theorem chain_sendAgain (t : TagId) (f : DownFrame) : Chain s (s.sendAgain t f) := by
  refine .trans ?_ (chain_transmit _ _)
  unfold State.countAttempt; split
  · dsimp only; split
    · exact (chain_putTag s t _).trans (chain_modEntryOf ((s.setTag t _).leaveResend t) t
        (fun e => { e with attempts := e.attempts + 1 }) (fun _ => rfl) fun _ _ => rfl)
    · exact chain_putTag s t _
  · exact chain_disp s _ fun h => ⟨h.once.filter _, fun u hu => h.due u (List.mem_filter.mp hu).1⟩

theorem chain_sendPing (k : Addr) (t : TagId) (ht : s.tag t = .free) : Chain s (s.sendPing k t) :=
  ((chain_newTag s t _ fun f e => by rw [ht] at e; cases e).trans
    (chain_modNode _ k _ ⟨rfl, rfl, rfl, rfl⟩)).trans (chain_transmit _ _)

theorem firstEligible_get (l : List Entry) :
    ∀ seen i e, s.firstEligible seen l = some (i, e) → l[i]? = some e := by
  induction l with
  | nil => intro seen i e h; simp [State.firstEligible] at h
  | cons a l ih =>
    intro seen i e h
    unfold State.firstEligible at h; split at h
    · simp only [Option.some.injEq, Prod.mk.injEq] at h
      obtain ⟨rfl, rfl⟩ := h; rfl
    · simp only [Option.map_eq_some_iff, Prod.exists, Prod.mk.injEq] at h
      obtain ⟨j, b, hj, rfl, rfl⟩ := h
      simpa using ih _ _ _ hj

theorem countP_set_of_eq {α : Type} (p : α → Bool) (l : List α) :
    ∀ (i : Nat) (a b : α), l[i]? = some a → p b = p a → (l.set i b).countP p = l.countP p := by
  induction l with
  | nil => intro i a b h; simp at h
  | cons x l ih =>
    intro i a b h hp
    cases i with
    | zero => simp at h; subst h; simp [List.countP_cons, hp]
    | succ i => simp only [List.set_cons_succ, List.countP_cons]; rw [ih i a b (by simpa using h) hp]

theorem formed_origin (e : Entry) : (s.formed e).origin = e.origin := by
  unfold State.formed; split <;> rfl

theorem isHost_congr {e f : Entry} (h : e.origin = f.origin) : e.isHost = f.isHost := by
  simp [Entry.isHost, h]

theorem isJobOf_congr {e f : Entry} (h : e.origin = f.origin) (i : WinIx) : e.isJobOf i = f.isJobOf i := by
  simp [Entry.isJobOf, h]

/-- An entry put in the place of one of the same origin. -/
theorem chain_setEntry (i : Nat) (e e' : Entry) (h : s.queue[i]? = some e) (ho : e'.origin = e.origin) :
    Chain s { s with queue := s.queue.set i e' } :=
  (Micro.queue s _ (by simp) (Nat.le_of_eq (countP_set_of_eq _ _ i e e' h (isHost_congr ho))) fun j =>
    Nat.le_of_eq (countP_set_of_eq _ _ i e e' h (isJobOf_congr ho j))).once

theorem chain_holdsTag (k : Addr) (t : Option TagId) :
    Chain s (s.modNode k fun r => { r with inFlightTag := t }) :=
  chain_modNode s k _ ⟨rfl, rfl, rfl, rfl⟩

theorem chain_sendEntry (i : Nat) (e : Entry) (t : TagId) (h : s.queue[i]? = some e)
    (ht : s.tag t = .free) : Chain s (s.sendEntry i e t) := by
  let e' := s.formed e
  have key : ∀ u : State, Chain s u → ∀ f,
      Chain s ((if e'.op = .assign then u else
        u.modNode e'.node fun r => { r with inFlightTag := some t }).transmit f) := by
    intro u hu f
    refine .trans ?_ (chain_transmit _ _)
    exact chain_ite hu (hu.trans (chain_holdsTag _ _ _))
  have hq : ∀ x e', e'.origin = e.origin → Chain s { s.setTag t x with queue := s.queue.set i e' } :=
    fun x e' ho => (chain_newTag s t x fun f e => by rw [ht] at e; cases e).trans (chain_setEntry (s.setTag t x) i e e' h ho)
  let bit := s.bitFor e'.op e'.node
  let flight : Flight :=
    { holder := .entry, node := e'.node, kind := e'.op, sentBit := bit, synthAttempts := 0,
      timer := s.responseTimer }
  let sent : Entry := { e' with state := .inFlight, tag := some t, sentBit := some bit, attempts := 1 }
  unfold State.sendEntry
  exact key _ (hq (.busy flight) sent (formed_origin s e)) (e'.frame t bit)

theorem freeTag_free {t : TagId} (h : s.freeTag = some t) : s.tag t = .free := by
  have := List.find?_some h
  simpa using this

/-- A claim that takes a tag takes a FREE one. -/
theorem claim_free {c : Claim} {t : TagId} (h : s.claim = some c)
    (hc : (∃ k, c = .ping k t) ∨ ∃ i e, c = .entry i e t) : s.tag t = .free := by
  unfold State.claim at h
  split at h
  · cases h; rcases hc with ⟨_, hc⟩ | ⟨_, _, hc⟩ <;> cases hc
  · split at h
    · cases h; rcases hc with ⟨_, hc⟩ | ⟨_, _, hc⟩ <;> cases hc
    · split at h
      · cases h
      · rename_i u hu
        have hf := freeTag_free s hu
        split at h
        · cases h; rcases hc with ⟨_, hc⟩ | ⟨_, _, hc⟩ <;> cases hc
          exact hf
        · obtain ⟨p, -, hp⟩ := Option.map_eq_some_iff.mp h
          subst hp
          rcases hc with ⟨_, hc⟩ | ⟨_, _, hc⟩ <;> cases hc
          exact hf

theorem claim_entry {i : Nat} {e : Entry} {t : TagId} (h : s.claim = some (.entry i e t)) :
    s.queue[i]? = some e := by
  unfold State.claim at h
  split at h
  · cases h
  · split at h
    · cases h
    · split at h
      · cases h
      · split at h
        · cases h
        · simp only [Option.map_eq_some_iff, Prod.exists, Claim.entry.injEq] at h
          obtain ⟨j, b, hj, rfl, rfl, -⟩ := h
          exact firstEligible_get s _ _ _ _ hj

theorem chain_dispatch : Chain s s.dispatch := by
  unfold State.dispatch; split
  · split
    · exact .refl
    · rename_i c hc
      cases c with
      | ack k => exact chain_sendAck _ _
      | resend t f => exact chain_sendAgain _ _ _
      | ping k t => exact chain_sendPing _ _ _ (claim_free s hc (.inl ⟨_, rfl⟩))
      | entry i e t =>
        exact chain_sendEntry _ _ _ _ (claim_entry s hc) (claim_free s hc (.inr ⟨_, _, rfl⟩))
  · exact .refl

theorem chain_finish : Chain s s.finish := (chain_serveSlots s).trans (chain_dispatch _)

/-! ### Mirror -/

theorem Entry.refresh_class {e e' : Entry} {r r' : RefreshRef} (h : e.origin = .refresh r)
    (h' : e'.origin = .refresh r') (hw : r'.window = r.window) :
    e'.isHost = e.isHost ∧ ∀ j, e'.isJobOf j = e.isJobOf j := by
  constructor
  · simp only [Entry.isHost, h, h']; rfl
  · intro j; simp only [Entry.isJobOf, h, h', hw]

theorem Entry.attach_class (e : Entry) (i : WinIx) (t : BitVec 8) :
    (e.attach i t).isHost = e.isHost ∧ ∀ j, (e.attach i t).isJobOf j = e.isJobOf j := by
  unfold Entry.attach; split
  · split
    · rename_i h _; exact Entry.refresh_class h rfl rfl
    · simp
  · simp

theorem Entry.advance_class (e : Entry) (n : Nat) :
    (e.advance n).isHost = e.isHost ∧ ∀ j, (e.advance n).isJobOf j = e.isJobOf j := by
  unfold Entry.advance; split
  · rename_i h; exact Entry.refresh_class h rfl rfl
  · simp [Entry.isHost, Entry.isJobOf, Entry.rewait]

theorem chain_newJob (i : WinIx) (k : Addr) (l : List (BitVec 8))
    (h : s.queue.any (·.isJobOf i) = false) : Chain s (s.enqueueHost (s.newJob i k l)) := by
  refine (Micro.enqueueHost s _ fun j hj => ?_).once
  have : i = j := by simpa [State.newJob, freshEntry, Entry.isJobOf] using hj
  subst this
  simpa [List.countP_eq_zero] using h

theorem refreshCase_create {i : WinIx} {k : Addr} (h : s.refreshCase i = .create k) :
    s.queue.any (·.isJobOf i) = false := by
  unfold State.refreshCase at h; dsimp only at h
  split at h
  · cases h
  · rename_i hn; simpa using hn

theorem chain_refreshRequest (i : WinIx) : Chain s (s.refreshRequest i) := by
  unfold State.refreshRequest; split
  · rename_i h; exact chain_newJob _ _ _ _ (refreshCase_create s h)
  · exact .refl

theorem chain_refreshCommand (i : WinIx) (t : BitVec 8) : Chain s (s.refreshCommand i t) := by
  unfold State.refreshCommand; split
  · exact chain_mapQueue s _ (fun e => (e.attach_class i t).1) fun e => (e.attach_class i t).2
  · exact chain_complete _ _
  · rename_i h; exact chain_newJob _ _ _ _ (refreshCase_create s h)

theorem chain_attentionRefresh (k : Addr) : Chain s (s.attentionRefresh k) :=
  chain_foldl (fun s i => chain_refreshRequest s i) _ _

theorem chain_land (r : RefreshRef) (ws : List Word) : Chain s (s.land r ws) := by
  unfold State.land; split
  · exact (Micro.land s _ _).once
  · exact .refl

theorem chain_jobData (t : TagId) (e : Entry) (r : RefreshRef) (ws : List Word) :
    Chain s (s.jobData t e r ws) := by
  have h := chain_land s r ws
  unfold State.jobData; dsimp only; split
  · split
    · exact h.trans (chain_modEntryOf _ _ _ (fun x => (x.advance_class _).1) fun x => (x.advance_class _).2)
    · exact (h.trans (chain_removeEntryOf _ _)).trans (chain_deliver _ _ _ _)
  · exact (h.trans (chain_removeEntryOf _ _)).trans (chain_deliver _ _ _ _)

/-! ### Answers -/

theorem chain_takeAnswer (t : TagId) (f : Flight) : Chain s (s.takeAnswer t f) :=
  (chain_releaseTag s t _).trans (chain_modNode _ _ _ ⟨rfl, rfl, rfl, rfl⟩)

theorem chain_entryDone (t : TagId) (e : Entry) (ws : List Word) : Chain s (s.entryDone t e ws) := by
  unfold State.entryDone; split
  · exact (chain_removeEntryOf _ _).trans (chain_mgmtDone _ _ _)
  · exact (chain_removeEntryOf _ _).trans (chain_deliver _ _ _ _)

theorem chain_pingDone (k : Addr) : Chain s (s.pingDone k) := by
  unfold State.pingDone; split
  · rename_i h
    exact (chain_moveNode s k _ ⟨rfl, rfl, rfl⟩ rfl fun hd => by simp [h] at hd).trans (chain_post _ _ _ _)
  · exact .refl

theorem chain_stray (t : TagId) : Chain s (s.stray t) := chain_post _ _ _ _

theorem chain_receiveDone (src : BitVec 5) (t : TagId) (b : Bool) : Chain s (s.receiveDone src t b) := by
  unfold State.receiveDone; split
  · exact chain_stray _ _
  · split
    · split
      · exact (chain_takeAnswer _ _ _).trans (chain_pingDone _ _)
      · split
        · exact chain_stray _ _
        · exact (chain_takeAnswer _ _ _).trans (chain_entryDone _ _ _ _)
    · exact chain_stray _ _

theorem chain_receiveData (src : BitVec 5) (t : TagId) (b : Bool) (ws : List Word) :
    Chain s (s.receiveData src t b ws) := by
  unfold State.receiveData; split
  · split
    · split
      · exact (chain_takeAnswer _ _ _).trans (chain_jobData _ _ _ _ _)
      · exact (chain_takeAnswer _ _ _).trans (chain_entryDone _ _ _ _)
    · exact chain_stray _ _
  · exact chain_stray _ _

theorem chain_takeBusy (t : TagId) (f : Flight) : Chain s (s.takeBusy t f) :=
  (chain_putTag s t _).trans
    (chain_modEntryOf _ _ _ (fun _ => rfl) fun _ _ => rfl)

theorem chain_takeRefusal (t : TagId) (f : Flight) (e : Entry) (r : Reason) :
    Chain s (s.takeRefusal t f e r) := by
  have h : Chain s ((s.releaseTag t (s.attemptsOf t f)).modNode f.node NodeRecord.refused) :=
    (chain_releaseTag s t _).trans (chain_modNode _ _ _ ⟨rfl, rfl, rfl, rfl⟩)
  unfold State.takeRefusal; dsimp only; split
  · exact (h.trans (chain_removeEntryOf _ _)).trans (chain_mgmtRefused _ _ _)
  · exact (h.trans (chain_removeEntryOf _ _)).trans (chain_deliver _ _ _ _)

theorem chain_receiveRefuse (src : BitVec 5) (t : TagId) (b : Bool) (r : Reason) :
    Chain s (s.receiveRefuse src t b r) := by
  unfold State.receiveRefuse; split
  · split
    · split
      · exact chain_takeBusy _ _ _
      · exact chain_takeRefusal _ _ _ _ _
    · exact chain_stray _ _
  · exact chain_stray _ _

theorem chain_walkAfterSense (k : Addr) : Chain s (s.walkAfterSense k) := by
  unfold State.walkAfterSense; split
  · exact (chain_chain s { s.chain with walkStep := some .opening } rfl rfl rfl).trans (chain_makeDue _ _)
  · exact (chain_serveSlots _).trans (chain_endWalk _)

theorem chain_newTail (n : Nat) :
    Chain s { s with chain := { s.chain with tail := n, tailGateOpen := false } } :=
  chain_chain s _ rfl rfl rfl

theorem chain_senseTaken (k : Addr) (i : Identity) : Chain s (s.senseTaken k i) := by
  unfold State.senseTaken; split
  · rename_i h
    exact ((((Micro.sense s k i h).once.trans (chain_post _ _ _ _)).trans (chain_newTail _ _)).trans
      (chain_makeDue _ _)).trans (chain_walkAfterSense _ _)
  · exact .refl

theorem chain_receiveSense (src : BitVec 5) (t : TagId) (b : Bool) (i : Identity) :
    Chain s (s.receiveSense src t b i) := by
  unfold State.receiveSense; split
  · split
    · exact ((chain_releaseTag s t _).trans (chain_removeEntryOf _ _)).trans (chain_senseTaken _ _ _)
    · exact chain_stray _ _
  · exact chain_stray _ _

theorem chain_actOn (k : Addr) (c : BitVec 8) : Chain s (s.actOn k c) := by
  unfold State.actOn; split
  · exact chain_reportLoss _ _
  · split
    · exact chain_loadFault _ _ _
    · dsimp only; split
      · exact (chain_post _ _ _ _).trans (chain_attentionRefresh _ _)
      · exact chain_post _ _ _ _

theorem chain_takeAttn (k : Addr) (c : BitVec 8) (b : Bool) : Chain s (s.takeAttn k c b) := by
  have h : Chain s (s.modNode k fun r => { r with attnToggle := some b, ackOwed := true }) :=
    chain_modNode s k _ ⟨rfl, rfl, rfl, rfl⟩
  unfold State.takeAttn; dsimp only; split
  · exact h
  · exact h.trans (chain_actOn _ _ _)

theorem chain_receiveAttn (src : BitVec 5) (c : BitVec 8) (b : Bool) : Chain s (s.receiveAttn src c b) := by
  unfold State.receiveAttn; split
  · exact .refl
  · split
    · exact chain_takeAttn _ _ _ _
    · exact .refl

theorem chain_receiveHello : Chain s s.receiveHello := by
  unfold State.receiveHello; split
  · exact .refl
  · split
    · exact chain_walkAssign _ _
    · exact .refl

theorem chain_fromChain {f : State → State} (hf : ∀ s, Chain s (f s)) : Chain s (s.fromChain f) := by
  unfold State.fromChain; split
  · exact (hf s).trans (chain_finish _)
  · exact .refl

theorem chain_deliverFrame (f : UpFrame) : Chain s (s.deliverFrame f) := by
  unfold State.deliverFrame; split
  · exact chain_receiveData _ _ _ _ _
  · exact chain_receiveDone _ _ _ _
  · exact chain_receiveRefuse _ _ _ _ _
  · exact chain_receiveSense _ _ _ _ _
  · exact chain_receiveAttn _ _ _ _
  · exact chain_receiveHello _

theorem chain_receiveWire (w : List Word) (b : Bool) : Chain s (s.receiveWire w b) := by
  unfold State.receiveWire; split
  · exact .refl
  · exact chain_fromChain _ fun s => chain_deliverFrame s _

/-! ### Aperture and windows -/

theorem chain_refuseAccess (a : Access) (o : BitVec 10) (n : Nat) (st : Status) :
    Chain s (s.refuseAccess a o n st) := (chain_endAtOnce _ _ _ _).trans (chain_post _ _ _ _)

theorem chain_lbi (l : Lbi) : Chain s { s with lbi := l } := chain_other rfl rfl rfl rfl rfl rfl rfl rfl rfl rfl

theorem chain_holdCycle (i : WinIx) (k : Addr) (a : Access) (o : BitVec 10) (r : Word) :
    Chain s (s.holdCycle i k a o r) := by
  unfold State.holdCycle; dsimp only
  exact (chain_lbi s _).trans (chain_serveCycle _)

theorem chain_accessThrough (i : WinIx) (k : Addr) (a : Access) (o : BitVec 10) :
    Chain s (s.accessThrough i k a o) := by
  unfold State.accessThrough; dsimp only; split
  · exact chain_refuseAccess _ _ _ _ _
  · split
    · exact chain_endAtOnce _ _ _ _
    · exact (chain_holdCycle _ _ _ _ _ _).trans (chain_finish _)

theorem chain_apertureAccess (o : BitVec 10) (a : Access) : Chain s (s.apertureAccess o a) := by
  unfold State.apertureAccess; split
  · exact chain_refuseAccess _ _ _ _ _
  · split
    · exact chain_refuseAccess _ _ _ _ _
    · exact chain_accessThrough _ _ _ _ _

theorem Entry.abandon_class (e : Entry) (h : Nat) :
    (e.abandon h).isHost = e.isHost ∧ ∀ j, (e.abandon h).isJobOf j = e.isJobOf j := by
  unfold Entry.abandon; split
  · split
    · rename_i he _
      constructor
      · simp only [Entry.isHost, he]; rfl
      · intro j; simp only [Entry.isJobOf, he]
    · simp
  · simp

theorem chain_abandonCycle (c : HeldCycle) : Chain s (s.abandonCycle c) := by
  unfold State.abandonCycle; dsimp only
  exact ((chain_endHeld s _ _).trans (chain_post _ _ _ _)).trans
    (chain_mapQueue _ _ (fun e => (e.abandon_class _).1) fun e => (e.abandon_class _).2)

theorem chain_expireHold : Chain s s.expireHold := by
  unfold State.expireHold; split
  · exact .refl
  · split
    · exact chain_endSlotWait _ _
    · exact chain_abandonCycle _ _

theorem chain_disableWindow (i : WinIx) : Chain s (s.disableWindow i) :=
  ((chain_setWindow s i _ (.inl rfl)).trans (chain_setRefreshTimer _ _ _)).trans (chain_retireAll _ _ _)

theorem Window.writeField_enabled (w : Window) (n : Fin 8) (v : Word) :
    (w.writeField n v).enabled = w.enabled := by
  unfold Window.writeField; split <;> rfl

theorem chain_windowWrite (i : WinIx) (n : Fin 8) (v : Word) : Chain s (s.windowWrite i n v) := by
  unfold State.windowWrite; dsimp only; split
  · split
    · exact (chain_disableWindow _ _).trans (chain_finish _)
    · exact .refl
  · rename_i h
    have he : ((s.window i).writeField n v).enabled = false := by
      rw [Window.writeField_enabled]; simpa using h
    have hs := chain_setWindow s i _ (.inl he)
    split
    · exact hs.trans (Micro.enable _ i (by simpa using he)).once
    · exact hs

/-! ### Command Port -/

theorem chain_stagingWrite (n : Nat) (v : Word) : Chain s (s.stagingWrite n v) :=
  (Micro.cmd s { s.cmd with staging := s.cmd.staging.write n v } (Nat.le_refl _)).once

theorem chain_popCompletion : Chain s s.popCompletion :=
  (Micro.cmd s { s.cmd with completions := s.cmd.completions.tail } (by simp)).once

theorem chain_popNotice : Chain s s.popNotice :=
  (Micro.notices s { s.notices with records := s.notices.records.tail } (List.tail_sublist _)).once

theorem chain_transferAction (c : CommandRef) (op : Op) (k : Addr) (a : Word) (n : Nat) (d : List Word)
    (t : State) (h : s.transferAction c op k a n d = some t) : Chain s t := by
  unfold State.transferAction at h; dsimp only at h
  split at h
  · split at h
    · cases h; exact chain_enqueueHost _ _ fun _ => rfl
    · cases h
  · cases h; exact chain_complete _ _

theorem chain_powerOffAction (c : CommandRef) (k : Addr) (t : State)
    (h : s.powerOffAction c k = some t) : Chain s t := by
  unfold State.powerOffAction at h; dsimp only at h
  split at h
  · cases h; exact chain_complete _ _
  · split at h
    · cases h; exact chain_complete _ _
    · split at h
      · cases h
        exact (chain_enqueueHost s _ fun _ => rfl).trans (chain_modNode _ _ _ ⟨rfl, rfl, rfl, rfl⟩)
      · cases h

theorem chain_fenceAction (c : CommandRef) (k : Addr) (b : Bool) (t : State)
    (h : s.fenceAction c k b = some t) : Chain s t := by
  unfold State.fenceAction at h; dsimp only at h
  have hf := (chain_fenceNode s k).trans (chain_completeWaits _ (· == k) .nodeNotReady)
  split at h
  · cases h; exact chain_complete _ _
  · split at h
    · exact hf.trans (chain_powerOffAction _ _ _ _ h)
    · cases h; exact hf.trans (chain_complete _ _)

theorem chain_unfenceAction (c : CommandRef) (k : Addr) (t : State)
    (h : s.unfenceAction c k = some t) : Chain s t := by
  unfold State.unfenceAction at h; dsimp only at h
  split at h
  · rename_i hf
    split at h
    · split at h
      · cases h
        exact (chain_modNode s k _ ⟨rfl, rfl, rfl, rfl⟩).trans (chain_enqueueHost _ _ fun _ => rfl)
      · cases h
    · rename_i hp
      cases h
      have h1 : Chain s (s.modNode k fun x => { x with loadFault := false, state := .sensed }) :=
        (Micro.node s k { s.node k with loadFault := false, state := .sensed }
          { powered := rfl, demand := rfl, incarnation := rfl
            occupied := fun _ h => by cases h
            listed := fun h => by rw [hf.1] at h; cases h
            denied := fun h => by cases h
            unpowered := fun _ => .inr (by simpa using hp) }).once
      exact (h1.trans (chain_makeDue _ _)).trans (chain_quiet rfl rfl rfl rfl rfl rfl rfl rfl rfl rfl rfl rfl)
  · cases h; exact chain_complete _ _

theorem chain_rescanAction (t : BitVec 8) : Chain s (s.rescanAction t) := by
  unfold State.rescanAction; split
  · exact chain_complete _ _
  · exact chain_complete _ _
  · exact chain_attachRescan _ _
  · exact chain_attachRescan _ _
  · split
    · exact chain_complete _ _
    · split
      · exact (chain_attachRescan _ _).trans (chain_walkAssign _ _)
      · split
        · exact (chain_attachRescan _ _).trans (chain_reopenTail _ _)
        · exact chain_complete _ _

theorem chain_cancelAction (t u : BitVec 8) : Chain s (s.cancelAction t u) := by
  unfold State.cancelAction; split
  · exact chain_complete _ _
  · split
    · exact ((chain_sublistQueue s _ List.eraseP_sublist).trans (chain_deliver _ _ _ _)).trans
        (chain_complete _ _)
    · exact chain_complete _ _

theorem chain_act (c : CommandRef) (r : Request) (t : State) (h : s.act c r = some t) : Chain s t := by
  unfold State.act at h; split at h
  · exact chain_transferAction _ _ _ _ _ _ _ _ h
  · exact chain_fenceAction _ _ _ _ _ h
  · exact chain_unfenceAction _ _ _ _ h
  · cases h; exact chain_refreshCommand _ _ _
  · cases h; exact chain_rescanAction _ _
  · cases h; exact chain_cancelAction _ _ _

theorem chain_submit (v : Word) : Chain s (s.submit v) := by
  unfold State.submit; split
  · exact chain_submitAnswer _ _
  · split
    · exact chain_submitAnswer _ _
    · split
      · rename_i hr
        split
        · exact chain_submitAnswer _ _
        · rename_i h
          exact (((Micro.reserve s hr).once.trans (chain_act _ _ _ _ h)).trans (chain_submitAnswer _ _)).trans
            (chain_finish _)
      · exact chain_submitAnswer _ _

/-! ### Resets -/

theorem chain_resetTo (p : Pins) (c : ResetCause) : Chain s (s.resetTo p c) := (Micro.reset s p c).once

theorem releaseAll_node (l : List Addr) : ∀ (s : State) (k : Addr),
    (l.foldl State.release s).node k =
      { s.node k with powered := (s.node k).powered && !l.contains k } := by
  induction l with
  | nil => intro s k; simp
  | cons a l ih =>
    intro s k
    simp only [List.foldl_cons, ih, release_node]
    by_cases h : k = a
    · subst h; simp
    · simp [h]

theorem chain_releaseLost : Chain s s.releaseLost := chain_foldl (fun s k => chain_release s k) _ _

theorem releaseLost_unpowered (k : Addr) (h : (s.releaseLost.node k).loadOnLost = true) :
    (s.releaseLost.node k).powered = false := by
  unfold State.releaseLost at h ⊢
  rw [releaseAll_node] at h ⊢
  have hl : (s.node k).loadOnLost = true := h
  have hm : k ∈ allAddrs := by simp [allAddrs]
  simp [List.mem_filter, hm, hl]

theorem Window.keepReset_disabled (w : Window) : w.keepReset.enabled = false := by
  unfold Window.keepReset; split
  · rfl
  · rename_i h; simpa using h

theorem chain_clearHostSide (c : ResetCause) : Chain s (s.clearHostSide c) := by
  let s1 : State := { s with windows := Vector.ofFn fun i => (s.window i).keepReset }
  let s2 : State := { s1 with queue := [] }
  let s3 : State := { s2 with chain := { s.chain with rescans := [], unfenceWaits := [] } }
  let s4 : State :=
    { s3 with cmd := { s.cmd with submitStatus := .none, reservations := 0, completions := [] } }
  let s5 : State := { s4 with notices := { records := [], overflow := false } }
  have h1 : Chain s s1 := (Micro.windows s _ fun i => by simp [Window.follows, Window.keepReset_disabled]).once
  have h2 : Chain s1 s2 := chain_sublistQueue s1 [] (List.nil_sublist _)
  have h3 : Chain s2 s3 := chain_chain s2 _ rfl rfl rfl
  have h4 : Chain s3 s4 := (Micro.cmd s3 _ (Nat.zero_le _)).once
  have h5 : Chain s4 s5 := (Micro.notices s4 _ (List.nil_sublist _)).once
  have h6 : Chain s5 (s.clearHostSide c) := chain_keeps rfl rfl rfl rfl rfl rfl rfl
    ⟨rfl, fun h => ⟨h.settle, h.timeout, h.retryLimit, h.failThreshold, h.holdLimit⟩, id⟩
  exact ((((h1.trans h2).trans h3).trans h4).trans h5).trans h6

theorem chain_putBackSteps (l : List MgmtStep) : Chain s (s.putBackSteps l) := chain_chain s _ rfl rfl rfl

theorem chain_takeKeepReset (c : ResetCause) : Chain s (s.takeKeepReset c) :=
  (((((chain_releaseLost s).trans (Micro.keepRecords _ (releaseLost_unpowered s)).once).trans
    (chain_holdBusyTags _)).trans (chain_clearHostSide _ _)).trans (chain_putBackSteps _ _)).trans
    (chain_finish _)

theorem chain_pins (p : Pins) : Chain s { s with pins := p } := chain_other rfl rfl rfl rfl rfl rfl rfl rfl rfl rfl

theorem chain_endHold : Chain s s.endHold := by
  unfold State.endHold; split
  · dsimp only; split
    · exact chain_pins _ _
    · split
      · exact (chain_pins _ _).trans (chain_resetTo _ _ _)
      · exact (chain_pins _ _).trans (chain_takeKeepReset _ _)
  · exact .refl

theorem chain_resetLine (keepN : Bool) {f : State → State} (hf : Chain s (f s)) :
    Chain s (s.resetLine keepN f) := chain_ite (chain_ite hf .refl) (chain_pins _ _)

theorem chain_busResetLine : Chain s s.busResetLine := chain_resetLine s _ (chain_resetTo _ _ _)

theorem chain_keepResetLine : Chain s s.keepResetLine :=
  chain_resetLine s _ ((chain_pins s _).trans (chain_takeKeepReset _ _))

theorem chain_keepRises : Chain s s.keepRises := by
  unfold State.keepRises; split
  · exact chain_resetTo _ _ _
  · exact chain_pins _ _

/-! ### Timers -/

theorem chain_resendDue (t : TagId) (f : Flight) (ht : s.tag t = .busy f) (hf : f.timer.isSome) :
    Chain s (s.resendDue t f) :=
  (chain_disp s { tags := s.disp.tags.set t.val (.busy { f with timer := none }), resend := s.disp.resend ++ [t] }
    fun h => h.append t f { f with timer := none } ht hf rfl).trans
    (chain_modEntryOf _ _ _ (fun _ => rfl) fun _ _ => rfl)

theorem Flight.timed_isSome {f : Flight} {u : TimerUse} (h : f.timed u = true) : f.timer.isSome := by
  unfold Flight.timed at h; split at h
  · rename_i hx; rw [hx]; rfl
  · cases h

theorem chain_tagExpiry (t : TagId) (u : TimerUse) : Chain s (s.tagExpiry t u) := by
  unfold State.tagExpiry; split
  · rename_i f ht
    split
    · rename_i hf
      refine .trans ?_ (chain_finish _)
      unfold State.attemptExpired; split
      · exact chain_resendDue _ _ _ ht (Flight.timed_isSome hf)
      · exact chain_finalFailure _ _ _
    · exact .refl
  · exact .refl

theorem chain_holdExpiry (t : TagId) : Chain s (s.holdExpiry t) := by
  unfold State.holdExpiry; split
  · rename_i ht
    exact (chain_newTag s t _ fun f e => by rw [ht] at e; cases e).trans (chain_finish _)
  · exact .refl

theorem chain_endRamp : Chain s s.endRamp := by
  have h : Chain s { s.stopChainTimer with
      chain := { s.stopChainTimer.chain with rampPhase := none, rewalk := false } } :=
    (chain_stopChainTimer s).trans (chain_quiet rfl rfl rfl rfl rfl rfl rfl rfl rfl rfl rfl rfl)
  unfold State.endRamp; dsimp only; split
  · exact h.trans (chain_walkAssign _ _)
  · exact h.trans (chain_quiet rfl rfl rfl rfl rfl rfl rfl rfl rfl rfl rfl rfl)

theorem chain_rampExpiry : Chain s s.rampExpiry := by
  unfold State.rampExpiry; split
  · split
    · exact ((chain_rampRising _).trans (chain_lookAtFault _)).trans (chain_finish _)
    · exact (chain_endRamp _).trans (chain_finish _)
    · exact .refl
  · exact .refl

theorem chain_walkExpiry : Chain s s.walkExpiry := by
  unfold State.walkExpiry; split
  · split
    · exact .refl
    · exact ((chain_stopChainTimer _).trans (chain_walkAssign _ _)).trans (chain_finish _)
  · exact .refl

theorem chain_darkExpiry : Chain s s.darkExpiry := by
  unfold State.darkExpiry; split
  · split
    · exact .refl
    · exact (((chain_stopChainTimer s).trans
        (chain_chain _ { s.stopChainTimer.chain with darkWait := none } rfl rfl rfl)).trans
        (chain_makeDue _ _)).trans (chain_finish _)
  · exact .refl

theorem chain_nodeExpiry (k : Addr) : Chain s (s.nodeExpiry k) := by
  unfold State.nodeExpiry; split
  · dsimp only; split
    · exact (((chain_stopNodeTimer s k).trans (chain_modNode _ _ _ ⟨rfl, rfl, rfl, rfl⟩)).trans
        (chain_makeDue _ _)).trans (chain_finish _)
    · exact chain_stopNodeTimer _ _
  · exact .refl

theorem chain_refreshExpiry (i : WinIx) : Chain s (s.refreshExpiry i) := by
  unfold State.refreshExpiry; split
  · exact ((chain_setRefreshTimer _ _ _).trans (chain_refreshRequest _ _)).trans (chain_finish _)
  · exact .refl

/-! ### Host writes -/

theorem chain_controlWrite (v : Word) : Chain s (s.controlWrite v) := by
  have h : Chain s { s with ctl := s.ctl.write v } :=
    chain_ctl s _ fun h => ⟨h.settle, h.timeout, h.retryLimit, h.failThreshold, h.holdLimit⟩
  unfold State.controlWrite; split
  · exact chain_takeKeepReset _ _
  · dsimp only; split
    · exact h
    · split
      · exact (h.trans (chain_enableChain _)).trans (chain_finish _)
      · exact (h.trans (chain_disableChain _)).trans (chain_finish _)

theorem chain_statusWrite (v : Word) : Chain s (s.statusWrite v) := by
  have h : Chain s { s with notices := { s.notices with overflow := s.notices.overflow && !bitAt v 1 } } :=
    (Micro.notices s { s.notices with overflow := s.notices.overflow && !bitAt v 1 } (List.Sublist.refl _)).once
  exact h.trans (chain_ctl _ _ fun h => ⟨h.settle, h.timeout, h.retryLimit, h.failThreshold, h.holdLimit⟩)

/-- A timing register set to a value it takes. -/
theorem TimingOk.set {c : Control} (h : TimingOk c) (r : TimingReg) (v : Word)
    (ha : timingAccepts r (lowByte v).toNat = true) : TimingOk (c.setTiming r (lowByte v).toNat) := by
  have hv : (lowByte v).toNat ≤ 255 := by have := (lowByte v).isLt; omega
  cases r <;> simp only [timingAccepts, Bool.and_eq_true, decide_eq_true_eq] at ha
  · exact ⟨⟨ha, hv⟩, h.timeout, h.retryLimit, h.failThreshold, h.holdLimit⟩
  · exact ⟨h.settle, ⟨ha, hv⟩, h.retryLimit, h.failThreshold, h.holdLimit⟩
  · exact ⟨h.settle, h.timeout, ha, h.failThreshold, h.holdLimit⟩
  · exact ⟨h.settle, h.timeout, h.retryLimit, ha, h.holdLimit⟩
  · exact ⟨h.settle, h.timeout, h.retryLimit, h.failThreshold, ⟨ha, hv⟩⟩

theorem chain_timingWrite (r : TimingReg) (v : Word) : Chain s (s.timingWrite r v) := by
  unfold State.timingWrite; dsimp only; split
  · rename_i ha; exact chain_ctl s _ fun h => h.set r v ha
  · exact .refl

theorem chain_budgetWrite (v : Word) : Chain s (s.budgetWrite v) := by
  unfold State.budgetWrite; dsimp only; split
  · rename_i h
    have hb := (Micro.budget s _ h).once
    refine .trans ?_ (chain_finish _)
    split
    · exact hb.trans (chain_requestService _)
    · exact hb
  · exact chain_ctl s _ fun h => ⟨h.settle, h.timeout, h.retryLimit, h.failThreshold, h.holdLimit⟩

theorem chain_refreshOnAttnWrite (k : Addr) (v : Word) : Chain s (s.refreshOnAttnWrite k v) := by
  unfold State.refreshOnAttnWrite; split
  · exact .refl
  · exact chain_modNode _ _ _ ⟨rfl, rfl, rfl, rfl⟩

theorem chain_writeRegister (b : Nat) (v : Word) : Chain s (s.writeRegister b v) := by
  unfold State.writeRegister
  refine chain_ite (chain_controlWrite _ _) <| chain_ite (chain_statusWrite _ _) <|
    chain_ite (chain_timingWrite _ _ _) <| chain_ite (chain_timingWrite _ _ _) <|
    chain_ite (chain_timingWrite _ _ _) <| chain_ite (chain_timingWrite _ _ _) <|
    chain_ite (chain_timingWrite _ _ _) <| chain_ite (chain_budgetWrite _ _) <|
    chain_ite (chain_stagingWrite _ _ _) <| chain_ite (chain_submit _ _) <|
    chain_ite (chain_popCompletion _) <| chain_ite (chain_popNotice _) ?_
  split
  · exact chain_windowWrite _ _ _ _
  · exact chain_refreshOnAttnWrite _ _ _
  · exact .refl

theorem chain_hostWrite (a : BitVec 11) (v : Word) : Chain s (s.hostWrite a v) := by
  unfold State.hostWrite; split
  · exact chain_apertureAccess _ _ _
  · exact chain_writeRegister _ _ _

theorem chain_hostAccess (a : BitVec 11) (x : Access) : Chain s (s.hostAccess a x) := by
  unfold State.hostAccess State.hostReadCycle; split
  · exact chain_ite (chain_apertureAccess _ _ _) (chain_pins _ _)
  · exact chain_hostWrite _ _ _

theorem chain_clocked {f : State → State} (hf : Chain s (f s)) : Chain s (s.clocked f) := chain_ite hf .refl

theorem chain_hostCycle {f : State → State} (hf : ∀ s, Chain s (f s)) : Chain s (s.hostCycle f) := by
  unfold State.hostCycle; split
  · exact (chain_pins s _).trans (hf _)
  · exact .refl

/-! ### Commands -/

theorem chain_port (p : ChainPort) : Chain s { s with port := p } := chain_other rfl rfl rfl rfl rfl rfl rfl rfl rfl rfl

theorem chain_portPins (p : ChainPort) (q : Pins) : Chain s { s with pins := q, port := p } :=
  chain_other rfl rfl rfl rfl rfl rfl rfl rfl rfl rfl

theorem chain_sampleFault (high : Bool) :
    Chain s (if s.chain.pwrEn && !high then
      ({ s with pins := { s.pins with chainFaultN := high } } : State).takeFault.finish
    else { s with pins := { s.pins with chainFaultN := high } }) :=
  chain_ite (((chain_pins s _).trans (chain_takeFault _)).trans (chain_finish _)) (chain_pins s _)

theorem chain_carrierLost : Chain s
    (if s.port.carrierSeen then
      (({ s with
          pins := { s.pins with upCarrier := false }
          port := { s.port with carrierSeen := false } } : State).reportLoss 1).finish
    else { s with pins := { s.pins with upCarrier := false } }) :=
  chain_ite (((chain_portPins s _ _).trans (chain_reportLoss _ _)).trans (chain_finish _)) (chain_pins s _)

/-- Every command is a chain of small changes. -/
theorem exec_chain (c : Instr) : ∃ t, exec c s = .next t ∧ Chain s t := by
  cases c with
  | apertureAccess o a => exact ⟨_, rfl, chain_hostCycle s fun s => chain_apertureAccess s _ _⟩
  | hostCycleAbort => exact ⟨_, rfl, (chain_expireHold s).trans (chain_pins _ _)⟩
  | chainEnableSet w => exact ⟨_, rfl, chain_hostCycle s fun s => chain_controlWrite s _⟩
  | chainEnableClear w => exact ⟨_, rfl, chain_hostCycle s fun s => chain_controlWrite s _⟩
  | autoRewalkWrite w => exact ⟨_, rfl, chain_hostCycle s fun s => chain_controlWrite s _⟩
  | noticeIeWrite w => exact ⟨_, rfl, chain_hostCycle s fun s => chain_controlWrite s _⟩
  | completionIeWrite w => exact ⟨_, rfl, chain_hostCycle s fun s => chain_controlWrite s _⟩
  | softReset w => exact ⟨_, rfl, chain_hostCycle s fun s => chain_controlWrite s _⟩
  | budgetRefusedClear w => exact ⟨_, rfl, chain_hostCycle s fun s => chain_statusWrite s _⟩
  | noticeOverflowClear w => exact ⟨_, rfl, chain_hostCycle s fun s => chain_statusWrite s _⟩
  | timingRegisterWrite r w => exact ⟨_, rfl, chain_hostCycle s fun s => chain_timingWrite s _ _⟩
  | budgetWrite w => exact ⟨_, rfl, chain_hostCycle s fun s => chain_budgetWrite s _⟩
  | read w => exact ⟨_, rfl, chain_hostCycle s fun s => chain_submit s _⟩
  | write w => exact ⟨_, rfl, chain_hostCycle s fun s => chain_submit s _⟩
  | fence w => exact ⟨_, rfl, chain_hostCycle s fun s => chain_submit s _⟩
  | unfence w => exact ⟨_, rfl, chain_hostCycle s fun s => chain_submit s _⟩
  | nreset w => exact ⟨_, rfl, chain_hostCycle s fun s => chain_submit s _⟩
  | refresh w => exact ⟨_, rfl, chain_hostCycle s fun s => chain_submit s _⟩
  | rescan w => exact ⟨_, rfl, chain_hostCycle s fun s => chain_submit s _⟩
  | cancel w => exact ⟨_, rfl, chain_hostCycle s fun s => chain_submit s _⟩
  | submitKindNamesNoKind w => exact ⟨_, rfl, chain_hostCycle s fun s => chain_submit s _⟩
  | completionPop w => exact ⟨_, rfl, chain_hostCycle s fun s => chain_popCompletion s⟩
  | noticePop w => exact ⟨_, rfl, chain_hostCycle s fun s => chain_popNotice s⟩
  | windowFieldWrite i n w => exact ⟨_, rfl, chain_hostCycle s fun s => chain_windowWrite s _ _ _⟩
  | windowEnable i w => exact ⟨_, rfl, chain_hostCycle s fun s => chain_windowWrite s _ _ _⟩
  | windowDisable i w => exact ⟨_, rfl, chain_hostCycle s fun s => chain_windowWrite s _ _ _⟩
  | refreshOnAttnWrite k w => exact ⟨_, rfl, chain_hostCycle s fun s => chain_refreshOnAttnWrite s _ _⟩
  | registerWrite a x => exact ⟨_, rfl, chain_hostCycle s fun s => chain_hostAccess s _ _⟩
  | powerOnReset => exact ⟨_, rfl, chain_resetTo s _ _⟩
  | powerOnHoldEnd => exact ⟨_, rfl, chain_endHold s⟩
  | busReset => exact ⟨_, rfl, chain_busResetLine s⟩
  | keepReset => exact ⟨_, rfl, chain_keepResetLine s⟩
  | keepNRise => exact ⟨_, rfl, chain_keepRises s⟩
  | resetRelease => exact ⟨_, rfl, chain_pins s _⟩
  | chainFault high => exact ⟨_, rfl, chain_sampleFault s high⟩
  | upCarrierPresent => exact ⟨_, rfl, chain_ite (chain_portPins s _ _) .refl⟩
  | upCarrierLost => exact ⟨_, rfl, chain_carrierLost s⟩
  | transmitterFree => exact ⟨_, rfl, chain_clocked s ((chain_port s _).trans (chain_finish _))⟩
  | receiveData src t b ws =>
    refine ⟨_, rfl, ?_⟩
    split
    · exact chain_fromChain s fun s => chain_receiveData s _ _ _ _
    · exact .refl
  | receiveDone src t b => exact ⟨_, rfl, chain_fromChain s fun s => chain_receiveDone s _ _ _⟩
  | receiveRefuse src t b r => exact ⟨_, rfl, chain_fromChain s fun s => chain_receiveRefuse s _ _ _ _⟩
  | receiveSense src t b i => exact ⟨_, rfl, chain_fromChain s fun s => chain_receiveSense s _ _ _ _⟩
  | receiveAttn src c b => exact ⟨_, rfl, chain_fromChain s fun s => chain_receiveAttn s _ _ _⟩
  | receiveHello src => exact ⟨_, rfl, chain_fromChain s fun s => chain_receiveHello s⟩
  | frameDropped w b => exact ⟨_, rfl, chain_receiveWire s _ _⟩
  | responseTimerExpiry t => exact ⟨_, rfl, chain_clocked s (chain_tagExpiry s _ _)⟩
  | backoffTimerExpiry t => exact ⟨_, rfl, chain_clocked s (chain_tagExpiry s _ _)⟩
  | tagHoldExpiry t => exact ⟨_, rfl, chain_clocked s (chain_holdExpiry s _)⟩
  | rampSettleExpiry => exact ⟨_, rfl, chain_clocked s (chain_rampExpiry s)⟩
  | walkSettleExpiry => exact ⟨_, rfl, chain_clocked s (chain_walkExpiry s)⟩
  | darkWaitExpiry => exact ⟨_, rfl, chain_clocked s (chain_darkExpiry s)⟩
  | nodeSettleExpiry k => exact ⟨_, rfl, chain_clocked s (chain_nodeExpiry s _)⟩
  | holdLimitExpiry => exact ⟨_, rfl, chain_clocked s (chain_expireHold s)⟩
  | refreshTimerExpiry i => exact ⟨_, rfl, chain_clocked s (chain_refreshExpiry s _)⟩
  | supplyBelowBrownOut => exact ⟨_, rfl, chain_resetTo s _ _⟩

/-- A step from a state is an idle step, or a chain of small changes from the state with the queue's rest. -/
theorem step_chain {t : State} (h : step s = .next t) :
    t = s ∨ ∃ rest, Chain { s with pending := rest } t := by
  unfold step at h; split at h
  · cases h; exact .inl rfl
  · rename_i c rest _
    obtain ⟨u, hu, hc⟩ := exec_chain { s with pending := rest } c
    rw [hu] at h; cases h; exact .inr ⟨rest, hc⟩

end Sys2Proof.Machine
end

