-- ==== Sys2Proof/Laws/Kept.lean ====
section
/-! SUPPORT. Laws that every small change keeps (`Micro`): the Notice Queue, the completions, the Outbound
Queue and the Mirror Pool. -/

namespace Sys2Proof.Machine

/-! ### Notice Queue -/

/-- A posting that is gathered keeps the keys and their order. -/
theorem gatherNotice_keys {n : Nat} {k : NoticeKind} {d : Word} :
    ∀ {rs rs' : List Notice}, gatherNotice n k d rs = some rs' →
      rs'.map (fun r => (r.node, r.kind)) = rs.map fun r => (r.node, r.kind)
  | [], _, h => by cases h
  | r :: rs, rs', h => by
    unfold gatherNotice at h; split at h
    · cases h; rfl
    · obtain ⟨us, hu, rfl⟩ := Option.map_eq_some_iff.mp h
      simp [gatherNotice_keys hu]

/-- A posting that is gathered keeps every repeat count within 1..255. -/
theorem gatherNotice_repeats {n : Nat} {k : NoticeKind} {d : Word} :
    ∀ {rs rs' : List Notice}, gatherNotice n k d rs = some rs' →
      (∀ r ∈ rs, 1 ≤ r.repeats ∧ r.repeats ≤ 255) → ∀ r ∈ rs', 1 ≤ r.repeats ∧ r.repeats ≤ 255
  | [], _, h, _ => by cases h
  | r :: rs, rs', h, hr => by
    unfold gatherNotice at h; split at h
    · cases h
      intro x hx
      rcases List.mem_cons.mp hx with rfl | hx
      · exact ⟨by simp, by simp⟩
      · exact hr x (List.mem_cons_of_mem _ hx)
    · obtain ⟨us, hu, rfl⟩ := Option.map_eq_some_iff.mp h
      intro x hx
      rcases List.mem_cons.mp hx with rfl | hx
      · exact hr _ List.mem_cons_self
      · exact gatherNotice_repeats hu (fun y hy => hr y (List.mem_cons_of_mem _ hy)) x hx

/-- A posting that is not gathered finds no record of its key. -/
theorem gatherNotice_none {n : Nat} {k : NoticeKind} {d : Word} :
    ∀ {rs : List Notice}, gatherNotice n k d rs = none → ∀ r ∈ rs, (r.node, r.kind) ≠ (n, k)
  | [], _ => by simp
  | r :: rs, h => by
    unfold gatherNotice at h; split at h
    · cases h
    · rename_i hn
      intro x hx
      rcases List.mem_cons.mp hx with rfl | hx
      · simpa using hn
      · exact gatherNotice_none (by simpa using h) x hx

/-- A posting keeps the law of the Notice Queue. -/
theorem NoticesOk.post {q : NoticeQueue} (h : NoticesOk q) (n : Nat) (k : NoticeKind) (d : Word) :
    NoticesOk (q.post n k d) := by
  unfold NoticeQueue.post; split
  · rename_i rs hg
    have hk := gatherNotice_keys hg
    exact ⟨by simpa using (congrArg List.length hk).trans_le (by simpa using h.size), by
      simpa [hk] using h.distinct, gatherNotice_repeats hg h.repeats⟩
  · rename_i hg
    split
    · rename_i hl
      refine ⟨by simpa using hl, ?_, ?_⟩
      · rw [List.map_append, List.nodup_append]
        refine ⟨h.distinct, by simp, ?_⟩
        intro a ha b hb
        simp only [List.map_cons, List.map_nil, List.mem_singleton] at hb
        subst hb
        obtain ⟨r, hr, rfl⟩ := List.mem_map.mp ha
        exact gatherNotice_none hg r hr
      · intro r hr
        rcases List.mem_append.mp hr with hr | hr
        · exact h.repeats r hr
        · simp only [List.mem_singleton] at hr; subst hr; simp
    · exact ⟨h.size, h.distinct, h.repeats⟩

/-- A queue that has lost records. -/
theorem NoticesOk.sublist {q p : NoticeQueue} (hp : NoticesOk p) (h : q.records.Sublist p.records) :
    NoticesOk q :=
  ⟨h.length_le.trans hp.size, (h.map _).nodup hp.distinct, fun r hr => hp.repeats r (h.subset hr)⟩

theorem NoticesOk.empty : NoticesOk { records := [], overflow := false } :=
  ⟨Nat.zero_le _, List.nodup_nil, fun _ h => by cases h⟩

theorem notices_of_micro {s t : State} (h : Micro s t) (hs : NoticesOk s.notices) : NoticesOk t.notices := by
  cases h with
  | other _ _ _ _ _ _ hno _ => rw [hno]; exact hs
  | notices q h =>
    show NoticesOk q
    exact hs.sublist h
  | post n k d => exact hs.post n k d
  | deny k =>
    rw [show (s.deny k).notices = s.notices.post (addrNum k) .nodeDenied (BitVec.ofNat 16 (s.demandOf k)) from
      rfl]
    exact hs.post _ _ _
  | reset => exact NoticesOk.empty
  | cmd | queue | chain | budget | land | windows | vacateAll | keepRecords | reserve | enqueueHost
  | enqueueMgmt | node | release | sense | admitted | admitHead | vacate | enable =>
    simpa using hs

/-! ### Waiting commands, timing registers, resend list -/

theorem pending_of_micro {s t : State} (h : Micro s t) : t.pending = s.pending := by
  cases h with
  | other _ _ _ _ _ _ _ hk => exact hk.pending
  | reset => rfl
  | notices | post | cmd | reserve | queue | enqueueHost | enqueueMgmt | chain | budget | land | windows
  | vacateAll | keepRecords | node | release | sense | admitted | admitHead | deny | vacate | enable => simp

theorem TimingOk.reset (c : ResetCause) : TimingOk { Control.reset with resetCause := c } :=
  ⟨show 1 ≤ 20 ∧ 20 ≤ 255 by decide, show 2 ≤ 50 ∧ 50 ≤ 255 by decide, show 3 ≤ 7 by decide,
    show 1 ≤ 2 ∧ 2 ≤ 7 by decide, show 1 ≤ 64 ∧ 64 ≤ 255 by decide⟩

theorem timing_of_micro {s t : State} (h : Micro s t) (hs : TimingOk s.ctl) : TimingOk t.ctl := by
  cases h with
  | other _ _ _ _ _ _ _ hk => exact hk.timing hs
  | reset => exact .reset _
  | notices | post | cmd | reserve | queue | enqueueHost | enqueueMgmt | chain | budget | land | windows
  | vacateAll | keepRecords | node | release | sense | admitted | admitHead | deny | vacate | enable =>
    simpa using hs

theorem resend_of_micro {s t : State} (h : Micro s t) (hs : ResendOk s.disp) : ResendOk t.disp := by
  cases h with
  | other _ _ _ _ _ _ _ hk => exact hk.resend hs
  | reset => exact .empty _
  | notices | post | cmd | reserve | queue | enqueueHost | enqueueMgmt | chain | budget | land | windows
  | vacateAll | keepRecords | node | release | sense | admitted | admitHead | deny | vacate | enable =>
    simpa using hs

/-! ### Completions -/

theorem completions_of_micro {s t : State} (h : Micro s t) (hs : CompletionsOk s.cmd) : CompletionsOk t.cmd := by
  cases h with
  | other _ _ _ _ _ hc => rw [hc]; exact hs
  | cmd p h => exact Nat.le_trans h hs
  | reserve h =>
    simp only [CommandPort.hasRoom, decide_eq_true_eq] at h
    simp only [CompletionsOk, State.reserve]; omega
  | reset => exact Nat.zero_le _
  | notices | post | queue | chain | budget | land | windows | vacateAll | keepRecords | enqueueHost
  | enqueueMgmt | node | release | sense | admitted | admitHead | deny | vacate | enable =>
    simpa using hs

/-! ### Outbound Queue -/

theorem QueueOk.host {q : List Entry} (h : QueueOk q) (e : Entry) (hf : q.length < Config.queueSize)
    (hh : q.countP Entry.isHost < Config.hostClassSize)
    (hj : ∀ i : WinIx, e.isJobOf i = true → q.countP (·.isJobOf i) = 0) : QueueOk (q ++ [e]) := by
  refine ⟨by simpa using hf, ?_, fun i => ?_⟩
  · rw [List.countP_append]
    have : [e].countP Entry.isHost ≤ 1 := List.countP_le_length
    omega
  · rw [List.countP_append]
    by_cases hi : e.isJobOf i = true
    · have : [e].countP (·.isJobOf i) ≤ 1 := List.countP_le_length
      have := hj i hi; omega
    · have := h.jobs i
      simpa [hi] using this

theorem QueueOk.mgmt {q : List Entry} (h : QueueOk q) (op : Op) (k : Addr)
    (hf : q.length < Config.queueSize) : QueueOk (q ++ [mgmtEntry op k]) := by
  have hn : (mgmtEntry op k).isHost = false := rfl
  have hj : ∀ i, (mgmtEntry op k).isJobOf i = false := fun _ => rfl
  exact ⟨by simpa using hf, by simpa [List.countP_append, hn] using h.hosts, fun i => by
    simpa [List.countP_append, hj i] using h.jobs i⟩

theorem QueueOk.enqueueMgmt {s : State} (h : QueueOk s.queue) (op : Op) (k : Addr) :
    QueueOk (s.enqueueMgmt op k).queue := by
  unfold State.enqueueMgmt; split
  · rename_i hf
    exact h.mgmt op k (by simpa [State.mgmtSlotFree] using hf)
  · exact h

theorem QueueOk.admitted {s : State} (h : QueueOk s.queue) (k : Addr) : QueueOk (s.admitted k).queue := by
  unfold State.admitted; split
  · exact QueueOk.enqueueMgmt (by simpa using h) _ _
  · exact h

theorem queue_of_micro {s t : State} (h : Micro s t) (hs : QueueOk s.queue) : QueueOk t.queue := by
  cases h with
  | other _ hq => rw [hq]; exact hs
  | queue q hl hh hj =>
    exact ⟨hl.trans hs.size, hh.trans hs.hosts, fun i => (hj i).trans (hs.jobs i)⟩
  | enqueueHost e h =>
    unfold State.enqueueHost; split
    · rename_i hf
      simp only [State.hostSlotFree, State.hostCount, Bool.and_eq_true, decide_eq_true_eq] at hf
      exact hs.host e hf.1 (of_decide_eq_true hf.2) h
    · exact hs
  | enqueueMgmt op k => exact hs.enqueueMgmt op k
  | admitted k => exact hs.admitted k
  | admitHead k ks => exact QueueOk.admitted (by simpa using hs) k
  | reset => exact ⟨Nat.zero_le _, Nat.zero_le _, fun _ => Nat.zero_le _⟩
  | notices | post | cmd | reserve | chain | budget | land | windows | vacateAll | keepRecords
  | node | release | sense | deny | vacate | enable =>
    simpa using hs

/-! ### Mirror Pool -/

namespace Memory

theorem insert_wf {m : List PoolCell} {a : Nat} (v : Word) (ha : a < Config.poolSize) :
    ∀ {lo : Nat}, lo ≤ a → wfFrom lo m = true → wfFrom lo (insert m a v) = true := by
  induction m with
  | nil =>
    intro lo hl h
    unfold insert; split
    · rfl
    · rename_i hv; simp [wfFrom, hl, ha, hv]
  | cons c m ih =>
    obtain ⟨b, w⟩ := c
    intro lo hl h
    simp only [wfFrom, Bool.and_eq_true, decide_eq_true_eq] at h
    obtain ⟨⟨⟨hb, hp⟩, hw⟩, hm⟩ := h
    unfold insert; split
    · rename_i hab
      split
      · simp [wfFrom, hb, hp, hm, hw]
      · rename_i hv
        simp [wfFrom, hl, ha, hv, hp, hm, hw, hab]
    · rename_i hab
      split
      · subst_vars
        split
        · have : ∀ {lo lo'} {m : List PoolCell}, lo' ≤ lo → wfFrom lo m = true → wfFrom lo' m = true := by
            intro lo lo' m hle hm
            cases m with
            | nil => rfl
            | cons c m =>
              obtain ⟨x, y⟩ := c
              simp only [wfFrom, Bool.and_eq_true, decide_eq_true_eq] at hm ⊢
              exact ⟨⟨⟨by omega, hm.1.1.2⟩, hm.1.2⟩, hm.2⟩
          exact this (by omega) hm
        · rename_i hv
          simp [wfFrom, hl, ha, hv, hm]
      · rename_i hne
        simp only [wfFrom, Bool.and_eq_true, decide_eq_true_eq]
        exact ⟨⟨⟨hb, hp⟩, hw⟩, ih (by omega) hm⟩

/-- A write of one word keeps the canonical form. -/
theorem store_wf {m : List PoolCell} (a : Nat) (v : Word) (h : wf m = true) : wf (store m a v) = true := by
  unfold store; split
  · rename_i ha; exact insert_wf v ha (Nat.zero_le _) h
  · exact h

/-- A write of a run of words keeps the canonical form. -/
theorem storeRange_wf (ws : List Word) : ∀ (m : List PoolCell) (a : Nat), wf m = true →
    wf (storeRange m a ws) = true := by
  induction ws with
  | nil => exact fun m a h => h
  | cons w ws ih => exact fun m a h => ih _ _ (store_wf a w h)

/-- An allocation's clearing keeps the canonical form. -/
theorem clear_wf (m : List PoolCell) (a n : Nat) (h : wf m = true) : wf (clear m a n) = true :=
  storeRange_wf _ m a h

/-- Nothing listed is in the canonical form, as the pool is at reset. -/
theorem reset_wf : wf State.reset.mirror.pool = true := rfl

end Memory

theorem pool_of_micro {s t : State} (h : Micro s t) (hs : Memory.wf s.mirror.pool = true) :
    Memory.wf t.mirror.pool = true := by
  cases h with
  | other _ _ _ _ hp => rw [hp]; exact hs
  | land a ws => exact Memory.storeRange_wf ws _ a hs
  | enable i =>
    unfold State.tryEnable; dsimp only; split
    · exact hs
    · exact hs
    · exact Memory.clear_wf _ _ _ hs
  | reset => rfl
  | notices | post | cmd | reserve | queue | enqueueHost | enqueueMgmt | chain | budget | windows | vacateAll
  | keepRecords | node | release | sense | admitted | admitHead | deny | vacate =>
    simpa using hs

end Sys2Proof.Machine
end

