-- ==== Sys2Proof/Laws/KeptAccount.lean ====
section
/-! SUPPORT. The power account and the Admission List (R63, R65) are kept by every small change. -/

namespace Sys2Proof.Machine

/-- What a record adds to the powered demand. -/
def NodeRecord.load (r : NodeRecord) : Nat := if r.powered then r.demand.toNat else 0

theorem sum_filter_map {α : Type} (p : α → Bool) (f : α → Nat) (l : List α) :
    ((l.filter p).map f).sum = (l.map fun a => if p a then f a else 0).sum := by
  induction l with
  | nil => rfl
  | cons a l ih =>
    by_cases h : p a = true
    · simp [h, ih]
    · simp only [Bool.not_eq_true] at h
      simp [h, ih]

theorem poweredDemand_eq (s : State) : s.poweredDemand = ∑ k : Addr, (s.node k).load := by
  unfold State.poweredDemand allAddrs
  rw [sum_filter_map, ← List.sum_ofFn, List.ofFn_eq_map]
  rfl

/-- The powered demand after one record has changed. -/
theorem poweredDemand_change {s t : State} (k : Addr) (h : ∀ j, j ≠ k → (t.node j).load = (s.node j).load) :
    t.poweredDemand + (s.node k).load = s.poweredDemand + (t.node k).load := by
  rw [poweredDemand_eq, poweredDemand_eq, ← Finset.add_sum_erase _ _ (Finset.mem_univ k),
    ← Finset.add_sum_erase _ (fun k => (s.node k).load) (Finset.mem_univ k)]
  have : ∑ x ∈ Finset.univ.erase k, (t.node x).load = ∑ x ∈ Finset.univ.erase k, (s.node x).load :=
    Finset.sum_congr rfl fun j hj => h j (Finset.ne_of_mem_erase hj)
  rw [this]; omega

/-- The powered demand where each record draws what it drew. -/
theorem poweredDemand_same {s t : State} (h : ∀ j, (t.node j).load = (s.node j).load) :
    t.poweredDemand = s.poweredDemand := by
  rw [poweredDemand_eq, poweredDemand_eq]; exact Finset.sum_congr rfl fun j _ => h j

theorem load_le_poweredDemand (s : State) (k : Addr) : (s.node k).load ≤ s.poweredDemand := by
  rw [poweredDemand_eq]
  exact Finset.single_le_sum (f := fun k => (s.node k).load) (fun _ _ => Nat.zero_le _) (Finset.mem_univ k)

theorem load_of_unpowered {r : NodeRecord} (h : r.powered = false) : r.load = 0 := by
  simp [NodeRecord.load, h]

/-- The power account and the Admission List, but for the DENIED nodes that a change has taken off the list
and not yet moved on (R63, R65). -/
structure AccountCore (s : State) : Prop where
  sum : s.chain.committed = s.poweredDemand
  bound : s.chain.committed ≤ s.chain.budget
  unpowered : ∀ k, (s.node k).state.unpowered = true → (s.node k).powered = false
  listed : ∀ k ∈ s.chain.admission, (s.node k).state = .denied
  once : s.chain.admission.Nodup

theorem AccountOk.core {s : State} (h : AccountOk s) : AccountCore s :=
  ⟨h.sum, h.bound, h.unpowered, h.listed, h.once⟩

/-- The account where records, BUDGET and COMMITTED are as they were and the list has at most lost nodes. -/
theorem AccountCore.of_same {s t : State} (h : AccountCore s) (hn : ∀ k, t.node k = s.node k)
    (hb : t.chain.budget = s.chain.budget) (hc : t.chain.committed = s.chain.committed)
    (ha : t.chain.admission.Sublist s.chain.admission) : AccountCore t where
  sum := by rw [hc, h.sum]; exact (poweredDemand_same fun j => by rw [hn]).symm
  bound := by rw [hb, hc]; exact h.bound
  unpowered k hk := by rw [hn] at hk ⊢; exact h.unpowered k hk
  listed k hk := by rw [hn]; exact h.listed k (ha.subset hk)
  once := ha.nodup h.once

theorem AccountCore.of_eq {s t : State} (h : AccountCore s) (hn : t.nodes = s.nodes) (hc : t.chain = s.chain) :
    AccountCore t :=
  h.of_same (fun k => by simp only [State.node, hn]) (by rw [hc]) (by rw [hc]) (by rw [hc])

/-- One record changed, and the account with it. -/
theorem AccountCore.of_record {s t : State} (h : AccountCore s) (k : Addr) (r : NodeRecord)
    (hn : ∀ j, t.node j = if j = k then r else s.node j) (hb : t.chain.budget = s.chain.budget)
    (hc : t.chain.committed + (s.node k).load = s.chain.committed + r.load)
    (hle : t.chain.committed ≤ s.chain.budget)
    (hu : r.state.unpowered = true → r.powered = false)
    (hl : ∀ j ∈ t.chain.admission, if j = k then r.state = .denied else j ∈ s.chain.admission)
    (ho : t.chain.admission.Nodup) : AccountCore t where
  sum := by
    have hk : t.node k = r := by simp [hn]
    have := poweredDemand_change (s := s) (t := t) k fun j hj => by simp [hn, hj]
    rw [hk] at this
    have := h.sum
    omega
  bound := by omega
  unpowered j hj := by
    rw [hn] at hj ⊢; split at hj <;> rename_i hjk <;> simp only [hjk, if_true, if_false]
    · exact hu hj
    · exact h.unpowered j hj
  listed j hj := by
    have := hl j hj
    rw [hn]; split at this <;> rename_i hjk <;> simp only [hjk, if_true, if_false]
    · exact this
    · exact h.listed j this
  once := ho

theorem AccountCore.reset : AccountCore State.reset where
  sum := by rw [poweredDemand_eq]; decide
  bound := Nat.le_refl _
  unpowered := by decide
  listed := by intro k hk; cases hk
  once := List.nodup_nil

/-- An admission of a node that is not powered and not on the list. -/
theorem AccountCore.admitted {s : State} (h : AccountCore s) (k : Addr) (hp : (s.node k).powered = false)
    (hk : k ∉ s.chain.admission) : AccountCore (s.admitted k) := by
  unfold State.admitted; split
  · rename_i hf
    refine h.of_record k { s.node k with powered := true, state := .powering, step := some .loadWait } ?_ ?_ ?_ ?_ ?_ ?_ ?_
    · intro j; rw [State.enqueueMgmt_node, State.modNode_node]; rfl
    · simp
    · simp [NodeRecord.load, hp, State.demandOf]
    · simpa using hf
    · intro hu; cases hu
    · intro j hj
      have hj' : j ∈ s.chain.admission := by simpa using hj
      have : j ≠ k := fun e => hk (e ▸ hj')
      rw [if_neg this]; exact hj'
    · simpa using h.once
  · exact h

theorem AccountCore.not_listed {s : State} (h : AccountCore s) {k : Addr} (hk : (s.node k).state ≠ .denied) :
    k ∉ s.chain.admission := fun hm => hk (h.listed k hm)

/-- A record changed as `NodeFollows` says. -/
theorem AccountCore.node {s : State} (h : AccountCore s) (k : Addr) (r : NodeRecord) (hr : NodeFollows s k r) :
    AccountCore (s.setNode k r) := by
  refine h.of_record k r (fun j => State.setNode_node s k j r) rfl ?_ h.bound ?_ ?_ h.once
  · simp [NodeRecord.load, hr.powered, hr.demand]
  · intro hu
    rcases hr.unpowered hu with he | hp
    · rw [hr.powered]; exact h.unpowered k (he ▸ hu)
    · exact hp
  · intro j hj
    have hj' : j ∈ s.chain.admission := hj
    by_cases e : j = k
    · subst e
      rw [if_pos rfl]
      rcases hr.listed (h.listed j hj') with hd | hn
      · exact hd
      · exact absurd hj' hn
    · rw [if_neg e]; exact hj'

theorem release_committed {s : State} (k : Addr) (h : (s.node k).powered = true) :
    (s.release k).chain.committed = s.chain.committed - (s.node k).demand.toNat := by
  unfold State.release; rw [if_pos h]; dsimp only; split
  · simp only [State.requestService, State.makeDue]; split <;> rfl
  · rfl

theorem release_budget {s : State} (k : Addr) : (s.release k).chain.budget = s.chain.budget := by
  unfold State.release; split
  · dsimp only; split
    · simp only [State.requestService, State.makeDue]; split <;> rfl
    · rfl
  · rfl

/-- A demand released. -/
theorem AccountCore.release {s : State} (h : AccountCore s) (k : Addr) : AccountCore (s.release k) := by
  by_cases hp : (s.node k).powered = true
  · have hle := load_le_poweredDemand s k
    have hs := h.sum
    have hl : (s.node k).load = (s.node k).demand.toNat := by simp [NodeRecord.load, hp]
    have hc := release_committed k hp
    refine h.of_record k { s.node k with powered := false } (fun j => release_node s k j) (release_budget k)
      ?_ ?_ (fun _ => rfl) ?_ ?_
    · simp only [NodeRecord.load] at *; simp only [hp, if_true] at *; simp; omega
    · have := h.bound; omega
    · intro j hj
      rw [release_admission] at hj
      by_cases e : j = k
      · subst e
        rw [if_pos rfl]; exact h.listed j hj
      · rw [if_neg e]; exact hj
    · rw [release_admission]; exact h.once
  · unfold State.release; rw [if_neg hp]; exact h

theorem account_of_micro {s t : State} (hm : Micro s t) (h : AccountCore s) : AccountCore t := by
  cases hm with
  | other _ _ hc hn => exact h.of_eq hn hc
  | notices | post | cmd | reserve | queue | land | windows => exact h.of_eq rfl rfl
  | enqueueHost | enqueueMgmt | enable => exact h.of_eq (by simp) (by simp)
  | chain c hb hc ha => exact h.of_same (fun _ => rfl) hb hc (ha ▸ List.Sublist.refl _)
  | budget n hle => exact ⟨h.sum, hle, h.unpowered, h.listed, h.once⟩
  | node k r hr => exact h.node k r hr
  | release k => exact h.release k
  | sense k i hv =>
    have hp : (s.node k).powered = false := h.unpowered k (by rw [hv]; rfl)
    refine h.of_record k ((s.node k).sense i) (fun j => State.modNode_node s k j _) rfl ?_ h.bound
      (fun _ => rfl) ?_ h.once
    · rw [load_of_unpowered hp, load_of_unpowered (r := (s.node k).sense i) rfl]; rfl
    · intro j hj
      have hj' : j ∈ s.chain.admission := hj
      have : j ≠ k := fun e => h.not_listed (k := k) (by rw [hv]; decide) (e ▸ hj')
      rw [if_neg this]; exact hj'
  | admitted k hv =>
    exact h.admitted k (h.unpowered k (by rw [hv]; rfl)) (h.not_listed (by rw [hv]; decide))
  | admitHead k ks ha =>
    have hd := h.listed k (by rw [ha]; exact List.mem_cons_self)
    have ho := h.once
    rw [ha] at ho
    refine AccountCore.admitted (s := { s with chain := { s.chain with admission := ks } }) ?_ k
      (h.unpowered k (by rw [hd]; rfl)) (List.nodup_cons.mp ho).1
    exact h.of_same (fun _ => rfl) rfl rfl (by rw [ha]; exact List.sublist_cons_self _ _)
  | deny k hv =>
    have hp : (s.node k).powered = false := h.unpowered k (by rw [hv]; rfl)
    have hn : k ∉ s.chain.admission := h.not_listed (by rw [hv]; decide)
    refine h.of_record k { s.node k with state := .denied }
      (fun j => State.modNode_node s k j fun r => { r with state := .denied }) rfl ?_ h.bound (fun _ => hp) ?_ ?_
    · rfl
    · intro j hj
      have hj' : j ∈ s.chain.admission ++ [k] := hj
      by_cases e : j = k
      · rw [if_pos e]
      · rw [if_neg e]; simpa [e] using hj'
    · show (s.chain.admission ++ [k]).Nodup
      rw [List.nodup_append]
      exact ⟨h.once, by simp, fun a ha b hb e => hn (by simp at hb; subst hb; subst e; exact ha)⟩
  | vacate k hp ha hw =>
    refine h.of_record k (s.node k).vacate (fun j => State.modNode_node s k j _) rfl ?_ h.bound
      (fun _ => rfl) ?_ h.once
    · rw [load_of_unpowered hp, load_of_unpowered (r := (s.node k).vacate) rfl]; rfl
    · intro j hj
      have hj' : j ∈ s.chain.admission := hj
      have : j ≠ k := fun e => ha (e ▸ hj')
      rw [if_neg this]; exact hj'
  | vacateAll hw =>
    refine ⟨?_, Nat.zero_le _, ?_, ?_, List.nodup_nil⟩
    · rw [poweredDemand_eq, Finset.sum_eq_zero]; rfl
      intro k _; rw [State.vacateAll_node]; rfl
    · intro k _; rw [State.vacateAll_node]; rfl
    · intro k hk; cases hk
  | keepRecords hl =>
    have hn : ∀ k, s.keepRecords.node k = (s.node k).keepReset := fun k => by simp
    refine ⟨?_, h.bound, ?_, ?_, h.once⟩
    · show s.chain.committed = _
      rw [h.sum]
      exact (poweredDemand_same fun j => by rw [hn]; rfl).symm
    · intro k hk
      rw [hn] at hk ⊢
      show (s.node k).powered = false
      by_cases hx : (s.node k).loadOnLost = true
      · exact hl k hx
      · refine h.unpowered k ?_
        have : ¬((s.node k).state = .powering ∧ (s.node k).step = some .loadWait) := by
          simpa [NodeRecord.loadOnLost] using hx
        simpa [NodeRecord.keepReset, this] using hk
    · intro k hk
      have hd := h.listed k hk
      rw [hn]; simp [NodeRecord.keepReset, hd]
  | reset pins cause =>
    exact AccountCore.reset.of_same (t := s.resetTo pins cause) (fun _ => rfl) rfl rfl (List.Sublist.refl _)

/-- The account of a state whose items are those of another. -/
theorem AccountOk.of_eq {s t : State} (h : AccountOk s) (hn : t.nodes = s.nodes) (hc : t.chain = s.chain) :
    AccountOk t := by
  have g := h.core.of_eq hn hc
  exact ⟨g.sum, g.bound, g.unpowered, g.listed, fun k hk => by
    rw [hc]; exact h.denied k (by simpa only [State.node, hn] using hk), g.once⟩

theorem AccountOk.reset : AccountOk State.reset :=
  let h := AccountCore.reset
  ⟨h.sum, h.bound, h.unpowered, h.listed, by decide, h.once⟩

/-- A chain of small changes keeps the power account and the Admission List. -/
theorem account_of_chain {s t : State} (hc : Chain s t) (h : AccountOk s) : AccountOk t := by
  have g : AccountCore t := hc.keeps (P := AccountCore) (fun m e => account_of_micro m e) h.core
    fun _ _ e => e.of_same (fun _ => rfl) rfl rfl List.filter_sublist
  refine ⟨g.sum, g.bound, g.unpowered, g.listed, fun k hd => ?_, g.once⟩
  by_contra hk
  obtain ⟨h1, h2⟩ := hc.tracks k hd hk
  exact h2 (h.denied k h1)

end Sys2Proof.Machine
end

