-- ==== Sys2Proof/Laws/KeptWindows.lean ====
section
/-! SUPPORT. The Window Table's laws (R113, R114, R129) are kept by every small change. -/

namespace Sys2Proof.Machine

/-- Enabled windows that follow: each enabled record is an old enabled record with the same mapping. -/
structure Follows (s t : State) : Prop where
  enabled : ∀ i, (t.window i).enabled = true → (s.window i).enabled = true
  kind : ∀ i, (t.window i).enabled = true → (t.window i).kind = (s.window i).kind
  base : ∀ i, (t.window i).enabled = true → (t.window i).base = (s.window i).base
  length : ∀ i, (t.window i).enabled = true → (t.window i).length = (s.window i).length
  remoteBase : ∀ i, (t.window i).enabled = true → (t.window i).remoteBase = (s.window i).remoteBase
  node : ∀ i, (t.window i).enabled = true → (t.window i).node = (s.window i).node
  segment : ∀ i, (t.window i).enabled = true → (t.window i).mirrorSegment = (s.window i).mirrorSegment

theorem Follows.of_windows {s : State} {ws : Vector Window 8} (h : ∀ i : WinIx, ws[i.val].follows (s.window i)) :
    Follows s { s with windows := ws } where
  enabled i hi := (h i).elim (fun e => by rw [show ws[i.val].enabled = true from hi] at e; cases e)
    fun e => e.1 ▸ hi
  kind i hi := (h i).elim (fun e => by rw [show ws[i.val].enabled = true from hi] at e; cases e) fun e => e.2.1
  base i hi := (h i).elim (fun e => by rw [show ws[i.val].enabled = true from hi] at e; cases e) fun e => e.2.2.1
  length i hi := (h i).elim (fun e => by rw [show ws[i.val].enabled = true from hi] at e; cases e)
    fun e => e.2.2.2.1
  remoteBase i hi := (h i).elim (fun e => by rw [show ws[i.val].enabled = true from hi] at e; cases e)
    fun e => e.2.2.2.2.1
  node i hi := (h i).elim (fun e => by rw [show ws[i.val].enabled = true from hi] at e; cases e)
    fun e => e.2.2.2.2.2.1
  segment i hi := (h i).elim (fun e => by rw [show ws[i.val].enabled = true from hi] at e; cases e)
    fun e => e.2.2.2.2.2.2.1

theorem Window.holds_iff (w : Window) : w.holdsSegment = true ↔ w.enabled = true ∧ w.isMirror = true := by
  simp [Window.holdsSegment]

theorem WindowsOk.follows {s t : State} (h : WindowsOk s) (f : Follows s t) : WindowsOk t := by
  have hseg : ∀ i, (t.window i).holdsSegment = true → (s.window i).holdsSegment = true := by
    intro i hi
    rw [Window.holds_iff] at hi ⊢
    exact ⟨f.enabled i hi.1, by simpa [Window.isMirror, f.kind i hi.1] using hi.2⟩
  refine ⟨fun i hi => ?_, fun i j hij hi hj => ?_, fun i hi => ?_, fun i j hij hi hj => ?_⟩
  · have := h.ranges i (f.enabled i hi)
    simpa [Window.inRange, Window.isMirror, f.kind i hi, f.base i hi, f.length i hi, f.remoteBase i hi,
      f.node i hi] using this
  · have := h.apart i j hij (f.enabled i hi) (f.enabled j hj)
    simpa [Window.overlaps, f.base i hi, f.length i hi, f.base j hj, f.length j hj] using this
  · have := h.placed i (hseg i hi)
    have he := ((t.window i).holds_iff.mp hi).1
    rwa [← f.segment i he, ← f.length i he] at this
  · have := h.segments i j hij (hseg i hi) (hseg j hj)
    have hei := ((t.window i).holds_iff.mp hi).1
    have hej := ((t.window j).holds_iff.mp hj).1
    rwa [← f.segment i hei, ← f.length i hei, ← f.segment j hej, ← f.length j hej] at this

theorem Follows.of_eq {s t : State} (h : t.windows = s.windows) : Follows s t := by
  have hw : ∀ i, t.window i = s.window i := fun i => by simp only [State.window, h]
  exact ⟨fun i hi => hw i ▸ hi, fun i _ => by rw [hw], fun i _ => by rw [hw], fun i _ => by rw [hw],
    fun i _ => by rw [hw], fun i _ => by rw [hw], fun i _ => by rw [hw]⟩

/-- What the search for a segment finds (R129). -/
theorem lowestBase_spec {gs : List Segment} {n b : Nat} (h : lowestBase gs n = some b) :
    b + n ≤ Config.poolSize ∧ ∀ g ∈ gs, g.meets b n = false := by
  have := List.find?_some h
  simp only [Bool.and_eq_true, decide_eq_true_eq, List.all_eq_true, Bool.not_eq_true'] at this
  exact this

/-- What an enable that binds has checked (R113). -/
theorem enableCase_checked {s : State} {i : WinIx} {w : Window} {k : Addr}
    (h : s.enableCase i w = .bind k ∨ ∃ b, s.enableCase i w = .bindMirror k b) :
    addrOf? w.node.toNat = some k ∧ w.inRange = true ∧ (s.node k).state ≠ .vacant ∧ s.conflicts i w = false := by
  unfold State.enableCase at h
  split at h
  · rcases h with h | ⟨b, h⟩ <;> cases h
  · rename_i k' hk
    split at h
    · rcases h with h | ⟨b, h⟩ <;> cases h
    · rename_i hr
      split at h
      · rcases h with h | ⟨b, h⟩ <;> cases h
      · rename_i hv
        split at h
        · rcases h with h | ⟨b, h⟩ <;> cases h
        · rename_i hc
          have hkk : k' = k := by
            split at h
            · rcases h with h | ⟨b, h⟩ <;> cases h; rfl
            · split at h
              · rcases h with h | ⟨b, h⟩ <;> cases h
              · rcases h with h | ⟨b, h⟩ <;> cases h; rfl
          subst hkk
          exact ⟨hk, by simpa using hr, hv, by simpa using hc⟩

theorem enableCase_direct {s : State} {i : WinIx} {w : Window} {k : Addr} (h : s.enableCase i w = .bind k) :
    w.isMirror = false := by
  unfold State.enableCase at h
  repeat' split at h
  all_goals first
    | (cases h; done)
    | simp_all

theorem enableCase_mirror {s : State} {i : WinIx} {w : Window} {k : Addr} {b : Nat}
    (h : s.enableCase i w = .bindMirror k b) :
    w.isMirror = true ∧ lowestBase s.segments w.length.toNat = some b := by
  unfold State.enableCase at h
  repeat' split at h
  all_goals first
    | (cases h; done)
    | simp_all

theorem conflicts_false {s : State} {i : WinIx} {w : Window} (h : s.conflicts i w = false) (j : WinIx)
    (hj : j ≠ i) (he : (s.window j).enabled = true) : w.overlaps (s.window j) = false := by
  simp only [State.conflicts, List.any_eq_false] at h
  have := h j (by simp [allWindows])
  simpa [hj, he] using this

theorem overlaps_symm (w v : Window) : w.overlaps v = v.overlaps w := by
  simp [Window.overlaps, Bool.and_comm]

theorem segments_mem {s : State} {i : WinIx} (h : (s.window i).holdsSegment = true) :
    (⟨i, (s.window i).mirrorSegment, (s.window i).length.toNat⟩ : Segment) ∈ s.segments := by
  unfold State.segments
  rw [List.mem_filterMap]
  refine ⟨i, by simp [allWindows], ?_⟩
  rw [Window.holds_iff] at h
  simp [h.1, h.2]

/-- One record enabled with fields that pass the checks. -/
theorem WindowsOk.bind {s : State} (h : WindowsOk s) (i : WinIx) (w : Window)
    (hr : w.inRange = true) (hc : ∀ j, j ≠ i → (s.window j).enabled = true → w.overlaps (s.window j) = false)
    (hp : w.isMirror = true → w.mirrorSegment + w.length.toNat ≤ Config.poolSize ∧
      ∀ j, j ≠ i → (s.window j).holdsSegment = true →
        w.mirrorSegment + w.length.toNat ≤ (s.window j).mirrorSegment ∨
          (s.window j).mirrorSegment + (s.window j).length.toNat ≤ w.mirrorSegment) :
    WindowsOk (s.setWindow i w) := by
  have hw : ∀ j, (s.setWindow i w).window j = if j = i then w else s.window j := fun j =>
    State.setWindow_window s i j w
  refine ⟨fun j hj => ?_, fun a b hab ha hb => ?_, fun j hj => ?_, fun a b hab ha hb => ?_⟩
  · rw [hw] at hj ⊢; split at hj <;> rename_i e <;> simp only [e, if_true, if_false]
    · exact hr
    · exact h.ranges j hj
  · rw [hw] at ha hb ⊢; rw [hw]
    by_cases ea : a = i <;> by_cases eb : b = i <;> simp only [ea, eb, if_true, if_false] at ha hb ⊢
    · exact absurd (ea.trans eb.symm) hab
    · exact hc b eb hb
    · rw [overlaps_symm]; exact hc a ea ha
    · exact h.apart a b hab ha hb
  · rw [hw] at hj ⊢; split at hj <;> rename_i e <;> simp only [e, if_true, if_false]
    · exact (hp ((Window.holds_iff _).mp hj).2).1
    · exact h.placed j hj
  · rw [hw] at ha hb ⊢; rw [hw]
    by_cases ea : a = i <;> by_cases eb : b = i <;> simp only [ea, eb, if_true, if_false] at ha hb ⊢
    · exact absurd (ea.trans eb.symm) hab
    · exact (hp ((Window.holds_iff _).mp ha).2).2 b eb hb
    · exact ((hp ((Window.holds_iff _).mp hb).2).2 a ea ha).symm
    · exact h.segments a b hab ha hb

theorem WindowsOk.enable {s : State} (h : WindowsOk s) (i : WinIx) (hd : (s.window i).enabled = false) :
    WindowsOk (s.tryEnable i) := by
  unfold State.tryEnable; dsimp only; split
  · refine h.follows (Follows.of_windows fun j => ?_)
    have := State.setWindow_window s i j { s.window i with enableStatus := ‹Status› }
    simp only [State.window, State.setWindow] at this ⊢
    rw [this]
    by_cases e : j = i
    · subst e; simp only [if_true]; exact .inl hd
    · simp only [e, if_false]; exact Window.follows_refl _
  · rename_i k hk
    obtain ⟨-, hr, -, hc⟩ := enableCase_checked (.inl hk)
    have hm := enableCase_direct hk
    refine h.bind i _ hr (fun j hj he => conflicts_false hc j hj he) fun hx => ?_
    rw [show ((s.window i).bound (s.node k).incarnation).isMirror = (s.window i).isMirror from rfl, hm] at hx
    cases hx
  · rename_i k b hk
    obtain ⟨-, hr, -, hc⟩ := enableCase_checked (.inr ⟨b, hk⟩)
    obtain ⟨hm, hb⟩ := enableCase_mirror hk
    obtain ⟨hl, hg⟩ := lowestBase_spec hb
    have := h.bind i { (s.window i).bound (s.node k).incarnation with mirrorSegment := b, stale := true } hr
      (fun j hj he => conflicts_false hc j hj he) fun _ => ⟨hl, fun j hj hs => ?_⟩
    · exact this.follows (Follows.of_eq rfl)
    · have := hg _ (segments_mem hs)
      simp only [Segment.meets, Bool.and_eq_false_iff, decide_eq_false_iff_not, Nat.not_lt] at this
      exact this.symm

theorem resetTo_window (s : State) (pins : Pins) (cause : ResetCause) (i : WinIx) :
    (s.resetTo pins cause).window i = Window.reset := by
  show (Vector.replicate 8 Window.reset)[i.val] = _
  simp

theorem windows_of_micro {s t : State} (hm : Micro s t) (h : WindowsOk s) : WindowsOk t := by
  cases hm with
  | other hw => exact h.follows (.of_eq hw)
  | windows ws hf => exact h.follows (.of_windows hf)
  | enable i hd => exact h.enable i hd
  | reset pins cause =>
    refine ⟨fun i hi => ?_, fun i j _ hi => ?_, fun i hi => ?_, fun i j _ hi => ?_⟩
    all_goals rw [resetTo_window] at hi; cases hi
  | notices | post | cmd | reserve | queue | enqueueHost | enqueueMgmt | chain | budget | land | vacateAll
  | keepRecords | node | release | sense | admitted | admitHead | deny | vacate =>
    exact h.follows (.of_eq (by simp))

/-! ### Bindings -/

theorem binding_of_micro {s t : State} (hm : Micro s t) (h : BindingOk s) : BindingOk t := by
  -- a change that leaves the windows and, for each record that is not VACANT, incarnation and occupancy
  have keep : ∀ {t : State}, t.windows = s.windows →
      (∀ k, (s.node k).state ≠ .vacant → s.unbound k ∨
        ((t.node k).state ≠ .vacant ∧ (t.node k).incarnation = (s.node k).incarnation)) → BindingOk t := by
    intro t hw hn i k he ha hk
    have hwi : t.window i = s.window i := by simp only [State.window, hw]
    rw [hwi] at he ha hk ⊢
    obtain ⟨hv, hi⟩ := h i k he ha hk
    rcases hn k hv with hu | hn
    · exact absurd hk (hu i he ha)
    · exact ⟨hn.1, hn.2.trans hi⟩
  have same : ∀ {t : State}, t.windows = s.windows → t.nodes = s.nodes → BindingOk t := fun hw hn =>
    keep hw fun k hv => .inr (by simp only [State.node, hn]; exact ⟨hv, trivial⟩)
  have one : ∀ {t : State} (k : Addr) (r : NodeRecord), t.windows = s.windows →
      (∀ j, t.node j = if j = k then r else s.node j) → r.incarnation = (s.node k).incarnation →
      ((s.node k).state ≠ .vacant → r.state ≠ .vacant) → BindingOk t := by
    intro t k r hw hn hi hv
    refine keep hw fun j hj => .inr ?_
    rw [hn]; split
    · subst_vars; exact ⟨hv hj, hi⟩
    · exact ⟨hj, rfl⟩
  cases hm with
  | other hw _ _ hn => exact same hw hn
  | notices | post | cmd | reserve | queue | enqueueHost | enqueueMgmt | chain | budget | land =>
    exact same (by simp) (by simp)
  | node k r hr => exact one k r rfl (fun j => State.setNode_node s k j r) hr.incarnation hr.occupied
  | release k => exact one k _ (by simp) (fun j => release_node s k j) rfl id
  | sense k i hv =>
    refine keep rfl fun j hj => .inr ?_
    have : j ≠ k := fun e => hj (e ▸ hv)
    rw [State.modNode_node, if_neg this]; exact ⟨hj, rfl⟩
  | admitted k hv =>
    refine keep (by simp) fun j hj => .inr ?_
    unfold State.admitted; split
    · rw [State.enqueueMgmt_node, State.modNode_node]; split
      · subst_vars; exact ⟨nofun, rfl⟩
      · exact ⟨hj, rfl⟩
    · exact ⟨hj, rfl⟩
  | admitHead k ks =>
    refine keep (by simp) fun j hj => .inr ?_
    unfold State.admitted; split
    · rw [State.enqueueMgmt_node, State.modNode_node]; split
      · subst_vars; exact ⟨nofun, rfl⟩
      · exact ⟨hj, rfl⟩
    · exact ⟨hj, rfl⟩
  | deny k hv =>
    exact one k { s.node k with state := .denied } rfl
      (fun j => State.modNode_node s k j fun r => { r with state := .denied }) rfl fun _ => nofun
  | vacate k hp ha hw =>
    refine keep rfl fun j hj => ?_
    by_cases e : j = k
    · subst e; exact .inl hw
    · rw [State.modNode_node, if_neg e]; exact .inr ⟨hj, rfl⟩
  | vacateAll hw => exact keep (by simp) fun j _ => .inl (hw j)
  | keepRecords =>
    refine keep (by simp) fun j hj => .inr ?_
    rw [State.keepRecords_node]
    refine ⟨?_, rfl⟩
    simp only [NodeRecord.keepReset]; split
    · nofun
    · exact hj
  | windows ws hf =>
    intro i k he ha hk
    rcases hf i with hd | ⟨h1, h2, h3, h4, h5, h6, h7, h8, h9⟩
    · rw [show ws[i.val].enabled = true from he] at hd; cases hd
    · have := h i k (h1 ▸ he) (h9 ha) (h6 ▸ hk)
      exact ⟨this.1, this.2.trans h8.symm⟩
  | enable i hd =>
    have bind : ∀ (w : Window) (k : Addr), w.boundIncarnation = (s.node k).incarnation →
        addrOf? w.node.toNat = some k → (s.node k).state ≠ .vacant → BindingOk (s.setWindow i w) := by
      intro w k hb hk hv j k' he ha hk'
      have hw := State.setWindow_window s i j w
      rw [hw] at he ha hk' ⊢
      by_cases e : j = i
      · simp only [e, if_true] at hk' ⊢
        rw [hk] at hk'; cases hk'
        exact ⟨hv, hb.symm⟩
      · simp only [e, if_false] at he ha hk' ⊢
        exact h j k' he ha hk'
    unfold State.tryEnable; dsimp only; split
    · intro j k he ha hk
      have hw := State.setWindow_window s i j { s.window i with enableStatus := ‹Status› }
      rw [hw] at he ha hk ⊢
      by_cases e : j = i
      · simp only [e, if_true, hd] at he; cases he
      · simp only [e, if_false] at he ha hk ⊢
        exact h j k he ha hk
    · rename_i k hk
      obtain ⟨ha, -, hv, -⟩ := enableCase_checked (.inl hk)
      exact bind ((s.window i).bound (s.node k).incarnation) k rfl ha hv
    · rename_i k b hk
      obtain ⟨ha, -, hv, -⟩ := enableCase_checked (.inr ⟨b, hk⟩)
      exact bind { (s.window i).bound (s.node k).incarnation with mirrorSegment := b, stale := true } k rfl ha
        hv
  | reset pins cause =>
    intro i k he
    rw [resetTo_window] at he; cases he

end Sys2Proof.Machine
end

