-- ==== Sys2Proof/Laws/Finish.lean ====
section
/-! SUPPORT. The end of an event (R73, R78): what the serving of slots and the Dispatcher's choice leave
unchanged, when they change nothing, and that they leave no work undone. -/

namespace Sys2Proof.Machine

variable (s : State)

/-! ### What the Dispatcher's choice leaves unchanged -/

@[simp] theorem countAttempt_frame (t : TagId) :
    (s.countAttempt t).pins = s.pins ∧ (s.countAttempt t).ctl = s.ctl ∧ (s.countAttempt t).lbi = s.lbi ∧
      (s.countAttempt t).windows = s.windows ∧ (s.countAttempt t).chain = s.chain ∧
      (s.countAttempt t).mirror = s.mirror ∧ (s.countAttempt t).cmd = s.cmd ∧
      (s.countAttempt t).notices = s.notices ∧ (s.countAttempt t).pending = s.pending ∧
      (s.countAttempt t).queue.length = s.queue.length ∧
      (s.countAttempt t).hostCount = s.hostCount := by
  unfold State.countAttempt; split
  · dsimp only; split
    · refine ⟨rfl, rfl, rfl, rfl, rfl, rfl, rfl, rfl, rfl, by simp [State.modEntryOf], ?_⟩
      simp only [State.hostCount, State.modEntryOf, List.countP_map]
      refine List.countP_congr fun e _ => ?_
      by_cases h : e.tag = some t <;> simp [h, Entry.isHost]
    · exact ⟨rfl, rfl, rfl, rfl, rfl, rfl, rfl, rfl, rfl, rfl, rfl⟩
  · exact ⟨rfl, rfl, rfl, rfl, rfl, rfl, rfl, rfl, rfl, rfl, rfl⟩

/-- What a choice leaves unchanged: everything but the Chain Port, the tags, the records and the entry sent. -/
structure ChoiceFrame (s t : State) : Prop where
  pins : t.pins = s.pins
  ctl : t.ctl = s.ctl
  lbi : t.lbi = s.lbi
  windows : t.windows = s.windows
  chain : t.chain = s.chain
  mirror : t.mirror = s.mirror
  cmd : t.cmd = s.cmd
  notices : t.notices = s.notices
  pending : t.pending = s.pending
  length : t.queue.length = s.queue.length
  hosts : t.hostCount = s.hostCount

theorem ChoiceFrame.rfl : ChoiceFrame s s :=
  ⟨.refl _, .refl _, .refl _, .refl _, .refl _, .refl _, .refl _, .refl _, .refl _, .refl _, .refl _⟩

theorem serveClaim_frame (c : Claim) (h : s.claim = some c) : ChoiceFrame s (s.serveClaim c) := by
  cases c with
  | ack k => exact ⟨rfl, rfl, rfl, rfl, rfl, rfl, rfl, rfl, rfl, rfl, rfl⟩
  | resend t f =>
    obtain ⟨h1, h2, h3, h4, h5, h6, h7, h8, h9, h10, h11⟩ := countAttempt_frame s t
    exact ⟨h1, h2, h3, h4, h5, h6, h7, h8, h9, h10, h11⟩
  | ping k t => exact ⟨rfl, rfl, rfl, rfl, rfl, rfl, rfl, rfl, rfl, rfl, rfl⟩
  | entry i e t =>
    have hq := claim_entry s h
    have key : ∀ u : State, ChoiceFrame s u → ∀ f, ChoiceFrame s
        ((if (s.formed e).op = .assign then u else
          u.modNode (s.formed e).node fun r => { r with inFlightTag := some t }).transmit f) := by
      intro u hu f
      obtain ⟨h1, h2, h3, h4, h5, h6, h7, h8, h9, h10, h11⟩ := hu
      split
      · exact ⟨h1, h2, h3, h4, h5, h6, h7, h8, h9, h10, h11⟩
      · exact ⟨h1, h2, h3, h4, h5, h6, h7, h8, h9, h10, h11⟩
    have set : ∀ x e', e'.origin = e.origin →
        ChoiceFrame s { s.setTag t x with queue := s.queue.set i e' } := fun x e' ho =>
      ⟨rfl, rfl, rfl, rfl, rfl, rfl, rfl, rfl, rfl, by simp,
        countP_set_of_eq Entry.isHost s.queue i e e' hq (isHost_congr ho)⟩
    let e' := s.formed e
    let bit := s.bitFor e'.op e'.node
    let flight : Flight :=
      { holder := .entry, node := e'.node, kind := e'.op, sentBit := bit, synthAttempts := 0,
        timer := s.responseTimer }
    let sent : Entry := { e' with state := .inFlight, tag := some t, sentBit := some bit, attempts := 1 }
    exact key _ (set (.busy flight) sent (formed_origin s e)) (e'.frame t bit)

theorem dispatch_frame : ChoiceFrame s s.dispatch := by
  unfold State.dispatch; split
  · split
    · exact .rfl s
    · rename_i c hc; exact serveClaim_frame s c hc
  · exact .rfl s

/-- The link is up after a choice as it was before. -/
@[simp] theorem dispatch_linkUp : s.dispatch.linkUp = s.linkUp := by
  simp only [State.linkUp, (dispatch_frame s).chain, (dispatch_frame s).pins]

/-- A choice with the transmitter SENDING, or with the link not up, sends nothing (R78, R181). -/
theorem dispatch_idle (h : s.port.tx.isSome ∨ s.linkUp = false) : s.dispatch = s := by
  unfold State.dispatch
  rcases h with h | h
  · simp [Option.isNone_eq_false_iff.mpr h]
  · simp [h]

theorem serveClaim_tx (c : Claim) : (s.serveClaim c).port.tx.isSome := by cases c <;> rfl

/-! ### What the serving of slots leaves unchanged -/

theorem completeWaits_frame (st : Status) (l : List UnfenceWait) : ∀ s : State,
    let t := l.foldl (fun s u => s.complete (plainCompletion u.ticket .unfence st (addrNum u.node))) s
    t.pins = s.pins ∧ t.ctl = s.ctl ∧ t.lbi = s.lbi ∧ t.windows = s.windows ∧ t.queue = s.queue ∧
      t.disp = s.disp ∧ t.port = s.port ∧ t.chain = s.chain ∧ t.nodes = s.nodes ∧ t.mirror = s.mirror ∧
      t.notices = s.notices ∧ t.pending = s.pending := by
  induction l with
  | nil => intro s; exact ⟨rfl, rfl, rfl, rfl, rfl, rfl, rfl, rfl, rfl, rfl, rfl, rfl⟩
  | cons u l ih => intro s; simpa using ih (s.complete (plainCompletion u.ticket .unfence st (addrNum u.node)))

/-- What a backlog step leaves unchanged: the host side, the tags, the Chain Port and the pool; it changes no
backlog step but its own, and CHAIN_PWR_EN and BUDGET stay. -/
structure BacklogFrame (s t : State) : Prop where
  pins : t.pins = s.pins
  ctl : t.ctl = s.ctl
  lbi : t.lbi = s.lbi
  windows : t.windows = s.windows
  disp : t.disp = s.disp
  port : t.port = s.port
  mirror : t.mirror = s.mirror
  pending : t.pending = s.pending
  pwrEn : t.chain.pwrEn = s.chain.pwrEn
  budget : t.chain.budget = s.chain.budget
  state : t.chain.state = s.chain.state
  tail : t.chain.tail = s.chain.tail
  rescans : t.chain.rescans = s.chain.rescans

theorem BacklogFrame.rfl : BacklogFrame s s :=
  ⟨.refl _, .refl _, .refl _, .refl _, .refl _, .refl _, .refl _, .refl _, .refl _, .refl _, .refl _, .refl _,
    .refl _⟩

theorem BacklogFrame.trans {s t u : State} (h : BacklogFrame s t) (g : BacklogFrame t u) : BacklogFrame s u :=
  ⟨g.pins.trans h.pins, g.ctl.trans h.ctl, g.lbi.trans h.lbi, g.windows.trans h.windows, g.disp.trans h.disp,
    g.port.trans h.port, g.mirror.trans h.mirror, g.pending.trans h.pending, g.pwrEn.trans h.pwrEn,
    g.budget.trans h.budget, g.state.trans h.state, g.tail.trans h.tail, g.rescans.trans h.rescans⟩

theorem admit_chain (k : Addr) : (s.admitted k).chain.backlog = s.chain.backlog ∧
    BacklogFrame s (s.admitted k) := by
  unfold State.admitted; split
  · refine ⟨by simp, ?_⟩
    constructor <;> simp
  · exact ⟨rfl, .rfl s⟩

theorem enqueueMgmt_chain (op : Op) (k : Addr) : (s.enqueueMgmt op k).chain.backlog = s.chain.backlog ∧
    BacklogFrame s (s.enqueueMgmt op k) := by
  refine ⟨by simp, ?_⟩
  constructor <;> simp

theorem completeWaits_chain (p : Addr → Bool) (st : Status) :
    (s.completeWaits p st).chain.backlog = s.chain.backlog ∧ BacklogFrame s (s.completeWaits p st) := by
  unfold State.completeWaits; dsimp only
  obtain ⟨h1, h2, h3, h4, h5, h6, h7, h8, h9, h10, h11, h12⟩ := completeWaits_frame st
    (s.chain.unfenceWaits.filter fun u => p u.node)
    { s with chain := { s.chain with unfenceWaits := s.chain.unfenceWaits.filter fun u => !p u.node } }
  refine ⟨by rw [h8], ?_⟩
  exact ⟨h1, h2, h3, h4, h6, h7, h10, h12, by rw [h8], by rw [h8], by rw [h8], by rw [h8], by rw [h8]⟩

theorem decideAdmission_chain (k : Addr) (b : Bool) :
    (s.decideAdmission k b).chain.backlog = s.chain.backlog ∧ BacklogFrame s (s.decideAdmission k b) := by
  unfold State.decideAdmission; split
  · dsimp only
    obtain ⟨h1, h2⟩ := completeWaits_chain
      (if (decide (s.chain.committed + s.demandOf k ≤ s.chain.budget) && (s.chain.admission.isEmpty || b)) = true
        then s.admitted k else s.deny k) (· == k) .ok
    split at h1 <;> rename_i hc
    · rw [if_pos hc] at h2
      simp only [hc, if_true]
      exact ⟨h1.trans (admit_chain s k).1, (admit_chain s k).2.trans h2⟩
    · rw [if_neg hc] at h2
      simp only [hc]
      have hd : BacklogFrame s (s.deny k) := by constructor <;> rfl
      exact ⟨h1.trans rfl, hd.trans h2⟩
  · exact ⟨rfl, .rfl s⟩

theorem takeStep_chain (st : MgmtStep) :
    (s.takeStep st).chain.backlog = s.chain.backlog ∧ BacklogFrame s (s.takeStep st) := by
  unfold State.takeStep; split
  · exact enqueueMgmt_chain _ _ _
  · exact enqueueMgmt_chain _ _ _
  · exact enqueueMgmt_chain _ _ _
  · exact decideAdmission_chain _ _ _
  · exact enqueueMgmt_chain _ _ _
  · exact ⟨rfl, .rfl s⟩

theorem serveAdmission_chain (l : List Addr) : ∀ s : State,
    (State.serveAdmission l s).1.chain.backlog = s.chain.backlog ∧
      BacklogFrame s (State.serveAdmission l s).1 ∧
      ((State.serveAdmission l s).2 = false → (State.serveAdmission l s).1.mgmtSlotFree = false) := by
  induction l with
  | nil => exact fun s => ⟨rfl, .rfl s, nofun⟩
  | cons k ks ih =>
    intro s
    unfold State.serveAdmission
    split
    · split
      · let u : State := { s with chain := { s.chain with admission := ks } }
        have hu : BacklogFrame s u := by constructor <;> rfl
        obtain ⟨h1, h2, h3⟩ := ih (u.admitted k)
        exact ⟨h1.trans (admit_chain u k).1, (hu.trans (admit_chain u k).2).trans h2, h3⟩
      · rename_i h; exact ⟨rfl, .rfl s, fun _ => by simpa using h⟩
    · exact ⟨rfl, .rfl s, nofun⟩

theorem serveSteps_chain (l : List MgmtStep) : ∀ s : State, s.chain.backlog = l →
    BacklogFrame s (State.serveSteps l s) ∧
      ((State.serveSteps l s).chain.backlog = [] ∨ (State.serveSteps l s).mgmtSlotFree = false) := by
  induction l with
  | nil => exact fun s h => ⟨.rfl s, .inl h⟩
  | cons st rest ih =>
    intro s hb
    unfold State.serveSteps
    split
    · let u : State := { s with chain := { s.chain with backlog := rest } }
      have hu : BacklogFrame s u := by constructor <;> rfl
      dsimp only
      split
      · obtain ⟨h1, h2, h3⟩ := serveAdmission_chain u.chain.admission u
        split
        · obtain ⟨h4, h5⟩ := ih _ h1
          exact ⟨(hu.trans h2).trans h4, h5⟩
        · rename_i hf
          have := h3 (by simpa using hf)
          refine ⟨(hu.trans h2).trans (by constructor <;> rfl), .inr this⟩
      · obtain ⟨h1, h2⟩ := takeStep_chain u st
        obtain ⟨h4, h5⟩ := ih _ h1
        exact ⟨(hu.trans h2).trans h4, h5⟩
    · rename_i hf
      exact ⟨.rfl s, .inr (by simpa using hf)⟩

theorem serveBacklog_chain : BacklogFrame s s.serveBacklog ∧
    (s.serveBacklog.chain.backlog = [] ∨ s.serveBacklog.mgmtSlotFree = false) :=
  serveSteps_chain _ s rfl

/-- What serving the waiting cycle leaves unchanged. -/
structure CycleFrame (s t : State) : Prop where
  ctl : t.ctl = s.ctl
  windows : t.windows = s.windows
  disp : t.disp = s.disp
  port : t.port = s.port
  chain : t.chain = s.chain
  nodes : t.nodes = s.nodes
  mirror : t.mirror = s.mirror
  cmd : t.cmd = s.cmd
  notices : t.notices = s.notices
  pending : t.pending = s.pending
  longer : s.queue.length ≤ t.queue.length

theorem CycleFrame.rfl : CycleFrame s s :=
  ⟨.refl _, .refl _, .refl _, .refl _, .refl _, .refl _, .refl _, .refl _, .refl _, .refl _, Nat.le_refl _⟩

theorem enqueueHost_longer (e : Entry) : s.queue.length ≤ (s.enqueueHost e).queue.length := by
  unfold State.enqueueHost; split <;> simp

theorem queueCycle_frame (c : HeldCycle) : CycleFrame s (s.queueCycle c) := by
  unfold State.queueCycle; dsimp only; split
  · constructor <;> simp [enqueueHost_longer]
  · constructor <;> simp [enqueueHost_longer]

theorem serveCycle_frame : CycleFrame s s.serveCycle := by
  unfold State.serveCycle; split
  · exact .rfl s
  · split
    · exact queueCycle_frame s _
    · exact .rfl s

/-- With no cycle in the slot there is none to serve. -/
theorem serveCycle_none (h : s.lbi.slot = none) : s.serveCycle = s := by simp [State.serveCycle, h]

/-- With an empty backlog and no cycle in the slot there is nothing to serve. -/
theorem serveSlots_quiet (hb : s.chain.backlog = []) (hl : s.lbi.slot = none) : s.serveSlots = s := by
  have h : s.serveBacklog = s := by simp only [State.serveBacklog, hb, State.serveSteps]
  rw [State.serveSlots, h, serveCycle_none s hl]

/-- The end of an event in a part with nothing to serve and no frame to choose. -/
theorem finish_quiet (hb : s.chain.backlog = []) (hl : s.lbi.slot = none)
    (hp : s.port.tx.isSome ∨ s.linkUp = false) : s.finish = s := by
  rw [State.finish, serveSlots_quiet s hb hl, dispatch_idle s hp]

/-! ### What the end of an event leaves unchanged -/

theorem finish_ctl : s.finish.ctl = s.ctl := by
  rw [State.finish, (dispatch_frame _).ctl, State.serveSlots, (serveCycle_frame _).ctl,
    (serveBacklog_chain s).1.ctl]

theorem finish_windows : s.finish.windows = s.windows := by
  rw [State.finish, (dispatch_frame _).windows, State.serveSlots, (serveCycle_frame _).windows,
    (serveBacklog_chain s).1.windows]

theorem finish_mirror : s.finish.mirror = s.mirror := by
  rw [State.finish, (dispatch_frame _).mirror, State.serveSlots, (serveCycle_frame _).mirror,
    (serveBacklog_chain s).1.mirror]

theorem finish_pending : s.finish.pending = s.pending := by
  rw [State.finish, (dispatch_frame _).pending, State.serveSlots, (serveCycle_frame _).pending,
    (serveBacklog_chain s).1.pending]

theorem finish_chain : s.finish.chain = s.serveBacklog.chain := by
  rw [State.finish, (dispatch_frame _).chain, State.serveSlots, (serveCycle_frame _).chain]

theorem finish_cmd : s.finish.cmd = s.serveBacklog.cmd := by
  rw [State.finish, (dispatch_frame _).cmd, State.serveSlots, (serveCycle_frame _).cmd]

theorem finish_notices : s.finish.notices = s.serveBacklog.notices := by
  rw [State.finish, (dispatch_frame _).notices, State.serveSlots, (serveCycle_frame _).notices]

theorem serveCycle_pins (h : s.lbi.slot = none) : s.serveCycle.pins = s.pins := by rw [serveCycle_none s h]

theorem finish_pins (h : s.lbi.slot = none) : s.finish.pins = s.pins := by
  have h' : s.serveBacklog.lbi.slot = none := by rw [(serveBacklog_chain s).1.lbi]; exact h
  rw [State.finish, (dispatch_frame _).pins, State.serveSlots, serveCycle_none _ h',
    (serveBacklog_chain s).1.pins]

theorem finish_lbi (h : s.lbi.slot = none) : s.finish.lbi = s.lbi := by
  have h' : s.serveBacklog.lbi.slot = none := by rw [(serveBacklog_chain s).1.lbi]; exact h
  rw [State.finish, (dispatch_frame _).lbi, State.serveSlots, serveCycle_none _ h',
    (serveBacklog_chain s).1.lbi]

/-! ### The end of an event leaves no work undone -/

theorem mgmtSlotFree_of_longer {s t : State} (h : s.queue.length ≤ t.queue.length)
    (hf : s.mgmtSlotFree = false) : t.mgmtSlotFree = false := by
  simp only [State.mgmtSlotFree, decide_eq_false_iff_not] at hf ⊢; omega

theorem serveCycle_waits (c : HeldCycle) (h : s.serveCycle.lbi.slot = some c) (hp : c.phase = .slotWait) :
    s.serveCycle.hostSlotFree = false := by
  cases hs : s.lbi.slot with
  | none => rw [serveCycle_none s hs, hs] at h; cases h
  | some d =>
    by_cases hc : d.phase = .slotWait ∧ s.hostSlotFree = true
    · have he : s.serveCycle = s.queueCycle d := by simp [State.serveCycle, hs, hc]
      exfalso
      rw [he] at h
      unfold State.queueCycle at h
      dsimp only at h; split at h
      · simp [State.endHeld, hs] at h
      · simp only [Option.some.injEq] at h; subst h; cases hp
    · have he : s.serveCycle = s := by simp [State.serveCycle, hs, hc]
      rw [he] at h ⊢
      rw [hs] at h; cases h
      simpa [hp] using hc

theorem finish_settled : Settled s.finish := by
  have d := dispatch_frame s.serveSlots
  have c := serveCycle_frame s.serveBacklog
  refine ⟨?_, ?_, ?_⟩
  · rw [State.finish, d.chain, State.serveSlots, c.chain]
    rcases (serveBacklog_chain s).2 with h | h
    · exact .inl h
    · refine .inr (mgmtSlotFree_of_longer ?_ h)
      exact c.longer.trans (Nat.le_of_eq d.length.symm)
  · intro x hx hp
    rw [State.finish, d.lbi] at hx
    have h := serveCycle_waits _ x hx hp
    have hl := d.length
    have hh := d.hosts
    unfold State.hostSlotFree at h ⊢
    rw [State.finish, hl, hh]; exact h
  · intro ht hp
    rw [State.finish] at ht hp ⊢
    cases hn : s.serveSlots.claim with
    | none =>
      have hd : s.serveSlots.dispatch = s.serveSlots := by simp [State.dispatch, hn]
      rw [hd]; exact hn
    | some x =>
      rw [dispatch_linkUp] at hp
      by_cases hi : s.serveSlots.port.tx.isNone = true
      · have hd : s.serveSlots.dispatch = s.serveSlots.serveClaim x := by simp [State.dispatch, hn, hi, hp]
        have := serveClaim_tx s.serveSlots x
        rw [hd] at ht; rw [ht] at this; cases this
      · have hd : s.serveSlots.dispatch = s.serveSlots := by simp [State.dispatch, hi]
        rw [hd] at ht; simp [ht] at hi

end Sys2Proof.Machine
end

