-- ==== Sys2Proof/Laws/Rows.lean ====
section
/-! SUPPORT. What exec answers for each row of the host bus and of the chain, in terms of the shared operation it
names, under the condition that lets it act. -/

namespace Sys2Proof.Machine

variable {s : State} {c : Instr} {w : Word}

/-! ### Release of D[15:0] -/

@[simp] theorem released_ctl : s.released.ctl = s.ctl := rfl
@[simp] theorem released_lbi : s.released.lbi = s.lbi := rfl
@[simp] theorem released_windows : s.released.windows = s.windows := rfl
@[simp] theorem released_queue : s.released.queue = s.queue := rfl
@[simp] theorem released_disp : s.released.disp = s.disp := rfl
@[simp] theorem released_port : s.released.port = s.port := rfl
@[simp] theorem released_chain : s.released.chain = s.chain := rfl
@[simp] theorem released_nodes : s.released.nodes = s.nodes := rfl
@[simp] theorem released_mirror : s.released.mirror = s.mirror := rfl
@[simp] theorem released_cmd : s.released.cmd = s.cmd := rfl
@[simp] theorem released_notices : s.released.notices = s.notices := rfl
@[simp] theorem released_pending : s.released.pending = s.pending := rfl
@[simp] theorem released_node (k : Addr) : s.released.node k = s.node k := rfl
@[simp] theorem released_tag (t : TagId) : s.released.tag t = s.tag t := rfl
@[simp] theorem released_window (i : WinIx) : s.released.window i = s.window i := rfl
@[simp] theorem released_pins : s.released.pins = { s.pins with busData := none } := rfl
@[simp] theorem released_hostSlotFree : s.released.hostSlotFree = s.hostSlotFree := rfl
@[simp] theorem released_mgmtSlotFree : s.released.mgmtSlotFree = s.mgmtSlotFree := rfl
@[simp] theorem released_wayOpen : s.released.wayOpen = s.wayOpen := rfl
@[simp] theorem released_closePending (k : Addr) : s.released.closePending k = s.closePending k := rfl

/-! ### Host cycles -/

theorem hostCycle_ready (f : State → State) (h : s.hostReady = true) : s.hostCycle f = f s.released := by
  simp [State.hostCycle, h, State.released]

theorem hostCycle_idle (f : State → State) (h : s.hostReady = false) : s.hostCycle f = s := by
  simp [State.hostCycle, h]

/-- A recognised cycle finds the slot EMPTY. -/
theorem hostReady_slot (h : s.hostReady = true) : s.lbi.slot = none := by
  simp only [State.hostReady, Bool.and_eq_true, Option.isNone_iff_eq_none] at h; exact h.2

theorem exec_control (h : controlWritten c = some w) (hr : s.hostReady = true) :
    exec c s = .next (s.released.controlWrite w) := by
  cases c <;> simp only [controlWritten, Option.some.injEq, reduceCtorEq] at h <;> subst h <;>
    simp [exec, execChainEnableSet, execChainEnableClear, execAutoRewalkWrite, execNoticeIeWrite,
      execCompletionIeWrite, execSoftReset, hostCycle_ready _ hr]

theorem exec_submit (h : submitted c = some w) (hr : s.hostReady = true) :
    exec c s = .next (s.released.submit w) := by
  cases c <;> simp only [submitted, Option.some.injEq, reduceCtorEq] at h <;> subst h <;>
    simp [exec, execRead, execWrite, execFence, execUnfence, execNreset, execRefresh, execRescan, execCancel,
      execSubmitKindNamesNoKind, hostCycle_ready _ hr]

theorem exec_status (h : c = .budgetRefusedClear w ∨ c = .noticeOverflowClear w) (hr : s.hostReady = true) :
    exec c s = .next (s.released.statusWrite w) := by
  rcases h with rfl | rfl <;>
    simp [exec, execBudgetRefusedClear, execNoticeOverflowClear, hostCycle_ready _ hr]

theorem exec_apertureAccess (o : BitVec 10) (a : Access) (hr : s.hostReady = true) :
    exec (.apertureAccess o a) s = .next (s.released.apertureAccess o a) := by
  simp [exec, execApertureAccess, hostCycle_ready _ hr]

theorem exec_timing (r : TimingReg) (hr : s.hostReady = true) :
    exec (.timingRegisterWrite r w) s = .next (s.released.timingWrite r w) := by
  simp [exec, execTimingRegisterWrite, hostCycle_ready _ hr]

theorem exec_budget (hr : s.hostReady = true) : exec (.budgetWrite w) s = .next (s.released.budgetWrite w) := by
  simp [exec, execBudgetWrite, hostCycle_ready _ hr]

theorem exec_windowField (i : WinIx) (n : Fin 8) (hr : s.hostReady = true) :
    exec (.windowFieldWrite i n w) s = .next (s.released.windowWrite i n w) := by
  simp [exec, execWindowFieldWrite, hostCycle_ready _ hr]

theorem exec_windowEnable (i : WinIx) (hr : s.hostReady = true) :
    exec (.windowEnable i w) s = .next (s.released.windowWrite i 0 w) := by
  simp [exec, execWindowEnable, hostCycle_ready _ hr]

theorem exec_windowDisable (i : WinIx) (hr : s.hostReady = true) :
    exec (.windowDisable i w) s = .next (s.released.windowWrite i 0 w) := by
  simp [exec, execWindowDisable, hostCycle_ready _ hr]

theorem exec_refreshOnAttn (k : Addr) (hr : s.hostReady = true) :
    exec (.refreshOnAttnWrite k w) s = .next (s.released.refreshOnAttnWrite k w) := by
  simp [exec, execRefreshOnAttnWrite, hostCycle_ready _ hr]

theorem exec_registerWrite (a : BitVec 11) (x : Access) (hr : s.hostReady = true) :
    exec (.registerWrite a x) s = .next (s.released.hostAccess a x) := by
  simp [exec, execRegisterWrite, hostCycle_ready _ hr]

theorem lowByte_toNat (w : Word) : (lowByte w).toNat = w.toNat % 256 := by simp [lowByte, fieldAt]

theorem serves_iff (k : Addr) : (s.node k).serves = true ↔ s.inService k := by
  simp [NodeRecord.serves, State.inService]

/-- A node number names the address it is the number of. -/
theorem addrOf_num {n : Nat} {k : Addr} (h : n = addrNum k) : addrOf? n = some k := by
  subst h; revert k; decide

/-! ### CLK_IN -/

theorem clocked_on (f : State → State) (h : s.pins.clkIn = true) : s.clocked f = f s := by
  simp [State.clocked, h]

theorem clocked_off (f : State → State) (h : s.pins.clkIn = false) : s.clocked f = s := by
  simp [State.clocked, h]

/-! ### Frames from the chain -/

theorem fromChain_up (f : State → State) (h : s.linkUp = true) : s.fromChain f = (f s).finish := by
  simp [State.fromChain, h]

/-- The end of an event changes nothing in a settled part. -/
theorem finish_of_settled (h : Settled s) : s.finish = s := by
  have hb : s.serveBacklog = s := by
    unfold State.serveBacklog
    rcases h.backlog with hb | hb
    · rw [hb]; rfl
    · cases hl : s.chain.backlog with
      | nil => rfl
      | cons st rest => simp [State.serveSteps, hb]
  have hc : s.serveCycle = s := by
    unfold State.serveCycle
    split
    · rfl
    · rename_i c hs
      split
      · rename_i hp; have := h.cycle c hs hp.1; simp [this] at hp
      · rfl
  have hd : s.dispatch = s := by
    unfold State.dispatch
    split
    · rename_i hp
      simp only [Bool.and_eq_true, Option.isNone_iff_eq_none] at hp
      rw [h.choice hp.1 hp.2]
    · rfl
  rw [State.finish, State.serveSlots, hb, hc, hd]

/-- The choice of an entry reads the node records only. -/
theorem firstEligible_congr {t : State} (hn : t.nodes = s.nodes) (l : List Entry) :
    ∀ seen, t.firstEligible seen l = s.firstEligible seen l := by
  have hm : ∀ e, t.mayStart e = s.mayStart e := fun e => by simp only [State.mayStart, State.node, hn]
  induction l with
  | nil => exact fun _ => rfl
  | cons e l ih => intro seen; simp only [State.firstEligible, hm, ih]

/-- The claim depends on the node records, the tags and the queue. -/
theorem claim_congr {t : State} (hn : t.nodes = s.nodes) (hd : t.disp = s.disp) (hq : t.queue = s.queue) :
    t.claim = s.claim := by
  have h1 : t.ackClaim = s.ackClaim := by simp only [State.ackClaim, State.node, hn]
  have h2 : t.resendClaim = s.resendClaim := by
    simp only [State.resendClaim, State.frameOfTag, State.tag, State.entryOf, hd, hq]
  have h3 : t.freeTag = s.freeTag := by simp only [State.freeTag, State.tag, hd]
  have h4 : t.pingClaim = s.pingClaim := by simp only [State.pingClaim, State.node, hn]
  simp only [State.claim, h1, h2, h3, h4, hq, firstEligible_congr hn]

/-- The entry that holds a tag names it. -/
theorem entryOf_tag {t : TagId} {e : Entry} (h : s.entryOf t = some e) : e.tag = some t := by
  have := List.find?_some h; simpa using this

/-- A tagged frame that R87 takes names its request. -/
theorem requestFor_answers {src : BitVec 5} {t : TagId} {seq : Bool} {ks : List Op} {f : Flight}
    (h : s.answers src t seq ks f) : s.requestFor src t seq = some f := by
  obtain ⟨h1, h2, h3, _⟩ := h
  simp [State.requestFor, h1, h2, h3]

theorem releaseTag_eq (t : TagId) (n : Nat) :
    s.releaseTag t n = { s with disp := s.tagEnded t (s.answeredTag n) } := by
  unfold State.releaseTag State.answeredTag State.tagEnded
  split <;> rfl

end Sys2Proof.Machine
end

