-- ==== Sys2Proof/Laws/Retired.lean ====
section
/-! SUPPORT. What the retirement of entries with a status other than OK leaves (R91 to R93, R100): the chain,
the pool and the records' own fields stay; tags go to HOLD; windows only become stale. -/

namespace Sys2Proof.Machine

/-- A record but for its step, its in_flight_tag and its resync; a record at rest stays as it is. -/
structure RecordKept (r t : NodeRecord) : Prop where
  rest : r.step = none → r.inFlightTag = none → (r.state = .vacant ∨ r.resync = true) → t = r
  own : t = { r with step := t.step, inFlightTag := t.inFlightTag, resync := t.resync }
  step : t.step = r.step ∨ t.step = none

theorem RecordKept.rfl (r : NodeRecord) : RecordKept r r := ⟨fun _ _ _ => .refl _, .refl _, .inl (.refl _)⟩

theorem RecordKept.state {r t : NodeRecord} (h : RecordKept r t) : t.state = r.state := by rw [h.own]

theorem RecordKept.trans {r t u : NodeRecord} (h : RecordKept r t) (g : RecordKept t u) : RecordKept r u := by
  refine ⟨fun h1 h2 h3 => ?_, ?_, ?_⟩
  · have e := h.rest h1 h2 h3
    subst e; exact g.rest h1 h2 h3
  · rw [g.own, h.own]
  · rcases g.step with e | e
    · rcases h.step with e' | e'
      · exact .inl (e.trans e')
      · exact .inr (e.trans e')
    · exact .inr e

theorem RecordKept.doubted (r : NodeRecord) : RecordKept r r.doubted := by
  refine ⟨fun h1 h2 h3 => ?_, ?_, .inl (.refl _)⟩
  · rcases h3 with h3 | h3 <;> cases r <;> simp_all [NodeRecord.doubted]
  · unfold NodeRecord.doubted; rfl

theorem RecordKept.dropStep (r : NodeRecord) (x : NodeStep) : RecordKept r (r.dropStep x) := by
  unfold NodeRecord.dropStep
  split
  · refine ⟨fun h1 _ _ => ?_, ?_, .inr ?_⟩
    · cases r; simp_all
    · rfl
    · rfl
  · exact .rfl r

/-- What a retirement leaves. -/
structure Retired (s t : State) : Prop where
  ctl : t.ctl = s.ctl
  port : t.port = s.port
  mirror : t.mirror = s.mirror
  pending : t.pending = s.pending
  chain : t.chain = s.chain
  queue : t.queue = s.queue
  nodes : ∀ k, RecordKept (s.node k) (t.node k)
  windows : ∀ i, ∃ b, t.window i = { s.window i with stale := b }
  tags : ∀ x, t.tag x = s.tag x ∨ t.tag x = .hold (2 * s.ctl.timeout)
  free : ∀ x, s.tag x = .free → t.tag x = .free ∨ t.tag x = .hold (2 * s.ctl.timeout)
  resend : ∀ x ∈ t.disp.resend, x ∈ s.disp.resend
  notices : ∀ n k, (∃ r ∈ s.notices.records, r.node = n ∧ r.kind = k) ∨ s.notices.overflow = true →
    (∃ r ∈ t.notices.records, r.node = n ∧ r.kind = k) ∨ t.notices.overflow = true
  kept : ∀ r ∈ s.notices.records, r.kind ≠ .postedWriteLost → r.kind ≠ .mirrorStale → r ∈ t.notices.records
  flag : s.notices.overflow = true → t.notices.overflow = true
  slot : t.lbi.slot = s.lbi.slot ∨ t.lbi.slot = none ∧ ∀ c, s.lbi.slot = some c → c.phase = .resultWait
  idle : s.lbi.slot = none → t.lbi = s.lbi
  pins : ∃ b, t.pins = { s.pins with busData := b }
  staging : t.cmd.staging = s.cmd.staging ∧ t.cmd.submitStatus = s.cmd.submitStatus ∧
    t.cmd.nextOrder = s.cmd.nextOrder

theorem Retired.rfl (s : State) : Retired s s where
  ctl := .refl _
  port := .refl _
  mirror := .refl _
  pending := .refl _
  chain := .refl _
  queue := .refl _
  nodes _ := .rfl _
  windows _ := ⟨_, .refl _⟩
  tags _ := .inl (.refl _)
  free _ h := .inl h
  resend _ h := h
  notices _ _ h := h
  kept _ h _ _ := h
  flag h := h
  slot := .inl (.refl _)
  idle _ := .refl _
  pins := ⟨_, .refl _⟩
  staging := ⟨.refl _, .refl _, .refl _⟩

theorem Retired.trans {s t u : State} (h : Retired s t) (g : Retired t u) : Retired s u where
  ctl := g.ctl.trans h.ctl
  port := g.port.trans h.port
  mirror := g.mirror.trans h.mirror
  pending := g.pending.trans h.pending
  chain := g.chain.trans h.chain
  queue := g.queue.trans h.queue
  nodes k := (h.nodes k).trans (g.nodes k)
  windows i := by
    obtain ⟨b, hb⟩ := h.windows i; obtain ⟨c, hc⟩ := g.windows i
    exact ⟨c, by rw [hc, hb]⟩
  tags x := by
    rcases g.tags x with e | e
    · rw [e]; exact h.tags x
    · exact .inr (by rw [e, h.ctl])
  free x hx := by
    rcases g.tags x with e | e
    · rw [e]; exact h.free x hx
    · exact .inr (by rw [e, h.ctl])
  resend x hx := h.resend x (g.resend x hx)
  notices n k hn := g.notices n k (h.notices n k hn)
  kept r hr h1 h2 := g.kept r (h.kept r hr h1 h2) h1 h2
  flag hf := g.flag (h.flag hf)
  slot := by
    rcases g.slot with e | ⟨e, e'⟩
    · rw [e]; exact h.slot
    · rcases h.slot with f | ⟨f, f'⟩
      · exact .inr ⟨e, by rw [← f]; exact e'⟩
      · exact .inr ⟨e, f'⟩
  idle hs := by
    have e := h.idle hs
    rw [g.idle (by rw [e]; exact hs), e]
  pins := by
    obtain ⟨b, hb⟩ := h.pins; obtain ⟨c, hc⟩ := g.pins
    exact ⟨c, by rw [hc, hb]⟩
  staging := ⟨g.staging.1.trans h.staging.1, g.staging.2.1.trans h.staging.2.1, g.staging.2.2.trans h.staging.2.2⟩

variable (s : State)

theorem post_keeps (q : NoticeQueue) (n m : Nat) (k j : NoticeKind) (d : Word)
    (h : (∃ r ∈ q.records, r.node = m ∧ r.kind = j) ∨ q.overflow = true) :
    (∃ r ∈ (q.post n k d).records, r.node = m ∧ r.kind = j) ∨ (q.post n k d).overflow = true := by
  unfold NoticeQueue.post
  split
  · rename_i rs hg
    rcases h with ⟨r, hr, h1, h2⟩ | h
    · left
      have hk := gatherNotice_keys hg
      have hm : (r.node, r.kind) ∈ q.records.map fun r => (r.node, r.kind) := List.mem_map_of_mem hr
      rw [← hk] at hm
      obtain ⟨r', hr', he⟩ := List.mem_map.1 hm
      simp only [Prod.mk.injEq] at he
      exact ⟨r', hr', he.1.trans h1, he.2.trans h2⟩
    · exact .inr h
  · split
    · rcases h with ⟨r, hr, h1⟩ | h
      · exact .inl ⟨r, by simp [hr], h1⟩
      · exact .inr h
    · exact .inr (by trivial)

/-- A gathering leaves the records of other kinds. -/
theorem gatherNotice_kept {n : Nat} {k : NoticeKind} {d : Word} : ∀ {l rs : List Notice},
    gatherNotice n k d l = some rs → ∀ r ∈ l, r.kind ≠ k → r ∈ rs
  | [], _, h, _, _, _ => by simp [gatherNotice] at h
  | a :: l, rs, h, r, hr, hk => by
    unfold gatherNotice at h
    split at h
    · rename_i hc
      simp only [Option.some.injEq] at h; subst h
      rcases List.mem_cons.1 hr with rfl | hr
      · exact absurd hc.2 hk
      · exact List.mem_cons_of_mem _ hr
    · cases hl : gatherNotice n k d l with
      | none => simp [hl] at h
      | some ys =>
        simp only [hl, Option.map_some, Option.some.injEq] at h; subst h
        rcases List.mem_cons.1 hr with rfl | hr
        · exact List.mem_cons_self
        · exact List.mem_cons_of_mem _ (gatherNotice_kept hl r hr hk)

/-- A posting leaves the records of other kinds (R161). -/
theorem post_kept (q : NoticeQueue) (n : Nat) (k : NoticeKind) (d : Word) (r : Notice) (hr : r ∈ q.records)
    (hk : r.kind ≠ k) : r ∈ (q.post n k d).records := by
  unfold NoticeQueue.post
  split
  · rename_i rs hg; exact gatherNotice_kept hg r hr hk
  · split
    · exact List.mem_append_left _ hr
    · exact hr

/-- A posting leaves a set overflow flag set (R166). -/
theorem post_flag (q : NoticeQueue) (n : Nat) (k : NoticeKind) (d : Word) (h : q.overflow = true) :
    (q.post n k d).overflow = true := by
  unfold NoticeQueue.post
  split
  · exact h
  · split
    · exact h
    · trivial

/-- A posting shows its detail, or the queue has overflowed (R161). -/
theorem post_shows (q : NoticeQueue) (n : Nat) (k : NoticeKind) (d : Word) : (q.post n k d).shows n k d := by
  unfold NoticeQueue.post NoticeQueue.shows
  split
  · rename_i rs hg
    left
    have : ∀ l rs, gatherNotice n k d l = some rs → ∃ r ∈ rs, r.node = n ∧ r.kind = k ∧ r.detail = d := by
      intro l
      induction l with
      | nil => intro rs h; simp [gatherNotice] at h
      | cons a l ih =>
        intro rs h
        unfold gatherNotice at h
        split at h
        · rename_i hc
          simp only [Option.some.injEq] at h; subst h
          exact ⟨_, List.mem_cons_self, hc.1, hc.2, rfl⟩
        · cases hl : gatherNotice n k d l with
          | none => simp [hl] at h
          | some ys =>
            simp only [hl, Option.map_some, Option.some.injEq] at h; subst h
            obtain ⟨r, hr, he⟩ := ih ys hl
            exact ⟨r, by simp [hr], he⟩
    exact this _ _ hg
  · split
    · exact .inl ⟨_, List.mem_append_right _ List.mem_cons_self, by simp⟩
    · exact .inr (by trivial)

/-- What shows after changes that keep the records of its kind. -/
theorem NoticeQueue.shows.kept {q p : NoticeQueue} {n : Nat} {k : NoticeKind} {d : Word} (h : q.shows n k d)
    (hk : ∀ r ∈ q.records, r.kind = k → r ∈ p.records) (hf : q.overflow = true → p.overflow = true) :
    p.shows n k d := by
  rcases h with ⟨r, hr, h1, h2, h3⟩ | h
  · exact .inl ⟨r, hk r hr h2, h1, h2, h3⟩
  · exact .inr (hf h)

/-- A posting is found in the queue, or the queue has overflowed (R161). -/
theorem post_found (q : NoticeQueue) (n : Nat) (k : NoticeKind) (d : Word) :
    (∃ r ∈ (q.post n k d).records, r.node = n ∧ r.kind = k) ∨ (q.post n k d).overflow = true := by
  rcases post_shows q n k d with ⟨r, hr, h1, h2, _⟩ | h
  · exact .inl ⟨r, hr, h1, h2⟩
  · exact .inr h

theorem retired_post (n : Nat) (k : NoticeKind) (d : Word) (hk : k = .postedWriteLost ∨ k = .mirrorStale) :
    Retired s (s.post n k d) :=
  { Retired.rfl s with
    notices := fun m j h => post_keeps s.notices n m k j d h
    kept := fun r hr h1 h2 => post_kept s.notices n k d r hr (by rcases hk with e | e <;> rw [e] <;> assumption)
    flag := post_flag s.notices n k d }

theorem retired_complete (c : Completion) : Retired s (s.complete c) := by
  have h : (s.complete c).cmd.staging = s.cmd.staging ∧ (s.complete c).cmd.submitStatus = s.cmd.submitStatus ∧
      (s.complete c).cmd.nextOrder = s.cmd.nextOrder := by
    simp only [State.complete, CommandPort.complete]; split <;> exact ⟨rfl, rfl, rfl⟩
  exact { Retired.rfl s with staging := h }

theorem retired_modNode (k : Addr) (f : NodeRecord → NodeRecord) (h : RecordKept (s.node k) (f (s.node k))) :
    Retired s (s.modNode k f) := by
  refine { Retired.rfl s with nodes := fun j => ?_ }
  by_cases e : j = k
  · subst e; simpa using h
  · have : (s.modNode k f).node j = s.node j := by
      have : (k : Nat) ≠ j := fun x => e (Fin.ext x.symm)
      simp [State.modNode, State.setNode, State.node, Vector.getElem_set_ne, this]
    rw [this]; exact .rfl _

theorem retired_holdTag (t : TagId) : Retired s (s.holdTag t) := by
  have ht : ∀ x, (s.holdTag t).tag x = s.tag x ∨ (s.holdTag t).tag x = .hold (2 * s.ctl.timeout) := by
    intro x
    by_cases e : (t : Nat) = x
    · right; simp [State.holdTag, State.setTag, State.leaveResend, State.tag, e]
    · left; simp [State.holdTag, State.setTag, State.leaveResend, State.tag, Vector.getElem_set_ne, e]
  refine { Retired.rfl s with tags := ht, free := fun x h => ?_, resend := fun x h => ?_ }
  · rcases ht x with e | e
    · exact .inl (e.trans h)
    · exact .inr e
  · simp only [State.holdTag, State.setTag, State.leaveResend, List.mem_filter] at h; exact h.1

theorem retired_endHeld (st : Status) (w : Word) (h : ∀ c, s.lbi.slot = some c → c.phase = .resultWait) :
    Retired s (s.endHeld st w) := by
  unfold State.endHeld
  split
  · exact .rfl s
  · rename_i c hc
    refine { Retired.rfl s with slot := .inr ⟨rfl, h⟩, idle := fun h => ?_, pins := ⟨_, rfl⟩ }
    rw [hc] at h; cases h

theorem retired_dropFlight (e : Entry) : Retired s (s.dropFlight e) := by
  unfold State.dropFlight
  split
  · exact .rfl s
  · split
    · exact retired_holdTag s _
    · exact (retired_holdTag s _).trans (retired_modNode _ _ _ (.doubted _))

theorem retired_completeAttached (n : Nat) (st : Status) (l : List (BitVec 8)) :
    ∀ s : State, Retired s (s.completeAttached n st l) := by
  induction l with
  | nil => exact fun s => .rfl s
  | cons t l ih => exact fun s => (retired_complete s _).trans (ih _)

theorem retired_setWindow (i : WinIx) (b : Bool) : Retired s (s.setWindow i { s.window i with stale := b }) := by
  refine { Retired.rfl s with windows := fun j => ?_ }
  by_cases e : (i : Nat) = j
  · have e : i = j := Fin.ext e
    subst e; exact ⟨b, by simp [State.setWindow, State.window]⟩
  · exact ⟨(s.window j).stale, by simp [State.setWindow, State.window, Vector.getElem_set_ne, e]⟩

/-- The delivery of a result other than OK. -/
theorem retired_deliver (e : Entry) (st : Status) (ws : List Word) (h : st ≠ .ok) :
    Retired s (s.deliver e st ws) := by
  unfold State.deliver
  split
  · unfold State.deliverAperture
    split
    · split
      · exact .rfl s
      · rename_i c hc
        split
        · rename_i hp
          refine retired_endHeld s _ _ fun d hd => ?_
          rw [hc] at hd; cases hd; exact hp.1
        · exact .rfl s
    · split
      · exact retired_post s _ _ _ (.inl (.refl _))
      · exact .rfl s
  · unfold State.deliverCommand
    split
    · refine .trans ?_ (retired_complete _ _)
      unfold State.loadOffEnded
      rw [if_neg h]
      exact retired_modNode s _ _ (.dropStep _ _)
    · rw [if_neg h]
      exact (retired_modNode s _ _ (.dropStep _ _)).trans (retired_complete _ _)
    · exact retired_complete s _
  · unfold State.deliverRefresh
    refine .trans ?_ (retired_completeAttached _ _ _ _)
    split
    · exact (retired_setWindow s _ _).trans (retired_post _ _ _ _ (.inr (.refl _)))
    · exact .rfl s
  · exact .rfl s

/-- A retirement of entries with a status other than OK; the queue aside. -/
theorem retired_retireAll (p : Entry → Bool) (st : Status) (h : st ≠ .ok) :
    Retired { s with queue := s.queue.filter fun e => !p e } (s.retireAll p st) := by
  unfold State.retireAll
  generalize s.queue.filter p = l
  generalize { s with queue := s.queue.filter fun e => !p e } = u
  induction l generalizing u with
  | nil => exact .rfl u
  | cons e l ih =>
    exact ((retired_dropFlight u e).trans (retired_deliver _ e st [] h)).trans (ih _)

theorem retired_waits (st : Status) (l : List UnfenceWait) :
    ∀ s : State, Retired s
      (l.foldl (fun s u => s.complete (plainCompletion u.ticket .unfence st (addrNum u.node))) s) := by
  induction l with
  | nil => exact fun s => .rfl s
  | cons u l ih => exact fun s => (retired_complete s _).trans (ih _)

/-- The completion of waiting UNFENCEs; the list of them aside. -/
theorem retired_completeWaits (p : Addr → Bool) (st : Status) :
    Retired
      { s with chain := { s.chain with unfenceWaits := s.chain.unfenceWaits.filter fun u => !p u.node } }
      (s.completeWaits p st) := retired_waits st _ _

/-- The completion of the attached RESCANs; the list of them aside. -/
theorem retired_completeRescans (st : Status) (n : Nat) :
    Retired { s with chain := { s.chain with rescans := [] } } (s.completeRescans st n) := by
  unfold State.completeRescans
  generalize s.chain.rescans = l
  generalize { s with chain := { s.chain with rescans := [] } } = u
  induction l generalizing u with
  | nil => exact .rfl u
  | cons e l ih => exact (retired_complete u _).trans (ih _)

/-- A cycle in SLOT_WAIT that ends leaves the slot EMPTY and APERTURE_RESULT set (R121, R122). -/
theorem endSlotWait_ends (st : Status) (c : HeldCycle) (h : s.lbi.slot = some c) (hp : c.phase = .slotWait) :
    (s.endSlotWait st).lbi.slot = none ∧ (s.endSlotWait st).lbi.result = st := by
  simp only [State.endSlotWait, h, if_pos hp, State.endHeld]
  split <;> exact ⟨rfl, rfl⟩

/-- The end of a SLOT_WAIT cycle empties the slot of it. -/
theorem endSlotWait_slot (st : Status) (c : HeldCycle) (h : (s.endSlotWait st).lbi.slot = some c) :
    c.phase = .resultWait := by
  unfold State.endSlotWait at h
  split at h
  · rename_i hs; rw [hs] at h; cases h
  · rename_i d hd
    split at h
    · exfalso; revert h
      simp only [State.endHeld, hd]
      split <;> simp
    · rename_i hp
      rw [hd] at h; cases h
      cases hc : c.phase
      · exact absurd hc hp
      · rfl

/-- What the end of a SLOT_WAIT cycle leaves. -/
structure CycleEnded (s t : State) : Prop where
  ctl : t.ctl = s.ctl
  port : t.port = s.port
  mirror : t.mirror = s.mirror
  pending : t.pending = s.pending
  chain : t.chain = s.chain
  queue : t.queue = s.queue
  nodes : t.nodes = s.nodes
  windows : t.windows = s.windows
  disp : t.disp = s.disp
  cmd : t.cmd = s.cmd
  pins : ∃ b, t.pins = { s.pins with busData := b }
  notices : ∀ n k, (∃ r ∈ s.notices.records, r.node = n ∧ r.kind = k) ∨ s.notices.overflow = true →
    (∃ r ∈ t.notices.records, r.node = n ∧ r.kind = k) ∨ t.notices.overflow = true
  kept : ∀ r ∈ s.notices.records, r.kind ≠ .postedWriteLost → r ∈ t.notices.records
  flag : s.notices.overflow = true → t.notices.overflow = true
  slot : t.lbi.slot = s.lbi.slot ∨ t.lbi.slot = none

theorem CycleEnded.rfl : CycleEnded s s :=
  ⟨.refl _, .refl _, .refl _, .refl _, .refl _, .refl _, .refl _, .refl _, .refl _, .refl _, ⟨_, .refl _⟩,
    fun _ _ h => h, fun _ h _ => h, fun h => h, .inl (.refl _)⟩

theorem endSlotWait_ended (st : Status) : CycleEnded s (s.endSlotWait st) := by
  unfold State.endSlotWait
  split
  · exact .rfl s
  · rename_i c hc
    split
    · have h : CycleEnded s (s.endHeld st Config.fillWord) := by
        unfold State.endHeld
        simp only [hc]
        exact ⟨.refl _, .refl _, .refl _, .refl _, .refl _, .refl _, .refl _, .refl _, .refl _, .refl _, ⟨_, .refl _⟩,
          fun _ _ h => h, fun _ h _ => h, fun h => h, .inr (.refl _)⟩
      dsimp only
      split
      · exact { h with
          notices := fun n k hn => post_keeps _ _ _ _ _ _ (h.notices n k hn)
          kept := fun r hr hk => post_kept _ _ _ _ r (h.kept r hr hk) hk
          flag := fun hf => post_flag _ _ _ _ (h.flag hf) }
      · exact h
    · exact .rfl s

end Sys2Proof.Machine
end

