-- ==== Sys2Proof/Laws/Ended.lean ====
section
/-! SUPPORT. The completion records that retirements give, in order (R91, R93, R135, R146, R155), and the tags of
the retired requests (R77, R100). -/

namespace Sys2Proof.Machine

variable (s : State)

/-- Records that take a reservation each, while one is left (R146; log 13). -/
def CommandPort.record (p : CommandPort) (cs : List Completion) : CommandPort := cs.foldl CommandPort.complete p

theorem CommandPort.record_append (p : CommandPort) (a b : List Completion) :
    p.record (a ++ b) = (p.record a).record b := List.foldl_append

/-- With a reservation for each, all the records enter at the tail. -/
theorem CommandPort.record_ended : ∀ (cs : List Completion) (p : CommandPort), cs.length ≤ p.reservations →
    p.record cs = p.ended cs
  | [], p, _ => by simp [CommandPort.record, CommandPort.ended]
  | c :: cs, p, h => by
    obtain ⟨n, hn⟩ : ∃ n, p.reservations = n + 1 := ⟨p.reservations - 1, by simp at h; omega⟩
    have h1 : p.complete c = { p with reservations := n, completions := p.completions ++ [c] } := by
      simp [CommandPort.complete, hn]
    have := CommandPort.record_ended cs (p.complete c) (by rw [h1]; simp at h; simp; omega)
    show (p.complete c).record cs = _
    rw [this, h1]
    simp [CommandPort.ended, hn]

/-- Records only enter at the tail. -/
theorem CommandPort.record_prefix : ∀ (cs : List Completion) (p : CommandPort),
    p.completions <+: (p.record cs).completions
  | [], _ => List.prefix_rfl
  | c :: cs, p => by
    refine List.IsPrefix.trans ?_ (CommandPort.record_prefix cs (p.complete c))
    unfold CommandPort.complete
    split
    · exact List.prefix_rfl
    · exact List.prefix_append _ _

theorem complete_cmd (c : Completion) : (s.complete c).cmd = s.cmd.record [c] := rfl

theorem completionNode_eq (v : Window) : v.completionNode = v.nodeField := by
  have : ∀ n : Nat, (addrOf? n).isSome = true ↔ 1 ≤ n ∧ n ≤ 24 := by
    intro n; unfold addrOf?; split <;> simp <;> omega
  unfold Window.completionNode Window.nodeField
  simp only [this]

/-- The endings of an entry read the windows' node fields only. -/
theorem endings_congr {t : State} (h : ∀ i, (t.window i).node = (s.window i).node) (st : Status) (e : Entry) :
    t.endings st e = s.endings st e := by
  unfold State.endings refreshEndings Window.nodeField
  split <;> simp [h]

theorem completeAttached_cmd (n : Nat) (st : Status) : ∀ (l : List (BitVec 8)) (s : State),
    (s.completeAttached n st l).cmd = s.cmd.record (l.map fun t => plainCompletion t .refresh st n)
  | [], _ => rfl
  | t :: l, s => by
    have := completeAttached_cmd n st l (s.complete (plainCompletion t .refresh st n))
    exact this

theorem completion_ending (e : Entry) (r : CommandRef) (st : Status) (ws : List Word) (h : st ≠ .ok) :
    e.completion r st ws =
      { ticket := r.ticket, kind := r.kind, status := st, node := addrNum e.node,
        count := if r.kind = .read ∨ r.kind = .write then e.count else 0, data := [] } := by
  unfold Entry.completion Entry.completionCount
  cases r.kind <;> simp [h]

@[simp] theorem endHeld_cmd (st : Status) (w : Word) : (s.endHeld st w).cmd = s.cmd := by
  unfold State.endHeld; split <;> rfl

@[simp] theorem dropFlight_cmd (e : Entry) : (s.dropFlight e).cmd = s.cmd := by
  unfold State.dropFlight; split
  · rfl
  · split <;> rfl

@[simp] theorem dropFlight_window (e : Entry) (i : WinIx) : (s.dropFlight e).window i = s.window i := by
  unfold State.dropFlight; split
  · rfl
  · split <;> rfl

/-- The records of a delivery with a status other than OK. -/
theorem deliver_cmd (e : Entry) (st : Status) (ws : List Word) (h : st ≠ .ok) :
    (s.deliver e st ws).cmd = s.cmd.record (s.endings st e) := by
  unfold State.deliver State.endings
  split
  · rename_i r hr
    simp only [hr]
    show _ = s.cmd
    unfold State.deliverAperture
    split
    · split
      · rfl
      · split
        · simp
        · rfl
    · split <;> rfl
  · rename_i r hr
    simp only [hr]
    rw [← completion_ending e r st ws h]
    unfold State.deliverCommand
    split
    · rw [complete_cmd]; unfold State.loadOffEnded; rw [if_neg h]; rfl
    · rw [if_neg h, complete_cmd]; rfl
    · rw [complete_cmd]
  · rename_i r hr
    simp only [hr, refreshEndings]
    unfold State.deliverRefresh
    rw [completeAttached_cmd, completionNode_eq]
    have : ∀ x : State, x.cmd = s.cmd → x.cmd.record
        (r.attached.map fun t => plainCompletion t .refresh st (s.window r.window).nodeField) = s.cmd.record
        (r.attached.map fun t => plainCompletion t .refresh st (s.window r.window).nodeField) := fun x hx => by rw [hx]
    refine this _ ?_
    split
    · rfl
    · rfl
  · rename_i hr
    simp only [hr]; rfl

/-- The records of a retirement with a status other than OK: the entries oldest first (R91). -/
theorem retireAll_cmd (p : Entry → Bool) (st : Status) (h : st ≠ .ok) :
    (s.retireAll p st).cmd = s.cmd.record ((s.queue.filter p).flatMap (s.endings st)) := by
  unfold State.retireAll
  have key : ∀ (l : List Entry) (u : State), (∀ i, (u.window i).node = (s.window i).node) →
      (l.foldl (fun s e => (s.dropFlight e).deliver e st []) u).cmd = u.cmd.record (l.flatMap (s.endings st)) := by
    intro l
    induction l with
    | nil => intro u _; rfl
    | cons e l ih =>
      intro u hu
      rw [List.foldl_cons, ih, deliver_cmd _ _ _ _ h, dropFlight_cmd, List.flatMap_cons, CommandPort.record_append,
        endings_congr s (by simpa using hu)]
      intro i
      obtain ⟨b, hb⟩ := ((retired_dropFlight u e).trans (retired_deliver _ e st [] h)).windows i
      rw [hb]; exact hu i
  exact key _ _ fun _ => rfl

theorem completeWaits_cmd (p : Addr → Bool) (st : Status) : (s.completeWaits p st).cmd =
    s.cmd.record ((s.chain.unfenceWaits.filter fun u => p u.node).map (unfenceEnding st)) := by
  unfold State.completeWaits
  have key : ∀ (l : List UnfenceWait) (u : State),
      (l.foldl (fun s u => s.complete (plainCompletion u.ticket .unfence st (addrNum u.node))) u).cmd =
        u.cmd.record (l.map (unfenceEnding st)) := by
    intro l
    induction l with
    | nil => intro u; rfl
    | cons e l ih => intro u; exact ih _
  exact key _ _

theorem completeRescans_cmd (st : Status) (n : Nat) : (s.completeRescans st n).cmd =
    s.cmd.record (s.chain.rescans.map (rescanEnding st n)) := by
  unfold State.completeRescans
  have key : ∀ (l : List (BitVec 8)) (u : State),
      (l.foldl (fun s t =>
        s.complete { ticket := t, kind := .rescan, status := st, node := 0, count := n, data := [] }) u).cmd =
        u.cmd.record (l.map (rescanEnding st n)) := by
    intro l
    induction l with
    | nil => intro u; rfl
    | cons e l ih => intro u; exact ih _
  exact key _ _

/-- A retired request's tag goes to HOLD (R91, R100). -/
theorem retireAll_held (p : Entry → Bool) (st : Status) (h : st ≠ .ok) (e : Entry) (he : e ∈ s.queue)
    (hp : p e = true) (x : TagId) (hx : e.tag = some x) :
    (s.retireAll p st).tag x = .hold (2 * s.ctl.timeout) := by
  unfold State.retireAll
  have key : ∀ (l : List Entry) (u : State), u.ctl = s.ctl →
      (e ∈ l ∨ u.tag x = .hold (2 * s.ctl.timeout)) →
      (l.foldl (fun s e => (s.dropFlight e).deliver e st []) u).tag x = .hold (2 * s.ctl.timeout) := by
    intro l
    induction l with
    | nil =>
      intro u _ hu
      rcases hu with hu | hu
      · exact (List.not_mem_nil hu).elim
      · exact hu
    | cons a l ih =>
      intro u hc hu
      have h1 := retired_dropFlight u a
      have h2 := retired_deliver (u.dropFlight a) a st [] h
      rw [List.foldl_cons]
      refine ih _ (h2.ctl.trans (h1.ctl.trans hc)) ?_
      have stays : u.tag x = .hold (2 * s.ctl.timeout) →
          ((u.dropFlight a).deliver a st []).tag x = .hold (2 * s.ctl.timeout) := fun ht => by
        rcases (h1.trans h2).tags x with e | e
        · exact e.trans ht
        · rw [e, hc]
      rcases hu with hu | hu
      · rcases List.mem_cons.1 hu with rfl | hu
        · right
          have ht : (u.dropFlight e).tag x = .hold (2 * s.ctl.timeout) := by
            rw [← hc]
            unfold State.dropFlight
            simp only [hx]
            split <;> simp [State.holdTag, State.setTag, State.leaveResend, State.tag]
          rcases h2.tags x with g | g
          · exact g.trans ht
          · rw [g, h1.ctl, hc]
        · exact .inl hu
      · exact .inr (stays hu)
  exact key _ _ rfl (.inl (List.mem_filter.2 ⟨he, hp⟩))

end Sys2Proof.Machine
end

