-- ==== Sys2Proof/Laws/Torn.lean ====
section
/-! SUPPORT. What a teardown leaves (R49 to R51). -/

namespace Sys2Proof.Machine

variable (s : State)

theorem vacateAll_node (k : Addr) : s.vacateAll.node k = (s.node k).vacate := by
  simp [State.vacateAll, State.node]

theorem detach_window (p : Addr → Bool) (i : WinIx) : (s.detach p).window i = (s.window i).detachOf p := by
  simp [State.detach, State.window]

theorem holdBusyTags_tag (t : TagId) : s.holdBusyTags.tag t = (s.tag t).toHold (2 * s.ctl.timeout) := by
  simp [State.holdBusyTags, State.tag]

/-- A record at rest is left as it is by a retirement. -/
theorem RecordKept.vacated {r t : NodeRecord} (h : RecordKept r.vacate t) : t = r.vacate :=
  h.rest (Eq.refl _) (Eq.refl _) (.inl (Eq.refl _))

/-- The teardown of a part whose CHAIN_PWR_EN is deasserted and whose transmitter is IDLE. -/
theorem teardown_torn (st : Status) (h : st ≠ .ok) (cs : ChainState) (hs : s.chain.state = cs)
    (hp : s.chain.pwrEn = false) (hport : s.port = { tx := none, carrierSeen := false }) :
    TornDown s (s.teardown st) cs st ∧ (s.teardown st).ctl = s.ctl ∧ (s.teardown st).pending = s.pending ∧
      (∃ b, (s.teardown st).pins = { s.pins with busData := b }) ∧
      (∀ n k, (∃ r ∈ s.notices.records, r.node = n ∧ r.kind = k) ∨ s.notices.overflow = true →
        (∃ r ∈ (s.teardown st).notices.records, r.node = n ∧ r.kind = k) ∨
          (s.teardown st).notices.overflow = true) ∧
      (∀ r ∈ s.notices.records, r.kind ≠ .postedWriteLost → r.kind ≠ .mirrorStale →
        r ∈ (s.teardown st).notices.records) ∧
      (s.notices.overflow = true → (s.teardown st).notices.overflow = true) ∧
      ∀ c, (s.teardown st).lbi.slot = some c → c.phase = .resultWait := by
  have h1 := retired_retireAll ((s.detach fun _ => true).vacateAll) (fun _ => true) st h
  set a := ((s.detach fun _ => true).vacateAll).retireAll (fun _ => true) st with ha
  have h2 := endSlotWait_ended a st
  have h2s := endSlotWait_slot a st
  set b := a.endSlotWait st with hb
  have h3 := retired_completeWaits { b.holdBusyTags with chain := b.holdBusyTags.chain.rest } (fun _ => true) st
  set c := { b.holdBusyTags with chain := b.holdBusyTags.chain.rest }.completeWaits (fun _ => true) st with hc
  have h4 := retired_completeRescans c st 0
  have ht : s.teardown st = c.completeRescans st 0 := rfl
  rw [ht]
  have hwin : ∀ i, ∃ x, (c.completeRescans st 0).window i =
      { (s.window i).detachOf (fun _ => true) with stale := x } := by
    intro i
    obtain ⟨x1, e1⟩ := h1.windows i
    obtain ⟨x3, e3⟩ := h3.windows i
    obtain ⟨x4, e4⟩ := h4.windows i
    have f1 : a.window i = { (s.window i).detachOf (fun _ => true) with stale := x1 } := by
      rw [e1, ← detach_window]; rfl
    have f2 : b.window i = a.window i := by simp only [State.window, h2.windows]
    have f3 : c.window i = { b.window i with stale := x3 } := e3
    have f4 : (c.completeRescans st 0).window i = { c.window i with stale := x4 } := e4
    exact ⟨x4, by rw [f4, f3, f2, f1]⟩
  have hnode : ∀ k, (c.completeRescans st 0).node k = (s.node k).vacate := by
    intro k
    have e1 := h1.nodes k
    have e3 := h3.nodes k
    have e4 := h4.nodes k
    have f1 : ({ (s.detach fun _ => true).vacateAll with
      queue := (s.detach fun _ => true).vacateAll.queue.filter fun e => !(fun _ => true) e } : State).node k =
        (s.node k).vacate := by
      simp [State.vacateAll, State.node]
    rw [f1] at e1
    have g1 := e1.vacated
    have f3 : ∀ ch : ChainManager, ({ b.holdBusyTags with chain := ch } : State).node k = a.node k := by
      intro ch; simp only [State.node, State.holdBusyTags, h2.nodes]
    rw [show _ = _ from f3 _, g1] at e3
    have g3 := e3.vacated
    rw [show ({ c with chain := { c.chain with rescans := [] } } : State).node k = c.node k from rfl, g3] at e4
    exact e4.vacated
  have hctl : a.ctl = s.ctl := h1.ctl
  have hcmd : (c.completeRescans st 0).cmd = s.cmd.record (s.tearRecords st) := by
    have e1 : a.cmd = s.cmd.record (s.queue.flatMap (s.endings st)) := by
      rw [ha, retireAll_cmd _ _ _ h]
      have hw : ∀ e, (s.detach fun _ => true).vacateAll.endings st e = s.endings st e := endings_congr s (fun i => by
        show ((s.detach fun _ => true).window i).node = _
        rw [detach_window]; unfold Window.detachOf; split <;> rfl) st
      simp only [List.filter_true]
      rw [funext hw]; rfl
    have ec : b.chain.unfenceWaits = s.chain.unfenceWaits ∧ b.chain.rescans = s.chain.rescans := by
      rw [h2.chain, h1.chain]; exact ⟨rfl, rfl⟩
    have er : c.chain.rescans = s.chain.rescans := by
      rw [show c.chain = _ from h3.chain]; exact ec.2
    rw [completeRescans_cmd, er, hc, completeWaits_cmd]
    show ((b.cmd.record _).record _) = _
    simp only [List.filter_true]
    show ((b.cmd.record (b.chain.unfenceWaits.map _)).record _) = _
    rw [ec.1, h2.cmd, e1, State.tearRecords, CommandPort.record_append, CommandPort.record_append]
  have hbctl : b.ctl = s.ctl := h2.ctl.trans hctl
  have htag : ∀ x, (∃ f, s.tag x = .busy f) → (c.completeRescans st 0).tag x = .hold (2 * s.ctl.timeout) := by
    rintro x ⟨f, hf⟩
    have e1 : a.tag x = .busy f ∨ a.tag x = .hold (2 * s.ctl.timeout) := by
      rcases h1.tags x with e | e
      · exact .inl (e.trans hf)
      · exact .inr e
    have e2 : b.holdBusyTags.tag x = .hold (2 * s.ctl.timeout) := by
      have : b.tag x = a.tag x := by simp only [State.tag, h2.disp]
      rw [holdBusyTags_tag, this, hbctl]
      rcases e1 with e | e <;> rw [e] <;> rfl
    have e3 : c.tag x = .hold (2 * s.ctl.timeout) := by
      rcases h3.tags x with e | e
      · exact e.trans e2
      · exact e.trans (by rw [← hbctl]; rfl)
    have hcctl : c.ctl = s.ctl := h3.ctl.trans hbctl
    rcases h4.tags x with e | e
    · exact e.trans e3
    · exact e.trans (by rw [← hcctl])
  refine ⟨⟨hnode, ?_, fun x f hf => htag x ⟨f, hf⟩, ?_, ?_, ?_, ?_, ?_, ?_, ?_, ?_⟩, ?_, ?_, ?_, ?_, ?_, ?_, ?_⟩
  · rw [h4.queue]; show c.queue = []
    rw [h3.queue]; show b.queue = []
    rw [h2.queue, h1.queue]; simp
  · have : ∀ x, x ∉ (c.completeRescans st 0).disp.resend := by
      intro x hx
      have := h3.resend x (h4.resend x hx)
      simp [State.holdBusyTags] at this
    exact List.eq_nil_iff_forall_not_mem.2 this
  · intro i k he hk
    obtain ⟨x, e⟩ := hwin i
    rw [e]; simp [Window.detachOf, he, hk]
  · intro i
    obtain ⟨x, e⟩ := hwin i
    rw [e]; unfold Window.detachOf; split <;> exact ⟨rfl, rfl, rfl, rfl, rfl, rfl, rfl⟩
  · rw [h4.chain]
    have e3 : c.chain = { b.chain.rest with
        unfenceWaits := b.chain.rest.unfenceWaits.filter fun u => !(fun _ => true) u.node } := h3.chain
    have e1 : b.chain = { s.chain with admission := [], committed := 0, nodeTimers := Vector.replicate 24 none } :=
      h2.chain.trans h1.chain
    simp [e3, e1, ChainManager.rest, ChainManager.reset, hs, hp]
  · rw [h4.port]; show c.port = _
    rw [h3.port]; show b.port = _
    rw [h2.port, h1.port]; exact hport
  · rw [h4.mirror]; show c.mirror = _
    rw [h3.mirror]; show b.mirror = _
    rw [h2.mirror, h1.mirror]; rfl
  · intro hl
    rw [hcmd, CommandPort.record_ended _ _ hl]
    exact ⟨rfl, rfl⟩
  · intro d hd hp
    have e1 : a.lbi.slot = some d := by
      rcases h1.slot with e | ⟨e, e'⟩
      · rw [e]; exact hd
      · exact absurd (e' d hd) (by rw [hp]; simp)
    obtain ⟨g1, g2⟩ := endSlotWait_ends a st d e1 hp
    have e3 : c.lbi = b.lbi := h3.idle g1
    have e4 : (c.completeRescans st 0).lbi = c.lbi := h4.idle (by
      show c.lbi.slot = none
      rw [e3]; exact g1)
    rw [e4, e3]; exact ⟨g1, g2⟩
  · exact h4.ctl.trans (h3.ctl.trans hbctl)
  · rw [h4.pending]; show c.pending = _
    rw [h3.pending]; show b.pending = _
    rw [h2.pending, h1.pending]; rfl
  · obtain ⟨b1, e1⟩ := h1.pins
    obtain ⟨b2, e2⟩ := h2.pins
    obtain ⟨b3, e3⟩ := h3.pins
    obtain ⟨b4, e4⟩ := h4.pins
    refine ⟨b4, ?_⟩
    have f3 : c.pins = { b.pins with busData := b3 } := e3
    have f4 : (c.completeRescans st 0).pins = { c.pins with busData := b4 } := e4
    have f1 : a.pins = { s.pins with busData := b1 } := e1
    rw [f4, f3, e2, f1]
  · intro n k hn
    exact h4.notices n k (h3.notices n k (h2.notices n k (h1.notices n k hn)))
  · intro r hr k1 k2
    exact h4.kept r (h3.kept r (h2.kept r (h1.kept r hr k1 k2) k1) k1 k2) k1 k2
  · intro hf
    exact h4.flag (h3.flag (h2.flag (h1.flag hf)))
  · intro d hd
    have e3 : c.lbi.slot = some d := by
      rcases h4.slot with e | ⟨e, _⟩
      · rw [← e]; exact hd
      · rw [e] at hd; cases hd
    have e2 : b.lbi.slot = some d := by
      rcases h3.slot with e | ⟨e, _⟩
      · rw [← show c.lbi.slot = b.lbi.slot from e]; exact e3
      · rw [e] at e3; cases e3
    exact h2s d e2

/-- The end of the event of a teardown finds nothing to serve. -/
theorem TornDown.quiet {s t : State} {cs : ChainState} {st : Status} (h : TornDown s t cs st)
    (hl : ∀ c, t.lbi.slot = some c → c.phase = .resultWait) : t.finish = t := by
  have hb : t.chain.backlog = [] := by rw [h.chain]; rfl
  have hp : t.chain.pwrEn = false := by rw [h.chain]; rfl
  have hs : t.serveBacklog = t := by simp only [State.serveBacklog, hb, State.serveSteps]
  have hc : t.serveCycle = t := by
    unfold State.serveCycle
    split
    · rfl
    · rename_i c hc
      rw [if_neg]
      rintro ⟨h1, _⟩
      rw [hl c hc] at h1; cases h1
  rw [State.finish, State.serveSlots, hs, hc, dispatch_idle t (.inr (by simp [State.linkUp, hp]))]

end Sys2Proof.Machine
end

