-- ==== Sys2Proof/Laws/Served.lean ====
section
/-! SUPPORT. What the serving of the management backlog, and then the end of an event, leaves of the records, the
queue and the notices (R52, R64, R66, R73, R78). -/

namespace Sys2Proof.Machine

/-- A record but for its state, its step and its powered field. -/
def NodeRecord.sameBut (r t : NodeRecord) : Prop :=
  t = { r with state := t.state, step := t.step, powered := t.powered }

theorem NodeRecord.sameBut.rfl (r : NodeRecord) : r.sameBut r := .refl _

theorem NodeRecord.sameBut.trans {r t u : NodeRecord} (h : r.sameBut t) (g : t.sameBut u) : r.sameBut u := by
  unfold NodeRecord.sameBut at *; rw [g, h]

/-- What the serving of the backlog leaves: `A` holds of the addresses that a decision or the admission service may
touch, `B` of those that a step concerns. -/
structure Served (A B : Addr → Prop) (s t : State) : Prop where
  nodes : ∀ j, ¬ A j → t.node j = s.node j
  records : ∀ j, (s.node j).sameBut (t.node j)
  admission : ∀ k ∈ t.chain.admission, A k
  queue : ∃ l, t.queue = s.queue ++ l ∧
    ∀ e ∈ l, e.origin = .management ∧ e.state = .waiting ∧ e.tag = none ∧ (A e.node ∨ B e.node)
  notices : ∀ n k, (∃ r ∈ s.notices.records, r.node = n ∧ r.kind = k) ∨ s.notices.overflow = true →
    (∃ r ∈ t.notices.records, r.node = n ∧ r.kind = k) ∨ t.notices.overflow = true
  kinds : ∀ r ∈ t.notices.records, r.kind = .nodeDenied ∨ ∃ r' ∈ s.notices.records, r'.kind = r.kind
  kept : ∀ r ∈ s.notices.records, r.kind ≠ .nodeDenied → r ∈ t.notices.records
  flag : s.notices.overflow = true → t.notices.overflow = true
  chain : t.chain =
    { s.chain with
      backlog := t.chain.backlog, admission := t.chain.admission, committed := t.chain.committed,
      unfenceWaits := t.chain.unfenceWaits }
  waits : s.chain.unfenceWaits = [] → t.chain.unfenceWaits = [] ∧ t.cmd = s.cmd
  cmd : t.cmd.staging = s.cmd.staging ∧ t.cmd.submitStatus = s.cmd.submitStatus
  ended : s.cmd.completions <+: t.cmd.completions

theorem Served.rfl {A B : Addr → Prop} {s : State} (h : ∀ k ∈ s.chain.admission, A k) : Served A B s s where
  nodes _ _ := .refl _
  records _ := .refl _
  admission := h
  queue := ⟨[], by simp, fun _ h => (List.not_mem_nil h).elim⟩
  notices _ _ h := h
  kinds r hr := .inr ⟨r, hr, .refl _⟩
  kept _ h _ := h
  flag h := h
  chain := .refl _
  waits h := ⟨h, .refl _⟩
  cmd := ⟨.refl _, .refl _⟩
  ended := List.prefix_rfl

theorem Served.trans {A B : Addr → Prop} {s t u : State} (h : Served A B s t) (g : Served A B t u) :
    Served A B s u where
  nodes j hj := (g.nodes j hj).trans (h.nodes j hj)
  records j := (h.records j).trans (g.records j)
  admission := g.admission
  queue := by
    obtain ⟨l, hl, h1⟩ := h.queue; obtain ⟨m, hm, h2⟩ := g.queue
    refine ⟨l ++ m, by rw [hm, hl, List.append_assoc], fun e he => ?_⟩
    rcases List.mem_append.1 he with he | he
    · exact h1 e he
    · exact h2 e he
  notices n k hn := g.notices n k (h.notices n k hn)
  kinds r hr := by
    rcases g.kinds r hr with e | ⟨r', hr', e⟩
    · exact .inl e
    · rcases h.kinds r' hr' with e' | ⟨r'', hr'', e'⟩
      · exact .inl (e ▸ e')
      · exact .inr ⟨r'', hr'', e'.trans e⟩
  kept r hr hk := g.kept r (h.kept r hr hk) hk
  flag hf := g.flag (h.flag hf)
  chain := by rw [g.chain, h.chain]
  ended := h.ended.trans g.ended
  waits hs := by
    obtain ⟨h1, h2⟩ := h.waits hs; obtain ⟨g1, g2⟩ := g.waits h1
    exact ⟨g1, g2.trans h2⟩
  cmd := ⟨g.cmd.1.trans h.cmd.1, g.cmd.2.trans h.cmd.2⟩

variable {A B : Addr → Prop} {s : State}

theorem served_enqueue (op : Op) (k : Addr) (h : ∀ j ∈ s.chain.admission, A j) (hk : A k ∨ B k) :
    Served A B s (s.enqueueMgmt op k) := by
  unfold State.enqueueMgmt
  split
  · exact { Served.rfl (B := B) h with
      queue := ⟨_, rfl, fun e he => by
        simp only [List.mem_singleton] at he; subst he; exact ⟨rfl, rfl, rfl, hk⟩⟩ }
  · exact .rfl h

theorem node_modNode_ne {k j : Addr} (f : NodeRecord → NodeRecord) (h : j ≠ k) :
    (s.modNode k f).node j = s.node j := by
  have : (k : Nat) ≠ j := fun x => h (Fin.ext x.symm)
  simp [State.modNode, State.setNode, State.node, Vector.getElem_set_ne, this]

/-- A record changed in its state, step or powered field. -/
theorem served_record (k : Addr) (f : NodeRecord → NodeRecord) (c : ChainManager) (hk : A k)
    (hf : (s.node k).sameBut (f (s.node k))) (ha : ∀ j ∈ c.admission, A j)
    (hc : c = { s.chain with admission := c.admission, committed := c.committed }) :
    Served A B s { s.modNode k f with chain := c } := by
  have hn : ∀ j, ({ s.modNode k f with chain := c } : State).node j = (s.modNode k f).node j := fun _ => rfl
  refine ⟨fun j hj => ?_, fun j => ?_, ha, ⟨[], by simp, fun _ h => (List.not_mem_nil h).elim⟩, fun _ _ h => h, fun r hr => .inr ⟨r, hr, rfl⟩, fun _ h _ => h,
    fun h => h, ?_, fun h => ⟨?_, rfl⟩, ⟨rfl, rfl⟩, List.prefix_rfl⟩
  · rw [hn]; exact node_modNode_ne f fun e => hj (e ▸ hk)
  · rw [hn]
    by_cases e : j = k
    · subst e; simpa using hf
    · rw [node_modNode_ne f e]; exact .rfl _
  · show c = { s.chain with
      backlog := c.backlog, admission := c.admission, committed := c.committed, unfenceWaits := c.unfenceWaits }
    rw [hc]
  · show c.unfenceWaits = []
    rw [hc]; exact h

theorem served_admit (k : Addr) (hk : A k) (h : ∀ j ∈ s.chain.admission, A j) : Served A B s (s.admitted k) := by
  unfold State.admitted
  split
  · refine .trans ?_ (served_enqueue _ _ h (.inl hk))
    exact served_record k (fun r => { r with powered := true, state := .powering, step := some .loadWait })
      { s.chain with committed := s.chain.committed + s.demandOf k } hk rfl h rfl
  · exact .rfl h

theorem post_kinds (q : NoticeQueue) (n : Nat) (k : NoticeKind) (d : Word) :
    ∀ r ∈ (q.post n k d).records, r.kind = k ∨ ∃ r' ∈ q.records, r'.kind = r.kind := by
  intro r hr
  unfold NoticeQueue.post at hr
  split at hr
  · rename_i rs hg
    have hk := gatherNotice_keys hg
    have hm : (r.node, r.kind) ∈ rs.map fun r => (r.node, r.kind) := List.mem_map_of_mem hr
    rw [hk] at hm
    obtain ⟨r', hr', he⟩ := List.mem_map.1 hm
    simp only [Prod.mk.injEq] at he
    exact .inr ⟨r', hr', he.2⟩
  · split at hr
    · rcases List.mem_append.1 hr with hr | hr
      · exact .inr ⟨r, hr, rfl⟩
      · simp only [List.mem_singleton] at hr; subst hr; exact .inl rfl
    · exact .inr ⟨r, hr, rfl⟩

theorem served_deny (k : Addr) (hk : A k) (h : ∀ j ∈ s.chain.admission, A j) : Served A B s (s.deny k) := by
  have h1 := served_record (B := B) (s := s) k (fun r => { r with state := .denied })
    { s.chain with admission := s.chain.admission ++ [k] } hk rfl
    (fun j hj => by
      rcases List.mem_append.1 hj with hj | hj
      · exact h j hj
      · simp only [List.mem_singleton] at hj; exact hj ▸ hk) rfl
  exact { h1 with
    notices := fun n j hn => post_keeps _ _ _ _ _ _ (h1.notices n j hn)
    kinds := fun r hr => post_kinds _ _ _ _ r hr
    kept := fun r hr hk => post_kept _ _ _ _ r (h1.kept r hr hk) hk
    flag := fun hf => post_flag _ _ _ _ (h1.flag hf) }

theorem served_completeWaits (p : Addr → Bool) (st : Status) (h : ∀ j ∈ s.chain.admission, A j) :
    Served A B s (s.completeWaits p st) := by
  obtain ⟨h1, h2, h3, h4, h5, h6, h7, h8, h9, h10, h11, h12⟩ := completeWaits_frame st
    (s.chain.unfenceWaits.filter fun u => p u.node)
    { s with chain := { s.chain with unfenceWaits := s.chain.unfenceWaits.filter fun u => !p u.node } }
  have hn : ∀ j, (s.completeWaits p st).node j = s.node j := fun j => by
    simp only [State.node]
    exact congrArg (fun v : Vector NodeRecord 24 => v[j.val]) h9
  have hc : (s.completeWaits p st).chain =
      { s.chain with unfenceWaits := s.chain.unfenceWaits.filter fun u => !p u.node } := h8
  have hr := (retired_completeWaits s p st).staging
  refine ⟨fun j _ => hn j, fun j => by rw [hn]; exact .rfl _, ?_, ⟨[], ?_, fun _ h => (List.not_mem_nil h).elim⟩, ?_, ?_, ?_, ?_, ?_, fun hw => ⟨?_, ?_⟩,
    ⟨hr.1, hr.2.1⟩, ?_⟩
  · rw [hc]; exact h
  · rw [List.append_nil]; exact h5
  · intro n k hk
    rw [show (s.completeWaits p st).notices = s.notices from h11]; exact hk
  · intro r hr
    rw [show (s.completeWaits p st).notices = s.notices from h11] at hr; exact .inr ⟨r, hr, rfl⟩
  · intro r hr _
    rw [show (s.completeWaits p st).notices = s.notices from h11]; exact hr
  · intro hf
    rw [show (s.completeWaits p st).notices = s.notices from h11]; exact hf
  · rw [hc]
  · rw [hc, hw]; rfl
  · simp [State.completeWaits, hw]
  · rw [completeWaits_cmd]; exact CommandPort.record_prefix _ _

theorem served_takeStep (st : MgmtStep) (h : ∀ j ∈ s.chain.admission, A j)
    (hd : ∀ k b, st = .decision k b → A k) (hb : ∀ k, st.addr? = some k → B k) :
    Served A B s (s.takeStep st) := by
  unfold State.takeStep
  split
  · exact served_enqueue _ _ h (.inr (hb _ rfl))
  · exact served_enqueue _ _ h (.inr (hb _ rfl))
  · exact served_enqueue _ _ h (.inr (hb _ rfl))
  · rename_i k b
    have hk := hd k b rfl
    unfold State.decideAdmission
    split
    · have key : ∀ u : State, Served A B s u → Served A B s (u.completeWaits (· == k) .ok) := fun u hu =>
        hu.trans (served_completeWaits _ _ hu.admission)
      dsimp only
      split
      · exact key _ (served_admit k hk h)
      · exact key _ (served_deny k hk h)
    · exact .rfl h
  · exact served_enqueue _ _ h (.inr (hb _ rfl))
  · exact .rfl h

theorem served_backlog (l : List MgmtStep) (h : ∀ j ∈ s.chain.admission, A j) :
    Served A B s { s with chain := { s.chain with backlog := l } } where
  nodes _ _ := rfl
  records _ := .rfl _
  admission := h
  queue := ⟨[], by simp, fun _ h => (List.not_mem_nil h).elim⟩
  notices _ _ h := h
  kinds r hr := .inr ⟨r, hr, rfl⟩
  kept _ h _ := h
  flag h := h
  chain := rfl
  waits h := ⟨h, rfl⟩
  cmd := ⟨rfl, rfl⟩
  ended := List.prefix_rfl

theorem served_admission (l : List Addr) : ∀ s : State, s.chain.admission = l → (∀ j ∈ s.chain.admission, A j) →
    Served A B s (State.serveAdmission l s).1 := by
  induction l with
  | nil => exact fun s _ h => .rfl h
  | cons k ks ih =>
    intro s hl h
    unfold State.serveAdmission
    split
    · split
      · let u : State := { s with chain := { s.chain with admission := ks } }
        have hu : ∀ j ∈ u.chain.admission, A j := fun j hj => h j (by rw [hl]; exact List.mem_cons_of_mem _ hj)
        have h1 : Served A B s u :=
          { Served.rfl (B := B) h with admission := hu, chain := rfl, waits := fun h => ⟨h, rfl⟩ }
        have hk : A k := h k (by rw [hl]; exact List.mem_cons_self)
        have h2 := served_admit (B := B) k hk hu
        refine (h1.trans h2).trans (ih _ ?_ h2.admission)
        simp [State.admitted]; split <;> simp [u]
      · exact .rfl h
    · exact .rfl h

theorem served_steps (l : List MgmtStep) : ∀ s : State, s.chain.backlog = l → (∀ j ∈ s.chain.admission, A j) →
    (∀ k b, .decision k b ∈ l → A k) → (∀ st ∈ l, ∀ k, st.addr? = some k → B k) →
    Served A B s (State.serveSteps l s) := by
  induction l with
  | nil => exact fun s _ h _ _ => .rfl h
  | cons st rest ih =>
    intro s hs h hd hb
    have hd' : ∀ k b, .decision k b ∈ rest → A k := fun k b hm => hd k b (List.mem_cons_of_mem _ hm)
    have hb' : ∀ x ∈ rest, ∀ k, x.addr? = some k → B k := fun x hm => hb x (List.mem_cons_of_mem _ hm)
    unfold State.serveSteps
    split
    · let u : State := { s with chain := { s.chain with backlog := rest } }
      have hu : Served A B s u := served_backlog rest h
      dsimp only
      split
      · have h1 := served_admission (B := B) u.chain.admission u rfl hu.admission
        have h1b := (serveAdmission_chain u.chain.admission u).1
        split
        · exact (hu.trans h1).trans (ih _ h1b h1.admission hd' hb')
        · exact (hu.trans h1).trans (served_backlog _ h1.admission)
      · have h1 : Served A B u (u.takeStep st) :=
          served_takeStep st hu.admission (fun k b e => hd k b (e ▸ List.mem_cons_self))
            (hb st List.mem_cons_self)
        exact (hu.trans h1).trans (ih _ (takeStep_chain u st).1 h1.admission hd' hb')
    · exact .rfl h

/-- The serving of the backlog. -/
theorem served_serveBacklog (h : ∀ j ∈ s.chain.admission, A j)
    (hd : ∀ k b, .decision k b ∈ s.chain.backlog → A k)
    (hb : ∀ st ∈ s.chain.backlog, ∀ k, st.addr? = some k → B k) : Served A B s s.serveBacklog :=
  served_steps _ s rfl h hd hb

/-! ### A step that is due -/

/-- The op of the MANAGEMENT entry that a step queues, and its address (R52). -/
def MgmtStep.queues : MgmtStep → Option (Op × Addr)
  | .assign k => some (.assign, k)
  | .openGate k => some (.openGate, k)
  | .closeGate k => some (.closeGate, k)
  | .confirm k => some (.ping, k)
  | .decision _ _ => none
  | .service => none

/-- With a slot free the entry of a step that queues one enters the queue. -/
theorem takeStep_queues (st : MgmtStep) (op : Op) (k : Addr) (h : st.queues = some (op, k))
    (hf : s.mgmtSlotFree = true) : mgmtEntry op k ∈ (s.takeStep st).queue := by
  cases st <;> simp only [MgmtStep.queues, Option.some.injEq, Prod.mk.injEq, reduceCtorEq] at h <;>
    obtain ⟨rfl, rfl⟩ := h <;> simp [State.takeStep, State.enqueueMgmt, hf]

theorem serveSteps_longer (l : List MgmtStep) (s : State) (hs : s.chain.backlog = l) :
    ∀ e ∈ s.queue, e ∈ (State.serveSteps l s).queue := by
  intro e he
  have h := served_steps (A := fun _ => True) (B := fun _ => True) l s hs (fun _ _ => trivial) (fun _ _ _ => trivial)
    fun _ _ _ _ => trivial
  obtain ⟨m, hm, _⟩ := h.queue
  rw [hm]; exact List.mem_append_left _ he

/-- A step that is due stays due while the backlog is served: it stays in the backlog, or its entry is queued. -/
theorem serveSteps_due (st : MgmtStep) (op : Op) (k : Addr) (h : st.queues = some (op, k)) (l : List MgmtStep) :
    ∀ s : State, s.chain.backlog = l → st ∈ l → (State.serveSteps l s).hasDue st op k := by
  induction l with
  | nil => intro s _ hm; exact (List.not_mem_nil hm).elim
  | cons x rest ih =>
    intro s hs hm
    unfold State.serveSteps
    split
    · rename_i hf
      let u : State := { s with chain := { s.chain with backlog := rest } }
      dsimp only
      split
      · have hr : st ∈ rest := by
          rcases List.mem_cons.1 hm with rfl | hm
          · cases h
          · exact hm
        have h1b := (serveAdmission_chain u.chain.admission u).1
        split
        · exact ih _ h1b hr
        · exact .inl (List.mem_cons_of_mem _ hr)
      · have h1b := (takeStep_chain u x).1
        rcases List.mem_cons.1 hm with rfl | hm
        · right
          exact ⟨mgmtEntry op k, serveSteps_longer _ _ h1b _ (takeStep_queues (s := u) st op k h hf), rfl, rfl, rfl⟩
        · exact ih _ h1b hm
    · exact .inl (hs ▸ hm)

end Sys2Proof.Machine
end

