-- ==== Sys2Proof/Laws/Chosen.lean ====
section
/-! SUPPORT. What the Dispatcher's choice, and so the end of an event, leaves of the records, the tags and the
queue (R78 to R85). -/

namespace Sys2Proof.Machine

/-- A record but for its in_flight_tag and its ack_owed. -/
def NodeRecord.sent (r t : NodeRecord) : Prop :=
  t = { r with inFlightTag := t.inFlightTag, ackOwed := t.ackOwed }

theorem NodeRecord.sent.rfl (r : NodeRecord) : r.sent r := .refl _

/-- An entry as a choice leaves it: its state stays or is IN_FLIGHT, its tag stays or was FREE. -/
structure EntrySent (s : State) (e e' : Entry) : Prop where
  origin : e'.origin = e.origin
  op : e'.op = e.op
  node : e'.node = e.node
  state : e'.state = e.state ∨ e'.state = .inFlight
  tag : e'.tag = e.tag ∨ ∃ x, e'.tag = some x ∧ s.tag x = .free

theorem EntrySent.rfl (s : State) (e : Entry) : EntrySent s e e :=
  ⟨.refl _, .refl _, .refl _, .inl (.refl _), .inl (.refl _)⟩

/-- What a choice leaves. -/
structure Chosen (s t : State) : Prop where
  nodes : ∀ j, (s.node j).sent (t.node j)
  other : ∀ j, (s.node j).state = .vacant → (∀ e ∈ s.queue, e.node ≠ j) → t.node j = s.node j
  tags : ∀ x d, s.tag x = .hold d → t.tag x = .hold d
  resend : ∀ x ∈ t.disp.resend, x ∈ s.disp.resend
  carrier : t.port.carrierSeen = s.port.carrierSeen
  queue : ∀ e ∈ t.queue, ∃ e' ∈ s.queue, EntrySent s e' e
  stays : ∀ e ∈ s.queue, ∃ e' ∈ t.queue, EntrySent s e e'

theorem Chosen.rfl (s : State) : Chosen s s where
  nodes _ := .refl _
  other _ _ _ := .refl _
  tags _ _ h := h
  resend _ h := h
  carrier := .refl _
  queue e he := ⟨e, he, .rfl s e⟩
  stays e he := ⟨e, he, .rfl s e⟩

variable (s : State)

theorem setTag_other {t : TagId} {x : Tag} (ht : ∀ d, s.tag t ≠ .hold d) (y : TagId) (d : Nat)
    (h : s.tag y = .hold d) : (s.setTag t x).tag y = .hold d := by
  by_cases e : (t : Nat) = y
  · have e : t = y := Fin.ext e
    subst e; exact absurd h (ht d)
  · rw [← h]; simp [State.setTag, State.tag, Vector.getElem_set_ne, e]

theorem modNode_sent (k : Addr) (f : NodeRecord → NodeRecord) (h : (s.node k).sent (f (s.node k))) (j : Addr) :
    (s.node j).sent ((s.modNode k f).node j) := by
  by_cases e : j = k
  · subst e; simpa using h
  · rw [node_modNode_ne f e]; exact .rfl _

theorem chosen_ack (k : Addr) (h : s.ackClaim = some k) : Chosen s (s.sendAck k) := by
  refine { Chosen.rfl s with
    nodes := modNode_sent s k (fun r => { r with ackOwed := false }) (Eq.refl _)
    other := fun j hv _ => ?_ }
  refine node_modNode_ne (s := s) (k := k) (fun r => { r with ackOwed := false }) fun e => ?_
  subst e
  have := List.find?_some h
  simp [NodeRecord.takesAttn, hv] at this

theorem chosen_ping (k : Addr) (t : TagId) (ht : s.freeTag = some t) (h : s.pingClaim = some k) :
    Chosen s (s.sendPing k t) := by
  have hf := freeTag_free s ht
  refine { Chosen.rfl s with
    nodes := modNode_sent s k (fun r => { r with inFlightTag := some t }) (Eq.refl _)
    other := fun j hv _ => ?_
    tags := fun x d hx => setTag_other s (by simp [hf]) x d hx }
  refine node_modNode_ne (s := s) (k := k) (fun r => { r with inFlightTag := some t }) fun e => ?_
  subst e
  have := List.find?_some h
  simp [NodeRecord.wantsPing, hv] at this

theorem resendClaim_busy {t : TagId} {f : DownFrame} (h : s.resendClaim = some (t, f)) :
    t ∈ s.disp.resend ∧ ∃ g, s.tag t = .busy g := by
  obtain ⟨x, hx, he⟩ := List.exists_of_findSome?_eq_some h
  cases hf : s.frameOfTag x with
  | none => simp [hf] at he
  | some y =>
    simp only [hf, Option.map_some, Option.some.injEq, Prod.mk.injEq] at he
    obtain ⟨rfl, rfl⟩ := he
    refine ⟨hx, ?_⟩
    unfold State.frameOfTag at hf
    split at hf
    · rename_i g hg; exact ⟨g, hg⟩
    · cases hf

theorem chosen_resend (t : TagId) (f : DownFrame) (h : s.resendClaim = some (t, f)) :
    Chosen s (s.sendAgain t f) := by
  obtain ⟨_, g, hg⟩ := resendClaim_busy s h
  unfold State.sendAgain State.countAttempt
  simp only [hg]
  have base : ∀ x, Chosen s ((s.setTag t x).leaveResend t) := fun x =>
    { Chosen.rfl s with
      tags := fun y d hy => setTag_other s (by simp [hg]) y d hy
      resend := fun y hy => (List.mem_filter.1 hy).1 }
  have tx : ∀ u : State, Chosen s u → Chosen s (u.transmit f) := fun u hu =>
    ⟨hu.nodes, hu.other, hu.tags, hu.resend, hu.carrier, hu.queue, hu.stays⟩
  split
  · have b := base (.busy { g with timer := s.responseTimer, synthAttempts := g.synthAttempts })
    have key : ∀ e' : Entry,
        EntrySent s e' (if e'.tag = some t then { e' with attempts := e'.attempts + 1 } else e') := fun e' => by
      split
      · exact ⟨rfl, rfl, rfl, .inl rfl, .inl rfl⟩
      · exact .rfl s e'
    refine tx _ ⟨b.nodes, b.other, b.tags, b.resend, b.carrier, fun e he => ?_, fun e he => ?_⟩
    · obtain ⟨e', he', rfl⟩ := List.mem_map.1 he
      exact ⟨e', he', key e'⟩
    · exact ⟨_, List.mem_map_of_mem he, key e⟩
  · exact tx _ (base _)

theorem formed_same (e : Entry) : (s.formed e).op = e.op ∧ (s.formed e).node = e.node ∧
    (s.formed e).tag = e.tag := by
  unfold State.formed; split <;> exact ⟨rfl, rfl, rfl⟩

theorem chosen_entry (i : Nat) (e : Entry) (t : TagId) (ht : s.freeTag = some t) (hq : s.queue[i]? = some e) :
    Chosen s (s.sendEntry i e t) := by
  have hf := freeTag_free s ht
  obtain ⟨h1, h2, _⟩ := formed_same s e
  have hm : e ∈ s.queue := List.mem_of_getElem? hq
  have key : ∀ (x : Tag) (e' : Entry), EntrySent s e e' →
      Chosen s { s.setTag t x with queue := s.queue.set i e' } := fun x e' he =>
    { Chosen.rfl s with
      tags := fun y d hy => setTag_other s (by simp [hf]) y d hy
      queue := fun y hy => by
        rcases List.mem_or_eq_of_mem_set hy with hy | hy
        · exact ⟨y, hy, .rfl s y⟩
        · exact ⟨e, hm, hy ▸ he⟩
      stays := fun y hy => by
        obtain ⟨j, hj⟩ := List.getElem?_of_mem hy
        by_cases e1 : i = j
        · subst e1
          rw [hq] at hj; cases hj
          refine ⟨e', List.mem_of_getElem? (i := i) ?_, he⟩
          show (s.queue.set i e')[i]? = some e'
          rw [List.getElem?_set_self (List.getElem?_eq_some_iff.1 hq).1]
        · refine ⟨y, List.mem_of_getElem? (i := j) ?_, .rfl s y⟩
          show (s.queue.set i e')[j]? = some y
          rw [List.getElem?_set_ne e1, hj] }
  have node : ∀ u : State, Chosen s u → u.nodes = s.nodes →
      Chosen s (u.modNode e.node fun r => { r with inFlightTag := some t }) := fun u hu hn => by
    have hnode : ∀ j, u.node j = s.node j := fun j => by simp only [State.node, hn]
    refine ⟨fun j => ?_, fun j hv hne => ?_, hu.tags, hu.resend, hu.carrier, hu.queue, hu.stays⟩
    · have := modNode_sent u e.node (fun r => { r with inFlightTag := some t }) rfl j
      rwa [hnode] at this
    · rw [node_modNode_ne _ fun e' => hne e hm e'.symm, hnode]
  have tx : ∀ (u : State) f, Chosen s u → Chosen s (u.transmit f) := fun u f hu =>
    ⟨hu.nodes, hu.other, hu.tags, hu.resend, hu.carrier, hu.queue, hu.stays⟩
  unfold State.sendEntry
  dsimp only
  refine tx _ _ ?_
  have b := key
    (.busy
      { holder := .entry, node := (s.formed e).node, kind := (s.formed e).op,
        sentBit := s.bitFor (s.formed e).op (s.formed e).node, synthAttempts := 0, timer := s.responseTimer })
    { s.formed e with
      state := .inFlight, tag := some t, sentBit := some (s.bitFor (s.formed e).op (s.formed e).node),
      attempts := 1 }
    ⟨formed_origin s e, h1, h2, .inr rfl, .inr ⟨t, rfl, hf⟩⟩
  split
  · exact b
  · rw [h2]
    simp only [h2] at b
    exact node _ b rfl

/-- The Dispatcher's choice. -/
theorem chosen_dispatch : Chosen s s.dispatch := by
  unfold State.dispatch
  split
  · split
    · exact .rfl s
    · rename_i c hc
      unfold State.claim at hc
      split at hc
      · rename_i k hk
        simp only [Option.some.injEq] at hc; subst hc
        exact chosen_ack s k hk
      · split at hc
        · rename_i t f hr
          simp only [Option.some.injEq] at hc; subst hc
          exact chosen_resend s t f hr
        · split at hc
          · cases hc
          · rename_i t ht
            split at hc
            · rename_i k hk
              simp only [Option.some.injEq] at hc; subst hc
              exact chosen_ping s k t ht hk
            · cases hp : s.firstEligible [] s.queue with
              | none => simp [hp] at hc
              | some p =>
                obtain ⟨i, e⟩ := p
                simp only [hp, Option.map_some, Option.some.injEq] at hc; subst hc
                exact chosen_entry s i e t ht (firstEligible_get s _ _ _ _ hp)
  · exact .rfl s

/-- An entry that stands before the end of an event is queued after it, with its origin, op and node. -/
theorem finish_due {st : MgmtStep} {op : Op} {k : Addr} (hq : st.queues = some (op, k))
    (h : s.hasDue st op k) : s.finish.hasDue st op k := by
  have hb : s.serveBacklog.hasDue st op k := by
    rcases h with h | ⟨e, he, h1⟩
    · exact serveSteps_due st op k hq _ s rfl h
    · exact .inr ⟨e, serveSteps_longer _ s rfl e he, h1⟩
  have hc : s.serveBacklog.serveCycle.hasDue st op k := by
    rcases hb with h | ⟨e, he, h1⟩
    · left; rw [(serveCycle_frame _).chain]; exact h
    · refine .inr ⟨e, ?_, h1⟩
      unfold State.serveCycle
      split
      · exact he
      · split
        · unfold State.queueCycle State.enqueueHost
          dsimp only
          split <;> split <;> simp_all
        · exact he
  rcases hc with h | ⟨e, he, h1, h2, h3⟩
  · left; rw [State.finish, (dispatch_frame _).chain]; exact h
  · obtain ⟨e', he', g⟩ := (chosen_dispatch s.serveSlots).stays e he
    exact .inr ⟨e', he', g.origin.trans h1, g.op.trans h2, g.node.trans h3⟩

/-- The serving of the waiting cycle appends at most its entry. -/
theorem serveCycle_queue : ∃ l, s.serveCycle.queue = s.queue ++ l ∧
    ∀ e ∈ l, ∃ c, s.lbi.slot = some c ∧ c.phase = .slotWait ∧ e = c.entry := by
  unfold State.serveCycle
  split
  · exact ⟨[], by simp, fun _ h => (List.not_mem_nil h).elim⟩
  · rename_i c hc
    split
    · rename_i hf
      refine ⟨[c.entry], ?_, fun e he => ⟨c, hc, hf.1, by simpa using he⟩⟩
      unfold State.queueCycle
      dsimp only
      split <;> simp [State.enqueueHost, hf.2]
    · exact ⟨[], by simp, fun _ h => (List.not_mem_nil h).elim⟩

end Sys2Proof.Machine
end

