-- ==== Sys2Proof/Laws/Lost.lean ====
section
/-! SUPPORT. What a loss cascade leaves (R102 to R106). -/

namespace Sys2Proof.Machine

variable (s : State)

/-- What the emptying of some records leaves (R39, R63). -/
structure Vacated (l : List Addr) (s t : State) : Prop where
  nodes : ∀ j, t.node j = if j ∈ l then (s.node j).vacate else s.node j
  backlog : ∀ st ∈ t.chain.backlog, st ∈ s.chain.backlog ∨ st = .service
  chain : t.chain =
    { s.chain with
      backlog := t.chain.backlog, committed := t.chain.committed, nodeTimers := t.chain.nodeTimers }
  rest : t.pins = s.pins ∧ t.ctl = s.ctl ∧ t.lbi = s.lbi ∧ t.windows = s.windows ∧ t.queue = s.queue ∧
    t.disp = s.disp ∧ t.port = s.port ∧ t.mirror = s.mirror ∧ t.cmd = s.cmd ∧ t.notices = s.notices

theorem release_chain (k : Addr) : (∀ st ∈ (s.release k).chain.backlog, st ∈ s.chain.backlog ∨ st = .service) ∧
    (s.release k).chain =
      { s.chain with backlog := (s.release k).chain.backlog, committed := (s.release k).chain.committed } := by
  unfold State.release
  split
  · dsimp only
    split
    · unfold State.requestService State.makeDue
      split
      · exact ⟨fun st h => .inl h, rfl⟩
      · refine ⟨fun st h => ?_, rfl⟩
        rcases List.mem_append.1 h with h | h
        · exact .inl h
        · exact .inr (by simpa using h)
    · exact ⟨fun st h => .inl h, rfl⟩
  · exact ⟨fun st h => .inl h, rfl⟩

theorem vacated_one (k : Addr) : Vacated [k] s (s.vacateNode k) := by
  obtain ⟨h1, h2⟩ := release_chain s k
  have hn : ∀ j, (s.vacateNode k).node j = if j ∈ [k] then (s.node j).vacate else s.node j := by
    intro j
    simp only [List.mem_singleton]
    unfold State.vacateNode
    by_cases e : j = k
    · subst e
      have : ((s.release j).stopNodeTimer j).node j = (s.release j).node j := rfl
      simp [this, release_node, NodeRecord.vacate]
    · rw [node_modNode_ne _ e, if_neg e]
      have : ((s.release k).stopNodeTimer k).node j = (s.release k).node j := rfl
      rw [this, release_node, if_neg e]
  have hc : (s.vacateNode k).chain =
      { (s.release k).chain with nodeTimers := (s.release k).chain.nodeTimers.set k.val none } := rfl
  refine ⟨hn, h1, ?_, ?_⟩
  · rw [hc, h2]
  · simp [State.vacateNode]

theorem vacated_list (l : List Addr) : ∀ s : State, Vacated l s (l.foldl State.vacateNode s) := by
  induction l with
  | nil =>
    intro s
    exact ⟨fun _ => rfl, fun st h => .inl h, rfl, rfl, rfl, rfl, rfl, rfl, rfl, rfl, rfl, rfl, rfl⟩
  | cons k l ih =>
    intro s
    have a := vacated_one s k
    have b := ih (s.vacateNode k)
    refine ⟨fun j => ?_, fun st h => ?_, ?_, ?_⟩
    · rw [List.foldl_cons, b.nodes, a.nodes]
      by_cases h : j ∈ l <;> by_cases h' : j = k <;> simp [h, h', NodeRecord.vacate]
    · rcases b.backlog st h with h | h
      · exact a.backlog st h
      · exact .inr h
    · rw [List.foldl_cons, b.chain, a.chain]
    · obtain ⟨a1, a2, a3, a4, a5, a6, a7, a8, a9, a10⟩ := a.rest
      obtain ⟨b1, b2, b3, b4, b5, b6, b7, b8, b9, b10⟩ := b.rest
      exact ⟨b1.trans a1, b2.trans a2, b3.trans a3, b4.trans a4, b5.trans a5, b6.trans a6, b7.trans a7,
        b8.trans a8, b9.trans a9, b10.trans a10⟩

theorem retired_holdPings (p : Addr → Bool) : Retired s (s.holdPings p) := by
  unfold State.holdPings
  generalize allTags.filter (fun t => (s.tag t).isPingTo p) = l
  induction l generalizing s with
  | nil => exact .rfl s
  | cons t l ih => exact (retired_holdTag s t).trans (ih _)

/-- A synthesized PING to one of some addresses ends with its tag in HOLD (R104). -/
theorem holdPings_held (p : Addr → Bool) (x : TagId) (h : (s.tag x).isPingTo p = true) :
    (s.holdPings p).tag x = .hold (2 * s.ctl.timeout) := by
  unfold State.holdPings
  have key : ∀ (l : List TagId) (u : State), u.ctl = s.ctl → (x ∈ l ∨ u.tag x = .hold (2 * s.ctl.timeout)) →
      (l.foldl State.holdTag u).tag x = .hold (2 * s.ctl.timeout) := by
    intro l
    induction l with
    | nil =>
      intro u _ hu
      rcases hu with hu | hu
      · exact (List.not_mem_nil hu).elim
      · exact hu
    | cons a l ih =>
      intro u hc hu
      have hh := retired_holdTag u a
      refine ih _ (hh.ctl.trans hc) ?_
      by_cases e : x = a
      · right; subst e
        rw [← hc]; simp [State.holdTag, State.setTag, State.leaveResend, State.tag]
      · rcases hu with hu | hu
        · exact .inl ((List.mem_cons.1 hu).resolve_left e)
        · right
          rcases hh.tags x with g | g
          · exact g.trans hu
          · rw [g, hc]
  exact key _ s rfl (.inl (List.mem_filter.2 ⟨by simp [allTags], h⟩))

theorem leaveAdmission_chain (p : Addr → Bool) :
    (∀ st ∈ (s.leaveAdmission p).chain.backlog, st ∈ s.chain.backlog ∨ st = .service) ∧
      (s.leaveAdmission p).chain =
        { s.chain with
          backlog := (s.leaveAdmission p).chain.backlog
          admission := s.chain.admission.filter fun k => !p k } := by
  unfold State.leaveAdmission
  dsimp only
  split
  · unfold State.requestService State.makeDue
    split
    · exact ⟨fun st h => .inl h, rfl⟩
    · refine ⟨fun st h => ?_, rfl⟩
      rcases List.mem_append.1 h with h | h
      · exact .inl h
      · exact .inr (by simpa using h)
  · exact ⟨fun st h => .inl h, rfl⟩

/-- The state that `loseFrom` starts its retirements in. -/
def State.emptied (s : State) (k : Addr) : State :=
  ((((s.post (addrNum k) .nodeLost (BitVec.ofNat 16 (s.chain.tail - k.val))).detach (fromAddr k)).dropSteps
    (MgmtStep.at (fromAddr k))).leaveAdmission (fromAddr k)).vacateThose (fromAddr k)

/-- What the emptying of a cascade leaves, before the retirements. -/
structure Emptied (k : Addr) (s t : State) : Prop where
  lost : ∀ j, k ≤ j → t.node j = (s.node j).vacate
  below : ∀ j, j < k → t.node j = s.node j
  backlog : ∀ st ∈ t.chain.backlog, (st ∈ s.chain.backlog ∧ ∀ j, st.addr? = some j → j < k) ∨ st = .service
  chain : t.chain =
    { s.chain with
      backlog := t.chain.backlog, committed := t.chain.committed, nodeTimers := t.chain.nodeTimers,
      admission := s.chain.admission.filter fun j => !fromAddr k j }
  windows : ∀ i, t.window i = (s.window i).detachOf (fromAddr k)
  notices : t.notices = s.notices.post (addrNum k) .nodeLost (BitVec.ofNat 16 (s.chain.tail - k.val))
  rest : t.pins = s.pins ∧ t.ctl = s.ctl ∧ t.lbi = s.lbi ∧ t.queue = s.queue ∧
    t.disp = s.disp ∧ t.port = s.port ∧ t.mirror = s.mirror ∧ t.cmd = s.cmd

theorem emptied_spec (k : Addr) : Emptied k s (s.emptied k) := by
  let a := ((s.post (addrNum k) .nodeLost (BitVec.ofNat 16 (s.chain.tail - k.val))).detach (fromAddr k)).dropSteps
    (MgmtStep.at (fromAddr k))
  obtain ⟨l1, l2⟩ := leaveAdmission_chain a (fromAddr k)
  have v : Vacated (allAddrs.filter (fromAddr k)) (a.leaveAdmission (fromAddr k)) (s.emptied k) := vacated_list _ _
  have hm : ∀ j, j ∈ allAddrs.filter (fromAddr k) ↔ k ≤ j := by
    intro j; simp [allAddrs, fromAddr]
  have han : ∀ j, (a.leaveAdmission (fromAddr k)).node j = s.node j := by
    intro j; simp [a]
  obtain ⟨v1, v2, v3, v4, v5, v6, v7, v8, v9, v10⟩ := v.rest
  refine ⟨fun j hj => ?_, fun j hj => ?_, fun st h => ?_, ?_, fun i => ?_, ?_, ?_⟩
  · rw [v.nodes, if_pos ((hm j).2 hj), han]
  · rw [v.nodes, if_neg fun h => absurd ((hm j).1 h) (not_le.2 hj), han]
  · rcases v.backlog st h with h | h
    · rcases l1 st h with h | h
      · left
        have h : st ∈ s.chain.backlog.filter fun x => !MgmtStep.at (fromAddr k) x := h
        obtain ⟨h1, h2⟩ := List.mem_filter.1 h
        refine ⟨h1, fun j hj => ?_⟩
        simpa [MgmtStep.at, hj, fromAddr] using h2
      · exact .inr h
    · exact .inr h
  · rw [v.chain, l2]; rfl
  · have : (s.emptied k).window i = a.window i := by
      simp only [State.window, v4, State.leaveAdmission_windows]
    rw [this]
    exact detach_window (s.post (addrNum k) .nodeLost (BitVec.ofNat 16 (s.chain.tail - k.val))) (fromAddr k) i
  · exact v10.trans (by rw [State.leaveAdmission_notices]; rfl)
  · refine ⟨v1.trans ?_, v2.trans ?_, v3.trans ?_, v5.trans ?_, v6.trans ?_, v7.trans ?_, v8.trans ?_, v9.trans ?_⟩
    · rw [State.leaveAdmission_pins]; rfl
    · rw [State.leaveAdmission_ctl]; rfl
    · rw [State.leaveAdmission_lbi]; rfl
    · rw [State.leaveAdmission_queue]; rfl
    · rw [State.leaveAdmission_disp]; rfl
    · rw [State.leaveAdmission_port]; rfl
    · rw [State.leaveAdmission_mirror]; rfl
    · rw [State.leaveAdmission_cmd]; rfl

/-- What a cascade leaves, before the end of its event. -/
structure Cut (k : Addr) (s t : State) : Prop where
  lost : ∀ j, k ≤ j → t.node j = (s.node j).vacate
  below : ∀ j, j < k → (t.node j).incarnation = (s.node j).incarnation
  backlog : ∀ st ∈ t.chain.backlog, ∀ j, st.addr? = some j → j < k
  admission : ∀ j ∈ t.chain.admission, j < k
  queue : ∀ e ∈ t.queue, e.node < k
  windows : ∀ i, ∃ x, t.window i = { (s.window i).detachOf (fromAddr k) with stale := x }
  notices : t.notices.shows (addrNum k) .nodeLost (BitVec.ofNat 16 (s.chain.tail - k.val))
  tags : ∀ x, (∃ e ∈ s.queue, k ≤ e.node ∧ e.tag = some x) ∨
    (∃ f j, s.tag x = .busy f ∧ f.holder = .ping j ∧ k ≤ j) → t.tag x = .hold (2 * s.ctl.timeout)
  cycle : ∀ c, s.lbi.slot = some c → c.phase = .slotWait → k ≤ c.node →
    t.lbi.slot = none ∧ t.lbi.result = .nodeLost
  slot : ∀ c, t.lbi.slot = some c → c.phase = .slotWait → c.node < k
  tail : t.chain.tail = k.val
  gate : t.chain.tailGateOpen = false
  control : t.ctl = s.ctl
  pool : t.mirror = s.mirror

/-- The records of a cascade but for the RESCANs (R104). -/
def State.lostEndings (s : State) (k : Addr) : List Completion :=
  (s.queue.filter fun e => decide (k ≤ e.node)).flatMap (s.endings .nodeLost) ++
    (s.chain.unfenceWaits.filter fun u => decide (k ≤ u.node)).map (unfenceEnding .nodeLost)

theorem loseFrom_cut (k : Addr) : Cut k s ((s.loseFrom k).cutTail k) ∧
    ((s.loseFrom k).cutTail k).cmd = s.cmd.record (s.lostEndings k) ∧
    ((s.loseFrom k).cutTail k).chain.rescans = s.chain.rescans := by
  have h0 := emptied_spec s k
  have hx : s.loseFrom k =
      ((((s.emptied k).retireAll (fun e => fromAddr k e.node) .nodeLost).holdPings (fromAddr k)).endSlotWaitOf
        (fromAddr k) .nodeLost).completeWaits (fromAddr k) .nodeLost := rfl
  have h1 := retired_retireAll (s.emptied k) (fun e => fromAddr k e.node) .nodeLost (by simp)
  have h1c := retireAll_cmd (s.emptied k) (fun e => fromAddr k e.node) .nodeLost (by simp)
  have h1t := retireAll_held (s.emptied k) (fun e => fromAddr k e.node) .nodeLost (by simp)
  rw [hx]; clear hx
  generalize (s.emptied k).retireAll (fun e => fromAddr k e.node) .nodeLost = a at h1 h1c h1t ⊢
  have h2 := retired_holdPings a (fromAddr k)
  have h2t := holdPings_held a (fromAddr k)
  have h2c : (a.holdPings (fromAddr k)).cmd = a.cmd := by
    unfold State.holdPings
    generalize allTags.filter (fun t => (a.tag t).isPingTo (fromAddr k)) = l
    clear h2t h2 h1t h1c h1
    induction l generalizing a with
    | nil => rfl
    | cons t l ih => exact ih (a.holdTag t)
  have h2l : (a.holdPings (fromAddr k)).lbi = a.lbi := by
    unfold State.holdPings
    generalize allTags.filter (fun t => (a.tag t).isPingTo (fromAddr k)) = l
    clear h2c h2t h2 h1t h1c h1
    induction l generalizing a with
    | nil => rfl
    | cons t l ih => exact ih (a.holdTag t)
  generalize a.holdPings (fromAddr k) = b at h2 h2t h2c h2l ⊢
  have h3 : CycleEnded b (b.endSlotWaitOf (fromAddr k) .nodeLost) ∧
      (∀ c, (b.endSlotWaitOf (fromAddr k) .nodeLost).lbi.slot = some c → c.phase = .slotWait → c.node < k) ∧
      ∀ c, b.lbi.slot = some c → c.phase = .slotWait → k ≤ c.node →
        (b.endSlotWaitOf (fromAddr k) .nodeLost).lbi.slot = none ∧
          (b.endSlotWaitOf (fromAddr k) .nodeLost).lbi.result = .nodeLost := by
    unfold State.endSlotWaitOf
    split
    · rename_i hs
      exact ⟨.rfl b, fun c hc => (by rw [hs] at hc; cases hc), fun c hc => (by rw [hs] at hc; cases hc)⟩
    · rename_i d hd
      split
      · refine ⟨endSlotWait_ended b _, fun c hc hp => ?_, fun c hc hp _ => endSlotWait_ends b _ c hc hp⟩
        rw [endSlotWait_slot b _ c hc] at hp; cases hp
      · rename_i hp
        refine ⟨.rfl b, fun c hc _ => ?_, fun c hc _ hk => ?_⟩
        · rw [hd] at hc; cases hc
          simpa [fromAddr] using hp
        · rw [hd] at hc; cases hc
          exact absurd (decide_eq_true hk) hp
  obtain ⟨h3, h3s, h3r⟩ := h3
  generalize b.endSlotWaitOf (fromAddr k) .nodeLost = c at h3 h3s h3r ⊢
  have h4 := retired_completeWaits c (fromAddr k) .nodeLost
  have h4c := completeWaits_cmd c (fromAddr k) .nodeLost
  generalize c.completeWaits (fromAddr k) .nodeLost = d at h4 h4c ⊢
  have hcc : c.chain = (s.emptied k).chain := h3.chain.trans (h2.chain.trans h1.chain)
  have hcmd : d.cmd = s.cmd.record (s.lostEndings k) := by
    have ew : c.chain.unfenceWaits = s.chain.unfenceWaits := by rw [hcc, h0.chain]
    have eq : ∀ e, (s.emptied k).endings .nodeLost e = s.endings .nodeLost e := endings_congr s (fun i => by
      rw [h0.windows]; unfold Window.detachOf; split <;> rfl) .nodeLost
    rw [h4c, h3.cmd, h2c, h1c, ew, h0.rest.2.2.2.1, h0.rest.2.2.2.2.2.2.2, funext eq, State.lostEndings,
      CommandPort.record_append]
    rfl
  have hres : d.chain.rescans = s.chain.rescans := by
    rw [show d.chain = _ from h4.chain]
    show c.chain.rescans = _
    rw [hcc, h0.chain]
  have htg : ∀ x, b.tag x = .hold (2 * s.ctl.timeout) → d.tag x = .hold (2 * s.ctl.timeout) := fun x hb => by
    have e3 : c.tag x = b.tag x := by simp only [State.tag, h3.disp]
    have ec : c.ctl = s.ctl := h3.ctl.trans (h2.ctl.trans (h1.ctl.trans h0.rest.2.1))
    rcases h4.tags x with e | e
    · exact e.trans (e3.trans hb)
    · exact e.trans (by rw [← ec])
  have htags : ∀ x, (∃ e ∈ s.queue, k ≤ e.node ∧ e.tag = some x) ∨
      (∃ f j, s.tag x = .busy f ∧ f.holder = .ping j ∧ k ≤ j) → d.tag x = .hold (2 * s.ctl.timeout) := by
    intro x hx
    refine htg x ?_
    have ha : a.ctl = s.ctl := h1.ctl.trans h0.rest.2.1
    have stay : a.tag x = .hold (2 * s.ctl.timeout) → b.tag x = .hold (2 * s.ctl.timeout) := fun g => by
      rcases h2.tags x with e | e
      · exact e.trans g
      · rw [e, ha]
    rcases hx with ⟨e, he, hk, ht⟩ | ⟨f, j, hf, hh, hj⟩
    · refine stay ?_
      rw [h1t e (by rw [h0.rest.2.2.2.1]; exact he) (decide_eq_true hk) x ht, h0.rest.2.1]
    · have e0 : (s.emptied k).tag x = .busy f := by
        show (s.emptied k).disp.tags[x.val] = _
        rw [h0.rest.2.2.2.2.1]; exact hf
      rcases h1.tags x with e | e
      · rw [← ha]
        refine h2t x ?_
        rw [show a.tag x = .busy f from e.trans e0]
        simp [Tag.isPingTo, hh, fromAddr, hj]
      · refine stay ?_
        rw [e]; show Tag.hold (2 * (s.emptied k).ctl.timeout) = _
        rw [h0.rest.2.1]
  refine ⟨?_, hcmd, hres⟩
  have hdn : ∀ j, RecordKept ((s.emptied k).node j) (d.node j) := by
    intro j
    have e1 := h1.nodes j
    have e2 := h2.nodes j
    have e3 : c.node j = b.node j := by simp only [State.node, h3.nodes]
    have e4 : RecordKept (c.node j) (d.node j) := h4.nodes j
    rw [e3] at e4
    exact (RecordKept.trans e1 e2).trans e4
  have hch : d.chain = { (s.emptied k).chain with unfenceWaits := d.chain.unfenceWaits } := by
    have e1 : a.chain = (s.emptied k).chain := h1.chain
    have e4 : d.chain = { c.chain with unfenceWaits := c.chain.unfenceWaits.filter fun u => !fromAddr k u.node } :=
      h4.chain
    rw [e4, h3.chain, h2.chain, e1]
  have hbl : d.chain.backlog = (s.emptied k).chain.backlog := by rw [hch]
  have had : d.chain.admission = s.chain.admission.filter fun j => !fromAddr k j := by rw [hch, h0.chain]
  have hq : d.queue = s.queue.filter fun e => !fromAddr k e.node := by
    have e1 : a.queue = (s.emptied k).queue.filter fun e => !fromAddr k e.node := h1.queue
    have e4 : d.queue = c.queue := h4.queue
    rw [e4, h3.queue, h2.queue, e1, h0.rest.2.2.2.1]
  refine ⟨fun j hj => ?_, fun j hj => ?_, fun st hs j hj => ?_, fun j hj => ?_, fun e he => ?_, fun i => ?_, ?_,
    htags, fun e he hp hk => ?_, fun e he hp => ?_, rfl, rfl, ?_, ?_⟩
  · have := hdn j
    rw [h0.lost j hj] at this
    exact this.vacated
  · have := (hdn j).own
    rw [h0.below j hj] at this
    show (d.node j).incarnation = _
    rw [this]
  · have hs : st ∈ d.chain.backlog := hs
    rw [hbl] at hs
    rcases h0.backlog st hs with ⟨_, h⟩ | rfl
    · exact h j hj
    · cases hj
  · have hj : j ∈ d.chain.admission := hj
    rw [had] at hj
    simpa [fromAddr] using (List.mem_filter.1 hj).2
  · have he : e ∈ d.queue := he
    rw [hq] at he
    simpa [fromAddr] using (List.mem_filter.1 he).2
  · obtain ⟨x1, e1⟩ := h1.windows i
    obtain ⟨x2, e2⟩ := h2.windows i
    obtain ⟨x4, e4⟩ := h4.windows i
    have f1 : a.window i = { (s.window i).detachOf (fromAddr k) with stale := x1 } := by rw [e1, ← h0.windows]; rfl
    have f3 : c.window i = b.window i := by simp only [State.window, h3.windows]
    have f4 : d.window i = { c.window i with stale := x4 } := e4
    exact ⟨x4, by
      show d.window i = _
      rw [f4, f3, e2, f1]⟩
  · have e0 : (s.emptied k).notices.shows (addrNum k) .nodeLost (BitVec.ofNat 16 (s.chain.tail - k.val)) := by
      rw [h0.notices]; exact post_shows _ _ _ _
    refine e0.kept (fun r hr hk => ?_) fun hf => h4.flag (h3.flag (h2.flag (h1.flag hf)))
    have n1 : r.kind ≠ .postedWriteLost := by rw [hk]; simp
    have n2 : r.kind ≠ .mirrorStale := by rw [hk]; simp
    exact h4.kept r (h3.kept r (h2.kept r (h1.kept r hr n1 n2) n1 n2) n1) n1 n2
  · have e1 : b.lbi.slot = some e := by
      rw [h2l]
      rcases h1.slot with g | ⟨_, g⟩
      · rw [g]; show (s.emptied k).lbi.slot = _
        rw [h0.rest.2.2.1]; exact he
      · exact absurd (g e (by show (s.emptied k).lbi.slot = _; rw [h0.rest.2.2.1]; exact he)) (by rw [hp]; simp)
    obtain ⟨g1, g2⟩ := h3r e e1 hp hk
    have e4 : d.lbi = c.lbi := h4.idle g1
    show d.lbi.slot = none ∧ d.lbi.result = _
    rw [e4]; exact ⟨g1, g2⟩
  · have he : d.lbi.slot = some e := he
    rcases h4.slot with f | ⟨f, _⟩
    · exact h3s e (by rw [← show d.lbi.slot = c.lbi.slot from f]; exact he) hp
    · rw [show d.lbi.slot = none from f] at he; cases he
  · exact h4.ctl.trans (h3.ctl.trans (h2.ctl.trans (h1.ctl.trans h0.rest.2.1)))
  · exact h4.mirror.trans (h3.mirror.trans (h2.mirror.trans (h1.mirror.trans h0.rest.2.2.2.2.2.2.1)))

theorem completeRescans_frame (st : Status) (n : Nat) (l : List (BitVec 8)) : ∀ s : State,
    let t := l.foldl
      (fun s t => s.complete { ticket := t, kind := .rescan, status := st, node := 0, count := n, data := [] }) s
    t.lbi = s.lbi ∧ t.windows = s.windows ∧ t.nodes = s.nodes ∧ t.queue = s.queue ∧ t.ctl = s.ctl ∧
      t.mirror = s.mirror ∧ t.notices = s.notices := by
  induction l with
  | nil => intro s; exact ⟨rfl, rfl, rfl, rfl, rfl, rfl, rfl⟩
  | cons u l ih =>
    intro s
    simpa using ih
      (s.complete { ticket := u, kind := .rescan, status := st, node := 0, count := n, data := [] })

theorem mem_insertClose {j : Addr} {st : MgmtStep} : ∀ {l : List MgmtStep}, st ∈ insertClose j l →
    st = .closeGate j ∨ st ∈ l
  | [], h => .inl (by simpa [insertClose] using h)
  | x :: l, h => by
    unfold insertClose at h
    split at h
    · rename_i hl; cases hl
    · rename_i rest hl; cases hl
      rcases List.mem_cons.1 h with h | h
      · exact .inl h
      · exact .inr h
    · rename_i y rest _ hl; cases hl
      rcases List.mem_cons.1 h with h | h
      · exact .inr (by simp [h])
      · rcases mem_insertClose h with h | h
        · exact .inl h
        · exact .inr (by simp [h])

/-- CLOSE(j) stands in the backlog once it has become due (R105). -/
theorem makeCloseDue_mem (j : Addr) : .closeGate j ∈ (s.makeCloseDue j).chain.backlog := by
  have : ∀ l, MgmtStep.closeGate j ∈ insertClose j l := by
    intro l
    fun_induction insertClose j l <;> simp_all
  unfold State.makeCloseDue
  split
  · assumption
  · exact this _

/-- What follows the emptying of a cascade (R105): the completions, and above address 1 the chain state. -/
structure CutEnd (k : Addr) (s t : State) : Prop where
  cmd : t.cmd = s.cmd.record (s.lostRecords k)
  behind : ∀ j : Addr, addrNum j = k.val →
    .closeGate j ∈ t.chain.backlog ∧
      (s.ctl.autoRewalk = false → t.chain.state = .running ∧ t.chain.pointer = none ∧ t.chain.walkStep = none ∧
        t.chain.darkWait = none ∧ t.chain.rescans = []) ∧
      (s.ctl.autoRewalk = true → t.chain.state = .walking ∧ t.chain.pointer = some j ∧
        t.chain.walkStep = some .opening ∧ t.chain.darkWait = some .closing ∧ t.chain.rescans = s.chain.rescans)

theorem closeBehind_cut {k j : Addr} (hj : addrNum j = k.val) :
    Cut k s (((s.loseFrom k).cutTail k).closeBehind j) ∧ CutEnd k s (((s.loseFrom k).cutTail k).closeBehind j) := by
  obtain ⟨h, hcmd, hres⟩ := loseFrom_cut s k
  have hjk : j < k := Fin.lt_def.2 (by simp [addrNum] at hj; omega)
  have hk0 : k ≠ 0 := by rintro rfl; simp [addrNum] at hj
  have hrest : ((s.loseFrom k).cutTail k).chain.pointer = none ∧ ((s.loseFrom k).cutTail k).chain.walkStep = none ∧
      ((s.loseFrom k).cutTail k).chain.darkWait = none := ⟨rfl, rfl, rfl⟩
  generalize (s.loseFrom k).cutTail k = t at h hcmd hres hrest
  have key : ∀ u : State, Cut k s u → Cut k s (u.makeCloseDue j) := fun u hu => by
    unfold State.makeCloseDue
    split
    · exact hu
    · refine { hu with backlog := fun st hs i hi => ?_ }
      rcases mem_insertClose hs with e | hs
      · subst e; cases hi; exact hjk
      · exact hu.backlog st hs i hi
  have close : ∀ (u : State), (u.makeCloseDue j).chain = { u.chain with backlog := (u.makeCloseDue j).chain.backlog } ∧
      (u.makeCloseDue j).cmd = u.cmd := fun u => by
    unfold State.makeCloseDue; split <;> exact ⟨rfl, rfl⟩
  have hi : ∀ i : Addr, addrNum i = k.val → i = j := fun i hi => by
    simp [addrNum] at hi hj; exact Fin.ext (by omega)
  unfold State.closeBehind
  dsimp only
  split
  · rename_i ha
    rw [h.control] at ha
    let u : State :=
      { t with
        chain :=
          { t.chain with
            state := .walking, pointer := some j, walkStep := some .opening, darkWait := some .closing } }
    refine ⟨key u { h with }, ⟨?_, fun i he => ?_⟩⟩
    · rw [(close u).2]; show t.cmd = _
      rw [hcmd, State.lostRecords]; simp [ha, State.lostEndings]
    · obtain rfl := hi i he
      refine ⟨makeCloseDue_mem u i, fun e => by simp [ha] at e, fun _ => ?_⟩
      rw [(close u).1]
      exact ⟨rfl, rfl, rfl, rfl, hres⟩
  · rename_i ha
    have ha : s.ctl.autoRewalk = false := by rw [h.control] at ha; simpa using ha
    have g := retired_completeRescans { t with chain := { t.chain with state := .running } } .ok t.chain.tail
    have gc := completeRescans_cmd { t with chain := { t.chain with state := .running } } .ok t.chain.tail
    set u := ({ t with chain := { t.chain with state := .running } } : State).completeRescans .ok t.chain.tail
    have hc : u.chain = { t.chain with state := .running, rescans := [] } := g.chain
    have hcr := completeRescans_frame .ok t.chain.tail t.chain.rescans
      ({ t with chain := { t.chain with state := .running, rescans := [] } } : State)
    obtain ⟨c1, c2, c3, c4, c5, c6, c7⟩ := hcr
    have hn : ∀ j, u.node j = t.node j := fun j => by
      simp only [State.node]; exact congrArg (fun v : Vector NodeRecord 24 => v[j.val]) c3
    have ht : ∀ x, u.tag x = t.tag x := by
      have : ∀ (l : List (BitVec 8)) (w : State), (l.foldl
          (fun s y => s.complete { ticket := y, kind := .rescan, status := .ok, node := 0, count := t.chain.tail, data := [] })
          w).disp = w.disp := by
        intro l
        induction l with
        | nil => intro w; rfl
        | cons a l ih => intro w; exact ih _
      intro x
      have e : u.disp = t.disp := this t.chain.rescans _
      simp only [State.tag, e]
    refine ⟨key _ ?_, ⟨?_, fun i he => ?_⟩⟩
    · exact ⟨fun j hj => by rw [hn]; exact h.lost j hj, fun j hj => by rw [hn]; exact h.below j hj,
        by rw [hc]; exact h.backlog, by rw [hc]; exact h.admission,
        by rw [show u.queue = t.queue from c4]; exact h.queue,
        fun i => by
          have : u.window i = t.window i := by
            simp only [State.window]; exact congrArg (fun v : Vector Window 8 => v[i.val]) c2
          rw [this]; exact h.windows i,
        by rw [show u.notices = t.notices from c7]; exact h.notices,
        fun x hx => by rw [ht]; exact h.tags x hx,
        by rw [show u.lbi = t.lbi from c1]; exact h.cycle,
        by rw [show u.lbi = t.lbi from c1]; exact h.slot,
        by rw [hc]; exact h.tail, by rw [hc]; exact h.gate,
        (show u.ctl = t.ctl from c5).trans h.control, (show u.mirror = t.mirror from c6).trans h.pool⟩
    · rw [(close u).2, gc]
      show t.cmd.record (t.chain.rescans.map _) = _
      rw [hcmd, hres, h.tail, State.lostRecords, if_pos ⟨hk0, ha⟩, ← CommandPort.record_append]; rfl
    · obtain rfl := hi i he
      refine ⟨makeCloseDue_mem u i, fun _ => ?_, fun e => by simp [ha] at e⟩
      rw [(close u).1, hc]
      exact ⟨rfl, hrest.1, hrest.2.1, hrest.2.2, rfl⟩

theorem cascade_cut (k : Addr) (hv : (s.node k).state ≠ .vacant) :
    Cut k s (s.cascade k) ∧ CutEnd k s (s.cascade k) := by
  unfold State.cascade
  rw [if_neg hv]
  dsimp only
  split
  · rename_i hk
    have hk0 : k = 0 := by
      have : ∀ k : Addr, addrOf? k.val = none → k = 0 := by decide
      exact this k hk
    obtain ⟨h, hcmd, _⟩ := loseFrom_cut s k
    generalize (s.loseFrom k).cutTail k = t at h hcmd ⊢
    refine ⟨⟨h.lost, h.below, h.backlog, h.admission, h.queue, h.windows, h.notices, h.tags, h.cycle, h.slot, h.tail,
      h.gate, h.control, h.pool⟩, ⟨?_, fun j hj => ?_⟩⟩
    · show t.cmd = _
      rw [hcmd, State.lostRecords]; simp [hk0, State.lostEndings]
    · subst hk0; simp [addrNum] at hj
  · rename_i j hj
    refine closeBehind_cut s ?_
    unfold addrOf? at hj
    split at hj
    · simp only [Option.some.injEq] at hj; subst hj; simp [addrNum]; omega
    · cases hj

theorem held_entry_node (c : HeldCycle) : c.entry.node = c.node := by
  unfold HeldCycle.entry; dsimp only; split <;> rfl

/-- The end of a cascade's event. -/
theorem Cut.lostFrom {k : Addr} {t : State} (h : Cut k s t) (hend : CutEnd k s t) : LostFrom s t.finish k := by
  have hdue := fun j (hj : addrNum j = k.val) =>
    finish_due t (st := .closeGate j) (op := .closeGate) (k := j) rfl (.inl (hend.behind j hj).1)
  have hv := served_serveBacklog (s := t) (A := fun j => j < k) (B := fun j => j < k) h.admission
    (fun j b hm => h.backlog _ hm j rfl) (fun st hm j hj => h.backlog st hm j hj)
  have hb := (serveBacklog_chain t).1
  set a := t.serveBacklog
  have hc := serveCycle_frame a
  obtain ⟨l, hl, hle⟩ := serveCycle_queue a
  set b := a.serveCycle
  have hd := chosen_dispatch b
  have hf := dispatch_frame b
  have ht : t.finish = b.dispatch := rfl
  have hq : ∀ e ∈ b.queue, e.node < k := by
    intro e he
    rw [hl] at he
    rcases List.mem_append.1 he with he | he
    · obtain ⟨m, hm, hme⟩ := hv.queue
      rw [hm] at he
      rcases List.mem_append.1 he with he | he
      · exact h.queue e he
      · rcases (hme e he).2.2.2 with h | h <;> exact h
    · obtain ⟨c, hs, hp, rfl⟩ := hle e he
      rw [hb.lbi] at hs
      rw [held_entry_node]; exact h.slot c hs hp
  have hbn : ∀ j, b.node j = a.node j := fun j => by simp only [State.node, hc.nodes]
  have hbl : ∀ j, k ≤ j → b.node j = (s.node j).vacate := fun j hj => by
    rw [hbn, hv.nodes j (not_lt.2 hj), h.lost j hj]
  rw [ht] at hdue ⊢
  have hch : b.dispatch.chain = a.chain := hf.chain.trans hc.chain
  refine ⟨fun j hj => ?_, fun j hj => ?_, fun e he => ?_, fun i j hj he hn => ?_, ?_, ?_, ?_, ?_, ?_, fun x hx => ?_,
    fun hl => ?_, fun c hs hp hk => ?_, fun j hj => ⟨hdue j hj, fun hr => ?_, fun hr => ?_⟩⟩
  · rw [hd.other j (by rw [hbl j hj]; rfl) (fun e he => ne_of_lt (lt_of_lt_of_le (hq e he) hj)), hbl j hj]; rfl
  · have := hd.nodes j
    unfold NodeRecord.sent at this
    rw [this, hbn]
    have := hv.records j
    unfold NodeRecord.sameBut at this
    rw [this]; exact h.below j hj
  · obtain ⟨e', he', h'⟩ := hd.queue e he
    rw [h'.node]; exact hq e' he'
  · have : b.dispatch.window i = t.window i := by
      simp only [State.window, hf.windows, hc.windows, hb.windows]
    rw [this]
    obtain ⟨x, hx⟩ := h.windows i
    rw [hx]
    simp [Window.detachOf, he, hn, fromAddr, hj]
  · rw [hf.chain, hc.chain, hb.tail]; exact h.tail
  · rw [hf.chain, hc.chain, hv.chain]; exact h.gate
  · rw [hf.notices, hc.notices]
    exact h.notices.kept (fun r hr hk => hv.kept r hr (by rw [hk]; simp)) hv.flag
  · rw [hf.mirror, hc.mirror, hb.mirror, h.pool]
  · rw [hf.ctl, hc.ctl, hb.ctl, h.control]
  · refine hd.tags x _ ?_
    rw [show b.tag x = t.tag x by simp only [State.tag, hc.disp, hb.disp]]
    exact h.tags x hx
  · rw [hf.cmd, hc.cmd]
    have e1 := hv.ended
    rw [hend.cmd, CommandPort.record_ended _ _ hl] at e1
    exact e1
  · have e1 := h.cycle c hs hp hk
    have e2 : a.lbi.slot = none := by rw [hb.lbi]; exact e1.1
    rw [hf.lbi, show b = a from serveCycle_none a e2, hb.lbi]; exact e1
  · rw [hch, hv.chain]; exact (hend.behind j hj).2.1 hr
  · rw [hch, hv.chain]; exact (hend.behind j hj).2.2 hr

end Sys2Proof.Machine
end

