-- ==== Sys2Proof/Laws/Released.lean ====
section
/-! SUPPORT. What a keep reset does to the records and to the power account (R29, R63, R66). -/

namespace Sys2Proof.Machine

/-- What the release of some nodes' demands leaves (R63, R66). -/
structure Released (l : List Addr) (s t : State) : Prop where
  nodes : ∀ k, t.node k = if k ∈ l then { s.node k with powered := false } else s.node k
  chain : t.chain =
    { s.chain with
      committed := s.chain.committed - ((l.filter fun k => (s.node k).powered).map s.demandOf).sum
      backlog := s.chain.backlog ++
        if (∃ k ∈ l.filter fun k => (s.node k).powered, 0 < s.demandOf k) ∧ .service ∉ s.chain.backlog then [.service]
        else [] }
  rest : t = { s with nodes := t.nodes, chain := t.chain }

/-- The release of one node's demand (R63, R66). -/
theorem released_one (s : State) (a : Addr) : (s.release a).chain =
    { s.chain with
      committed := s.chain.committed - (if (s.node a).powered then s.demandOf a else 0)
      backlog := s.chain.backlog ++
        if (s.node a).powered = true ∧ 0 < s.demandOf a ∧ .service ∉ s.chain.backlog then [.service] else [] } ∧
    s.release a = { s with nodes := (s.release a).nodes, chain := (s.release a).chain } := by
  unfold State.release
  split
  · rename_i hp
    dsimp only
    split
    · rename_i hd
      unfold State.requestService State.makeDue
      split
      · rename_i hm
        have hm : MgmtStep.service ∈ s.chain.backlog := hm
        simp [hp, hm, State.modNode, State.setNode]
      · rename_i hm
        have hm : MgmtStep.service ∉ s.chain.backlog := hm
        simp [hp, hm, hd, State.modNode, State.setNode]
    · rename_i hd
      simp [hp, hd, State.modNode, State.setNode]
  · rename_i hp
    simp [hp]

/-- The release of several nodes' demands. -/
theorem released_list (l : List Addr) : l.Nodup → ∀ s : State, Released l s (l.foldl State.release s) := by
  induction l with
  | nil => intro _ s; exact ⟨fun k => by simp, by simp, rfl⟩
  | cons a l ih =>
    intro hn s
    have ha := (List.nodup_cons.1 hn).1
    obtain ⟨i1, i2, i3⟩ := ih (List.nodup_cons.1 hn).2 (s.release a)
    obtain ⟨c1, c2⟩ := released_one s a
    have hdem : ∀ j, (s.release a).demandOf j = s.demandOf j := by
      intro j; unfold State.demandOf; rw [release_node]; split
      · subst_vars; rfl
      · rfl
    have hfil : (l.filter fun k => ((s.release a).node k).powered) = l.filter fun k => (s.node k).powered := by
      apply List.filter_congr; intro x hx; rw [release_node, if_neg (by rintro rfl; exact ha hx)]
    rw [List.foldl_cons]
    refine ⟨fun k => ?_, ?_, ?_⟩
    · rw [i1, release_node]
      by_cases h1 : k = a
      · subst h1; rw [if_neg ha, if_pos rfl, if_pos List.mem_cons_self]
      · by_cases h2 : k ∈ l
        · rw [if_pos h2, if_neg h1, if_pos (List.mem_cons_of_mem _ h2)]
        · rw [if_neg h2, if_neg h1, if_neg (fun h => (List.mem_cons.1 h).elim h1 h2)]
    · rw [i2, hfil, funext hdem]
      have e1 : (s.release a).chain.committed - ((l.filter fun k => (s.node k).powered).map s.demandOf).sum =
          s.chain.committed - (((a :: l).filter fun k => (s.node k).powered).map s.demandOf).sum := by
        rw [c1]; by_cases hp : (s.node a).powered = true
        · simp only [List.filter_cons, hp, if_true, List.map_cons, List.sum_cons, Nat.sub_sub]
        · simp only [List.filter_cons, hp]; rfl
      have e2 : (s.release a).chain.backlog ++ (if (∃ k ∈ l.filter fun k => (s.node k).powered, 0 < s.demandOf k) ∧
            .service ∉ (s.release a).chain.backlog then [MgmtStep.service] else []) =
          s.chain.backlog ++ (if (∃ k ∈ (a :: l).filter fun k => (s.node k).powered, 0 < s.demandOf k) ∧
            .service ∉ s.chain.backlog then [MgmtStep.service] else []) := by
        rw [c1]; dsimp only
        by_cases hs : MgmtStep.service ∈ s.chain.backlog
        · simp only [hs, not_true, and_false, if_false, List.append_nil]
        · by_cases hp : (s.node a).powered = true
          · rw [show (a :: l).filter (fun k => (s.node k).powered) = a :: l.filter fun k => (s.node k).powered from
              List.filter_cons_of_pos (p := fun k => (s.node k).powered) hp]
            by_cases hd : 0 < s.demandOf a
            · rw [if_pos ⟨hp, hd, hs⟩, if_neg, if_pos ⟨⟨a, List.mem_cons_self, hd⟩, hs⟩, List.append_nil]
              rintro ⟨_, g⟩; exact g (List.mem_append_right _ List.mem_cons_self)
            · rw [if_neg (fun g => hd g.2.1), List.append_nil]
              congr 2
              simp only [List.mem_cons, exists_eq_or_imp, hd, false_or]
          · rw [show (a :: l).filter (fun k => (s.node k).powered) = l.filter fun k => (s.node k).powered from
              List.filter_cons_of_neg (p := fun k => (s.node k).powered) hp, if_neg (fun g => hp g.1),
              List.append_nil]
      rw [e1, e2, c1]
    · rw [i3, c2]

/-- A record after a keep reset (R29). -/
theorem NodeRecord.keepReset_eq (r : NodeRecord) : r.keepReset =
    { r with
      state := if r.loadOnLost then .sensed else r.state
      step := if r.step = some .loadWait ∨ r.step = some .unfencing ∨ r.step = some .poweringOff then none else r.step
      inFlightTag := none
      resync := r.resync || r.inFlightTag.isSome } := by
  obtain ⟨st, step⟩ := r
  unfold NodeRecord.keepReset NodeRecord.loadOnLost
  cases st <;> rcases step with _ | x <;> first | rfl | (cases x <;> rfl)

/-- A release leaves the pins out of account. -/
theorem release_pins (a : Addr) (p : Pins) (u : State) :
    ({ u with pins := p } : State).release a = { u.release a with pins := p } := by
  have hn : ({ u with pins := p } : State).node a = u.node a := rfl
  have hd : ({ u with pins := p } : State).demandOf a = u.demandOf a := rfl
  unfold State.release
  rw [hn, hd]
  split
  · dsimp only; split
    · have key : ∀ v w : State, v.chain = w.chain → v = { w with pins := p } →
          v.requestService = { w.requestService with pins := p } := by
        intro v w hc hv
        unfold State.requestService State.makeDue
        rw [hc]
        split
        · exact hv
        · rw [hv]
      exact key _ _ rfl rfl
    · rfl
  · rfl

end Sys2Proof.Machine
end

