-- ==== Sys2Proof/Tests/Slice0.lean ====
section
/-! SUPPORT. Tests: an ill-formed command for each check of WellFormed.lean, known values, one step of each
family, and a witness for the hypotheses of each statement, at the ends of its ranges. -/

namespace Sys2Proof.Tests

open Sys2Proof Sys2Proof.Machine

-- One theorem at a time: the checks of many small theorems side by side need more stack than there is.
set_option Elab.async false

/-! ### Ill-formed commands -/

theorem test_chainEnableSet_needs_bit0 : (Instr.chainEnableSet 0x0000#16).wellFormed = false := by decide
theorem test_chainEnableSet_needs_no_soft_reset : (Instr.chainEnableSet 0x8001#16).wellFormed = false := by decide
theorem test_chainEnableClear_needs_bit0_clear : (Instr.chainEnableClear 0x0001#16).wellFormed = false := by decide
theorem test_chainEnableClear_needs_no_soft_reset : (Instr.chainEnableClear 0x8000#16).wellFormed = false := by decide
theorem test_autoRewalk_needs_no_soft_reset : (Instr.autoRewalkWrite 0x8002#16).wellFormed = false := by decide
theorem test_noticeIe_needs_no_soft_reset : (Instr.noticeIeWrite 0x8004#16).wellFormed = false := by decide
theorem test_completionIe_needs_no_soft_reset : (Instr.completionIeWrite 0x8008#16).wellFormed = false := by decide
theorem test_softReset_needs_bit15 : (Instr.softReset 0x7FFF#16).wellFormed = false := by decide
theorem test_budgetRefusedClear_needs_bit0 : (Instr.budgetRefusedClear 0x0002#16).wellFormed = false := by decide
theorem test_noticeOverflowClear_needs_bit1 : (Instr.noticeOverflowClear 0x0001#16).wellFormed = false := by decide
theorem test_windowEnable_needs_bit0 : (Instr.windowEnable 0 0xFFFE#16).wellFormed = false := by decide
theorem test_windowDisable_needs_bit0_clear : (Instr.windowDisable 7 0x0001#16).wellFormed = false := by decide
theorem test_registerWrite_needs_other_word :
    ∀ a ∈ [0x000#11, 0x007#11, 0x054#11, 0x05B#11, 0x080#11, 0x0BF#11, 0x0C3#11, 0x106#11, 0x1BE#11, 0x400#11],
      (Instr.registerWrite a (.write 0#16)).wellFormed = false := by decide
theorem test_registerRead_needs_a_word_below_the_aperture :
    ∀ a ∈ [0x400#11, 0x7FF#11], (Instr.registerWrite a .read).wellFormed = false := by decide
theorem test_receiveData_needs_words : (Instr.receiveData 1#5 0 false []).wellFormed = false := by decide
theorem test_receiveData_needs_at_most_16 :
    (Instr.receiveData 1#5 0 false (List.replicate 17 0#16)).wellFormed = false := by decide
/-- A whole DONE frame is not dropped. -/
theorem test_frameDropped_needs_a_bad_frame :
    (Instr.frameDropped ({ source := 1#5, tag := 0, seq := false, flag := false, body := .done } : UpFrame).wire
      true).wellFormed = false := by decide +kernel

/-! ### Known values -/

/-- The CRC of the bytes "12345678" by polynomial 0x1021 from 0xFFFF. -/
theorem test_crc : crc [0x3132#16, 0x3334#16, 0x3536#16, 0x3738#16] = 0xA12B#16 := by decide +kernel

/-- ASSIGN of address 24 with tag 5: destination 0, kind 3, tag 5, bits 2 to 0 zero (12.6). -/
theorem test_assign_words : (requestFrame .assign 23 0 0 [] 5 false).wire.dropLast =
    [0b0000000011101000#16, 0x0018#16] := by decide +kernel

/-- RD of 3 registers from 0x1234 at node 2, tag 1, sequence bit 1 (12.6). -/
theorem test_rd_words : (requestFrame .rd 1 0x1234#16 3 [] 1 true).wire.dropLast =
    [0b0001000000001100#16, 0x1234#16, 0x0003#16] := by decide +kernel

/-- A DONE from node 3 to tag 2, sequence bit 1 (12.6). -/
theorem test_done_accepted :
    acceptFrame (sealed [0b0001101011010100#16]) true =
      some { source := 3#5, tag := 2, seq := true, flag := false, body := .done } := by decide +kernel

/-! ### A part at work -/

/-- A node in service. -/
def live : NodeRecord :=
  { NodeRecord.reset with
    state := .online, incarnation := 1#16, cls := 7#8, span := some 64, demand := 1#4, powered := true }

/-- A window on node `n` from aperture word `base`, 16 words long. -/
def windowOn (n : BitVec 5) (base : BitVec 10) (kind : BitVec 2) : Window :=
  { Window.reset with
    enabled := true, kind := kind, node := n, base := base, length := 16#11, attached := true,
    boundIncarnation := 1#16 }

/-- Two nodes ONLINE; windows 0 (DIRECT), 1 (POSTED) and 2 (MIRROR) on node 1. -/
def work : State :=
  { State.reset with
    ctl := { Control.reset with chainEnable := true }
    chain :=
      { ChainManager.reset with state := .running, tail := 2, pwrEn := true, budget := 4, committed := 2 }
    port := { tx := none, carrierSeen := true }
    nodes := (State.reset.nodes.set 0 live).set 1 live
    windows :=
      ((State.reset.windows.set 0 (windowOn 1#5 0#10 0#2)).set 1 (windowOn 1#5 16#10 1#2)).set 2
        (windowOn 1#5 32#10 2#2) }

/-- The state a command leads to, if it satisfies a test. -/
def leads (c : Instr) (s : State) (p : State → Bool) : Bool :=
  match step { s with pending := [c] } with
  | .next t => p t
  | _ => false

/-- A part with a staging record and room for a command. -/
def staged (s : State) (g : Staging) : State := { s with cmd := { s.cmd with staging := g } }

/-- A staging record of a kind for node 1. -/
def stage (kind : BitVec 4) : Staging :=
  { kind := kind, powerOff := false, node := 1#5, address := 4#16, count := 1#5, window := 2#4, target := 9#8,
    data := Vector.replicate 16 0xABCD#16 }

/-- A COMMAND entry for node 1 in flight with tag 0, sent once. -/
def flying (op : Op) (kind : CmdKind) : Entry :=
  { freshEntry (.command { ticket := 9#8, kind := kind, order := 0 }) op 0 4#16 1 [] with
    state := .inFlight, tag := some 0, sentBit := some false, attempts := 1 }

/-- The tag of a request to node 1. -/
def flight (op : Op) (h : Holder) : Tag :=
  .busy { holder := h, node := 0, kind := op, sentBit := false, synthAttempts := 1,
          timer := some { use := .response, duration := 50 } }

/-- A request of one entry in flight to node 1 with tag 0. -/
def sent (e : Entry) : State :=
  { work with
    queue := [e]
    disp := { work.disp with tags := work.disp.tags.set 0 (flight e.op .entry) }
    nodes := work.nodes.set 0 { live with inFlightTag := some 0 }
    cmd := { work.cmd with reservations := 1 } }

theorem test_unmapped_read : leads (.apertureAccess 1023#10 .read) work (fun t =>
    t.lbi.result == .unmapped && t.pins.busData == some 0xFFFF#16 && t.notices.records.length == 1) = true := by
  decide +kernel
theorem test_direct_read_goes_out : leads (.apertureAccess 15#10 .read) work (fun t =>
    t.ready == false && (t.port.tx.map DownFrame.wire).map List.length == some 4) = true := by decide +kernel
theorem test_posted_write_ends_ok : leads (.apertureAccess 16#10 (.write 0x1234#16)) work (fun t =>
    t.ready && t.lbi.result == .ok && t.queue.length == 1) = true := by decide +kernel
theorem test_mirror_write_refused : leads (.apertureAccess 32#10 (.write 0#16)) work (fun t =>
    t.lbi.result == .prot) = true := by decide +kernel
theorem test_chain_starts : leads (.chainEnableSet 1#16) State.reset (fun t =>
    t.chain.state == .ramp && t.dnCarrier && t.chain.settleTimer == some 20) = true := by decide +kernel
theorem test_chain_stops : leads (.chainEnableClear 0#16) work (fun t =>
    t.chain.state == .off && !t.dnCarrier && (t.node 0).state == .vacant && !(t.window 0).attached) = true := by
  decide +kernel
theorem test_notice_irq : leads (.noticeIeWrite 5#16) { work with notices := (work.notices.post 1 .nodeOnline 1) }
    (fun t => t.irqN == false) = true := by decide +kernel
theorem test_soft_reset_keeps_nodes : leads (.softReset 0x8000#16) work (fun t =>
    (t.node 0).state == .online && !(t.window 0).enabled && t.ctl.resetCause == .soft) = true := by decide +kernel
theorem test_timeout_refuses_one : leads (.timingRegisterWrite .timeout 0xAA01#16) work (fun t =>
    t.ctl.timeout == 50) = true := by decide +kernel
theorem test_budget_below_committed_refused : leads (.budgetWrite 1#16) work (fun t =>
    t.chain.budget == 4 && t.ctl.budgetRefused) = true := by decide +kernel
theorem test_read_command : leads (.read 9#16) (staged work (stage 0)) (fun t =>
    t.cmd.submitStatus == .accepted && t.cmd.reservations == 1 && t.queue.length == 1) = true := by decide +kernel
theorem test_fence_completes : leads (.fence 9#16) (staged work (stage 2)) (fun t =>
    (t.node 0).state == .fenced && t.cmd.completions.length == 1 && (t.node 0).powered) = true := by decide +kernel
theorem test_kind_8_is_bad : leads (.submitKindNamesNoKind 9#16) (staged work (stage 8)) (fun t =>
    t.cmd.submitStatus == .badCommand) = true := by decide +kernel
theorem test_window_conflict : leads (.windowEnable 3 0x0011#16)
    { work with windows := work.windows.set 3 { Window.reset with base := 15#10, length := 1#11 } } (fun t =>
      (t.window 3).enableStatus == .conflict && !(t.window 3).enabled) = true := by decide +kernel
theorem test_mirror_segment_placed_after : leads (.windowEnable 3 0x0015#16)
    { work with windows := work.windows.set 3 { Window.reset with base := 48#10, length := 496#11 } } (fun t =>
      (t.window 3).mirrorSegment == 16 && (t.window 3).stale) = true := by decide +kernel
theorem test_register_read_drives_the_bus : leads (.registerWrite 0x038#11 .read) work (fun t =>
    t.pins.busData == some 0x4C18#16) = true := by decide +kernel
theorem test_reset_silences_a_register_read :
    leads (.registerWrite 0x038#11 .read) { work with pins := { work.pins with resetN := false } } (fun t =>
      t.pins.busData == none) = true := by decide +kernel
theorem test_no_clock_no_expiry : leads .walkSettleExpiry
    { work with
      pins := { work.pins with clkIn := false }
      chain := { work.chain with
        state := .walking, pointer := some 1, walkStep := some .settling, settleTimer := some 20 } }
    (fun t => t.chain.walkStep == some .settling) = true := by decide +kernel
/-- A walk whose ASSIGN of address 3 is in flight with tag 0. -/
def assigning : State :=
  let f : Flight :=
    { holder := .entry, node := 2, kind := .assign, sentBit := false, synthAttempts := 0, timer := none }
  { work with
    chain := { work.chain with state := .walking, pointer := some 2, walkStep := some .assigning }
    queue := [{ mgmtEntry .assign 2 with state := .inFlight, tag := some 0, sentBit := some false, attempts := 1 }]
    disp := { work.disp with tags := work.disp.tags.set 0 (.busy f) } }

theorem test_sense_admits : leads (.receiveSense 3#5 0 false ⟨7#8, 1#8, 3#12, 2#4, true⟩) assigning (fun t =>
    (t.node 2).state == .powering && t.chain.committed == 4 && t.chain.tail == 3 &&
      (t.node 2).span == some 64 && t.queue.length == 2) = true := by decide +kernel
theorem test_read_completes : leads (.receiveData 1#5 0 false [0x5555#16]) (sent (flying .rd .read)) (fun t =>
    t.cmd.completions.map (·.data) == [[0x5555#16]] && t.tag 0 == .free && (t.node 0).nextSeq) = true := by
  decide +kernel
theorem test_wrong_source_is_stray : leads (.receiveData 2#5 0 false [0x5555#16]) (sent (flying .rd .read))
    (fun t => t.notices.records.map (·.kind) == [.strayResponse] && t.queue.length == 1) = true := by
  decide +kernel
theorem test_busy_backs_off : leads (.receiveRefuse 1#5 0 false .busy) (sent (flying .rd .read)) (fun t =>
    t.queue.map (·.state) == [.backoff]) = true := by decide +kernel
theorem test_timeout_resends : leads (.responseTimerExpiry 0) (sent (flying .rd .read)) (fun t =>
    t.queue.map (·.attempts) == [2] && t.port.tx.isSome && t.disp.resend == []) = true := by decide +kernel
theorem test_last_timeout_fails : leads (.responseTimerExpiry 0) (sent { flying .rd .read with attempts := 4 })
    (fun t => t.cmd.completions.map (·.status) == [.timeout] && t.tag 0 == .hold 100 &&
      (t.node 0).failCount == 1 && (t.node 0).resync) = true := by decide +kernel
theorem test_downstream_lost : leads (.receiveAttn 1#5 0xF1#8 true) work (fun t =>
    (t.node 1).state == .vacant && (t.node 0).state == .online && t.chain.tail == 1 &&
      t.port.tx.map (·.kind) == some .attnAck) = true := by decide +kernel
theorem test_carrier_lost : leads .upCarrierLost work (fun t =>
    t.chain.state == .ramp && t.chain.rampPhase == some .dark && (t.node 0).state == .vacant &&
      t.chain.committed == 0) = true := by decide +kernel
theorem test_chain_fault : leads (.chainFault false) work (fun t =>
    t.chain.state == .faulted && t.notices.records.map (·.detail) == [2#16]) = true := by decide +kernel
theorem test_rescan_reopens : leads (.rescan 9#16) (staged work (stage 6)) (fun t =>
    t.chain.state == .walking && t.queue.map (·.op) == [.openGate] && t.chain.rescans == [9#8]) = true := by
  decide +kernel
theorem test_refresh_creates_a_job : leads (.refresh 9#16) (staged work (stage 5)) (fun t =>
    t.queue.map (·.count) == [16] && t.port.tx.isSome) = true := by decide +kernel

/-! ### Witnesses -/

/-- The commands that wait, put in a state. -/
def waiting (s : State) (cs : List Instr) : State := { s with pending := cs }

/-! ### Laws -/

theorem wit_step : (waiting work []).pending = [] := rfl
theorem wit_a_step_answers : step (waiting work [.noticePop 0#16]) = exec (.noticePop 0#16) work := rfl
theorem wit_NoticesAndCompletions : NoticesOk work.notices ∧ CompletionsOk work.cmd :=
  ⟨⟨by decide, by decide, by decide⟩, by unfold CompletionsOk; decide⟩
theorem wit_OutboundQueue : QueueOk (sent (flying .rd .read)).queue :=
  ⟨by decide, by decide, by decide⟩
theorem wit_PowerAccount : AccountOk work :=
  ⟨by decide +kernel, by decide, by decide +kernel, nofun, by decide +kernel, List.nodup_nil⟩
theorem wit_MirrorPool : Memory.wf [(0, 1#16), (511, 0xFFFF#16)] = true := by decide
theorem wit_WindowMap : WindowsOk work :=
  ⟨by decide +kernel, by decide +kernel, by decide +kernel, by decide +kernel⟩
theorem wit_WindowBinding : BindingOk work := by
  have h : ∀ i, (work.window i).enabled = true → addrOf? (work.window i).node.toNat = some 0 := by decide +kernel
  intro i k h1 _ h3
  rw [h i h1, Option.some.injEq] at h3; subst h3
  revert h1; revert i; decide +kernel
theorem wit_Settled : Settled work := ⟨.inl rfl, nofun, fun _ _ => by decide +kernel⟩
theorem wit_Timing : TimingOk work.ctl := ⟨by decide, by decide, by decide, by decide, by decide⟩

/-- A request whose retransmission is due. -/
def due : State :=
  let f : Flight :=
    { holder := .entry, node := 0, kind := .rd, sentBit := false, synthAttempts := 0, timer := none }
  let s := sent (flying .rd .read)
  { s with disp := { tags := s.disp.tags.set 0 (.busy f), resend := [0] } }

theorem wit_ResendList : ResendOk due.disp :=
  ⟨by decide, fun t ht => by
    rw [show due.disp.resend = [0] from rfl, List.mem_singleton] at ht
    subst ht; exact ⟨_, rfl, rfl⟩⟩

/-! ### Frames, resets, host cycles -/

theorem wit_AcceptedFrame :
    (1 ≤ [0#16].length ∧ [0#16].length ≤ 16) ∧ 1 ≤ (List.replicate 16 0#16).length ∧
      (List.replicate 16 0#16).length ≤ 16 := by decide
theorem wit_DroppedFrame : acceptFrame [0#16] true = none ∧ 0#16 ≠ crc [0#16] := by decide +kernel
/-- A body for each way to be malformed, by the kind code in the header. -/
theorem wit_DroppedFrame_malformed :
    ∀ p ∈ [(0, []), (9, []), (16, []), (31, []), (11, [0#16]), (15, [0#16]), (12, []), (14, [0#16, 0#16]),
        (13, [0#16, 0#16]), (10, []), (10, [0#16]), (10, [1#16]), (10, 17#16 :: List.replicate 17 0#16)],
      let code := ((BitVec.ofNat 16 (64 * p.1)).extractLsb' 6 5).toNat
      let count := (((p.2 : List Word).headD 0#16).extractLsb' 0 5).toNat;
      code ≤ 9 ∨ 16 ≤ code ∨ (code = 11 ∨ code = 15) ∧ p.2 ≠ [] ∨ (code = 12 ∨ code = 14) ∧ p.2.length ≠ 1 ∨
        code = 13 ∧ p.2.length ≠ 3 ∨ code = 10 ∧ (p.2 = [] ∨ count = 0 ∨ 16 < count ∨ p.2.length ≠ 1 + count) := by
  decide +kernel

/-- The pins of a part that a reset holds. -/
def held (hold resetN keepN : Bool) : State :=
  { work with pins := { work.pins with powerOnHold := hold, resetN := resetN, keepN := keepN } }

theorem wit_PowerOnReset :
    (held true true true).pins.supplyValid = true ∧ (held true true true).pins.powerOnHold = true ∧
      (held true true true).pins.resetN = true ∧ (held true false false).pins.powerOnHold = true ∧
      (held true false false).pins.resetN = false := by decide
theorem wit_BusReset :
    (held false false false).pins.supplyValid = true ∧ (held false false false).pins.powerOnHold = false ∧
      (held false false false).pins.resetN = false ∧ (held false false false).pins.keepN = false ∧
      (held true true true).pins.powerOnHold = true ∧ work.pins.supplyValid = true ∧
      work.pins.powerOnHold = false ∧ work.pins.resetN = true := by decide
theorem wit_KeepReset :
    work.pins.supplyValid = true ∧ work.pins.powerOnHold = false ∧ work.pins.resetN = true ∧
      controlWritten (.softReset 0x8000#16) = some 0x8000#16 ∧ (0x8000#16).getLsbD 15 = true ∧
      work.hostReady = true ∧ ((sent (flying .rd .read)).node 0).inFlightTag.isSome = true := by decide

/-- A part that holds a read of aperture word 0. -/
def holding (phase : HeldPhase) : State :=
  let c : HeldCycle :=
    { handle := 0, phase := phase, access := .read, offset := 0#10, window := 0, holdTimer := 64, posted := false,
      node := 0, remote := 0#16 }
  { work with lbi := { work.lbi with slot := some c, nextHandle := 1 } }

theorem wit_UnrecognisedCycle :
    isHostCycle (.apertureAccess 0#10 .read) = true ∧ (held true true true).pins.powerOnHold = true ∧
      (held false false true).pins.resetN = false ∧ (holding .slotWait).lbi.slot.isSome = true ∧
      ({ work with pins := { work.pins with supplyValid := false } } : State).pins.supplyValid = false := by decide
theorem wit_Identification : work.hostReady = true := by decide
theorem wit_RefusedAccess_unmapped : ∀ o ∈ [48#10, 1023#10], ∀ i : WinIx,
    ¬((work.window i).enabled = true ∧ (work.window i).base.toNat ≤ o.toNat ∧
      o.toNat < (work.window i).base.toNat + (work.window i).length.toNat) := by decide +kernel

/-- The part with window 0 changed. -/
def window0 (f : Window → Window) : State := { work with windows := work.windows.set 0 (f (work.window 0)) }

/-- The part with node 1 changed. -/
def node1 (f : NodeRecord → NodeRecord) : State := { work with nodes := work.nodes.set 0 (f live) }

/-- What the first checks of an access at aperture word 15 see. -/
def sees (s : State) : Bool := s.hostReady && s.windowAt 15 == some 0 && (s.window 0).node.toNat == addrNum 0

theorem wit_RefusedAccess :
    (sees (window0 fun w => { w with attached := false }) = true ∧
        ((window0 fun w => { w with attached := false }).window 0).attached = false) ∧
      (sees (window0 fun w => { w with writeProtect := true }) = true ∧
        ((window0 fun w => { w with writeProtect := true }).window 0).writeProtect = true) ∧
      (work.windowAt 32 = some 2 ∧ (work.window 2).kind = 2#2) ∧
      (sees (node1 fun r => { r with state := .fenced }) = true ∧
        ((node1 fun r => { r with state := .fenced }).node 0).state = .fenced) ∧
      (sees (node1 fun r => { r with span := some 15 }) = true ∧
        ((node1 fun r => { r with span := some 15 }).node 0).span.getD 0 ≤ 15) := by decide +kernel
theorem wit_MirrorRead :
    work.windowAt 32 = some 2 ∧ work.windowAt 47 = some 2 ∧ (work.window 2).node.toNat = addrNum 0 ∧
      (work.window 2).kind = 2#2 ∧ (work.window 2).attached = true ∧ work.inService 0 ∧
      15 < (work.node 0).span.getD 0 := by decide +kernel

/-- The part with no slot left in the queue. -/
def full : State := { work with queue := List.replicate 16 (mgmtEntry .closeGate 5) }

theorem wit_AccessThroughWindow :
    (sees work = true ∧ (work.window 0).kind ≠ 2#2 ∧ work.inService 0 ∧ work.hostSlotFree = true) ∧
      (work.windowAt 16 = some 1 ∧ (work.window 1).kind = 1#2 ∧ (work.window 1).writeProtect = false) ∧
      (sees full = true ∧ full.hostSlotFree = false ∧ full.inService 0) := by decide +kernel
theorem wit_HoldLimit :
    work.lbi.slot = none ∧ (holding .slotWait).pins.clkIn = true ∧
      (holding .slotWait).lbi.slot.map (·.phase) = some .slotWait ∧
      (holding .resultWait).lbi.slot.map (·.phase) = some .resultWait := by decide


/-! ### Control words -/

/-- The chain of `work` changed. -/
def withChain (f : ChainManager → ChainManager) : State := { work with chain := f work.chain }

theorem wit_ControlWrite :
    controlWritten (.autoRewalkWrite 0x0003#16) = some 0x0003#16 ∧ work.hostReady = true ∧
      (0x0003#16).getLsbD 15 = false ∧ (0x0003#16).getLsbD 0 = work.ctl.chainEnable := by decide
theorem wit_ChainEnable :
    controlWritten (.chainEnableSet 1#16) = some 1#16 ∧ State.reset.hostReady = true ∧
      State.reset.ctl.chainEnable = false ∧ State.reset.chain.state = .off ∧
      State.reset.pins.chainFaultN = true ∧
      ({ State.reset with pins := { State.reset.pins with chainFaultN := false } } : State).hostReady = true ∧
      ({ State.reset with chain := { State.reset.chain with state := .running } } : State).chain.state ≠ .off := by
  decide
theorem wit_ChainDisable :
    controlWritten (.chainEnableClear 0#16) = some 0#16 ∧ work.hostReady = true ∧ work.ctl.chainEnable = true ∧
      work.chain.state ≠ .faulted ∧
      ({ work with chain := { work.chain with state := .faulted } } : State).chain.state = .faulted := by decide
theorem wit_ChainFault :
    work.chain.pwrEn = true ∧ State.reset.chain.pwrEn = false ∧
      ({ holding .slotWait with chain := work.chain } : State).lbi.slot.map (·.phase) = some .slotWait := by decide
theorem wit_ChainFault_ramp :
    let s : State :=
      { withChain fun c => { c with state := .ramp, settleTimer := some 20, rampPhase := some .dark } with
        pins := { work.pins with chainFaultN := false } };
    s.pins.clkIn = true ∧ s.chain.state = .ramp ∧ s.chain.settleTimer.isSome = true ∧
      s.chain.rampPhase = some .dark ∧ s.pins.chainFaultN = false ∧ (s.tearRecords .nodeLost).length ≤ 0 := by decide
theorem wit_NoClock :
    ({ work with pins := { work.pins with clkIn := false } } : State).pins.clkIn = false ∧
      needsClock .transmitterFree = true := by decide
theorem wit_HostReads :
    work.hostReady = true ∧ (0x3FF#11).toNat < 0x400 ∧ work.cmd.completions = [] ∧ work.notices.records = [] ∧
      (∃ x xs, (work.cmd.completing (plainCompletion 9#8 .rescan .ok 0)).completions = x :: xs) ∧
      ∃ x xs, (work.notices.post 1 .nodeOnline 1).records = x :: xs :=
  ⟨by decide, by decide, rfl, rfl, ⟨_, _, rfl⟩, ⟨_, _, rfl⟩⟩
theorem wit_RefreshOnAttn : (work.node 2).state = .vacant ∧ (work.node 0).state ≠ .vacant := by decide
theorem wit_RegisterWrite :
    ∀ a ∈ [0x008#11, 0x040#11, 0x041#11, 0x042#11, 0x043#11, 0x044#11, 0x053#11, 0x0C0#11, 0x1BF#11, 0x3FF#11],
      writeHasOwnRow a = false := by decide

/-! ### Commands -/

theorem wit_BadParameters :
    BadParameters (staged work (stage 15)) ∧ BadParameters (staged work { stage 0 with node := 25#5 }) ∧
      BadParameters (staged work { stage 4 with node := 0#5 }) ∧
      BadParameters (staged work { stage 1 with count := 17#5 }) ∧
      BadParameters (staged work { stage 0 with address := 0xFFFF#16, count := 2#5 }) ∧
      BadParameters (staged work { stage 5 with window := 8#4 }) ∧
      BadParameters (staged work { stage 5 with window := 0#4 }) :=
  ⟨.kind (by decide), .node (by decide) (by decide), .node (by decide) (by decide),
    .range (by decide) (by decide), .range (by decide) (by decide), .windowIndex (by decide) (by decide),
    .windowKind (by decide) 0 (by decide) (by decide)⟩
theorem wit_no_room : ¬ BadParameters (staged work (stage 6)) ∧
    ¬ ({ (staged work (stage 6)).cmd with reservations := 8 } : CommandPort).roomFor := by
  refine ⟨fun h => ?_, by decide⟩
  cases h with
  | kind h => revert h; decide
  | node h => revert h; decide
  | range h => revert h; decide
  | windowIndex h => revert h; decide
  | windowKind h => revert h; decide
theorem wit_Transfer :
    StagesTransfer (staged work { stage 0 with count := 16#5, address := 0xFFF0#16 }) 0 .read .rd 0xFFF0#16 16 [] ∧
      StagesTransfer (staged work (stage 1)) 0 .write .wr 4#16 1 [0xABCD#16] ∧
      StagesTransfer (staged work (stage 4)) 0 .nreset .nreset 0#16 0 [] ∧ work.cmd.roomFor ∧
      work.inService 0 ∧ work.hostSlotFree = true ∧ full.hostSlotFree = false ∧
      ¬ (node1 fun r => { r with state := .fenced }).inService 0 :=
  ⟨.read rfl rfl (by decide) (by decide) (by decide), .write rfl rfl (by decide) (by decide) (by decide),
    .nreset rfl rfl, by decide, by decide, by decide, by decide, by decide⟩

/-- Node 1 FENCED, with a staging record. -/
def fencedWith (powered : Bool) (step : Option NodeStep) (g : Staging) : State :=
  staged (node1 fun r => { r with state := .fenced, powered := powered, step := step }) g

theorem wit_Fence :
    submitted (.fence 9#16) = some 9#16 ∧ (staged work (stage 2)).cmd.staging.kind = 2#4 ∧
      (work.node 0).state ≠ .vacant ∧ (work.node 23).state = .vacant ∧
      ((fencedWith true none (stage 2)).node 0).state = .fenced := by decide
theorem wit_Fence_account : AccountOk (staged work (stage 2)) :=
  ⟨by decide +kernel, by decide, by decide +kernel, nofun, by decide +kernel, List.nodup_nil⟩
theorem wit_PowerOffFence :
    ((fencedWith false none (stage 2)).node 0).powered = false ∧
      ((fencedWith true (some .unfencing) (stage 2)).node 0).step.isSome = true ∧
      ((fencedWith true none (stage 2)).node 0).step = none ∧
      (fencedWith true none (stage 2)).hostSlotFree = true ∧ full.hostSlotFree = false ∧
      (fencedWith true none { stage 2 with powerOff := true }).cmd.staging.powerOff = true := by decide
theorem wit_Unfence :
    (staged work (stage 3)).cmd.staging.kind = 3#4 ∧
      ¬((work.node 0).state = .fenced ∧ (work.node 0).step = none) ∧
      ((fencedWith true none (stage 3)).node 0).powered = true ∧
      ((fencedWith false none (stage 3)).node 0).powered = false := by decide

/-- Node 1 FENCED with the LOAD_OFF of a power-off FENCE, or the PING of an UNFENCE, that waits. -/
def endingWait (op : Op) (kind : CmdKind) (step : NodeStep) : State :=
  { fencedWith true (some step) (stage 2) with
    queue := [{ flying op kind with state := .waiting, tag := none }]
    cmd := { (staged work (stage 2)).cmd with reservations := 1 } }

theorem wit_Fence_step :
    ∀ p ∈ [(Op.loadOff, CmdKind.fence, NodeStep.poweringOff), (.ping, .unfence, .unfencing)],
      let s := endingWait p.1 p.2.1 p.2.2;
      (s.node 0).state = .fenced ∧ s.cmd.roomFor ∧ s.hostReady = true ∧
        (∃ e ∈ s.queue, (e.state = .waiting ∧ e.isHost = true ∧ e.node = 0) ∧ e.op = p.1 ∧
          (s.node 0).step = some p.2.2) ∧
        (s.queue.flatMap (s.endings .nodeNotReady)).length ≤ s.cmd.reservations := by decide
theorem wit_Fence_step_account : AccountOk (endingWait .loadOff .fence .poweringOff) :=
  ⟨by decide +kernel, by decide, by decide +kernel, nofun, by decide +kernel, List.nodup_nil⟩

/-- The part with a refresh job of window 2. -/
def refreshing : State := { work with queue := [work.newJob 2 0 []] }

theorem wit_RefreshCommand :
    (staged work (stage 5)).cmd.staging.window.toNat = (2 : WinIx).val ∧ (work.window 2).kind = 2#2 ∧
      (∃ e ∈ refreshing.queue, e.isJobOf 2 = true) ∧ (∀ e ∈ work.queue, e.isJobOf 2 = false) ∧
      (work.window 2).enabled = true ∧ (work.window 2).attached = true ∧
      (work.window 2).node.toNat = addrNum 0 ∧ work.inService 0 ∧ work.hostSlotFree = true ∧
      full.hostSlotFree = false ∧ (∀ e ∈ full.queue, e.isJobOf 2 = false) := by decide

/-- The part in a chain state with a tail. -/
def chainAt (st : ChainState) (tail : Nat) (gate : Bool) : State :=
  { work with chain := { work.chain with state := st, tail := tail, tailGateOpen := gate } }

theorem wit_Rescan :
    (chainAt .faulted 0 false).chain.state = .faulted ∧ (chainAt .walking 1 true).chain.state = .walking ∧
      (chainAt .running 24 false).chain.tail = 24 ∧
      ((chainAt .running 0 false).chain.tail = (0 : Addr).val ∧ (chainAt .running 0 false).wayOpen = true) ∧
      ((chainAt .running 23 true).chain.tail = (23 : Addr).val ∧ (chainAt .running 23 true).wayOpen = true) ∧
      ((chainAt .running 23 false).chain.tail = addrNum 22 ∧ (chainAt .running 23 false).wayOpen = false ∧
        (chainAt .running 23 false).closePending 22 = false) ∧
      ({ chainAt .running 1 false with queue := [mgmtEntry .closeGate 0] } : State).closePending 0 = true := by
  decide
theorem wit_Cancel :
    (∀ e ∈ work.queue, e.hasTicket 9#8 = false) ∧
      (sent (flying .rd .read)).queue.find? (·.hasTicket 9#8) = some (flying .rd .read) ∧
      (flying .rd .read).state ≠ .waiting ∧
      ({ flying .wr .write with state := .waiting, tag := none } : Entry).hasTicket 9#8 = true ∧
      (sent (flying .rd .read)).cmd.reservations = 0 + 1 := by decide

/-! ### Windows -/

theorem wit_WindowFieldWrite :
    (work.window 0).enabled = true ∧ (work.window 7).enabled = false ∧ (0xFFFE#16).getLsbD 0 = false ∧
      (1#16).getLsbD 0 = true := by decide

/-- A record on node 1 in `work`, not yet enabled. -/
def tryWindow (node : BitVec 5) (kind : BitVec 2) (base : BitVec 10) (length : BitVec 11) : Window :=
  { Window.reset with kind := kind, node := node, base := base, length := length }

theorem wit_WindowEnable :
    (tryWindow 25#5 0#2 48#10 1#11).inRange = false ∧ (tryWindow 1#5 0#2 1023#10 2#11).inRange = false ∧
      ((tryWindow 3#5 0#2 48#10 1#11).inRange = true ∧ (work.node 2).state = .vacant) ∧
      ((tryWindow 1#5 0#2 47#10 1#11).inRange = true ∧
        (tryWindow 1#5 0#2 47#10 1#11).overlaps (work.window 2) = true) ∧
      ((tryWindow 1#5 0#2 48#10 976#11).inRange = true ∧ work.conflicts 3 (tryWindow 1#5 0#2 48#10 976#11) = false) ∧
      ((tryWindow 1#5 2#2 48#10 497#11).inRange = true ∧ lowestBase work.segments 497 = none) ∧
      ((tryWindow 1#5 2#2 48#10 496#11).inRange = true ∧ lowestBase work.segments 496 = some 16) := by
  decide +kernel
theorem wit_WindowDisable : (work.window 2).enabled = true ∧ (∀ e ∈ work.queue, e.isJobOf 2 = false) ∧
    (0xFFFE#16).getLsbD 0 = false := by decide

/-- A refresh job of window 2 with a command attached, WAITING or with its request in flight. -/
def jobOf (tag : Option TagId) : Entry :=
  { work.newJob 2 0 [9#8] with
    state := if tag.isSome then .inFlight else .waiting, tag := tag, sentBit := tag.map fun _ => false, attempts := 1 }

theorem wit_WindowDisable_job :
    ∀ tag ∈ [none, some 0], (sent (jobOf tag)).queue.filter (·.isJobOf 2) = [jobOf tag] ∧ (jobOf tag).op = .rd ∧
      (jobOf tag).tag = tag ∧ [9#8].length ≤ (sent (jobOf tag)).cmd.reservations ∧
      (sent (jobOf tag)).hostReady = true := by decide

/-! ### Chain and Dispatcher -/

theorem wit_Carrier :
    work.pins.supplyValid = true ∧ work.pins.powerOnHold = false ∧ work.pins.resetN = true ∧
      State.reset.port.carrierSeen = false ∧ work.port.carrierSeen = true ∧ (work.node 0).state ≠ .vacant ∧
      ({ work with nodes := State.reset.nodes } : State).port.carrierSeen = true := by decide

/-- The part with its transmitter SENDING and one entry waiting. -/
def busyPort (s : State) : State := { s with port := { s.port with tx := some (ackFrame 0 false) } }

/-- A settled part: the transmitter is SENDING. -/
theorem settled_sending {s : State} (hb : s.chain.backlog = []) (hl : s.lbi.slot = none)
    (ht : s.port.tx.isSome = true) : Settled s :=
  ⟨.inl hb, fun c h => (by rw [hl] at h; cases h), fun h => (by rw [h] at ht; cases ht)⟩

theorem wit_TransmitterFree_settled :
    Settled (busyPort work) ∧ Settled (busyPort due) ∧
      Settled (busyPort { work with queue := [{ flying .rd .read with state := .waiting, tag := none }] }) :=
  ⟨settled_sending rfl rfl rfl, settled_sending rfl rfl rfl, settled_sending rfl rfl rfl⟩
theorem wit_TransmitterFree_claims :
    ((node1 fun r => { r with ackOwed := true }).node 0).takesAttn = true ∧
      (due.disp.resend = [0] ∧ due.entryOf 0 = some (flying .rd .read)) ∧
      (work.freeTag = some 0 ∧ ((node1 fun r => { r with resync := true }).node 0).wantsPing = true) ∧
      ((∀ k, (work.node k).wantsPing = false) ∧
        work.firstEligible [] [{ flying .rd .read with state := .waiting, tag := none }] =
          some (0, { flying .rd .read with state := .waiting, tag := none })) ∧
      work.firstEligible [] work.queue = none := by decide +kernel
/-- The first transmissions that R82 treats apart: a refresh job, and an ASSIGN for a VACANT record. -/
theorem wit_TransmitterFree_first :
    ∀ e ∈ [jobOf none, mgmtEntry .assign 2],
      Settled (busyPort { work with queue := [e] }) ∧
        ({ work with queue := [e] } : State).firstEligible [] [e] = some (0, e) :=
  fun e he => ⟨settled_sending rfl rfl rfl, by revert he; revert e; decide +kernel⟩

/-- Node 1's request in flight, by the fields an answer names. -/
theorem wit_answers :
    ∀ op ∈ [Op.rd, .wr, .nreset, .loadOff], ∃ f, (sent (flying op .read)).answers 1#5 0 false [op] f ∧
      f.holder = .entry ∧ f.kind = op ∧ (sent (flying op .read)).entryOf 0 = some (flying op .read) := by
  intro op hop
  simp only [List.mem_cons, List.not_mem_nil, or_false] at hop
  rcases hop with rfl | rfl | rfl | rfl <;> exact ⟨_, ⟨rfl, rfl, rfl, by decide⟩, rfl, rfl, rfl⟩
theorem wit_DataCompletes_held :
    (holding .resultWait).lbi.slot.map (·.handle) = some 0 ∧
      (holding .resultWait).lbi.slot.map (·.access) = some .read := by decide
theorem wit_Stray : (∀ f, work.tag 0 ≠ .busy f) ∧ Settled work :=
  ⟨fun f h => by revert h; show work.tag 0 = _ → False; rw [show work.tag 0 = .free from rfl]; nofun, wit_Settled⟩

/-- The first DATA of the refresh job of window 2 is awaited. -/
def landing : State :=
  sent { work.newJob 2 0 [] with state := .inFlight, tag := some 0, sentBit := some false, attempts := 1 }

theorem wit_RefreshData :
    landing.linkUp = true ∧ (landing.entryOf 0).map (·.count) = some 16 ∧
      (landing.window 2).enabled = true ∧ (landing.window 2).kind = 2#2 ∧
      (landing.window 2).mirrorSegment = 0 ∧ (landing.window 2).generation = 0#16 ∧
      Memory.wf landing.mirror.pool = true ∧ 0 + 0 + 16 ≤ 512 := by decide +kernel

/-- The job's request is the only one with tag 0, its words do not end the window or do, and node 1 serves or not. -/
theorem wit_RefreshData_goes_on :
    (∀ x ∈ landing.queue, x.tag = some 0 → some x = landing.entryOf 0) ∧ landing.inService 0 ∧
      0 + 16 = (landing.window 2).length.toNat ∧
      (let s := landing.setWindow 2 { landing.window 2 with length := 17#11 };
        0 + 16 < (s.window 2).length.toNat ∧ s.inService 0 ∧ (s.entryOf 0).map (·.count) = some 16 ∧
          ¬ (s.modNode 0 fun r => { r with state := .fenced }).inService 0) := by decide +kernel
theorem wit_RefreshFailure :
    landing.linkUp = true ∧ landing.tag 0 = flight .rd .entry ∧ (landing.entryOf 0).map (·.node) = some 0 ∧
      Reason.range ≠ .busy ∧ landing.pins.clkIn = true ∧
      1 + landing.ctl.retryLimit ≤ ({ jobOf (some 0) with attempts := 4 } : Entry).attempts := by decide +kernel

/-- A probe of node 1, SUSPECT, in flight. -/
def probing : State :=
  { work with
    disp := { work.disp with tags := work.disp.tags.set 0 (flight .ping (.ping 0)) }
    nodes := work.nodes.set 0 { live with state := .suspect, inFlightTag := some 0 } }

theorem wit_Done_ping : ∃ f, probing.answers 1#5 0 false [.ping] f ∧ f.holder = .ping 0 ∧ f.node = 0 ∧
    (probing.node 0).state = .suspect := ⟨_, ⟨rfl, rfl, rfl, by decide⟩, rfl, rfl, rfl⟩

/-- A MANAGEMENT entry for node 1 in flight, the record in a state and step. -/
def managing (op : Op) (st : NodeState) (x : Option NodeStep) : State :=
  let s := sent { mgmtEntry op 0 with state := .inFlight, tag := some 0, sentBit := some false, attempts := 1 }
  { s with
    nodes := work.nodes.set 0 { live with state := st, step := x, inFlightTag := some 0 }
    chain := { work.chain with
      state := .walking, tail := 1, pointer := some 0, walkStep := some .opening, darkWait := some .closing } }

theorem wit_ManagementDone :
    ∀ p ∈ [(Op.loadOn, NodeState.powering, some NodeStep.loadWait), (.ping, .powering, some .confirming),
        (.openGate, .online, none), (.closeGate, .online, none)],
      ∃ f e, (managing p.1 p.2.1 p.2.2).answers 1#5 0 false [.loadOn, .openGate, .closeGate, .ping] f ∧
        f.holder = .entry ∧ (managing p.1 p.2.1 p.2.2).entryOf 0 = some e ∧ e.op = f.kind ∧ e.node = f.node ∧
        e.origin = .management ∧ f.kind = p.1 := by
  intro p hp
  simp only [List.mem_cons, List.not_mem_nil, or_false] at hp
  rcases hp with rfl | rfl | rfl | rfl <;>
    exact ⟨_, _, ⟨rfl, rfl, rfl, by decide⟩, rfl, rfl, rfl, rfl, rfl, rfl⟩
/-- The LOAD_ON in flight is one that a FENCE left behind, and node 1 waits for a later one (log 22). -/
theorem wit_ManagementDone_later :
    let s := managing .loadOn .powering (some .loadWait)
    let t : State := { s with queue := s.queue ++ [mgmtEntry .loadOn 0] };
    t.linkUp = true ∧ t.entryOf 0 = s.entryOf 0 ∧
      ∃ x ∈ t.queue, x.tag ≠ some 0 ∧ x.origin = .management ∧ x.op = .loadOn ∧ x.node = 0 := by decide +kernel
/-- The ASSIGN of address 24 is in flight. -/
theorem wit_Sense_last :
    let e := { mgmtEntry .assign 23 with
      state := EntryState.inFlight, tag := some (0 : TagId), sentBit := some false, attempts := 1 }
    let s : State := { assigning with queue := [e] };
    s.linkUp = true ∧ s.entryOf 0 = some e ∧ (s.node 23).state = .vacant ∧ addrNum 23 = 24 ∧ addrNum 2 < 24 := by
  decide +kernel
theorem wit_Sense : AccountOk assigning ∧ ∃ f e, assigning.answers 3#5 0 false [.assign] f ∧ f.holder = .entry ∧
    assigning.entryOf 0 = some e ∧ (assigning.node e.node).state = .vacant :=
  ⟨⟨by decide +kernel, by decide, by decide +kernel, nofun, by decide +kernel, List.nodup_nil⟩,
    _, _, ⟨rfl, rfl, rfl, by decide⟩, rfl, rfl, rfl⟩
theorem wit_Attention :
    work.linkUp = true ∧ (1#5).toNat = addrNum 0 ∧ (work.node 0).takesAttn = true ∧
      (work.node 0).attnToggle ≠ some true ∧ (work.node 0).refreshOnAttn = false ∧ (work.node 1).state ≠ .vacant ∧
      ((node1 fun r => { r with attnToggle := some true }).node 0).attnToggle = some true ∧
      (∀ k : Addr, (0#5).toNat ≠ addrNum k) ∧ (work.node 23).takesAttn = false ∧
      (24#5).toNat = addrNum 23 := by decide
theorem wit_Attention_refreshes :
    let s := node1 fun r => { r with refreshOnAttn := true };
    s.linkUp = true ∧ (s.node 0).refreshOnAttn = true ∧ s.inService 0 ∧ (s.node 0).attnToggle ≠ some true ∧
      5#8 ≠ 0xF1#8 ∧ 5#8 ≠ 0xF2#8 ∧ (s.window 2).enabled = true ∧ (s.window 2).kind = 2#2 := by decide
theorem wit_Decision :
    ((node1 fun r => { r with state := .sensed, powered := false }).node 0).state = .sensed ∧
      (work.node 0).state ≠ .sensed ∧ work.mgmtSlotFree = true ∧ work.chain.unfenceWaits = [] := by decide

theorem wit_HelloAndSettles :
    work.pins.clkIn = true ∧
      ((chainAt .running 2 true).chain.tail = (2 : Addr).val ∧ (chainAt .running 2 true).wayOpen = true) ∧
      work.wayOpen = false ∧
      (withChain fun c => { c with state := .ramp, settleTimer := some 20, rampPhase := some .dark }).chain.state =
        .ramp ∧
      (withChain fun c =>
        { c with
          state := .walking, walkStep := some .settling, settleTimer := some 20,
          pointer := some 22 }).chain.pointer = some 22 ∧ (23 : Addr).val = (22 : Addr).val + 1 ∧
      (withChain fun c =>
        { c with darkWait := some .dark, settleTimer := some 20, pointer := some 0 }).chain.darkWait =
        some .dark := by decide
theorem wit_TagTimer :
    (sent (flying .rd .read)).tag 0 = flight .rd .entry ∧
      (flying .rd .read).attempts < 1 + (sent (flying .rd .read)).ctl.retryLimit ∧
      1 + work.ctl.retryLimit ≤ ({ flying .rd .read with attempts := 4 } : Entry).attempts ∧
      0 < (sent (flying .rd .read)).cmd.reservations ∧ ((sent (flying .rd .read)).node 0).state = .online := by
  decide
theorem wit_TagTimer_account : AccountOk (sent { flying .rd .read with attempts := 4 }) :=
  ⟨by decide +kernel, by decide, by decide +kernel, nofun, by decide +kernel, List.nodup_nil⟩
theorem wit_TagHold :
    ({ work with disp := { work.disp with tags := work.disp.tags.set 7 (.hold 100) } } : State).tag 7 = .hold 100 ∧
      work.tag 7 = .free := by decide
theorem wit_NodeSettle :
    work.chain.nodeTimers[0] = none ∧
      (withChain fun c => { c with nodeTimers := c.nodeTimers.set 0 (some 20) }).chain.nodeTimers[0].isSome = true ∧
      ((node1 fun r => { r with state := .powering, step := some .settling }).node 0).step = some .settling := by
  decide
theorem wit_RefreshTimer :
    work.mirror.timers[2] = none ∧
      ({ work with mirror := { work.mirror with timers := work.mirror.timers.set 2 (some 255) } } :
        State).mirror.timers[2].isSome = true := by
  decide

/-- A synthesized PING to node 1, or the request of an entry, with its transmissions used up. -/
def lastTry (st : NodeState) (h : Holder) (e : Entry) : State :=
  { sent { e with attempts := 4 } with
    disp := { work.disp with
      tags := work.disp.tags.set 0
        (.busy { holder := h, node := e.node, kind := e.op, sentBit := false, synthAttempts := 4,
                 timer := some { use := .backoff, duration := 50 } }) }
    nodes := work.nodes.set 0 { live with state := st, inFlightTag := some 0 } }

/-- An entry of the chain's own in flight with tag 0. -/
def flyingMgmt (op : Op) (k : Addr) : Entry :=
  { mgmtEntry op k with state := .inFlight, tag := some 0, sentBit := some false, attempts := 1 }

theorem wit_FinalFailure :
    (∀ st ∈ [NodeState.online, .suspect], ∃ f, (lastTry st (.ping 0) (flyingMgmt .ping 0)).tag 0 = .busy f ∧
      f.holder = .ping 0 ∧ f.timer = some { use := .backoff, duration := 50 } ∧
      1 + work.ctl.retryLimit ≤ f.synthAttempts) ∧
    (∀ e ∈ [flyingMgmt .assign 2, flyingMgmt .openGate 0, flying .ping .unfence, flying .loadOff .fence],
      let s := lastTry .fenced .entry e;
      s.pins.clkIn = true ∧ s.entryOf 0 = some { e with attempts := 4 } ∧ 1 + work.ctl.retryLimit ≤ 4 ∧
        (∀ x ∈ s.queue, x.tag = some 0 → x = { e with attempts := 4 }) ∧ s.chain.rescans.length ≤ s.cmd.reservations ∧
        0 < s.cmd.reservations ∧ (s.node 0).state ≠ .vacant) :=
  ⟨fun st hst => by
    simp only [List.mem_cons, List.not_mem_nil, or_false] at hst
    rcases hst with rfl | rfl <;> exact ⟨_, rfl, rfl, rfl, by decide⟩, by decide +kernel⟩
theorem wit_FinalFailure_refused :
    (∃ f, (managing .loadOn .powering (some .loadWait)).answers 1#5 0 false [.loadOn] f ∧ f.holder = .entry ∧
      f.node = 0) ∧
      Reason.noload ≠ .busy ∧ ((managing .loadOn .powering (some .loadWait)).node 0).takesAttn = true :=
  ⟨⟨_, ⟨rfl, rfl, rfl, by decide⟩, rfl, rfl⟩, by decide, by decide⟩
theorem wit_FinalFailure_account : AccountOk (managing .loadOn .powering (some .loadWait)) :=
  ⟨by decide +kernel, by decide, by decide +kernel, nofun, by decide +kernel, List.nodup_nil⟩
/-- A node module that holds address 1. -/
def module1 : NodeSide :=
  { NodeSide.powerUp { ident := ⟨7#8, 1#8, 3#12, 2#4, true⟩, needsLoad := [], readOnly := [], defaults := [] } with
    address := some 0 }

theorem wit_NodeSide : ∀ b : Bool, ∃ f : DownFrame, (b = true → f.seq ≠ module1.expected) ∧
    (b = false → f.seq = module1.expected) ∧
    ({ canStart := true, loadComesUp := true } : NodeReadiness).canStart = true ∧ Op.rd ≠ .nreset :=
  fun b => ⟨{ dest := 1, kind := .request .rd, tag := 0, seq := b, flag := false, body := [] }, by
    cases b <;> decide⟩

/-- A HELLO. -/
def hello : UpFrame := { source := 0#5, tag := 0, seq := false, flag := false, body := .hello }

theorem wit_NodeForwards :
    module1.address = some 0 ∧ ({ module1 with gateOpen := true } : NodeSide).passage 2 none = .forward ∧
      module1.passage 1 none = .consume ∧ acceptDown [0x0800#16, 0#16] true = none ∧
      module1.out = none ∧ (module1.offer true hello).out.isSome = true ∧
      4 ≤ ((List.replicate 5 hello).foldl (NodeSide.offer · false) module1).line.countP (!·.own) := by decide +kernel
/-- A node that is not attention-capable raises a load fault, and no application code. -/
theorem test_attend_not_capable :
    let n : NodeSide := { module1 with make := { module1.make with ident := ⟨7#8, 1#8, 3#12, 2#4, false⟩ } };
    (n.attend 5#8).attention = none ∧ (n.attend 0xF2#8).attention = some (0xF2#8, n.nextToggle) := by decide +kernel
/-- A corrupted frame for the next node is forwarded as it came. -/
theorem test_corrupted_frame_goes_on :
    (({ module1 with gateOpen := true } : NodeSide).receiveWire [0x1000#16, 0#16] true
      { canStart := true, loadComesUp := true }).2 = some [0x1000#16, 0#16] := by decide +kernel

end Sys2Proof.Tests
end

section
/-! ### Frames on the wire (R6, R8, 12.6) -/

namespace Sys2Proof.Proofs.NodeChain

open Sys2Proof Sys2Proof.Machine

/-! #### The fields of a header -/

/-- A bit of a number placed at `lo`. -/
theorem getLsbD_place (v lo i : Nat) :
    (place v lo).getLsbD i = (decide (i < 16) && !decide (i < lo) && v.testBit (i - lo)) := by
  simp only [place, BitVec.getLsbD_shiftLeft, BitVec.getLsbD_ofNat]
  by_cases h : i < 16
  · simp [h, show i - lo < 16 by omega]
  · simp [h]

/-- A bit of a flag placed at `j`. -/
theorem getLsbD_placeBit (b : Bool) (j i : Nat) :
    (placeBit b j).getLsbD i = (b && decide (i < 16) && decide (i = j)) := by
  cases b with
  | false => simp [placeBit]
  | true =>
    rw [placeBit, if_pos rfl, getLsbD_place, Bool.eq_iff_iff]
    simp only [Nat.testBit_one_eq_true_iff_self_eq_zero, Bool.and_eq_true, Bool.not_eq_true', decide_eq_true_eq,
      decide_eq_false_iff_not, true_and]
    omega

section Header

variable {addr code tag : Nat} (seq flag : Bool)

/-- The bits of a header whose numbers fit their fields (12.6). -/
theorem getLsbD_headerWord (hc : code < 2 ^ 5) (ht : tag < 2 ^ 3) {i : Nat} (hi : i < 16) :
    (headerWord addr code tag seq flag).getLsbD i =
      if 11 ≤ i then addr.testBit (i - 11) else if 6 ≤ i then code.testBit (i - 6)
      else if 3 ≤ i then tag.testBit (i - 3) else if i = 2 then seq else if i = 1 then flag else false := by
  have code_high : 11 ≤ i → code.testBit (i - 6) = false := fun h =>
    Nat.testBit_lt_two_pow (hc.trans_le (Nat.pow_le_pow_right (by decide) (by omega)))
  have tag_high : 6 ≤ i → tag.testBit (i - 3) = false := fun h =>
    Nat.testBit_lt_two_pow (ht.trans_le (Nat.pow_le_pow_right (by decide) (by omega)))
  simp only [headerWord, BitVec.getLsbD_or, getLsbD_place, getLsbD_placeBit, hi]
  grind

/-- A field of a word is read bit by bit. -/
theorem fieldAt_eq {w : Word} {lo n : Nat} {x : BitVec n} (h : ∀ i < n, w.getLsbD (lo + i) = x.getLsbD i) :
    fieldAt w lo n = x :=
  BitVec.eq_of_getLsbD_eq fun i hi => by
    rw [fieldAt, BitVec.getLsbD_extractLsb', h i hi]; simp only [hi, decide_true, Bool.true_and]

theorem headerWord_addr (hc : code < 2 ^ 5) (ht : tag < 2 ^ 3) :
    fieldAt (headerWord addr code tag seq flag) 11 5 = BitVec.ofNat 5 addr := fieldAt_eq fun i hi => by
  rw [getLsbD_headerWord seq flag hc ht (by omega), BitVec.getLsbD_ofNat]
  simp [hi]

theorem headerWord_code (hc : code < 2 ^ 5) (ht : tag < 2 ^ 3) :
    fieldAt (headerWord addr code tag seq flag) 6 5 = BitVec.ofNat 5 code := fieldAt_eq fun i hi => by
  rw [getLsbD_headerWord seq flag hc ht (by omega), BitVec.getLsbD_ofNat]
  simp [hi, show ¬ 11 ≤ 6 + i by omega]

theorem headerWord_tag (hc : code < 2 ^ 5) (ht : tag < 2 ^ 3) :
    fieldAt (headerWord addr code tag seq flag) 3 3 = BitVec.ofNat 3 tag := fieldAt_eq fun i hi => by
  rw [getLsbD_headerWord seq flag hc ht (by omega), BitVec.getLsbD_ofNat]
  simp [hi, show ¬ 11 ≤ 3 + i by omega, show ¬ 6 ≤ 3 + i by omega]

theorem headerWord_seq (hc : code < 2 ^ 5) (ht : tag < 2 ^ 3) :
    bitAt (headerWord addr code tag seq flag) 2 = seq :=
  getLsbD_headerWord seq flag hc ht (by decide)

theorem headerWord_flag (hc : code < 2 ^ 5) (ht : tag < 2 ^ 3) :
    bitAt (headerWord addr code tag seq flag) 1 = flag :=
  getLsbD_headerWord seq flag hc ht (by decide)

end Header

/-! #### The checks of the receiver -/

/-- A frame whose last word is the CRC of the others is what its header and body give (R8). -/
theorem acceptFrame_sealed (ws : List Word) : acceptFrame (sealed ws) true = parseFrame ws := by
  simp [acceptFrame, sealed]

/-- A frame cut off before its end delimiter is dropped (R8). -/
theorem acceptFrame_cut (wire : List Word) : acceptFrame wire false = none := by simp [acceptFrame]

/-- A frame whose last word is not the CRC of the others is dropped (R8). -/
theorem acceptFrame_wrong_crc (ws : List Word) (c : Word) (h : c ≠ crc ws) :
    acceptFrame (ws ++ [c]) true = none := by
  simp [acceptFrame, h]

/-- A dropped frame has no effect (R10). -/
theorem exec_frameDropped_of_none (wire : List Word) (ended : Bool) (s : State)
    (h : acceptFrame wire ended = none) : exec (.frameDropped wire ended) s = .next s := by
  simp [exec, execFrameDropped, State.receiveWire, h]

/-! #### The bodies that a kind code does not admit -/

theorem parseBody_data (c : Word) (ds : List Word) : parseBody 10 (c :: ds) =
    if 1 ≤ (fieldAt c 0 5).toNat ∧ (fieldAt c 0 5).toNat ≤ 16 ∧ ds.length = (fieldAt c 0 5).toNat then
      some (.data ds)
    else none := rfl

/-- A kind code of a request, or of ATTN_ACK, does not travel upstream (R8). -/
theorem parseBody_downstream (code : Nat) (body : List Word) (h : code ≤ 9) : parseBody code body = none := by
  interval_cases code <;> rfl

/-- A kind code from 16 up names no kind (R8). -/
theorem parseBody_no_kind (code : Nat) (body : List Word) (h : 16 ≤ code) : parseBody code body = none := by
  obtain ⟨n, rfl⟩ := Nat.exists_eq_add_of_le' h
  rfl

/-- A DONE and a HELLO have no body (R6). -/
theorem parseBody_not_empty (code : Nat) (body : List Word) (hc : code = 11 ∨ code = 15) (h : body ≠ []) :
    parseBody code body = none := by
  obtain ⟨a, l, rfl⟩ := List.exists_cons_of_ne_nil h
  rcases hc with rfl | rfl <;> rfl

/-- A REFUSE and an ATTN have a body of one word (R6). -/
theorem parseBody_not_one (code : Nat) (body : List Word) (hc : code = 12 ∨ code = 14) (h : body.length ≠ 1) :
    parseBody code body = none := by
  match body, h with
  | [], _ => rcases hc with rfl | rfl <;> rfl
  | _ :: _ :: _, _ => rcases hc with rfl | rfl <;> rfl

/-- A SENSE has a body of three words (R6). -/
theorem parseBody_not_three (body : List Word) (h : body.length ≠ 3) : parseBody 13 body = none := by
  match body, h with
  | [], _ => rfl
  | [_], _ => rfl
  | [_, _], _ => rfl
  | _ :: _ :: _ :: _ :: _, _ => rfl

/-- A DATA has a count in 1..16 and as many data words (R6, R8). -/
theorem parseBody_bad_count (body : List Word) (h : body = [] ∨ (fieldAt (body.headD 0#16) 0 5).toNat = 0 ∨
    16 < (fieldAt (body.headD 0#16) 0 5).toNat ∨ body.length ≠ 1 + (fieldAt (body.headD 0#16) 0 5).toNat) :
    parseBody 10 body = none := by
  cases body with
  | nil => rfl
  | cons c ds =>
    rw [parseBody_data, if_neg]
    simp only [reduceCtorEq, List.headD_cons, List.length_cons, false_or] at h
    omega

/-- A frame is dropped where its kind code does not admit its body (R8). -/
theorem acceptFrame_malformed (h : Word) (body : List Word) (hb : parseBody (fieldAt h 6 5).toNat body = none) :
    acceptFrame (sealed (h :: body)) true = none := by
  rw [acceptFrame_sealed, parseFrame, hb, Option.map_none]

/-- Settles O13: each way to be malformed has its lemma about the body. -/
theorem droppedFrameHasNoEffect : Obligations.DroppedFrameHasNoEffect := by
  refine ⟨exec_frameDropped_of_none, acceptFrame_cut, acceptFrame_wrong_crc, acceptFrame_sealed [], fun h body => ?_⟩
  rintro (hc | hc | ⟨hc, hb⟩ | ⟨hc, hb⟩ | ⟨hc, hb⟩ | ⟨hc, hb⟩)
  · exact acceptFrame_malformed h body (parseBody_downstream _ body hc)
  · exact acceptFrame_malformed h body (parseBody_no_kind _ body hc)
  · exact acceptFrame_malformed h body (parseBody_not_empty _ body hc hb)
  · exact acceptFrame_malformed h body (parseBody_not_one _ body hc hb)
  · exact acceptFrame_malformed h body (hc ▸ parseBody_not_three body hb)
  · exact acceptFrame_malformed h body (hc ▸ parseBody_bad_count body hb)

/-! #### The body of a frame that a node sends -/

theorem reasonOf_reasonCode (r : Reason) : reasonOf (BitVec.ofNat 16 (Config.reasonCode r)) = r := by
  cases r <;> decide

/-- The two bytes of the first SENSE word (12.6). -/
theorem fieldAt_append (a b : BitVec 8) : fieldAt (a ++ b) 8 8 = a ∧ fieldAt (a ++ b) 0 8 = b := by
  refine ⟨fieldAt_eq fun i hi => ?_, fieldAt_eq fun i hi => ?_⟩
  · exact BitVec.getLsbD_append.trans (by simp)
  · exact BitVec.getLsbD_append.trans (by simp [hi])

/-- A field widened to a word is read back from the word's low bits. -/
theorem fieldAt_setWidth {n : Nat} (x : BitVec n) (h : n ≤ 16) : fieldAt (x.setWidth 16) 0 n = x :=
  fieldAt_eq fun i hi => by
    rw [Nat.zero_add, BitVec.getLsbD_setWidth]; simp only [show i < 16 by omega, decide_true, Bool.true_and]

/-- The third SENSE word, the demand and the attention flag (12.6). -/
theorem demandWord (d : BitVec 4) (b : Bool) :
    fieldAt (d.setWidth 16 ||| placeBit b 4) 0 4 = d ∧ bitAt (d.setWidth 16 ||| placeBit b 4) 4 = b := by
  refine ⟨fieldAt_eq fun i hi => ?_, ?_⟩
  · rw [BitVec.getLsbD_or, BitVec.getLsbD_setWidth, getLsbD_placeBit]
    simp [show i < 16 by omega, show i ≠ 4 by omega]
  · rw [bitAt, BitVec.getLsbD_or, BitVec.getLsbD_setWidth, getLsbD_placeBit]
    simp

/-- The count word of a DATA body with at most 16 words. -/
theorem fieldAt_count {n : Nat} (h : n ≤ 16) : (fieldAt (BitVec.ofNat 16 n) 0 5).toNat = n := by
  simp only [fieldAt, BitVec.extractLsb'_toNat, BitVec.toNat_ofNat]; omega

/-- The body words of a well-formed frame give the body back (R6, 12.6). -/
theorem parseBody_words (b : UpBody) (h : ∀ ws, b = .data ws → 1 ≤ ws.length ∧ ws.length ≤ 16) :
    parseBody b.code b.words = some b := by
  cases b with
  | data ws =>
    obtain ⟨h1, h16⟩ := h ws rfl
    rw [UpBody.code, UpBody.words, parseBody_data, fieldAt_count h16, if_pos ⟨h1, h16, rfl⟩]
  | done => rfl
  | refuse r => exact congrArg (some <| UpBody.refuse ·) (reasonOf_reasonCode r)
  | sense i =>
    obtain ⟨hcls, hrev⟩ := fieldAt_append i.cls i.revision
    obtain ⟨hdem, hcap⟩ := demandWord i.demand i.attnCapable
    calc parseBody 13 _ = some (.sense ⟨_, _, _, _, _⟩) := rfl
      _ = some (.sense i) := by rw [hcls, hrev, hdem, hcap, fieldAt_setWidth i.spanField (by decide)]
  | attn c => exact congrArg (some <| UpBody.attn ·) (fieldAt_setWidth c (by decide))
  | hello => rfl

theorem upBody_code_lt (b : UpBody) : b.code < 2 ^ 5 := by cases b <;> simp [UpBody.code]

/-- The header and the body words of a well-formed frame give the frame back (R6, 12.6). -/
theorem parseFrame_header_words (f : UpFrame) (h : ∀ ws, f.body = .data ws → 1 ≤ ws.length ∧ ws.length ≤ 16) :
    parseFrame (headerWord f.source.toNat f.body.code f.tag.val f.seq f.flag :: f.body.words) = some f := by
  have hc := upBody_code_lt f.body
  have ht : f.tag.val < 2 ^ 3 := f.tag.isLt
  have code_field : (BitVec.ofNat 5 f.body.code).toNat = f.body.code := by
    rw [BitVec.toNat_ofNat, Nat.mod_eq_of_lt hc]
  have tag_field : (BitVec.ofNat 3 f.tag.val).toFin = f.tag := Fin.ext (Nat.mod_eq_of_lt ht)
  rw [parseFrame, headerWord_addr f.seq f.flag hc ht, headerWord_code f.seq f.flag hc ht,
    headerWord_tag f.seq f.flag hc ht, headerWord_seq f.seq f.flag hc ht, headerWord_flag f.seq f.flag hc ht,
    code_field, tag_field, parseBody_words f.body h, Option.map_some, BitVec.ofNat_toNat, BitVec.setWidth_eq]

/-- Settles O12: the fields of the header and of the body are read back one by one. -/
theorem acceptedFrameIsTheFrameSent : Obligations.AcceptedFrameIsTheFrameSent := fun f h => by
  rw [UpFrame.wire, acceptFrame_sealed, parseFrame_header_words f h]

end Sys2Proof.Proofs.NodeChain
end

section
/-! ### Carrier on UP and its loss (R4, R48, R102 to R105) -/

namespace Sys2Proof.Proofs.NodeChain

open Sys2Proof Sys2Proof.Machine

section Carrier

variable (s : State)

/-! #### The end of an event -/

/-- The end of an event leaves the Chain Manager but for its backlog and the admission (R52, R64, R66). -/
theorem finish_chain_items : s.finish.chain =
    { s.chain with
      backlog := s.finish.chain.backlog, admission := s.finish.chain.admission,
      committed := s.finish.chain.committed, unfenceWaits := s.finish.chain.unfenceWaits } := by
  rw [finish_chain]
  exact (served_serveBacklog (A := fun _ => True) (B := fun _ => True) (fun _ _ => trivial)
    (fun _ _ _ => trivial) fun _ _ _ _ => trivial).chain

/-- With CHAIN_PWR_EN deasserted the end of an event sends no frame (R78). -/
theorem finish_port_of_off (h : s.chain.pwrEn = false) : s.finish.port = s.port := by
  have port : s.serveSlots.port = s.port := by
    rw [State.serveSlots, (serveCycle_frame _).port, (serveBacklog_chain s).1.port]
  have off : s.serveSlots.chain.pwrEn = false := by
    rw [State.serveSlots, (serveCycle_frame _).chain, (serveBacklog_chain s).1.pwrEn, h]
  rw [State.finish, dispatch_idle _ (.inr (by rw [State.linkUp, off, Bool.false_and])), port]

/-! #### The cascade at address 1 -/

theorem endSlotWaitOf_chain (p : Addr → Bool) (st : Status) : (s.endSlotWaitOf p st).chain = s.chain := by
  unfold State.endSlotWaitOf
  split
  · rfl
  · split
    · exact (endSlotWait_ended s st).chain
    · rfl

theorem holdPings_chain (p : Addr → Bool) : (s.holdPings p).chain = s.chain := (retired_holdPings s p).chain

/-- The retirement of entries that do not end OK leaves the Chain Manager (R91 to R93). -/
theorem retireAll_chain (p : Entry → Bool) (st : Status) (h : st ≠ .ok) : (s.retireAll p st).chain = s.chain :=
  (retired_retireAll s p st h).chain

/-- The emptying of a cascade leaves BUDGET (R103, R104). -/
theorem loseFrom_budget (k : Addr) : (s.loseFrom k).chain.budget = s.chain.budget := by
  have unfolded : s.loseFrom k =
      ((((s.emptied k).retireAll (fun e => fromAddr k e.node) .nodeLost).holdPings (fromAddr k)).endSlotWaitOf
        (fromAddr k) .nodeLost).completeWaits (fromAddr k) .nodeLost := rfl
  rw [unfolded, (completeWaits_chain _ _ _).2.budget, endSlotWaitOf_chain, holdPings_chain,
    retireAll_chain _ _ _ (by decide), (emptied_spec s k).chain]

theorem cutTail_budget (k : Addr) : (s.cutTail k).chain.budget = s.chain.budget := rfl

/-- A cascade at address 1 leaves RAMP in phase DARK, the port dark (R48, R105). -/
structure RampDark (s t : State) : Prop where
  state : t.chain.state = .ramp
  phase : t.chain.rampPhase = some .dark
  rewalk : t.chain.rewalk = s.ctl.autoRewalk
  pwrEn : t.chain.pwrEn = false
  settle : t.chain.settleTimer = some s.ctl.settle
  budget : t.chain.budget = s.chain.budget
  rescans : t.chain.rescans = s.chain.rescans
  port : t.port = { tx := none, carrierSeen := false }

theorem cascade_first (h : (s.node 0).state ≠ .vacant) : RampDark s (s.cascade 0) := by
  obtain ⟨cut, -, rescans⟩ := loseFrom_cut s 0
  have budget := (cutTail_budget (s.loseFrom 0) 0).trans (loseFrom_budget s 0)
  have ramp : s.cascade 0 = ((s.loseFrom 0).cutTail 0).rampDark := by
    rw [State.cascade, if_neg h]
    simp only [show addrOf? (0 : Addr).val = none from rfl]
  rw [ramp]
  generalize (s.loseFrom 0).cutTail 0 = t at cut rescans budget ⊢
  exact ⟨rfl, rfl, congrArg Control.autoRewalk cut.control, rfl, congrArg (some <| Control.settle ·) cut.control,
    budget, rescans, rfl⟩

theorem RampDark.finish {s t : State} (h : RampDark s t) : RampDark s t.finish := by
  have port := finish_port_of_off t h.pwrEn
  have chain := finish_chain_items t
  constructor
  · rw [chain]; exact h.state
  · rw [chain]; exact h.phase
  · rw [chain]; exact h.rewalk
  · rw [chain]; exact h.pwrEn
  · rw [chain]; exact h.settle
  · rw [chain]; exact h.budget
  · rw [chain]; exact h.rescans
  · rw [port]; exact h.port

end Carrier

/-! #### The two commands of the carrier -/

theorem exec_upCarrierPresent (s : State) (h : s.running = true) :
    exec .upCarrierPresent s = .next { s with
      pins := { s.pins with upCarrier := true }
      port := { s.port with carrierSeen := if s.chain.pwrEn then true else s.port.carrierSeen } } := by
  have seen : (s.port.carrierSeen || s.chain.pwrEn) = if s.chain.pwrEn then true else s.port.carrierSeen := by
    cases s.chain.pwrEn <;> simp
  simp only [exec, execUpCarrierPresent, h, if_true, seen]

theorem exec_upCarrierLost_unseen (s : State) (h : s.port.carrierSeen = false) :
    exec .upCarrierLost s = .next { s with pins := { s.pins with upCarrier := false } } := by
  simp [exec, execUpCarrierLost, h]

/-- The loss of carrier with the flag set is a loss at address 1 (R4, R102). -/
theorem exec_upCarrierLost_seen (s : State) (h : s.port.carrierSeen = true) :
    exec .upCarrierLost s = .next (({ s with
      pins := { s.pins with upCarrier := false }
      port := { s.port with carrierSeen := false } } : State).cascade 0).finish := by
  simp only [exec, execUpCarrierLost, h, if_true]
  rfl

/-- Settles O43: the loss is a cascade at address 1, whose event ends with the link down. -/
theorem carrierSetsTheFlagAndItsLossIsReported : Obligations.CarrierSetsTheFlagAndItsLossIsReported := by
  refine ⟨fun s hs hh hr => exec_upCarrierPresent s (by simp [State.running, hs, hh, hr]),
    exec_upCarrierLost_unseen, fun s hc hv => ?_, fun s hc hv => ?_⟩
  · rw [exec_upCarrierLost_seen s hc]
    exact congrArg (fun t : State => Host.Outcome.next t.finish) (if_pos hv)
  · let u : State :=
      { s with pins := { s.pins with upCarrier := false }, port := { s.port with carrierSeen := false } }
    obtain ⟨cut, cutEnd⟩ := cascade_cut u 0 hv
    have lost : LostFrom u (u.cascade 0).finish 0 := cut.lostFrom u cutEnd
    have dark := (cascade_first u hv).finish
    refine ⟨_, exec_upCarrierLost_seen s hc, { lost with }, ?_, dark.state, dark.phase, dark.rewalk, dark.pwrEn,
      dark.settle, dark.budget, dark.rescans, dark.port⟩
    exact List.eq_nil_iff_forall_not_mem.2 fun e he => (Fin.not_lt_zero _ (lost.queue e he)).elim

end Sys2Proof.Proofs.NodeChain
end

section
/-! ### The Dispatcher's choice at transmitter free (R9, R79 to R85, R137) -/

namespace Sys2Proof.Proofs.NodeChain

open Sys2Proof Sys2Proof.Machine

section Choice

variable {s : State}

/-! #### The first claim present -/

/-- The lowest address with a property. -/
theorem find_allAddrs {p : Addr → Bool} {k : Addr} (hk : p k = true) (hlow : ∀ j, j < k → p j = false) :
    allAddrs.find? p = some k := by
  rw [allAddrs, ← Fin.find?_eq_find?_finRange, Fin.find?_eq_some_iff]
  exact ⟨hk, hlow⟩

theorem find_allAddrs_none {p : Addr → Bool} (h : ∀ k, p k = false) : allAddrs.find? p = none :=
  List.find?_eq_none.2 fun k _ => by simp [h k]

/-- A node is owed an acknowledgement that its state admits (R83). -/
def owesAck (s : State) (k : Addr) : Prop := (s.node k).ackOwed = true ∧ (s.node k).takesAttn = true

theorem ackClaim_eq {k : Addr} (hk : owesAck s k) (hlow : ∀ j, j < k → ¬ owesAck s j) : s.ackClaim = some k :=
  find_allAddrs (by simpa [owesAck] using hk) fun j hj => by simpa [owesAck] using hlow j hj

theorem ackClaim_none (h : ∀ k, ¬ owesAck s k) : s.ackClaim = none :=
  find_allAddrs_none fun k => by simpa [owesAck] using h k

theorem pingClaim_eq {k : Addr} (hk : (s.node k).wantsPing = true)
    (hlow : ∀ j, j < k → (s.node j).wantsPing = false) : s.pingClaim = some k := find_allAddrs hk hlow

theorem pingClaim_none (h : ∀ k, (s.node k).wantsPing = false) : s.pingClaim = none := find_allAddrs_none h

/-- An owed acknowledgement comes first (R79). -/
theorem claim_ack {k : Addr} (h : s.ackClaim = some k) : s.claim = some (.ack k) := by
  rw [State.claim, h]

/-- A due retransmission comes second: the head of the resend list, whose request has a frame (R79, R85). -/
theorem claim_resend {t : TagId} {rest : List TagId} {f : DownFrame} (ha : s.ackClaim = none)
    (hr : s.disp.resend = t :: rest) (hf : s.frameOfTag t = some f) : s.claim = some (.resend t f) := by
  have first : s.resendClaim = some (t, f) := by simp [State.resendClaim, hr, hf]
  simp only [State.claim, ha, first]

theorem resendClaim_none (hr : s.disp.resend = []) : s.resendClaim = none := by simp [State.resendClaim, hr]

section NewRequest

variable (ha : s.ackClaim = none) (hr : s.disp.resend = [])
include ha hr

/-- With no acknowledgement owed and nothing to send again, a synthesized PING comes next (R79, R80). -/
theorem claim_ping {t : TagId} {k : Addr} (ht : s.freeTag = some t) (hp : s.pingClaim = some k) :
    s.claim = some (.ping k t) := by
  simp only [State.claim, ha, resendClaim_none hr, ht, hp]

/-- A queue entry comes last (R79, R81). -/
theorem claim_queued {t : TagId} {i : Nat} {e : Entry} (ht : s.freeTag = some t) (hp : s.pingClaim = none)
    (he : s.firstEligible [] s.queue = some (i, e)) : s.claim = some (.entry i e t) := by
  simp only [State.claim, ha, resendClaim_none hr, ht, hp, he, Option.map_some]

/-- A new request needs a FREE tag (R79). -/
theorem claim_no_tag (ht : s.freeTag = none) : s.claim = none := by
  simp only [State.claim, ha, resendClaim_none hr, ht]

theorem claim_no_request (hp : s.pingClaim = none) (he : s.firstEligible [] s.queue = none) : s.claim = none := by
  cases ht : s.freeTag with
  | none => exact claim_no_tag ha hr ht
  | some t => simp only [State.claim, ha, resendClaim_none hr, ht, hp, he, Option.map_none]

end NewRequest

/-- The frame of the request that holds a tag (R85). -/
theorem frameOfTag_ping {t : TagId} {f : Flight} {k : Addr} (ht : s.tag t = .busy f) (hf : f.holder = .ping k) :
    s.frameOfTag t = some (pingFrame k t f.sentBit) := by
  simp only [State.frameOfTag, ht, hf]

theorem frameOfTag_entry {t : TagId} {f : Flight} {e : Entry} (ht : s.tag t = .busy f) (hf : f.holder = .entry)
    (he : s.entryOf t = some e) : s.frameOfTag t = some (e.frame t f.sentBit) := by
  simp only [State.frameOfTag, ht, hf, he, Option.map_some]

/-! #### The event -/

/-- The part with its transmitter IDLE. -/
def idle (s : State) : State := { s with port := { s.port with tx := none } }

theorem serveBacklog_done (h : s.chain.backlog = [] ∨ s.mgmtSlotFree = false) : s.serveBacklog = s := by
  unfold State.serveBacklog
  cases hb : s.chain.backlog with
  | nil => rfl
  | cons st rest => simp [State.serveSteps, h.resolve_left (by simp [hb])]

theorem serveCycle_done (h : ∀ c, s.lbi.slot = some c → c.phase = .slotWait → s.hostSlotFree = false) :
    s.serveCycle = s := by
  unfold State.serveCycle
  split
  · rfl
  · next c hs => exact if_neg fun ⟨hw, hf⟩ => by simp [h c hs hw] at hf

/-- In a settled part the slots have been served, whatever the transmitter does (R73). -/
theorem serveSlots_idle (h : Settled s) : (idle s).serveSlots = idle s := by
  rw [State.serveSlots, serveBacklog_done (s := idle s) h.backlog, serveCycle_done (s := idle s) h.cycle]

theorem exec_transmitterFree (h : Settled s) (hc : s.pins.clkIn = true) :
    exec .transmitterFree s = .next (idle s).dispatch := by
  have clocked : execTransmitterFree s = .next (idle s).finish := congrArg Host.Outcome.next (clocked_on _ hc)
  rw [exec, clocked, State.finish, serveSlots_idle h]

theorem exec_transmitterFree_off (h : Settled s) (hc : s.pins.clkIn = true) (hp : s.chain.pwrEn = false) :
    exec .transmitterFree s = .next (idle s) := by
  have down : (idle s).linkUp = false := by simp [State.linkUp, idle, hp]
  rw [exec_transmitterFree h hc, dispatch_idle _ (.inr down)]

theorem claim_idle : (idle s).claim = s.claim := claim_congr rfl rfl rfl

theorem exec_transmitterFree_none (h : Settled s) (hc : s.pins.clkIn = true) (hn : s.claim = none) :
    exec .transmitterFree s = .next (idle s) := by
  rw [exec_transmitterFree h hc]
  simp [State.dispatch, claim_idle, hn]

theorem exec_transmitterFree_claim (h : Settled s) (hc : s.pins.clkIn = true) (hp : s.chain.pwrEn = true) {c : Claim}
    (hn : s.claim = some c) : exec .transmitterFree s = .next ((idle s).serveClaim c) := by
  have up : ((idle s).port.tx.isNone && (idle s).linkUp) = true := by simp [State.linkUp, idle, hp, hc]
  rw [exec_transmitterFree h hc, State.dispatch, if_pos up, claim_idle, hn]

/-! #### What each claim sends -/

/-- The request of an entry, as the tag it is sent under records it (R75, R82). -/
def flightOf (s : State) (e : Entry) (bit : Bool) : Flight :=
  { holder := .entry, node := e.node, kind := e.op, sentBit := bit, synthAttempts := 0, timer := s.responseTimer }

/-- An entry sent for the first time (R82). -/
def sentEntry (e : Entry) (t : TagId) (bit : Bool) : Entry :=
  { e with state := .inFlight, tag := some t, sentBit := some bit, attempts := 1 }

theorem serve_ack (k : Addr) : (idle s).serveClaim (.ack k) =
    State.transmit { s with nodes := s.nodes.set k.val { s.node k with ackOwed := false } }
      { dest := addrNum k, kind := .attnAck, tag := 0, seq := false,
        flag := (s.node k).attnToggle.getD false, body := [] } := rfl

/-- A synthesized PING sent again counts its own transmissions (R85). -/
theorem serve_resend_ping {t : TagId} {f : Flight} {k : Addr} (ht : s.tag t = .busy f) (hf : f.holder = .ping k)
    (g : DownFrame) : (idle s).serveClaim (.resend t g) =
      State.transmit { s with
        disp :=
          { tags := s.disp.tags.set t.val
              (.busy { f with timer := s.responseTimer, synthAttempts := f.synthAttempts + 1 })
            resend := s.disp.resend.filter (· != t) } } g := by
  have busy : (idle s).tag t = .busy f := ht
  simp only [State.serveClaim, State.sendAgain, State.countAttempt, busy, hf, reduceCtorEq, if_false]
  rfl

/-- An entry's request sent again counts in the entry (R85). -/
theorem serve_resend_entry {t : TagId} {f : Flight} (ht : s.tag t = .busy f) (hf : f.holder = .entry)
    (g : DownFrame) : (idle s).serveClaim (.resend t g) =
      State.transmit { s with
        disp :=
          { tags := s.disp.tags.set t.val (.busy { f with timer := s.responseTimer })
            resend := s.disp.resend.filter (· != t) }
        queue := s.queue.map fun x => if x.tag = some t then { x with attempts := x.attempts + 1 } else x } g := by
  have busy : (idle s).tag t = .busy f := ht
  simp only [State.serveClaim, State.sendAgain, State.countAttempt, busy, hf, if_true]
  rfl

theorem serve_ping (k : Addr) (t : TagId) : (idle s).serveClaim (.ping k t) =
    State.transmit { s with
      disp := { s.disp with
        tags := s.disp.tags.set t.val
          (.busy
            { holder := .ping k, node := k, kind := .ping, sentBit := (s.node k).nextSeq, synthAttempts := 1,
              timer := s.responseTimer }) }
      nodes := s.nodes.set k.val { s.node k with inFlightTag := some t } }
      { dest := addrNum k, kind := .request .ping, tag := t, seq := (s.node k).nextSeq,
        flag := (s.node k).nextSeq, body := [] } := rfl

/-- An entry that is no refresh job is sent as it stands (R82). -/
theorem formed_of_not_refresh {e : Entry} (h : ∀ r, e.origin ≠ .refresh r) : s.formed e = e := by
  unfold State.formed
  split
  · next r hr => exact (h r hr).elim
  · rfl

/-- The entry of a refresh job with the request for the next words of its window (R137). -/
def nextRead (s : State) (e : Entry) (r : RefreshRef) : Entry :=
  { e with
    remote := (s.window r.window).remoteBase + BitVec.ofNat 16 r.nextOffset
    count := min 16 ((s.window r.window).length.toNat - r.nextOffset) }

theorem formed_of_refresh {e : Entry} {r : RefreshRef} (h : e.origin = .refresh r) :
    s.formed e = nextRead s e r := by
  simp only [State.formed, nextRead, h]

/-- A request other than ASSIGN goes out with the node's next sequence bit and sets in_flight_tag (R82). -/
theorem serve_entry {i : Nat} {e x : Entry} {t : TagId} (hx : s.formed e = x) (ho : x.op ≠ .assign) :
    (idle s).serveClaim (.entry i e t) =
      State.transmit { s with
        disp := { s.disp with tags := s.disp.tags.set t.val (.busy (flightOf s x (s.node x.node).nextSeq)) }
        nodes := s.nodes.set x.node.val { s.node x.node with inFlightTag := some t }
        queue := s.queue.set i (sentEntry x t (s.node x.node).nextSeq) }
        (x.frame t (s.node x.node).nextSeq) := by
  have formed : (idle s).formed e = x := hx
  have bit : (idle s).bitFor x.op x.node = (s.node x.node).nextSeq := if_neg ho
  simp only [State.serveClaim, State.sendEntry, formed, bit, if_neg ho]
  rfl

/-- An ASSIGN goes out with sequence bit 0 and sets no in_flight_tag (R82). -/
theorem serve_assign {i : Nat} {e : Entry} {t : TagId} (hx : s.formed e = e) (ho : e.op = .assign) :
    (idle s).serveClaim (.entry i e t) =
      State.transmit { s with
        disp := { s.disp with tags := s.disp.tags.set t.val (.busy (flightOf s e false)) }
        queue := s.queue.set i (sentEntry e t false) }
        (e.frame t false) := by
  have formed : (idle s).formed e = e := hx
  have bit : (idle s).bitFor e.op e.node = false := if_pos ho
  simp only [State.serveClaim, State.sendEntry, formed, bit, if_pos ho]
  rfl

/-- The frame of a READ request, and that of an ASSIGN (12.6). -/
theorem frame_rd {e : Entry} (h : e.op = .rd) (t : TagId) (bit : Bool) : e.frame t bit =
    { dest := addrNum e.node, kind := .request .rd, tag := t, seq := bit, flag := false,
      body := [e.remote, BitVec.ofNat 16 e.count] } := by
  rw [Entry.frame, h]; rfl

theorem frame_assign {e : Entry} (h : e.op = .assign) (t : TagId) (bit : Bool) : e.frame t bit =
    { dest := 0, kind := .request .assign, tag := t, seq := bit, flag := false,
      body := [BitVec.ofNat 16 (addrNum e.node)] } := by
  rw [Entry.frame, h]; rfl

end Choice

/-- Settles O44: the first claim present, and what serving it sends. -/
theorem transmitterFreeServesTheFirstClaim : Obligations.TransmitterFreeServesTheFirstClaim := by
  intro s hs hc
  refine ⟨exec_transmitterFree_off hs hc, fun hp => ?_⟩
  have serves : ∀ c, s.claim = some c → exec .transmitterFree s = .next ((idle s).serveClaim c) :=
    fun c => exec_transmitterFree_claim hs hc hp
  refine ⟨fun k hk hlow => ?_, fun hno => ?_⟩
  · rw [serves _ (claim_ack (ackClaim_eq hk hlow)), serve_ack]; rfl
  have ha : s.ackClaim = none := ackClaim_none hno
  refine ⟨fun t rest f k hr ht hf => ?_, fun t rest f e hr ht hf he => ?_, fun hr => ?_⟩
  · rw [serves _ (claim_resend ha hr (frameOfTag_ping ht hf)), serve_resend_ping ht hf]; rfl
  · rw [serves _ (claim_resend ha hr (frameOfTag_entry ht hf he)), serve_resend_entry ht hf]; rfl
  refine ⟨fun t k ht hk hlow => ?_, fun t i e ht hk he => ?_, fun hi => ?_⟩
  · rw [serves _ (claim_ping ha hr ht (pingClaim_eq hk hlow)), serve_ping]; rfl
  · have entry := claim_queued ha hr ht (pingClaim_none hk) he
    refine ⟨fun hf ho => ?_, fun r hf ho => ?_, fun hf ho => ?_⟩
    · rw [serves _ entry, serve_entry (formed_of_not_refresh hf) ho]; rfl
    · have read : (nextRead s e r).op = .rd := ho
      rw [serves _ entry, serve_entry (formed_of_refresh hf) (by simp [read]), frame_rd read]; rfl
    · rw [serves _ entry, serve_assign (formed_of_not_refresh hf) ho, frame_assign ho]; rfl
  · refine exec_transmitterFree_none hs hc ?_
    rcases hi with ht | ⟨hk, he⟩
    · exact claim_no_tag ha hr ht
    · exact claim_no_request ha hr (pingClaim_none hk) he

end Sys2Proof.Proofs.NodeChain
end

section
/-! ### The node side (R7, R8, R11, R12, R14) -/

namespace Sys2Proof.Proofs.NodeChain

open Sys2Proof Sys2Proof.Machine

section Node

variable (n : NodeSide)

/-! #### The downstream path -/

/-- Where a frame goes at a node that holds an address (R11, R16). -/
theorem passage_of_address {k : Addr} (h : n.address = some k) (dest : Nat) (a : Option Addr) :
    n.passage dest a =
      if dest = 0 ∧ a = some k ∨ dest = addrNum k then .consume
      else if n.gateOpen = true then .forward else .discard := by
  simp [NodeSide.passage, h]

/-- A frame for another node goes on as it came (R11). -/
theorem receiveWire_forward {wire : List Word} (h : n.passage (wireDest wire) (wireAssigns wire) = .forward)
    (ended : Bool) (r : NodeReadiness) : n.receiveWire wire ended r = (n, some wire) := by
  simp [NodeSide.receiveWire, h]

/-- A corrupted or malformed frame for the node itself is dropped (R8). -/
theorem receiveWire_dropped {wire : List Word} {ended : Bool}
    (h : n.passage (wireDest wire) (wireAssigns wire) = .consume) (hd : acceptDown wire ended = none)
    (r : NodeReadiness) : n.receiveWire wire ended r = (n, none) := by
  simp [NodeSide.receiveWire, h, hd]

/-! #### The upstream port -/

section Offer

variable (own : Bool) (f : UpFrame)

/-- With no frame in progress a frame goes out at once (R12). -/
theorem offer_idle (h : n.out = none) : n.offer own f = { n with out := some f } := by
  simp [NodeSide.offer, h]

/-- Behind a frame in progress the node's own frame waits, and one from below where it has room (R12). -/
theorem offer_waits (h : n.out.isSome = true) (hr : own = true ∨ n.line.countP (!·.own) < 4) :
    n.offer own f = { n with line := n.line ++ [{ own := own, frame := f }] } := by
  rw [NodeSide.offer, if_neg (by simpa [Option.isSome_iff_ne_none] using h), if_pos (by simpa using hr)]

/-- A fifth frame from below is lost (R12). -/
theorem offer_full (h : n.out.isSome = true) (ho : own = false) (hf : 4 ≤ n.line.countP (!·.own)) :
    n.offer own f = n := by
  rw [NodeSide.offer, if_neg (by simpa [Option.isSome_iff_ne_none] using h), if_neg (by simpa [ho] using hf)]

end Offer

/-! #### Attentions -/

/-- A node that is not attention-capable raises the two reserved codes only (R7, R22). -/
theorem attend_not_capable (code : BitVec 8) (h : n.make.ident.attnCapable = false) (h1 : code ≠ 0xF1#8)
    (h2 : code ≠ 0xF2#8) : n.attend code = n := by
  simp [NodeSide.attend, isReserved, Config.downstreamLost, Config.loadFaultCode, h, h1, h2]

/-! #### Sequenced requests -/

section Sequenced

variable (op : Op) (f : DownFrame) (r : NodeReadiness)

/-- A repetition is answered from the stored response, and changes nothing (R14). -/
theorem sequenced_repetition (h : f.seq ≠ n.expected) : n.sequenced op f r = (n, n.stored) := by
  rw [NodeSide.sequenced, if_pos h]

/-- A new request that the node can start is executed, E moves on, and its answer is stored (R14). -/
theorem sequenced_new (h : f.seq = n.expected) (hs : r.canStart = true) :
    n.sequenced op f r =
      ({ (n.execute op f.body r).1 with
          expected := expectedAfter op n.expected
          stored := some (n.answer f (n.execute op f.body r).2) },
        some (n.answer f (n.execute op f.body r).2)) := by
  simp [NodeSide.sequenced, h, hs]

/-- A request other than NRESET is executed once: after it, the same request is a repetition (R14). -/
theorem sequenced_once (h : f.seq = n.expected) (hs : r.canStart = true) (ho : op ≠ .nreset) :
    ∃ up, (n.sequenced op f r).2 = some up ∧ up.tag = f.tag ∧ up.seq = f.seq ∧
      (n.sequenced op f r).1.expected = !n.expected ∧ (n.sequenced op f r).1.stored = some up ∧
      (n.sequenced op f r).1.sequenced op f r = ((n.sequenced op f r).1, some up) := by
  have flips : expectedAfter op n.expected = !n.expected := if_neg ho
  rw [sequenced_new n op f r h hs]
  refine ⟨_, rfl, rfl, rfl, flips, rfl, ?_⟩
  exact sequenced_repetition _ op f r (by simp [flips, h])

end Sequenced

end Node

/-- Settles O60: one lemma for each thing that a node does with a frame. -/
theorem nodeForwardsAndExecutesOnce : Obligations.NodeForwardsAndExecutesOnce :=
  ⟨fun n _ dest a h => passage_of_address n h dest a,
    fun n _ ended r => ⟨fun h => receiveWire_forward n h ended r, fun h hd => receiveWire_dropped n h hd r⟩,
    fun n own f => ⟨offer_idle n own f, offer_waits n own f, offer_full n own f⟩,
    attend_not_capable,
    fun n op f r => ⟨sequenced_repetition n op f r, sequenced_once n op f r⟩⟩

end Sys2Proof.Proofs.NodeChain
end

section
/-! ### The words of the host window (12.2 to 12.5, R44, R45, R166, R170 to R172, R178, R179, R182) -/

namespace Sys2Proof.Proofs.NodeLifecycle

open Sys2Proof Sys2Proof.Machine

section Words

variable (s : State)

/-! #### Writes to small words -/

theorem statusWrite_eq (w : Word) : s.statusWrite w = { s with
    ctl := { s.ctl with budgetRefused := if w.getLsbD 0 then false else s.ctl.budgetRefused }
    notices := { s.notices with overflow := if w.getLsbD 1 then false else s.notices.overflow } } := by
  have cleared (b old : Bool) : (old && !b) = if b then false else old := by cases b <;> simp
  simp only [State.statusWrite, bitAt, cleared]

/-- A timing register takes the low byte of the written word where R179 admits it. -/
theorem timingWrite_eq (r : TimingReg) (w : Word) : s.timingWrite r w = { s with
    ctl := if timingAccepts r (w.toNat % 256) then s.ctl.setTiming r (w.toNat % 256) else s.ctl } := by
  rw [State.timingWrite, lowByte_toNat]
  split <;> rfl

theorem refreshOnAttnWrite_eq (k : Addr) (w : Word) (h : (s.node k).state ≠ .vacant) :
    s.refreshOnAttnWrite k w =
      { s with nodes := s.nodes.set k.val { s.node k with refreshOnAttn := w.getLsbD 0 } } :=
  if_neg h

/-- Settles O26: each row runs its write on the state with D[15:0] released. -/
theorem smallWordsTakeTheirFields : Obligations.SmallWordsTakeTheirFields := by
  intro s w hr
  refine ⟨fun c hc => ?_, ?_, ?_, ?_, ?_, ?_, fun k => ⟨fun hv => ?_, fun hv => ?_⟩⟩
  · rw [exec_status hc hr, statusWrite_eq]; rfl
  case refine_7 => rw [exec_refreshOnAttn k hr]; exact congrArg Host.Outcome.next (if_pos hv)
  case refine_8 => rw [exec_refreshOnAttn k hr]; exact congrArg Host.Outcome.next (refreshOnAttnWrite_eq s.released k w hv)
  all_goals
    rw [exec_timing _ hr, timingWrite_eq]
    simp only [timingAccepts, Control.setTiming, Bool.and_eq_true, decide_eq_true_eq, released_ctl]
    split <;> rfl

/-! #### Fields placed in a word -/

theorem place_eq (v lo : Nat) : place v lo = BitVec.ofNat 16 (v * 2 ^ lo) :=
  BitVec.eq_of_toNat_eq (by simp [place, Nat.shiftLeft_eq])

theorem placeBit_eq (b : Bool) (i : Nat) : placeBit b i = BitVec.ofNat 16 (b.toNat * 2 ^ i) := by
  cases b
  · simp [placeBit]
  · simp [placeBit, place_eq]

/-- A packed word is its fields placed one after another. -/
theorem packed_foldl {α : Type} (lo v : α → Nat) (l : List α) :
    packed (l.map fun x => (lo x, v x)) = l.foldl (fun w x => w ||| place (v x) (lo x)) 0#16 := by
  simp only [packed, List.foldl_map, place_eq]

/-! #### Codes by their place in the list of the names -/

theorem statusCode_eq (x : Status) : x.code = statuses.idxOf x := by cases x <;> rfl

theorem noticeCode_eq (x : NoticeKind) : x.code = 1 + noticeKinds.idxOf x := by cases x <;> rfl

theorem cmdCode_eq (x : CmdKind) : x.code = cmdKinds.idxOf x := by cases x <;> rfl

theorem nodeCode_eq (x : NodeState) : x.code = nodeStates.idxOf x := by cases x <;> rfl

theorem stepCode_eq (x : Option NodeStep) : stepCode x =
    match x with
    | none => 0
    | some y => 1 + nodeSteps.idxOf y := by
  rcases x with _ | x
  · rfl
  · cases x <;> rfl

theorem resetCode_eq (x : ResetCause) : x.code = [ResetCause.powerOn, .bus, .keepPin, .soft].idxOf x := by
  cases x <;> rfl

theorem chainCode_eq (x : ChainState) :
    x.code = [ChainState.off, .ramp, .walking, .running, .faulted].idxOf x := by cases x <;> rfl

theorem submitCode_eq (x : SubmitStatus) :
    x.code = [SubmitStatus.none, .accepted, .refusedFull, .badCommand].idxOf x := by cases x <;> rfl

theorem phaseCode_eq (c : ChainManager) : c.phaseCode =
    if c.state = .ramp ∧ c.rampPhase = some .dark then 1
    else if c.state = .ramp ∧ c.rampPhase = some .rising then 2
    else if c.state = .walking ∧ c.walkStep = some .assigning then 1
    else if c.state = .walking ∧ c.walkStep = some .opening then 2
    else if c.state = .walking ∧ c.walkStep = some .settling then 3
    else 0 := by
  cases hs : c.state with
  | ramp => rcases hp : c.rampPhase with _ | _ | _ <;> simp [ChainManager.phaseCode, hs, hp]
  | walking => rcases hw : c.walkStep with _ | _ | _ | _ <;> simp [ChainManager.phaseCode, hs, hw]
  | off | running | faulted => simp [ChainManager.phaseCode, hs]

/-! #### Where each word is read -/

/-- An even byte offset of the window is read through its word address. -/
theorem hostRead_byte {b : Nat} (hb : b < 4096) (he : b % 2 = 0) :
    s.hostRead (BitVec.ofNat 11 (b / 2)) = s.readRegister b := by
  have offset : 2 * (BitVec.ofNat 11 (b / 2)).toNat = b := by
    rw [BitVec.toNat_ofNat, Nat.mod_eq_of_lt (by omega)]; omega
  rw [State.hostRead, offset]

theorem hostRead_control {b : Nat} (hb : b < 0x80) (he : b % 2 = 0) :
    s.hostRead (BitVec.ofNat 11 (b / 2)) = s.readControl b := by
  rw [hostRead_byte s (by omega) he, State.readRegister, if_pos hb]

theorem hostRead_command {b : Nat} (h1 : 0x80 ≤ b) (h2 : b < 0x100) (he : b % 2 = 0) :
    s.hostRead (BitVec.ofNat 11 (b / 2)) = s.readCommand b := by
  rw [hostRead_byte s (by omega) he, State.readRegister, if_neg (by omega), if_pos h2]

theorem hostRead_staging {n : Nat} (hn : n < 20) :
    s.hostRead (BitVec.ofNat 11 ((0x80 + 2 * n) / 2)) = s.cmd.staging.word n := by
  rw [hostRead_command s (by omega) (by omega) (by omega), State.readCommand, if_pos (by omega)]
  congr 1; omega

theorem hostRead_completion {b : Nat} (h1 : 0xB0 ≤ b) (h2 : b < 0x100) (he : b % 2 = 0) :
    s.hostRead (BitVec.ofNat 11 (b / 2)) = s.cmd.headWord b := by
  rw [hostRead_command s (by omega) h2 he, State.readCommand, if_neg (by omega), if_neg (by omega),
    if_neg (by omega)]

theorem hostRead_notice {b : Nat} (h1 : 0x180 ≤ b) (h2 : b < 0x188) (he : b % 2 = 0) :
    s.hostRead (BitVec.ofNat 11 (b / 2)) = s.notices.headWord b := by
  rw [hostRead_byte s (by omega) he, State.readRegister, if_neg (by omega), if_neg (by omega),
    if_neg (by omega), if_pos ⟨h1, h2⟩]

theorem windowWord_at (i : WinIx) (n : Fin 8) : windowWord (0x100 + 16 * i.val + 2 * n.val) = some (i, n) := by
  revert i n; decide

theorem directoryWord_at (k : Addr) (n : Fin 8) :
    windowWord (0x200 + 16 * k.val + 2 * n.val) = none ∧
      directoryWord (0x200 + 16 * k.val + 2 * n.val) = some (k, n.val) := by
  revert k n; decide

theorem hostRead_window (i : WinIx) (n : Fin 8) :
    s.hostRead (BitVec.ofNat 11 ((0x100 + 16 * i.val + 2 * n.val) / 2)) = (s.window i).word n := by
  rw [hostRead_byte s (by omega) (by omega), State.readRegister, if_neg (by omega), if_neg (by omega),
    if_neg (by omega), if_neg (by omega), windowWord_at]

theorem hostRead_directory (k : Addr) (n : Fin 8) :
    s.hostRead (BitVec.ofNat 11 ((0x200 + 16 * k.val + 2 * n.val) / 2)) = s.directoryView k n.val := by
  obtain ⟨noWindow, record⟩ := directoryWord_at k n
  rw [hostRead_byte s (by omega) (by omega), State.readRegister, if_neg (by omega), if_neg (by omega),
    if_neg (by omega), if_neg (by omega), noWindow, record]

/-! #### What the host reads -/

theorem strobedAccess_cases (d : Word) :
    strobedAccess false false false d = some (.write d) ∧ strobedAccess false true false d = some (.write d) ∧
      strobedAccess false false true d = some .read ∧ strobedAccess false true true d = none ∧
      ∀ rdN wrN, strobedAccess true rdN wrN d = none := ⟨rfl, rfl, rfl, rfl, fun _ _ => rfl⟩

/-- A read outside the aperture only drives its word (R170, R172). -/
theorem exec_hostRead (a : BitVec 11) (hr : s.hostReady = true) (ha : a.toNat < 0x400) :
    exec (.registerWrite a .read) s = .next { s with pins := { s.pins with busData := some (s.hostRead a) } } := by
  rw [exec_registerWrite a _ hr]
  exact congrArg Host.Outcome.next (if_neg (Nat.not_le.2 ha))

/-- IRQ_N is low exactly while one of its two terms holds (R167). -/
theorem irqN_low_iff : s.irqN = false ↔
    s.ctl.noticeIe = true ∧ (s.notices.records ≠ [] ∨ s.notices.overflow = true) ∨
      s.ctl.completionIe = true ∧ s.cmd.completions ≠ [] := by
  simp only [State.irqN, State.noticeTerm, State.completionTerm, Bool.not_eq_false', Bool.or_eq_true,
    Bool.and_eq_true, Bool.not_eq_true', List.isEmpty_eq_false_iff, ne_eq]

/-- The tags word holds a field for each tag (R95). -/
theorem queueTagsWord_eq : s.queueTagsWord = packed ((List.finRange 8).map fun x =>
    (2 * x.val,
      match s.tag x with
      | .free => 0
      | .busy _ => 1
      | .hold _ => 2)) := by
  rw [packed_foldl]
  rfl

/-- The counts word holds the entries, the host-class entries and the resend list (R95). -/
theorem queueCountsWord_eq : s.queueCountsWord = packed [(0, s.queue.length),
    (5, s.queue.countP fun e => e.origin != .management), (12, s.disp.resend.length)] := by
  simp only [State.queueCountsWord, place_eq, packed, List.foldl_cons, List.foldl_nil, BitVec.zero_or]
  rfl

/-- The first word of a record of the directory view: state, step and place on the Admission List (R44). -/
theorem directoryView_state (k : Addr) : s.directoryView k 0 = packed [(0, nodeStates.idxOf (s.node k).state),
    (3, match (s.node k).step with
      | none => 0
      | some x => 1 + nodeSteps.idxOf x),
    (6, match s.chain.admission.idxOf? k with
      | none => 0
      | some i => i + 1)] := by
  simp only [State.directoryView, State.admissionPosition, nodeCode_eq, stepCode_eq, place_eq, packed,
    List.foldl_cons, List.foldl_nil, BitVec.zero_or]
  cases s.chain.admission.idxOf? k <;> rfl

theorem hostRead_stagingData (i : Fin 16) :
    s.hostRead (BitVec.ofNat 11 ((0x088 + 2 * i.val) / 2)) = s.cmd.staging.data[i.val] := by
  have offset : 0x088 + 2 * i.val = 0x80 + 2 * (i.val + 4) := by omega
  rw [offset, hostRead_staging s (by omega)]
  simp [Staging.word]

/-- Settles O30: each word is read at its place, and a field placed in it is the field times its place value. -/
theorem hostReadsShowTheState : Obligations.HostReadsShowTheState := by
  refine ⟨strobedAccess_cases, fun s => ⟨fun a hr ha => exec_hostRead s a hr ha, irqN_low_iff s, ?_⟩⟩
  refine ⟨?control, ?command, fun i => ?window, fun k => ?directory, fun h b hb => ?noNotice, fun x xs h => ?notice,
    ?occupancy⟩
  case control =>
    refine ⟨?_, ?_, ?_, ?_, ?_, ?_, ?_, ?_, ?_, ?_, ?_, ?counts, ?tags⟩
    case tags => exact (hostRead_control s (by decide) (by decide)).trans (queueTagsWord_eq s)
    case counts => exact (hostRead_control s (by decide) (by decide)).trans (queueCountsWord_eq s)
    all_goals
      refine (hostRead_control s (by decide) (by decide)).trans ?_
      simp [State.readControl, State.controlWord, State.statusWord, State.chainStatusWord, packed, placeBit_eq,
        place_eq, resetCode_eq, statusCode_eq, chainCode_eq, phaseCode_eq]
  case command =>
    refine ⟨(hostRead_staging s (n := 0) (by decide)).trans ?_, hostRead_staging s (n := 1) (by decide),
      (hostRead_staging s (n := 2) (by decide)).trans ?_, (hostRead_staging s (n := 3) (by decide)).trans ?_,
      fun i => hostRead_stagingData s i, (hostRead_command s (by decide) (by decide) (by decide)).trans ?_,
      (hostRead_command s (by decide) (by decide) (by decide)).trans ?_, fun h b hb => ?none, fun h i => ?noData,
      fun x xs h => ?head⟩
    case none =>
      have place : ∀ b ∈ [0x0B0, 0x0B2, 0x0B4], 0xB0 ≤ b ∧ b < 0x100 ∧ b % 2 = 0 := by decide
      obtain ⟨low, high, even⟩ := place b hb
      exact (hostRead_completion s low high even).trans (by rw [CommandPort.headWord, h])
    case noData =>
      exact (hostRead_completion s (by omega) (by omega) (by omega)).trans (by rw [CommandPort.headWord, h])
    case head =>
      have head (b : Nat) : s.cmd.headWord b = x.word b := by rw [CommandPort.headWord, h]
      refine ⟨(hostRead_completion s (by decide) (by decide) (by decide)).trans ?_,
        (hostRead_completion s (by decide) (by decide) (by decide)).trans ?_,
        (hostRead_completion s (by decide) (by decide) (by decide)).trans ?_, fun i => ?_⟩
      case refine_4 =>
        refine (hostRead_completion s (by omega) (by omega) (by omega)).trans ((head _).trans ?_)
        rw [Completion.word, if_neg (by omega), if_neg (by omega), if_neg (by omega), if_pos (by omega)]
        congr 1; omega
      all_goals simp [head, Completion.word, packed, place_eq, cmdCode_eq, statusCode_eq]
    all_goals
      simp [State.readCommand, Staging.word, CommandPort.statusWord, packed, placeBit_eq, place_eq, submitCode_eq]
  case window =>
    refine ⟨(hostRead_window s i 0).trans ?_, (hostRead_window s i 1).trans ?_, (hostRead_window s i 2).trans ?_,
      hostRead_window s i 3, (hostRead_window s i 4).trans ?_, hostRead_window s i 5,
      (hostRead_window s i 6).trans ?_, hostRead_window s i 7⟩ <;>
      simp [Window.word, packed, placeBit_eq, place_eq, statusCode_eq]
  case directory =>
    refine ⟨(hostRead_directory s k 0).trans (directoryView_state s k), hostRead_directory s k 1,
      (hostRead_directory s k 2).trans ?_, (hostRead_directory s k 3).trans ?_, (hostRead_directory s k 4).trans ?_,
      (hostRead_directory s k 5).trans ?_, (hostRead_directory s k 6).trans ?_, hostRead_directory s k 7⟩ <;>
      simp [State.directoryView, packed, placeBit_eq, place_eq]
  case noNotice =>
    have place : ∀ b ∈ [0x180, 0x182, 0x184], 0x180 ≤ b ∧ b < 0x188 ∧ b % 2 = 0 := by decide
    obtain ⟨low, high, even⟩ := place b hb
    exact (hostRead_notice s low high even).trans (by rw [NoticeQueue.headWord, h])
  case notice =>
    refine ⟨(hostRead_notice s (by decide) (by decide) (by decide)).trans ?_,
      (hostRead_notice s (by decide) (by decide) (by decide)).trans ?_,
      (hostRead_notice s (by decide) (by decide) (by decide)).trans ?_⟩ <;>
      simp [NoticeQueue.headWord, h, packed, place_eq, noticeCode_eq]
  case occupancy =>
    refine (hostRead_byte s (by decide) (by decide)).trans ?_
    simp [State.readRegister, NoticeQueue.occupancyWord, packed, placeBit_eq, place_eq]

end Words
/-! #### The reset state (R28, R46, R94, R111, R129, R146, R158, R169, R179, R182) -/

/-- No window is enabled after power-on reset (R111). -/
theorem reset_disabled (i : WinIx) : (State.reset.window i).enabled = false := by
  simp [State.window, State.reset, Window.reset]

theorem reset_windowsOk : WindowsOk State.reset := by
  have disabled {i : WinIx} (h : (State.reset.window i).enabled = true) : False :=
    absurd ((reset_disabled i).symm.trans h) (by decide)
  have noSegment {i : WinIx} (h : (State.reset.window i).holdsSegment = true) : False :=
    disabled ((Window.holds_iff _).1 h).1
  exact ⟨fun _ h => (disabled h).elim, fun _ _ _ h => (disabled h).elim, fun _ h => (noSegment h).elim,
    fun _ _ _ h => (noSegment h).elim⟩

theorem reset_bindingOk : BindingOk State.reset := fun i _ h _ _ =>
  absurd ((reset_disabled i).symm.trans h) (by decide)

/-- Nothing waits after power-on reset, and CHAIN_PWR_EN is deasserted. -/
theorem reset_settled : Settled State.reset := ⟨.inl rfl, nofun, fun _ => nofun⟩

/-- Settles O10: the laws one by one; the words are closed values. -/
theorem resetIsGoodAndReadsAsTheMapGives : Obligations.ResetIsGoodAndReadsAsTheMapGives := by
  refine ⟨⟨NoticesOk.empty, Nat.zero_le 8, ⟨by decide, by decide, by decide⟩, AccountOk.reset, Memory.reset_wf,
    reset_windowsOk, reset_bindingOk, reset_settled, TimingOk.reset .powerOn, .empty _⟩, ?_, ?_, ?_, ?_, ?_⟩
  all_goals decide +kernel

end Sys2Proof.Proofs.NodeLifecycle
end

section
/-! ### What the end of an event leaves of one node and of the notices (R52, R64, R66, R73, R78) -/

namespace Sys2Proof.Proofs.NodeLifecycle

open Sys2Proof Sys2Proof.Machine
open Sys2Proof.Proofs.NodeChain (finish_chain_items)

section Event

variable (s : State)

/-- Two states with equal items are one. -/
theorem state_ext {s t : State} (pins : s.pins = t.pins) (ctl : s.ctl = t.ctl) (lbi : s.lbi = t.lbi)
    (windows : s.windows = t.windows) (queue : s.queue = t.queue) (disp : s.disp = t.disp) (port : s.port = t.port)
    (chain : s.chain = t.chain) (nodes : s.nodes = t.nodes) (mirror : s.mirror = t.mirror) (cmd : s.cmd = t.cmd)
    (notices : s.notices = t.notices) (pending : s.pending = t.pending) : s = t := by
  cases s; cases t
  simp only [State.mk.injEq]
  exact ⟨pins, ctl, lbi, windows, queue, disp, port, chain, nodes, mirror, cmd, notices, pending⟩

/-! #### Completions, one after another -/

theorem foldl_complete_eq {α : Type} (g : α → Completion) (l : List α) : ∀ s : State,
    l.foldl (fun s x => s.complete (g x)) s = { s with cmd := s.cmd.record (l.map g) } := by
  induction l with
  | nil => exact fun _ => rfl
  | cons x l ih => exact fun s => ih (s.complete (g x))

/-- The UNFENCEs that waited on some nodes complete, and nothing else changes (R150). -/
theorem completeWaits_eq (p : Addr → Bool) (st : Status) : s.completeWaits p st = { s with
    chain := { s.chain with unfenceWaits := s.chain.unfenceWaits.filter fun u => !p u.node }
    cmd := s.cmd.record ((s.chain.unfenceWaits.filter fun u => p u.node).map (unfenceEnding st)) } :=
  foldl_complete_eq (unfenceEnding st) _ _

/-- Where no UNFENCE waits on the nodes none completes. -/
theorem completeWaits_none (p : Addr → Bool) (st : Status) (h : ∀ u ∈ s.chain.unfenceWaits, p u.node = false) :
    s.completeWaits p st = s := by
  have kept : (s.chain.unfenceWaits.filter fun u => !p u.node) = s.chain.unfenceWaits :=
    List.filter_eq_self.2 fun u hu => by simp [h u hu]
  have noneWaited : (s.chain.unfenceWaits.filter fun u => p u.node) = [] :=
    List.filter_eq_nil_iff.2 fun u hu => by simp [h u hu]
  rw [completeWaits_eq, kept, noneWaited]
  rfl

/-- Every attached RESCAN completes, and nothing else changes (R60, R152). -/
theorem completeRescans_eq (st : Status) (n : Nat) : s.completeRescans st n = { s with
    chain := { s.chain with rescans := [] }
    cmd := s.cmd.record (s.chain.rescans.map (rescanEnding st n)) } :=
  foldl_complete_eq (rescanEnding st n) _ _

/-! #### What the serving of the backlog keeps -/

/-- A property that every part of the serving keeps: a step leaves the backlog or stays, a MANAGEMENT entry is queued,
a SENSED node is decided, the head of the Admission List is admitted. -/
structure ServingKeeps (P : State → Prop) : Prop where
  backlog : ∀ s l, P s → P { s with chain := { s.chain with backlog := l } }
  entry : ∀ s op k, P s → P (s.enqueueMgmt op k)
  decided : ∀ s k b, (s.node k).state = .sensed → P s → P (s.decideAdmission k b)
  head : ∀ s k ks, s.chain.admission = k :: ks → P s →
    P (({ s with chain := { s.chain with admission := ks } } : State).admitted k)

section Serving

variable {P : State → Prop} (hP : ServingKeeps P)

include hP

theorem ServingKeeps.takeStep (s : State) (st : MgmtStep) (h : P s) : P (s.takeStep st) := by
  cases st with
  | assign k | openGate k | closeGate k | confirm k => exact hP.entry s _ k h
  | decision k b =>
    by_cases hs : (s.node k).state = .sensed
    · exact hP.decided s k b hs h
    · rw [show s.takeStep (.decision k b) = s from if_neg hs]; exact h
  | service => exact h

theorem ServingKeeps.serveAdmission (l : List Addr) : ∀ s : State, s.chain.admission = l → P s →
    P (State.serveAdmission l s).1 := by
  induction l with
  | nil => exact fun s _ h => h
  | cons k ks ih =>
    intro s hl h
    unfold State.serveAdmission
    split
    · split
      · exact ih _ (by simp [State.admitted]; split <;> simp) (hP.head s k ks hl h)
      · exact h
    · exact h

theorem ServingKeeps.serveSteps (l : List MgmtStep) : ∀ s : State, P s → P (State.serveSteps l s) := by
  induction l with
  | nil => exact fun s h => h
  | cons st rest ih =>
    intro s h
    have taken := hP.backlog s rest h
    unfold State.serveSteps
    split
    · dsimp only
      split
      · have served := hP.serveAdmission _ _ rfl taken
        split
        · exact ih _ served
        · exact hP.backlog _ _ served
      · exact ih _ (hP.takeStep _ st taken)
    · exact h

theorem ServingKeeps.serveBacklog (h : P s) : P s.serveBacklog := hP.serveSteps _ s h

end Serving

/-! #### The records that an admission or a denial leaves -/

theorem modNode_of_ne {j k : Addr} (f : NodeRecord → NodeRecord) (h : j ≠ k) : (s.modNode k f).node j = s.node j := by
  rw [State.modNode_node, if_neg h]

theorem admitted_of_ne {j k : Addr} (h : j ≠ k) : (s.admitted k).node j = s.node j := by
  unfold State.admitted
  split
  · rw [State.enqueueMgmt_node, modNode_of_ne _ _ h]; rfl
  · rfl

theorem admitted_state (k : Addr) :
    ((s.admitted k).node k).state = (s.node k).state ∨ ((s.admitted k).node k).state = .powering := by
  unfold State.admitted
  split
  · exact .inr (by rw [State.enqueueMgmt_node, State.modNode_node_self])
  · exact .inl rfl

theorem admitted_admission (k : Addr) : (s.admitted k).chain.admission = s.chain.admission := by
  unfold State.admitted
  split <;> simp

theorem deny_of_ne {j k : Addr} (h : j ≠ k) : (s.deny k).node j = s.node j :=
  modNode_of_ne s (fun r => { r with state := .denied }) h

theorem deny_state (k : Addr) : ((s.deny k).node k).state = .denied :=
  congrArg NodeRecord.state (s.modNode_node_self k fun r => { r with state := .denied })

theorem deny_admission (k : Addr) : (s.deny k).chain.admission = s.chain.admission ++ [k] := rfl

/-- A decision admits or denies; the UNFENCEs that complete with it touch no record and no list (R64). -/
theorem decideAdmission_cases (k : Addr) (b : Bool) (hs : (s.node k).state = .sensed) :
    ∃ t, (t = s.admitted k ∨ t = s.deny k) ∧ (s.decideAdmission k b).nodes = t.nodes ∧
      (s.decideAdmission k b).chain.admission = t.chain.admission := by
  rw [State.decideAdmission, if_pos hs]
  dsimp only
  rw [completeWaits_eq]
  split
  · exact ⟨_, .inl rfl, rfl, rfl⟩
  · exact ⟨_, .inr rfl, rfl, rfl⟩

/-! #### A node that no decision can touch -/

/-- A node out of the reach of the admission: its record is a given one, not SENSED, and it is off the list. -/
structure Settles (k : Addr) (r : NodeRecord) (s : State) : Prop where
  record : s.node k = r
  decided : r.state ≠ .sensed
  unlisted : k ∉ s.chain.admission

theorem settles_serving (j : Addr) (r : NodeRecord) : ServingKeeps (Settles j r) where
  backlog _ _ h := { h with }
  entry s op k h := ⟨by rw [State.enqueueMgmt_node]; exact h.record, h.decided,
    by rw [State.enqueueMgmt_chain]; exact h.unlisted⟩
  decided s k b hs h := by
    have other : j ≠ k := by rintro rfl; exact h.decided (h.record ▸ hs)
    obtain ⟨t, ht, nodes, admission⟩ := decideAdmission_cases s k b hs
    rcases ht with rfl | rfl
    · exact ⟨by rw [State.node, nodes]; exact (admitted_of_ne s other).trans h.record, h.decided,
        by rw [admission, admitted_admission]; exact h.unlisted⟩
    · refine ⟨by rw [State.node, nodes]; exact (deny_of_ne s other).trans h.record, h.decided, ?_⟩
      rw [admission, deny_admission, List.mem_append, List.mem_singleton]
      exact not_or.2 ⟨h.unlisted, other⟩
  head s k ks hl h := by
    have other : j ≠ k := by rintro rfl; exact h.unlisted (hl ▸ List.mem_cons_self)
    exact ⟨(admitted_of_ne _ other).trans h.record, h.decided,
      by rw [admitted_admission]; exact fun hm => h.unlisted (hl ▸ List.mem_cons_of_mem _ hm)⟩

/-- The end of an event leaves such a node as it was, but that its request or acknowledgement may go out. -/
theorem finish_settles {k : Addr} {r : NodeRecord} (h : Settles k r s) :
    r.sent (s.finish.node k) ∧ k ∉ s.finish.chain.admission := by
  have served := (settles_serving k r).serveBacklog s h
  have chosen := (chosen_dispatch s.serveSlots).nodes k
  have record : s.serveSlots.node k = r := by
    rw [← served.record]; simp only [State.serveSlots, State.node, (serveCycle_frame _).nodes]
  exact ⟨record ▸ chosen, by rw [finish_chain]; exact served.unlisted⟩

/-! #### A node whose decision may follow -/

/-- A node that is SENSED, or that its decision has taken further (R32). -/
def Discovered (k : Addr) (s : State) : Prop :=
  (s.node k).state = .sensed ∨ (s.node k).state = .denied ∨ (s.node k).state = .powering

theorem Discovered.of_state {k : Addr} {s t : State} (h : Discovered k s)
    (ht : (t.node k).state = (s.node k).state) : Discovered k t := by unfold Discovered; rw [ht]; exact h

theorem Discovered.admitted {j : Addr} {s : State} (h : Discovered j s) (k : Addr) :
    Discovered j (s.admitted k) := by
  by_cases e : j = k
  · subst e
    rcases admitted_state s j with hs | hs
    · exact h.of_state hs
    · exact .inr (.inr hs)
  · exact h.of_state (by rw [admitted_of_ne s e])

theorem Discovered.deny {j : Addr} {s : State} (h : Discovered j s) (k : Addr) : Discovered j (s.deny k) := by
  by_cases e : j = k
  · subst e; exact .inr (.inl (deny_state s j))
  · exact h.of_state (by rw [deny_of_ne s e])

theorem discovered_serving (j : Addr) : ServingKeeps (Discovered j) where
  backlog _ _ h := h
  entry s op k h := h.of_state (by rw [State.enqueueMgmt_node])
  decided s k b hs h := by
    obtain ⟨t, ht, nodes, -⟩ := decideAdmission_cases s k b hs
    have decided : Discovered j t := by
      rcases ht with rfl | rfl
      · exact h.admitted k
      · exact h.deny k
    exact decided.of_state (by rw [State.node, nodes]; rfl)
  head s k ks _ h := Discovered.admitted (s := { s with chain := { s.chain with admission := ks } }) h k

theorem serveSlots_discovered {k : Addr} (h : Discovered k s) : Discovered k s.serveSlots :=
  ((discovered_serving k).serveBacklog s h).of_state (by
    simp only [State.serveSlots, State.node, (serveCycle_frame _).nodes])

theorem finish_discovered {k : Addr} (h : Discovered k s) : Discovered k s.finish :=
  (serveSlots_discovered s h).of_state (by rw [State.finish, (chosen_dispatch s.serveSlots).nodes k])

/-! #### Records, notices, and the Command Port at the end of an event -/

theorem serveBacklog_served : Served (fun _ => True) (fun _ => True) s s.serveBacklog :=
  served_serveBacklog (fun _ _ => trivial) (fun _ _ _ => trivial) fun _ _ _ _ => trivial

/-- A record as the end of an event may leave it: decided, and its request or acknowledgement sent. -/
def PassedOn (r t : NodeRecord) : Prop :=
  t = { r with
    state := t.state, step := t.step, powered := t.powered, inFlightTag := t.inFlightTag, ackOwed := t.ackOwed }

theorem PassedOn.of_served {r t u : NodeRecord} (h : r.sameBut t) (g : t.sent u) : PassedOn r u := by
  unfold NodeRecord.sameBut at h
  unfold NodeRecord.sent at g
  unfold PassedOn
  rw [g, h]

theorem serveSlots_node (k : Addr) : (s.node k).sameBut (s.serveSlots.node k) := by
  have same : s.serveSlots.node k = s.serveBacklog.node k := by
    simp only [State.serveSlots, State.node, (serveCycle_frame _).nodes]
  rw [same]; exact (serveBacklog_served s).records k

theorem finish_node (k : Addr) : PassedOn (s.node k) (s.finish.node k) :=
  .of_served (serveSlots_node s k) ((chosen_dispatch s.serveSlots).nodes k)

theorem serveSlots_notices : s.serveSlots.notices = s.serveBacklog.notices := by
  rw [State.serveSlots, (serveCycle_frame _).notices]

/-- A notice other than NODE_DENIED still shows when the backlog has been served. -/
theorem serveSlots_shows {n : Nat} {k : NoticeKind} {d : Word} (hk : k ≠ .nodeDenied) (h : s.notices.shows n k d) :
    s.serveSlots.notices.shows n k d := by
  have served := serveBacklog_served s
  rw [serveSlots_notices]
  exact h.kept (fun r hr e => served.kept r hr (e ▸ hk)) served.flag

/-- A notice other than NODE_DENIED still shows at the end of the event. -/
theorem finish_shows {n : Nat} {k : NoticeKind} {d : Word} (hk : k ≠ .nodeDenied) (h : s.notices.shows n k d) :
    s.finish.notices.shows n k d := by
  rw [finish_notices, ← serveSlots_notices]; exact serveSlots_shows s hk h

/-- The completions that stood before the end of an event stand first after it. -/
theorem finish_completions : s.cmd.completions <+: s.finish.cmd.completions := by
  rw [finish_cmd]; exact (serveBacklog_served s).ended

theorem finish_submitStatus : s.finish.cmd.submitStatus = s.cmd.submitStatus := by
  rw [finish_cmd]; exact (serveBacklog_served s).cmd.2

/-- With the held-cycle slot EMPTY the queue after an event holds what it held, as sent or not, and MANAGEMENT
entries. -/
theorem finish_queue (h : s.lbi.slot = none) (e : Entry) (he : e ∈ s.finish.queue) :
    e.origin = .management ∨ ∃ x ∈ s.queue, e.origin = x.origin ∧ e.node = x.node ∧
      (e.state = x.state ∨ e.state = .inFlight) := by
  have noCycle : s.serveSlots = s.serveBacklog :=
    serveCycle_none _ (by rw [(serveBacklog_chain s).1.lbi]; exact h)
  obtain ⟨x, hx, sent⟩ := (chosen_dispatch s.serveSlots).queue e he
  obtain ⟨added, hqueue, management⟩ := (serveBacklog_served s).queue
  rw [noCycle, hqueue] at hx
  rcases List.mem_append.1 hx with hx | hx
  · exact .inr ⟨x, hx, sent.origin, sent.node, sent.state⟩
  · exact .inl (sent.origin.trans (management x hx).1)

/-- The end of an event sends no tag out of HOLD and adds nothing to the resend list (R78, R85). -/
theorem finish_held (x : TagId) (d : Nat) (h : s.tag x = .hold d) : s.finish.tag x = .hold d := by
  refine (chosen_dispatch s.serveSlots).tags x d ?_
  rw [← h]
  simp only [State.tag, State.serveSlots, (serveCycle_frame _).disp, (serveBacklog_chain s).1.disp]

theorem finish_resend (h : s.disp.resend = []) : s.finish.disp.resend = [] := by
  refine List.eq_nil_iff_forall_not_mem.2 fun x hx => ?_
  have old := (chosen_dispatch s.serveSlots).resend x hx
  rw [State.serveSlots, (serveCycle_frame _).disp, (serveBacklog_chain s).1.disp, h] at old
  cases old

theorem finish_carrierSeen : s.finish.port.carrierSeen = s.port.carrierSeen := by
  rw [State.finish, (chosen_dispatch s.serveSlots).carrier, State.serveSlots, (serveCycle_frame _).port,
    (serveBacklog_chain s).1.port]

/-- With no UNFENCE waiting the end of an event completes nothing. -/
theorem finish_waits_none (h : s.chain.unfenceWaits = []) :
    s.finish.chain.unfenceWaits = [] ∧ s.finish.cmd = s.cmd := by
  rw [finish_chain, finish_cmd]; exact (serveBacklog_served s).waits h

end Event

end Sys2Proof.Proofs.NodeLifecycle
end

section
/-! ### The resets (R28, R29, R63, R69, R70, R94, R117, R174, R176) -/

namespace Sys2Proof.Proofs.NodeLifecycle

open Sys2Proof Sys2Proof.Machine
open Sys2Proof.Proofs.NodeChain (finish_chain_items)

section BusReset

variable (s : State)

/-! #### The lines (R174, R175) -/

theorem powered_iff : s.powered = true ↔ s.pins.supplyValid = true ∧ s.pins.powerOnHold = false := by
  simp [State.powered]

/-- A low of RESET_N that falls in a powered part takes its reset. -/
theorem resetLine_falls (keepN : Bool) (take : State → State) (hp : s.powered = true)
    (hr : s.pins.resetN = true) : s.resetLine keepN take = take s := by
  rw [State.resetLine, if_pos hp, if_pos hr]

/-- A line that is low already takes no other reset (log 17). -/
theorem resetLine_low (keepN : Bool) (take : State → State) (hp : s.powered = true)
    (hr : s.pins.resetN = false) : s.resetLine keepN take = s := by
  rw [State.resetLine, if_pos hp, if_neg (by simp [hr])]

/-- In the hold, and without supply, a line only takes its level (log 17). -/
theorem resetLine_unpowered (keepN : Bool) (take : State → State) (hp : s.powered = false) :
    s.resetLine keepN take = s.linesLow keepN := by
  rw [State.resetLine, if_neg (by simp [hp])]

/-! #### The bus reset (R28, R174) -/

/-- What a bus reset leaves: RESET_N low, KEEP_N high, and every other item but the pins at its reset value. -/
structure BusReset (s t : State) : Prop where
  items : t = { State.reset with
    pins := t.pins, ctl := { State.reset.ctl with resetCause := .bus }, pending := s.pending }
  resetN : t.pins.resetN = false
  keepN : t.pins.keepN = true

theorem takeBusReset_reset : BusReset s s.takeBusReset := ⟨rfl, rfl, rfl⟩

/-- The rows that take a bus reset (R174). -/
theorem exec_busReset {c : Instr} (hs : s.pins.supplyValid = true) (hh : s.pins.powerOnHold = false)
    (hc : c = .busReset ∧ s.pins.resetN = true ∨
      c = .keepNRise ∧ s.pins.resetN = false ∧ s.pins.keepN = false) :
    exec c s = .next s.takeBusReset := by
  have powered := (powered_iff s).2 ⟨hs, hh⟩
  rcases hc with ⟨rfl, hr⟩ | ⟨rfl, hr, hk⟩
  · exact congrArg Host.Outcome.next (resetLine_falls s true _ powered hr)
  · exact congrArg Host.Outcome.next (if_pos (by simp [powered, hr, hk]))

/-- The reset values make every record VACANT with incarnation 0 (R24, R28). -/
theorem resetTo_node (pins : Pins) (cause : ResetCause) (k : Addr) :
    (s.resetTo pins cause).node k = NodeRecord.reset := by
  simp [State.node, State.resetTo, State.reset]

/-- Settles O15: the two rows that take a bus reset, the lines that take none, and the records after a reset. -/
theorem busResetGivesResetValues : Obligations.BusResetGivesResetValues := by
  refine ⟨fun s c hs hh hc => ?_, fun s hs hh hr => ?_, fun s hp => ?_, fun s hr => ?_, fun s c hc => ?_⟩
  · obtain ⟨items, resetN, keepN⟩ := takeBusReset_reset s
    exact ⟨_, exec_busReset s hs hh hc, items, resetN, keepN, rfl, rfl, rfl⟩
  · have powered := (powered_iff s).2 ⟨hs, hh⟩
    exact ⟨congrArg Host.Outcome.next (resetLine_low s true _ powered hr),
      congrArg Host.Outcome.next (resetLine_low s false _ powered hr)⟩
  · have unpowered : s.powered = false := by rcases hp with h | h <;> simp [State.powered, h]
    exact ⟨congrArg Host.Outcome.next (resetLine_unpowered s true _ unpowered),
      congrArg Host.Outcome.next (resetLine_unpowered s false _ unpowered)⟩
  · exact congrArg Host.Outcome.next (if_neg (by simp [hr]))
  · obtain ⟨pins, cause, run⟩ : ∃ pins cause, exec c s = .next (s.resetTo pins cause) := by
      rcases hc with rfl | ⟨rfl, hs, hh, hr⟩
      · exact ⟨_, _, rfl⟩
      · exact ⟨_, _, exec_busReset s hs hh (.inl ⟨rfl, hr⟩)⟩
    exact ⟨_, run, rfl, resetTo_node s pins cause⟩

end BusReset
section KeepReset

variable (s : State)

/-! #### Records, windows and tags after a keep reset, field by field (R29, R77, R117) -/

theorem loadOnLost_iff (r : NodeRecord) : r.loadOnLost = true ↔ r.state = .powering ∧ r.step = some .loadWait := by
  simp [NodeRecord.loadOnLost]

/-- A record whose LOAD_ON the reset removed has its demand released as well (R29, R63). -/
theorem keepReset_released (r : NodeRecord) :
    (if r.loadOnLost = true then { r with powered := false } else r).keepReset =
      { r with
        state := if r.state = .powering ∧ r.step = some .loadWait then .sensed else r.state
        step :=
          if r.step = some .loadWait ∨ r.step = some .unfencing ∨ r.step = some .poweringOff then none else r.step
        powered := if r.state = .powering ∧ r.step = some .loadWait then false else r.powered
        inFlightTag := none
        resync := r.resync || r.inFlightTag.isSome } := by
  by_cases h : r.state = .powering ∧ r.step = some .loadWait
  · obtain ⟨hs, hl⟩ := h
    simp [NodeRecord.keepReset_eq, NodeRecord.loadOnLost, hs, hl]
  · have kept : r.loadOnLost = false := Bool.eq_false_iff.2 fun e => h ((loadOnLost_iff r).1 e)
    simp [NodeRecord.keepReset_eq, kept, h]

theorem window_keepReset (w : Window) : w.keepReset =
    { w with
      enabled := false
      enableStatus := .ok
      attached := if w.enabled then false else w.attached
      boundIncarnation := if w.enabled then 0#16 else w.boundIncarnation
      mirrorSegment := if w.enabled = true ∧ w.kind = 2#2 then 0 else w.mirrorSegment } := by
  unfold Window.keepReset Window.disabled Window.isMirror
  cases he : w.enabled <;> simp [he]

/-! #### The state that a keep reset leaves before its event ends -/

/-- The nodes whose demand is released: the reset removed their LOAD_ON, and they are powered (R29, R63). -/
def freedNodes (s : State) : List Addr :=
  (List.finRange 24).filter fun k =>
    decide ((s.node k).state = .powering ∧ (s.node k).step = some .loadWait) && (s.node k).powered

/-- The state that a keep reset leaves before the slots are served, with given pins. -/
def keptState (s : State) (pins : Pins) (cause : ResetCause) : State :=
  { s with
    pins := pins
    ctl := { s.ctl with noticeIe := false, completionIe := false, budgetRefused := false, resetCause := cause }
    lbi := { s.lbi with slot := none, result := .ok }
    windows := Vector.ofFn fun i => (s.window i).keepReset
    queue := []
    disp := { tags := Vector.ofFn fun x => (s.tag x).toHold (2 * s.ctl.timeout), resend := [] }
    chain := { s.chain with
      committed := s.chain.committed - ((freedNodes s).map s.demandOf).sum
      backlog := (s.queue.filterMap s.putBack ++ (s.chain.backlog ++
        if (∃ k ∈ freedNodes s, 0 < s.demandOf k) ∧ MgmtStep.service ∉ s.chain.backlog then [MgmtStep.service] else [])).eraseDups
      rescans := []
      unfenceWaits := [] }
    nodes := Vector.ofFn fun k =>
      (if (s.node k).loadOnLost = true then { s.node k with powered := false } else s.node k).keepReset
    mirror := { s.mirror with timers := Vector.replicate 8 none }
    cmd := { s.cmd with submitStatus := .none, reservations := 0, completions := [] }
    notices := { records := [], overflow := false } }

/-- The release of the nodes whose LOAD_ON the reset removed, as the power account sees it (R63, R66). -/
theorem releaseLost_released : Released (allAddrs.filter fun k => (s.node k).loadOnLost) s s.releaseLost :=
  released_list _ ((List.nodup_finRange 24).filter _) s

theorem freed_eq : ((allAddrs.filter fun k => (s.node k).loadOnLost).filter fun k => (s.node k).powered) =
    freedNodes s := by
  rw [List.filter_filter]
  refine List.filter_congr fun k _ => ?_
  simp only [NodeRecord.loadOnLost, beq_eq_decide, Bool.decide_and, Bool.and_comm]

theorem releaseLost_node (k : Addr) : s.releaseLost.node k =
    if (s.node k).loadOnLost = true then { s.node k with powered := false } else s.node k := by
  rw [(releaseLost_released s).nodes]
  simp [allAddrs]

/-- A keep reset ends its event on that state (R69, R70, R94). -/
theorem takeKeepReset_eq (cause : ResetCause) : s.takeKeepReset cause =
    (keptState s { s.pins with busData := s.resetBusData } cause).finish := by
  have released := releaseLost_released s
  have chain := released.chain
  rw [freed_eq] at chain
  have nodes : (Vector.ofFn fun k => (s.releaseLost.node k).keepReset) = Vector.ofFn fun k =>
      (if (s.node k).loadOnLost = true then { s.node k with powered := false } else s.node k).keepReset :=
    congrArg Vector.ofFn (funext fun k => by rw [releaseLost_node])
  have after : s.takeKeepReset cause =
      (((({ s with nodes := s.releaseLost.nodes, chain := s.releaseLost.chain } : State).keepRecords.holdBusyTags
        ).clearHostSide cause).putBackSteps (s.queue.filterMap s.putBack)).finish := by
    rw [← released.rest]; rfl
  rw [after]
  refine congrArg State.finish (state_ext rfl rfl rfl rfl rfl rfl rfl ?_ nodes rfl rfl rfl rfl)
  rw [chain]
  rfl

/-- The rows that take a keep reset: a low of RESET_N with KEEP_N low, and SOFT_RESET (R174, R176). -/
theorem exec_keepReset {c : Instr} {cause : ResetCause} {pins : Pins}
    (h : c = .keepReset ∧ cause = .keepPin ∧ s.pins.supplyValid = true ∧ s.pins.powerOnHold = false ∧
          s.pins.resetN = true ∧
          pins = { s.pins with
            resetN := false
            keepN := false
            busData :=
              match s.lbi.slot with
              | none => s.pins.busData
              | some c => if c.access = .read then some 0xFFFF#16 else none } ∨
      ∃ w, controlWritten c = some w ∧ w.getLsbD 15 = true ∧ cause = .soft ∧ s.hostReady = true ∧
        pins = { s.pins with busData := none }) :
    exec c s = .next (keptState s pins cause).finish := by
  rcases h with ⟨rfl, rfl, hs, hh, hr, rfl⟩ | ⟨w, hc, hw, rfl, hr, rfl⟩
  · have powered := (powered_iff s).2 ⟨hs, hh⟩
    have word : (s.linesLow false).resetBusData =
        match s.lbi.slot with
        | none => s.pins.busData
        | some c => if c.access = .read then some 0xFFFF#16 else none := by
      unfold State.resetBusData
      change (match s.lbi.slot with
        | none => s.pins.busData
        | some c => Access.answer c.access Config.fillWord) = _
      rcases s.lbi.slot with _ | ⟨_, _, _ | _⟩ <;> rfl
    refine congrArg Host.Outcome.next ((resetLine_falls s false _ powered hr).trans ?_)
    rw [takeKeepReset_eq, word]
    rfl
  · have silent : s.released.resetBusData = none := by
      rw [State.resetBusData, released_lbi, hostReady_slot hr]; rfl
    rw [exec_control hc hr, State.controlWrite, if_pos (show bitAt w 15 = true from hw), takeKeepReset_eq, silent]
    rfl

/-! #### The end of a keep reset's event -/

variable (pins : Pins) (cause : ResetCause)

theorem keptState_tag (x : TagId) : (keptState s pins cause).tag x = (s.tag x).toHold (2 * s.ctl.timeout) := by
  simp [State.tag, keptState]

theorem keptState_node (k : Addr) : (keptState s pins cause).node k =
    (if (s.node k).loadOnLost = true then { s.node k with powered := false } else s.node k).keepReset := by
  simp [State.node, keptState]

/-- What R70's table puts back for an entry (R70; log 32). -/
theorem putBack_eq (e : Entry) : s.putBack e =
    if e.origin ≠ .management then none
    else
      match e.op with
      | .assign => some (.assign e.node)
      | .openGate => some (.openGate e.node)
      | .closeGate => some (.closeGate e.node)
      | .loadOn =>
        if (s.node e.node).state = .powering ∧ (s.node e.node).step = some .loadWait then
          some (.decision e.node true)
        else none
      | .ping =>
        if (s.node e.node).state = .powering ∧ (s.node e.node).step = some .confirming then some (.confirm e.node)
        else none
      | _ => none := by
  have host : e.isHost = true ↔ e.origin ≠ .management := by simp [Entry.isHost]
  simp only [State.putBack, host, loadOnLost_iff] <;> rfl

theorem toHold_eq (x : Tag) (d : Nat) : x.toHold d =
    match x with
    | .busy _ => .hold d
    | y => y := by cases x <;> rfl

/-- No record of a keep reset's event is of a kind other than NODE_DENIED (R169). -/
theorem kept_notices : ∀ r ∈ (keptState s pins cause).finish.notices.records, r.kind = .nodeDenied := by
  intro r hr
  rw [finish_notices] at hr
  rcases (serveBacklog_served (keptState s pins cause)).kinds r hr with h | ⟨_, hm, _⟩
  · exact h
  · cases hm

/-- The queue holds only what the steps put back have queued (R70). -/
theorem kept_queue : ∀ e ∈ (keptState s pins cause).finish.queue, e.isHost = false := by
  intro e he
  rcases finish_queue (keptState s pins cause) rfl e he with h | ⟨_, hm, _⟩
  · simp [Entry.isHost, h]
  · cases hm

/-- Settles O16: the event starts from the kept state, and its end touches only what R70 puts back. -/
theorem keepResetKeepsTheChain : Obligations.KeepResetKeepsTheChain := by
  intro s c cause pins h
  have run := exec_keepReset s h
  have waits := finish_waits_none (keptState s pins cause) rfl
  have chain := finish_chain_items (keptState s pins cause)
  refine ⟨run.trans (congrArg (fun t : State => Host.Outcome.next t.finish) ?same), _, run, finish_ctl _, ?irq,
    finish_lbi _ rfl, finish_pins _ rfl, (finish_windows _).trans ?windows, finish_mirror _, waits.2,
    kept_notices s pins cause, kept_queue s pins cause, finish_resend _ rfl, fun x f hx => ?busy, fun x d hx => ?hold,
    ?chain, finish_carrierSeen _, fun k => ?record⟩
  case same =>
    refine state_ext rfl rfl rfl ?table rfl ?tags rfl ?manager ?nodes rfl rfl rfl rfl
    case table => exact congrArg Vector.ofFn (funext fun i => window_keepReset _)
    case tags => exact congrArg (Dispatcher.mk · []) (congrArg Vector.ofFn (funext fun x => toHold_eq _ _))
    case manager =>
      have back : s.putBack = _ := funext (putBack_eq s)
      simp only [keptState, back]
      rfl
    case nodes => exact congrArg Vector.ofFn (funext fun k => keepReset_released _)
  case irq => simp [State.irqN, State.noticeTerm, State.completionTerm, finish_ctl, keptState]
  case windows => exact congrArg Vector.ofFn (funext fun i => window_keepReset _)
  case busy => exact finish_held _ x _ (by rw [keptState_tag, hx]; rfl)
  case hold => exact finish_held _ x _ (by rw [keptState_tag, hx]; rfl)
  case chain =>
    rw [chain]
    exact ⟨rfl, rfl, rfl, rfl, rfl, rfl, rfl, rfl, rfl, rfl, rfl, rfl, rfl, waits.1⟩
  case record =>
    have passed := finish_node (keptState s pins cause) k
    rw [keptState_node, keepReset_released] at passed
    rw [passed]
    exact ⟨rfl, rfl, rfl, rfl, rfl, rfl, rfl, rfl, rfl, rfl, rfl, fun h => by simp [h]⟩

end KeepReset

end Sys2Proof.Proofs.NodeLifecycle
end

section
/-! ### Decisions, timers and answers of one node (R32 to R34, R64, R77, R89, R106, R132, R133) -/

namespace Sys2Proof.Proofs.NodeLifecycle

open Sys2Proof Sys2Proof.Machine

section Decision

variable (s : State)

/-! #### The admission decision (R32, R64) -/

theorem admitted_eq (k : Addr) (hfit : s.chain.committed + s.demandOf k ≤ s.chain.budget)
    (hfree : s.mgmtSlotFree = true) : s.admitted k = { s with
      chain := { s.chain with committed := s.chain.committed + s.demandOf k }
      nodes := s.nodes.set k.val { s.node k with powered := true, state := .powering, step := some .loadWait }
      queue := s.queue ++ [mgmtEntry .loadOn k] } := by
  rw [State.admitted, if_pos hfit]
  exact if_pos hfree

theorem admitted_waits (k : Addr) : (s.admitted k).chain.unfenceWaits = s.chain.unfenceWaits := by
  unfold State.admitted
  split <;> simp

/-- Settles O45: the decision admits or denies, and no UNFENCE completes with it. -/
theorem decisionAdmitsOrDenies : Obligations.DecisionAdmitsOrDenies := by
  refine fun s k putBack => ⟨fun hs => if_neg hs, fun hs hfree hw => ?_⟩
  have noWait : ∀ u ∈ s.chain.unfenceWaits, (u.node == k) = false := fun u hu => by simpa using hw u hu
  have decided : s.takeStep (.decision k putBack) =
      if s.chain.committed + s.demandOf k ≤ s.chain.budget ∧ (s.chain.admission = [] ∨ putBack = true)
      then s.admitted k else s.deny k := by
    have taken : s.takeStep (.decision k putBack) = s.decideAdmission k putBack := rfl
    rw [taken, State.decideAdmission, if_pos hs]
    simp only [Bool.and_eq_true, Bool.or_eq_true, decide_eq_true_eq, List.isEmpty_iff]
    split
    · exact completeWaits_none _ _ _ (by rw [admitted_waits]; exact noWait)
    · exact completeWaits_none _ _ _ noWait
  rw [decided]
  split
  · rename_i h; exact admitted_eq s k h.1 hfree
  · rfl

end Decision

section Timers

variable (s : State)

/-! #### Steps that become due, and refresh requests (R34, R52, R133) -/

theorem makeDue_eq (st : MgmtStep) : s.makeDue st = { s with chain := { s.chain with
    backlog := if st ∈ s.chain.backlog then s.chain.backlog else s.chain.backlog ++ [st] } } := by
  unfold State.makeDue
  split <;> rfl

/-- A request creates a job exactly where no earlier case of R133 applies. -/
theorem refreshCase_create_iff (i : WinIx) (k : Addr) : s.refreshCase i = .create k ↔
    (∀ e ∈ s.queue, e.isJobOf i = false) ∧ (s.window i).enabled = true ∧ (s.window i).kind = 2#2 ∧
      (s.window i).attached = true ∧ addrOf? (s.window i).node.toNat = some k ∧ s.inService k ∧
      s.hostSlotFree = true := by
  rw [← serves_iff]
  unfold State.refreshCase Window.isMirror
  dsimp only
  split
  · rename_i h
    obtain ⟨e, he, job⟩ := List.any_eq_true.1 h
    exact iff_of_false nofun fun ⟨noJob, _⟩ => by simp [noJob e he] at job
  · rename_i h
    have noJob : ∀ e ∈ s.queue, e.isJobOf i = false := by simpa using h
    split
    · rename_i h; exact iff_of_false nofun fun ⟨_, enabled, kind, _⟩ => by simp [enabled, kind] at h
    · rename_i hm
      have mirror : (s.window i).enabled = true ∧ (s.window i).kind = 2#2 := by simpa using hm
      split
      · rename_i h; exact iff_of_false nofun fun ⟨_, _, _, attached, _⟩ => by simp [attached] at h
      · rename_i ha
        have attached : (s.window i).attached = true := by simpa using ha
        split
        · rename_i h; exact iff_of_false nofun fun ⟨_, _, _, _, names, _⟩ => by simp [h] at names
        · rename_i j hj
          split
          · rename_i h; refine iff_of_false nofun fun g => ?_
            obtain ⟨-, -, -, -, hk, hs, -⟩ := g
            rw [hj, Option.some.injEq] at hk; subst hk; simp [hs] at h
          · rename_i hserves
            split
            · rename_i h; exact iff_of_false nofun fun ⟨_, _, _, _, _, _, free⟩ => by simp [free] at h
            · rename_i hfree
              simp only [RefreshCase.create.injEq]
              constructor
              · rintro rfl
                exact ⟨noJob, mirror.1, mirror.2, attached, hj, by simpa using hserves, by simpa using hfree⟩
              · rintro ⟨-, -, -, -, hk, -, -⟩
                rwa [hj, Option.some.injEq] at hk

theorem refreshRequest_same (i : WinIx) (h : ∀ k, s.refreshCase i ≠ .create k) : s.refreshRequest i = s := by
  unfold State.refreshRequest
  split
  · rename_i k hk; exact absurd hk (h k)
  · rfl

theorem refreshRequest_create {i : WinIx} {k : Addr} (h : s.refreshCase i = .create k) :
    s.refreshRequest i = { s with queue := s.queue ++ [s.newJob i k []] } := by
  obtain ⟨-, -, -, -, -, -, hfree⟩ := (refreshCase_create_iff s i k).1 h
  rw [State.refreshRequest, h]
  exact if_pos hfree

/-! #### The two timers (R34, R132) -/

theorem exec_nodeSettleExpiry (k : Addr) (hc : s.pins.clkIn = true) :
    exec (.nodeSettleExpiry k) s = .next (s.nodeExpiry k) :=
  congrArg Host.Outcome.next (clocked_on (fun s => s.nodeExpiry k) hc)

theorem exec_refreshTimerExpiry (i : WinIx) (hc : s.pins.clkIn = true) :
    exec (.refreshTimerExpiry i) s = .next (s.refreshExpiry i) :=
  congrArg Host.Outcome.next (clocked_on (fun s => s.refreshExpiry i) hc)

/-- Settles O59: a timer that does not run does nothing; one that runs makes a step due or asks for a refresh. -/
theorem nodeSettleAndRefreshTimersExpire : Obligations.NodeSettleAndRefreshTimersExpire := by
  refine ⟨fun s k hc => ⟨fun hn => ?_, fun ht hs hst => ?_⟩, fun s i hc => ⟨fun hn => ?_, fun ht => ?_⟩⟩
  · rw [exec_nodeSettleExpiry s k hc, State.nodeExpiry, if_neg (by simp [hn])]
  · rw [exec_nodeSettleExpiry s k hc, State.nodeExpiry, if_pos ht]
    dsimp only
    rw [if_pos ⟨hs, hst⟩, makeDue_eq]
    rfl
  · rw [exec_refreshTimerExpiry s i hc, State.refreshExpiry, if_neg (by simp [hn])]
  · have run : exec (.refreshTimerExpiry i) s =
        .next ((s.setRefreshTimer i (some (s.window i).interval.toNat)).refreshRequest i).finish := by
      rw [exec_refreshTimerExpiry s i hc, State.refreshExpiry, if_pos ht]
    set u := s.setRefreshTimer i (some (s.window i).interval.toNat)
    have same (h : ∀ k, u.refreshCase i ≠ .create k) : exec (.refreshTimerExpiry i) s = .next u.finish := by
      rw [run, refreshRequest_same u i h]
    refine ⟨fun h => same fun k hk => ?_, fun k hj he hm ha hk => ⟨fun hs => same fun j hj => ?_, fun hs hf => ?_⟩⟩
    · obtain ⟨noJob, -, -, attached, -, -, free⟩ := (refreshCase_create_iff u i k).1 hk
      rcases h with ⟨e, hq, job⟩ | h | h
      · exact absurd ((noJob e hq).symm.trans job) (by decide)
      · exact absurd (h.symm.trans attached) (by decide)
      · exact absurd (h.symm.trans free) (by decide)
    · obtain ⟨-, -, -, -, names, serves, -⟩ := (refreshCase_create_iff u i j).1 hj
      obtain rfl : k = j := Option.some.inj ((addrOf_num hk).symm.trans names)
      exact hs serves
    · rw [run, refreshRequest_create u ((refreshCase_create_iff u i k).2 ⟨hj, he, hm, ha, addrOf_num hk, hs, hf⟩)]
      rfl

end Timers

end Sys2Proof.Proofs.NodeLifecycle
end

section
/-! ### A DONE taken from the chain (R26, R33, R34, R53, R56, R77, R89, R93, R101, R106) -/

namespace Sys2Proof.Proofs.NodeLifecycle

open Sys2Proof Sys2Proof.Machine

section Answers

variable (s : State)

/-! #### Taking the answer -/

theorem exec_receiveDone (src : BitVec 5) (t : TagId) (seq : Bool) (h : s.linkUp = true) :
    exec (.receiveDone src t seq) s = .next (s.receiveDone src t seq).finish :=
  congrArg Host.Outcome.next (fromChain_up _ h)

/-- An answer frees or holds its tag and updates its node's record (R77, R89). -/
theorem takeAnswer_eq (t : TagId) (f : Flight) : s.takeAnswer t f = { s with
    disp := s.tagEnded t (s.answeredTag (s.attemptsOf t f))
    nodes := s.nodes.set f.node.val ((s.node f.node).answered f.kind f.sentBit) } := by
  rw [State.takeAnswer, releaseTag_eq]
  rfl

theorem attemptsOf_entry {t : TagId} {f : Flight} {e : Entry} (hf : f.holder = .entry) (he : s.entryOf t = some e) :
    s.attemptsOf t f = e.attempts := by
  simp [State.attemptsOf, hf, he]

theorem attemptsOf_ping {t : TagId} {f : Flight} {k : Addr} (hf : f.holder = .ping k) :
    s.attemptsOf t f = f.synthAttempts := by
  simp [State.attemptsOf, hf]

/-- The part with an entry's request answered: the tag released, the entry out of the queue, and a record for the
node (R77, R89). -/
def answeredAs (s : State) (t : TagId) (e : Entry) (k : Addr) (r : NodeRecord) : State :=
  { s with
    disp := s.tagEnded t (s.answeredTag e.attempts)
    nodes := s.nodes.set k.val r
    queue := s.queue.filter fun x => x.tag != some t }

theorem answeredAs_node (t : TagId) (e : Entry) (k : Addr) (r : NodeRecord) : (answeredAs s t e k r).node k = r :=
  s.setNode_node_self k r

theorem answeredAs_modNode (t : TagId) (e : Entry) (k : Addr) (r : NodeRecord) (g : NodeRecord → NodeRecord) :
    (answeredAs s t e k r).modNode k g = answeredAs s t e k (g r) := by
  rw [State.modNode, answeredAs_node]
  simp [State.setNode, answeredAs]

theorem takeAnswer_removeEntryOf {t : TagId} {f : Flight} {e : Entry} (hf : f.holder = .entry)
    (he : s.entryOf t = some e) : (s.takeAnswer t f).removeEntryOf t =
      answeredAs s t e f.node ((s.node f.node).answered f.kind f.sentBit) := by
  rw [takeAnswer_eq, attemptsOf_entry s hf he]
  rfl

theorem answers_kind {src : BitVec 5} {t : TagId} {seq : Bool} {ks : List Op} {f : Flight}
    (ha : s.answers src t seq ks f) : f.kind ∈ ks :=
  let ⟨_, _, _, kind⟩ := ha
  kind

/-- A DONE that answers an entry's request retires the entry (R89). -/
theorem receiveDone_entry {src : BitVec 5} {t : TagId} {seq : Bool} {ks : List Op} {f : Flight} {e : Entry}
    (ha : s.answers src t seq ks f) (hk : ∀ op ∈ ks, op.takesDone = true) (hf : f.holder = .entry)
    (he : s.entryOf t = some e) : s.receiveDone src t seq = (s.takeAnswer t f).entryDone t e [] := by
  simp only [State.receiveDone, requestFor_answers ha, hk _ (answers_kind s ha), if_true, hf, he]

/-- A DONE that answers a synthesized PING ends the probe (R89, R101). -/
theorem receiveDone_ping {src : BitVec 5} {t : TagId} {seq : Bool} {f : Flight} {k : Addr}
    (ha : s.answers src t seq [.ping] f) (hf : f.holder = .ping k) :
    s.receiveDone src t seq = (s.takeAnswer t f).pingDone k := by
  have kind : f.kind = .ping := List.mem_singleton.1 (answers_kind s ha)
  simp only [State.receiveDone, requestFor_answers ha, kind, show Op.takesDone .ping = true from rfl, if_true, hf]

/-! #### COMMAND requests and probes -/

theorem complete_reserved (c : Completion) {n : Nat} (h : s.cmd.reservations = n + 1) :
    s.complete c = { s with cmd :=
      { s.cmd with reservations := n, completions := s.cmd.completions ++ [c] } } := by
  simp only [State.complete, CommandPort.complete, h]

theorem modNode_modNode (k : Addr) (f g : NodeRecord → NodeRecord) :
    (s.modNode k f).modNode k g = s.modNode k fun r => g (f r) := by
  simp only [State.modNode, State.setNode_node_self]
  simp [State.setNode]

/-- A WRITE or an NRESET answered (R26, R27). -/
theorem answered_transfer (r : NodeRecord) {op : Op} (h : op = .wr ∨ op = .nreset) (bit : Bool) : r.answered op bit =
    { r with
      inFlightTag := none, failCount := 0, nextSeq := if op = .nreset then false else !r.nextSeq } := by
  rcases h with rfl | rfl <;> rfl

/-- A PING answered (R26, R27). -/
theorem answered_ping (r : NodeRecord) (bit : Bool) : r.answered .ping bit =
    { r with inFlightTag := none, failCount := 0, nextSeq := bit, resync := false } := rfl

/-- A WRITE or an NRESET that ends OK carries no data (R155). -/
theorem completion_transfer (e : Entry) {r : CommandRef} (h : r.kind = .write ∨ r.kind = .nreset) :
    e.completion r .ok [] =
      { ticket := r.ticket, kind := r.kind, status := .ok, node := addrNum e.node,
        count := if r.kind = .write then e.count else 0, data := [] } := by
  rcases h with h | h <;> simp [Entry.completion, Entry.completionCount, h]

/-- Settles O51: the answer is taken, then the command completes or the node recovers. -/
theorem doneCompletesTheRequest : Obligations.DoneCompletesTheRequest := by
  refine fun s src t seq f hl => ⟨fun e r n ha hf he hop ho hr hn => ?_, fun k ha hf hk hs => ?_⟩
  · have kind : f.kind = .wr ∨ f.kind = .nreset := by simpa using (answers_kind s ha)
    have retired : (s.takeAnswer t f).entryDone t e [] =
        (answeredAs s t e f.node ((s.node f.node).answered f.kind f.sentBit)).complete (e.completion r .ok []) := by
      rw [← takeAnswer_removeEntryOf s hf he]
      rcases kind with kind | kind <;>
        simp only [State.entryDone, ho, State.deliver, State.deliverCommand, hop, kind]
    rw [exec_receiveDone s src t seq hl, receiveDone_entry s ha (by decide) hf he, retired,
      complete_reserved _ _ (show (answeredAs s t e _ _).cmd.reservations = n + 1 from hn), completion_transfer e hr,
      answered_transfer _ kind]
    rfl
  · have kind : f.kind = .ping := List.mem_singleton.1 (answers_kind s ha)
    subst hk
    rw [exec_receiveDone s src t seq hl, receiveDone_ping s ha hf, State.pingDone, if_pos (by
      rw [State.takeAnswer, State.modNode_node_self, releaseTag_eq]; exact hs)]
    simp only [State.takeAnswer, State.modNode_node_self, modNode_modNode, attemptsOf_ping s hf, releaseTag_eq, kind,
      answered_ping]
    rfl

/-! #### MANAGEMENT entries (R33, R34, R53, R56, R106) -/

/-- A MANAGEMENT request answered: a PING confirms the sequence bit, any other inverts it (R26, R27; log 39). -/
theorem answered_management (r : NodeRecord) {op : Op} (h : op ∈ [Op.loadOn, .openGate, .closeGate, .ping])
    (bit : Bool) : r.answered op bit =
      { r with
        inFlightTag := none, failCount := 0, nextSeq := if op = .ping then bit else !r.nextSeq,
        resync := if op = .ping then false else r.resync } := by
  simp only [List.mem_cons, List.not_mem_nil, or_false] at h
  rcases h with rfl | rfl | rfl | rfl <;> rfl

/-- A later LOAD_ON of the node waits in the queue once the entry of tag `t` has left it (R33; log 22). -/
theorem answeredAs_later (t : TagId) (e : Entry) (k : Addr) (r : NodeRecord) :
    (answeredAs s t e k r).queue.any (·.isLoadOnOf k) = true ↔
      ∃ x ∈ s.queue, x.tag ≠ some t ∧ x.origin = .management ∧ x.op = .loadOn ∧ x.node = k := by
  simp [answeredAs, Entry.isLoadOnOf, Entry.isHost, and_assoc]

/-- The DONE for a MANAGEMENT entry: the request answered, then the entry's own outcome (R53, R89). -/
theorem exec_managementDone {src : BitVec 5} {t : TagId} {seq : Bool} {f : Flight} {e : Entry} (hl : s.linkUp = true)
    (ha : s.answers src t seq [.loadOn, .openGate, .closeGate, .ping] f) (hf : f.holder = .entry)
    (he : s.entryOf t = some e) (hop : e.op = f.kind) (hn : e.node = f.node) (ho : e.origin = .management) :
    exec (.receiveDone src t seq) s = .next
      ((answeredAs s t e e.node ((s.node e.node).answered f.kind f.sentBit)).mgmtDone f.kind e.node).finish := by
  rw [exec_receiveDone s src t seq hl, receiveDone_entry s ha (by decide) hf he, State.entryDone, ho, hn]
  dsimp only
  rw [takeAnswer_removeEntryOf s hf he, hop]

/-- Settles O52: each kind of entry acts on the part with its request answered. -/
theorem managementDoneMovesTheChain : Obligations.ManagementDoneMovesTheChain := by
  intro s src t seq f e hl ha hf he hop hn ho
  have run := exec_managementDone s hl ha hf he hop hn ho
  rw [answered_management _ (answers_kind s ha)] at run
  refine ⟨fun hk => ⟨fun hs hst hlater => ?_, fun h => ?_⟩, fun hk hs hst => ?_, fun hk ht hc hp hw => ?_, fun hk hd => ?_⟩
  · rw [run, hk, State.mgmtDone, State.loadOnDone, if_pos]
    · rw [answeredAs_modNode]; rfl
    · rw [answeredAs_node]
      exact ⟨hs, hst, Bool.eq_false_iff.2 fun h => hlater ((answeredAs_later s t e _ _).1 h)⟩
  · rw [run, hk, State.mgmtDone, State.loadOnDone, if_neg]
    · rfl
    · rw [answeredAs_node]
      rintro ⟨hs, hst, hq⟩
      rcases h with h | h | h
      · exact h hs
      · exact h hst
      · exact absurd (hq.symm.trans ((answeredAs_later s t e _ _).2 h)) (by decide)
  · rw [run, hk, State.mgmtDone, State.confirmDone, answeredAs_node, if_pos ⟨hs, hst⟩, answeredAs_modNode]
    rfl
  · rw [run, hk, State.mgmtDone, State.openDone, if_pos (show (answeredAs s t e _ _).chain.tail = _ from ht)]
    exact congrArg (fun t : State => Host.Outcome.next t.finish) (if_pos ⟨hc, hp, hw⟩)
  · rw [run, hk, State.mgmtDone, State.closeDone, if_pos (show (answeredAs s t e _ _).chain.darkWait = _ from hd)]
    rfl

end Answers

end Sys2Proof.Proofs.NodeLifecycle
end

section
/-! ### FENCE and UNFENCE (R34, R36 to R38, R149, R150) -/

namespace Sys2Proof.Proofs.NodeLifecycle

open Sys2Proof Sys2Proof.Machine

section Submission

variable (s : State)

/-! #### A command that names a node (R145, R146) -/

/-- An accepted command that acts at once: its action, then the end of the event (R145). -/
theorem submit_accepted {w : Word} {kind : CmdKind} {r : Request} {t : State}
    (hk : cmdKindOf s.cmd.staging.kind = some kind) (hr : s.request kind = some r) (hroom : s.cmd.roomFor)
    (ht : s.reserve.act { ticket := lowByte w, kind := kind, order := s.cmd.nextOrder } r = some t) :
    s.submit w = (t.submitAnswer .accepted).finish := by
  have room : s.cmd.hasRoom = true := decide_eq_true hroom
  simp only [State.submit, hk, hr, room, if_true, ht]

/-- A command that would queue an entry and finds no slot is refused (R145). -/
theorem submit_refusedFull {w : Word} {kind : CmdKind} {r : Request}
    (hk : cmdKindOf s.cmd.staging.kind = some kind) (hr : s.request kind = some r) (hroom : s.cmd.roomFor)
    (ht : s.reserve.act { ticket := lowByte w, kind := kind, order := s.cmd.nextOrder } r = none) :
    s.submit w = s.submitAnswer .refusedFull := by
  have room : s.cmd.hasRoom = true := decide_eq_true hroom
  simp only [State.submit, hk, hr, room, if_true, ht]

/-- The state in which an accepted command acts, of ticket `w` (R146). -/
def accepted (s : State) : State := s.released.reserve

def reference (s : State) (w : Word) (kind : CmdKind) : CommandRef :=
  { ticket := w.extractLsb' 0 8, kind := kind, order := s.cmd.nextOrder }

section Row

variable {s : State} {c : Instr} {w : Word} {k : Addr} (hc : submitted c = some w) (hready : s.hostReady = true)
  (hn : s.cmd.staging.node.toNat = addrNum k) (hroom : s.cmd.roomFor)

include hn

theorem request_fence : s.released.request .fence = some (.fence k s.cmd.staging.powerOff) := by
  simp [State.request, Staging.node?, addrOf_num hn]

theorem request_unfence : s.released.request .unfence = some (.unfence k) := by
  simp [State.request, Staging.node?, addrOf_num hn]

include hc hready hroom

theorem exec_fence {t : State} (hk : s.cmd.staging.kind = 2#4)
    (ht : (accepted s).fenceAction (reference s w .fence) k s.cmd.staging.powerOff = some t) :
    exec c s = .next (t.submitAnswer .accepted).finish := by
  have kind : cmdKindOf s.released.cmd.staging.kind = some .fence := by rw [released_cmd, hk]; rfl
  rw [exec_submit hc hready, submit_accepted s.released kind (request_fence hn) hroom ht]

theorem exec_fence_full (hk : s.cmd.staging.kind = 2#4)
    (ht : (accepted s).fenceAction (reference s w .fence) k s.cmd.staging.powerOff = none) :
    exec c s = .next (s.released.submitAnswer .refusedFull) := by
  have kind : cmdKindOf s.released.cmd.staging.kind = some .fence := by rw [released_cmd, hk]; rfl
  rw [exec_submit hc hready, submit_refusedFull s.released kind (request_fence hn) hroom ht]

theorem exec_unfence {t : State} (hk : s.cmd.staging.kind = 3#4)
    (ht : (accepted s).unfenceAction (reference s w .unfence) k = some t) :
    exec c s = .next (t.submitAnswer .accepted).finish := by
  have kind : cmdKindOf s.released.cmd.staging.kind = some .unfence := by rw [released_cmd, hk]; rfl
  rw [exec_submit hc hready, submit_accepted s.released kind (request_unfence hn) hroom ht]

theorem exec_unfence_full (hk : s.cmd.staging.kind = 3#4)
    (ht : (accepted s).unfenceAction (reference s w .unfence) k = none) :
    exec c s = .next (s.released.submitAnswer .refusedFull) := by
  have kind : cmdKindOf s.released.cmd.staging.kind = some .unfence := by rw [released_cmd, hk]; rfl
  rw [exec_submit hc hready, submit_refusedFull s.released kind (request_unfence hn) hroom ht]

end Row

end Submission

section Unfence

variable {s : State} {c : CommandRef} {k : Addr}

theorem enqueueHost_eq (e : Entry) (h : s.hostSlotFree = true) : s.enqueueHost e = { s with queue := s.queue ++ [e] } :=
  if_pos h

/-! #### The four branches of UNFENCE (R37, R150) -/

theorem unfenceAction_refused (h : ¬((s.node k).state = .fenced ∧ (s.node k).step = none)) : s.unfenceAction c k =
    some (s.complete (plainCompletion c.ticket .unfence .nodeNotReady (addrNum k))) := if_neg h

variable (hs : (s.node k).state = .fenced) (hst : (s.node k).step = none)

include hs hst

theorem unfenceAction_confirms (hp : (s.node k).powered = true) (hf : s.hostSlotFree = true) :
    s.unfenceAction c k = some { s with
      nodes := s.nodes.set k.val { s.node k with loadFault := false, step := some .unfencing }
      queue := s.queue ++ [commandEntry c .ping k] } := by
  rw [State.unfenceAction, if_pos ⟨hs, hst⟩, if_pos hp, if_pos hf]
  exact congrArg some (enqueueHost_eq (s := s.modNode k _) _ hf)

theorem unfenceAction_full (hp : (s.node k).powered = true) (hf : s.hostSlotFree = false) :
    s.unfenceAction c k = none := by
  rw [State.unfenceAction, if_pos ⟨hs, hst⟩, if_pos hp, if_neg (by simp [hf])]

theorem unfenceAction_decides (hp : (s.node k).powered = false) : s.unfenceAction c k = some { s with
    nodes := s.nodes.set k.val { s.node k with loadFault := false, state := .sensed }
    chain := { s.chain with
      backlog :=
        if .decision k false ∈ s.chain.backlog then s.chain.backlog else s.chain.backlog ++ [.decision k false]
      unfenceWaits :=
        insertWait { ticket := c.ticket, node := k, order := c.order } s.chain.unfenceWaits } } := by
  rw [State.unfenceAction, if_pos ⟨hs, hst⟩, if_neg (by simp [hp]), makeDue_eq]
  rfl

omit hs hst

/-- Settles O36: the four ways an UNFENCE goes, each a branch of its action. -/
theorem unfenceConfirmsOrDecides : Obligations.UnfenceConfirmsOrDecides := by
  intro s c w k hc hready hk hn hroom
  refine ⟨fun h => ?_, fun hs hst hp hf => ?_, fun hs hst hp hf => ?_, fun hs hst hp => ?_⟩
  · rw [exec_unfence hc hready hn hroom hk (unfenceAction_refused h)]; rfl
  · rw [exec_unfence hc hready hn hroom hk (unfenceAction_confirms (s := accepted s) hs hst hp hf)]; rfl
  · rw [exec_unfence_full hc hready hn hroom hk (unfenceAction_full (s := accepted s) hs hst hp hf)]; rfl
  · rw [exec_unfence hc hready hn hroom hk (unfenceAction_decides (s := accepted s) hs hst hp)]; rfl

end Unfence

end Sys2Proof.Proofs.NodeLifecycle
end

section
/-! ### A node taken out of service (R36, R37, R122) -/

namespace Sys2Proof.Proofs.NodeLifecycle

open Sys2Proof Sys2Proof.Machine

section OutOfService

variable (s : State) (k : Addr)

/-! #### Retirements of no entries, and of MANAGEMENT entries -/

/-- Where no entry is of the kind none is retired. -/
theorem retireAll_none (p : Entry → Bool) (st : Status) (h : ∀ e ∈ s.queue, p e = false) : s.retireAll p st = s := by
  have nothing : s.queue.filter p = [] := List.filter_eq_nil_iff.2 fun e he => by simp [h e he]
  have kept : (s.queue.filter fun e => !p e) = s.queue := List.filter_eq_self.2 fun e he => by simp [h e he]
  rw [State.retireAll, nothing, kept]
  rfl

/-- The retirement of MANAGEMENT entries completes no command (R53). -/
theorem retireAll_management_cmd (p : Entry → Bool) (st : Status) (h : st ≠ .ok)
    (hp : ∀ e, p e = true → e.isHost = false) : (s.retireAll p st).cmd = s.cmd := by
  have silent : (s.queue.filter p).flatMap (s.endings st) = [] := List.flatMap_eq_nil_iff.2 fun e he => by
    have management : e.origin = .management := by simpa [Entry.isHost] using hp e (List.mem_filter.1 he).2
    rw [State.endings, management]
  rw [retireAll_cmd s p st h, silent]
  rfl

/-! #### The node leaves its state (R34, R36, R37) -/

/-- Node `k` is POWERING and its LOAD_ON is still WAITING (R37). -/
def loadOnWaits (s : State) (k : Addr) : Bool :=
  (s.node k).state == .powering && s.queue.any (·.mgmtWaitsAt .loadOn k)

/-- Node `k` out of its state, its WAITING entries still in the queue. -/
structure Leaving (k : Addr) (s u : State) : Prop where
  rest : u = { s with nodes := u.nodes, chain := u.chain }
  own : u.node k = { s.node k with state := .fenced, step := (u.node k).step, powered := (u.node k).powered }
  step : (u.node k).step = if (s.node k).state = .fenced then (s.node k).step else none
  powered : (u.node k).powered = if loadOnWaits s k then false else (s.node k).powered
  unlisted : (∀ j ∈ s.chain.admission, (s.node j).state = .denied) → k ∉ u.chain.admission
  waits : u.chain.unfenceWaits = s.chain.unfenceWaits

/-- A node FENCED already stays as it is (R37). -/
theorem leaving_fenced (hs : (s.node k).state = .fenced) : Leaving k s s where
  rest := rfl
  own := by conv_rhs => rw [← hs]
  step := by rw [if_pos hs]
  powered := by simp [loadOnWaits, hs]
  unlisted listed hm := absurd (hs.symm.trans (listed k hm)) (by decide)
  waits := rfl

/-- Node `k` FENCED and off the Admission List, its decision and its confirmation no longer due (R37, R52). -/
def unlisted (s : State) (k : Addr) : State :=
  ((s.leaveAdmission (· == k)).modNode k fun r => { r with state := .fenced, step := none }).dropSteps
    (MgmtStep.awaits k)

theorem unlisted_rest : unlisted s k = { s with nodes := (unlisted s k).nodes, chain := (unlisted s k).chain } := by
  refine state_ext ?_ ?_ ?_ ?_ ?_ ?_ ?_ rfl rfl ?_ ?_ ?_ ?_ <;> simp [unlisted]

theorem unlisted_node : (unlisted s k).node k = { s.node k with state := .fenced, step := none } := by
  simp [unlisted]

theorem unlisted_powered : ((unlisted s k).node k).powered = (s.node k).powered := by rw [unlisted_node]

theorem unlisted_chain : (unlisted s k).chain.admission = s.chain.admission.filter (fun j => !(j == k)) ∧
    (unlisted s k).chain.unfenceWaits = s.chain.unfenceWaits := by
  have chain := (leaveAdmission_chain s (· == k)).2
  exact ⟨congrArg ChainManager.admission chain,
    (congrArg ChainManager.unfenceWaits chain : (s.leaveAdmission (· == k)).chain.unfenceWaits = _)⟩

theorem unlisted_leaves (hs : (s.node k).state ≠ .fenced) {u : State}
    (rest : u = { unlisted s k with nodes := u.nodes, chain := u.chain })
    (admission : u.chain.admission = (unlisted s k).chain.admission)
    (waits : u.chain.unfenceWaits = (unlisted s k).chain.unfenceWaits)
    (own : u.node k = { (unlisted s k).node k with powered := (u.node k).powered })
    (powered : (u.node k).powered = if loadOnWaits s k then false else (s.node k).powered) : Leaving k s u where
  rest := by
    have := unlisted_rest s k
    rw [this] at rest
    exact rest
  own := by rw [unlisted_node] at own; rw [own]
  step := by rw [own, unlisted_node, if_neg hs]
  powered := powered
  unlisted _ hm := by
    rw [admission, (unlisted_chain s k).1] at hm
    simpa using (List.mem_filter.1 hm).2
  waits := waits.trans (unlisted_chain s k).2

/-- The power account of a POWERING node that leaves before its LOAD_ON was sent (R34, R37). -/
def unpowered (s : State) (k : Addr) : State :=
  let u := (unlisted s k).stopNodeTimer k
  if s.queue.any (·.mgmtWaitsAt .loadOn k) then u.release k else u

theorem leaving_powering (hs : (s.node k).state = .powering) : Leaving k s (unpowered s k) := by
  have fenced : (s.node k).state ≠ .fenced := by rw [hs]; decide
  unfold unpowered
  dsimp only
  split
  · rename_i hw
    have released := released_one ((unlisted s k).stopNodeTimer k) k
    refine unlisted_leaves s k fenced ?_ (by simp; rfl) ?_ ?_ ?_
    · exact released.2
    · rw [released.1]; rfl
    · rw [release_node, if_pos rfl]; rfl
    · rw [release_node, if_pos rfl, loadOnWaits, hs, hw]; rfl
  · rename_i hw
    refine unlisted_leaves s k fenced rfl rfl rfl rfl ?_
    rw [if_neg (by simp [loadOnWaits, hw])]
    exact unlisted_powered s k

theorem leaving_other (hs : (s.node k).state ≠ .fenced) (hp : (s.node k).state ≠ .powering) :
    Leaving k s (unlisted s k) := by
  refine unlisted_leaves s k hs rfl rfl rfl rfl ?_
  rw [if_neg (by simp [loadOnWaits, hp])]
  exact unlisted_powered s k

/-- FENCED: the node leaves its state, then its WAITING MANAGEMENT entries and its WAITING host-class entries are
retired (R37). -/
theorem fenceNode_eq (hv : (s.node k).state ≠ .vacant) : ∃ u p, Leaving k s u ∧
    (∀ e, p e = true → e.isHost = false) ∧
      s.fenceNode k = (u.retireAll p .aborted).retireAll (·.waitsAt k) .nodeNotReady := by
  have noneRetired (u : State) : u.retireAll (fun _ => false) .aborted = u :=
    retireAll_none u _ _ fun _ _ => rfl
  cases hs : (s.node k).state with
  | vacant => exact absurd hs hv
  | fenced =>
    refine ⟨s, fun _ => false, leaving_fenced s k hs, fun _ h => absurd h Bool.false_ne_true, ?_⟩
    rw [noneRetired, State.fenceNode, hs]
  | powering =>
    refine ⟨_, fun e => e.mgmtWaitsAt .loadOn k || e.mgmtWaitsAt .ping k, leaving_powering s k hs, fun e he => ?_, ?_⟩
    · simp only [Entry.mgmtWaitsAt, Bool.or_eq_true, Bool.and_eq_true, Bool.not_eq_true'] at he
      rcases he with ⟨⟨⟨-, management⟩, -⟩, -⟩ | ⟨⟨⟨-, management⟩, -⟩, -⟩ <;> exact management
    · simp only [State.fenceNode, hs, if_true, State.fencePowering, unpowered, unlisted, State.stopNodeTimer_queue,
        State.dropSteps_queue, State.modNode_queue, State.leaveAdmission_queue]
  | sensed | denied | online | suspect =>
    refine ⟨_, fun _ => false, leaving_other s k (by simp [hs]) (by simp [hs]),
      fun _ h => absurd h Bool.false_ne_true, ?_⟩
    simp only [noneRetired, State.fenceNode, hs, reduceCtorEq, if_false, unlisted]

/-! #### What FENCED leaves (R37) -/

theorem recordKept_powered {r t : NodeRecord} (h : RecordKept r t) : t.powered = r.powered := by rw [h.own]

/-- A node that has become FENCED, or was, its WAITING entries retired. -/
structure OutOfService (k : Addr) (s t : State) : Prop where
  own : t.node k = { s.node k with
    state := .fenced, step := (t.node k).step, powered := (t.node k).powered,
    inFlightTag := (t.node k).inFlightTag, resync := (t.node k).resync }
  step : (s.node k).state ≠ .fenced → (t.node k).step = none
  powered : (t.node k).powered = if loadOnWaits s k then false else (s.node k).powered
  unlisted : (∀ j ∈ s.chain.admission, (s.node j).state = .denied) → k ∉ t.chain.admission
  waits : t.chain.unfenceWaits = s.chain.unfenceWaits
  ctl : t.ctl = s.ctl
  mirror : t.mirror = s.mirror
  idle : s.lbi.slot = none → t.lbi = s.lbi
  kept : ∀ r ∈ s.notices.records, r.kind ≠ .postedWriteLost → r.kind ≠ .mirrorStale → r ∈ t.notices.records
  flag : s.notices.overflow = true → t.notices.overflow = true
  cmd : t.cmd = s.cmd.record ((s.queue.filter (·.waitsAt k)).flatMap (s.endings .nodeNotReady))
  queue : ∀ e ∈ t.queue, e.waitsAt k = false

/-- Two retirements after the node has left its state: MANAGEMENT entries, then its host-class entries. -/
theorem Leaving.outOfService {s u : State} {k : Addr} (h : Leaving k s u) (p : Entry → Bool)
    (hp : ∀ e, p e = true → e.isHost = false) :
    OutOfService k s ((u.retireAll p .aborted).retireAll (·.waitsAt k) .nodeNotReady) := by
  have first := retired_retireAll u p .aborted (by decide)
  have second := retired_retireAll (u.retireAll p .aborted) (·.waitsAt k) .nodeNotReady (by decide)
  have cmd1 := retireAll_management_cmd u p .aborted (by decide) hp
  have cmd2 := retireAll_cmd (u.retireAll p .aborted) (·.waitsAt k) .nodeNotReady (by decide)
  have record : RecordKept (u.node k) (((u.retireAll p .aborted).retireAll (·.waitsAt k) .nodeNotReady).node k) :=
    (first.nodes k).trans (second.nodes k)
  have windows (i : WinIx) : ((u.retireAll p .aborted).window i).node = (s.window i).node := by
    obtain ⟨b, hb⟩ := first.windows i
    rw [hb, h.rest]; rfl
  have waiting : (u.retireAll p .aborted).queue.filter (·.waitsAt k) = s.queue.filter (·.waitsAt k) := by
    have queue : u.queue = s.queue := by rw [h.rest]
    rw [first.queue, List.filter_filter, queue]
    refine List.filter_congr fun e _ => ?_
    by_cases he : p e = true
    · simp [Entry.waitsAt, hp e he]
    · simp [he]
  generalize (u.retireAll p .aborted).retireAll (·.waitsAt k) .nodeNotReady = t at second cmd2 record ⊢
  generalize u.retireAll p .aborted = v at first second cmd1 cmd2 windows waiting
  have powered : (t.node k).powered = (u.node k).powered := recordKept_powered record
  refine ⟨?_, fun hs => ?_, powered.trans h.powered, fun hl => ?_, ?_, ?_, ?_, fun hi => ?_, fun r hr hk hm => ?_,
    fun hf => ?_, ?_, fun e he => ?_⟩
  · have own := record.own
    rw [h.own] at own
    rw [powered]; exact own
  · rcases record.step with e | e
    · rw [e, h.step, if_neg hs]
    · exact e
  · rw [second.chain, show v.chain = u.chain from first.chain]; exact h.unlisted hl
  · rw [second.chain, show v.chain = u.chain from first.chain]; exact h.waits
  · rw [second.ctl, show v.ctl = u.ctl from first.ctl, h.rest]
  · rw [second.mirror, show v.mirror = u.mirror from first.mirror, h.rest]
  · have lbi : v.lbi = s.lbi := (first.idle (by rw [h.rest]; exact hi)).trans (by rw [h.rest])
    exact (second.idle (by rw [lbi]; exact hi)).trans lbi
  · exact second.kept r (first.kept r (by rw [h.rest]; exact hr) hk hm) hk hm
  · exact second.flag (first.flag (by rw [h.rest]; exact hf))
  · rw [cmd2, cmd1, waiting, funext (endings_congr s windows .nodeNotReady), h.rest]
  · rw [second.queue] at he
    simpa using (List.mem_filter.1 he).2

theorem fenceNode_outOfService (hv : (s.node k).state ≠ .vacant) : OutOfService k s (s.fenceNode k) := by
  obtain ⟨u, p, leaving, management, fenced⟩ := fenceNode_eq s k hv
  rw [fenced]
  exact leaving.outOfService p management

/-! #### The load-fault path (R36) -/

/-- A node after the load-fault path: FENCED with load_fault, its demand released, NODE_LOAD_FAULT posted. -/
structure LoadFaulted (k : Addr) (cause : Word) (s t : State) : Prop where
  state : (t.node k).state = .fenced
  loadFault : (t.node k).loadFault = true
  powered : (t.node k).powered = false
  notice : t.notices.shows (addrNum k) .nodeLoadFault cause
  unlisted : k ∉ t.chain.admission
  ctl : t.ctl = s.ctl
  mirror : t.mirror = s.mirror

/-- The end of the event leaves the node so. -/
theorem LoadFaulted.finish {cause : Word} {s t : State} (h : LoadFaulted k cause s t) :
    LoadFaulted k cause s t.finish := by
  obtain ⟨sent, off⟩ := finish_settles t ⟨rfl, by rw [h.state]; decide, h.unlisted⟩
  exact {
    state := by rw [sent]; exact h.state
    loadFault := by rw [sent]; exact h.loadFault
    powered := by rw [sent]; exact h.powered
    notice := finish_shows t (by decide) h.notice
    unlisted := off
    ctl := by rw [finish_ctl, h.ctl]
    mirror := by rw [finish_mirror, h.mirror] }

/-- The node with its load fault noted and its demand released, before it becomes FENCED (R36). -/
def faulted (s : State) (k : Addr) (cause : Nat) : State :=
  ((s.post (addrNum k) .nodeLoadFault (BitVec.ofNat 16 cause)).modNode k fun r =>
    { r with loadFault := true }).release k

theorem faulted_node (cause : Nat) :
    (faulted s k cause).node k = { s.node k with loadFault := true, powered := false } := by
  rw [faulted, release_node, if_pos rfl, State.modNode_node_self]; rfl

theorem faulted_of_ne (cause : Nat) {j : Addr} (h : j ≠ k) : (faulted s k cause).node j = s.node j := by
  rw [faulted, release_node, if_neg h, modNode_of_ne _ _ h]; rfl

theorem faulted_notices (cause : Nat) : (faulted s k cause).notices =
    s.notices.post (addrNum k) .nodeLoadFault (BitVec.ofNat 16 cause) := by simp [faulted]

theorem endSlotWaitOf_ended (p : Addr → Bool) (st : Status) : CycleEnded s (s.endSlotWaitOf p st) := by
  unfold State.endSlotWaitOf
  split
  · exact .rfl s
  · split
    · exact endSlotWait_ended s st
    · exact .rfl s

theorem loadFault_eq (cause : Nat) (h : (s.node k).takesAttn = true) : s.loadFault k cause =
    if (s.node k).state = .fenced then faulted s k cause
    else ((faulted s k cause).fenceNode k).endSlotWaitOf (· == k) .nodeNotReady := by
  cases hs : (s.node k).state with
  | vacant | sensed | denied => simp [NodeRecord.takesAttn, hs] at h
  | powering | online | suspect | fenced => simp only [State.loadFault, hs, faulted]

theorem loadFault_faulted (cause : Nat) (h : (s.node k).takesAttn = true) (ha : AccountOk s) :
    LoadFaulted k (BitVec.ofNat 16 cause) s (s.loadFault k cause) := by
  have record := faulted_node s k cause
  have posted : (faulted s k cause).notices.shows (addrNum k) .nodeLoadFault (BitVec.ofNat 16 cause) := by
    rw [faulted_notices]; exact post_shows _ _ _ _
  have unlisted : k ∉ (faulted s k cause).chain.admission := by
    rw [faulted, release_admission]
    intro hm
    have := ha.listed k hm
    simp [NodeRecord.takesAttn, this] at h
  rw [loadFault_eq s k cause h]
  split
  · rename_i hs
    exact ⟨by rw [record]; exact hs, by rw [record], by rw [record], posted, unlisted, by simp [faulted],
      by simp [faulted]⟩
  · rename_i hs
    have fenced := fenceNode_outOfService (faulted s k cause) k (by
      rw [record]; intro hv; simp [NodeRecord.takesAttn, show (s.node k).state = .vacant from hv] at h)
    have ended := endSlotWaitOf_ended ((faulted s k cause).fenceNode k) (· == k) .nodeNotReady
    generalize ((faulted s k cause).fenceNode k).endSlotWaitOf (· == k) .nodeNotReady = t at ended ⊢
    generalize (faulted s k cause).fenceNode k = v at fenced ended
    have node : t.node k = v.node k := by simp only [State.node, ended.nodes]
    have listed : ∀ j ∈ (faulted s k cause).chain.admission, ((faulted s k cause).node j).state = .denied := by
      intro j hj
      have other : j ≠ k := by rintro rfl; exact unlisted hj
      rw [faulted_of_ne s k cause other]
      rw [faulted, release_admission] at hj
      exact ha.listed j hj
    refine ⟨?_, ?_, ?_, ?_, ?_, ?_, ?_⟩
    · rw [node, fenced.own]
    · rw [node, fenced.own, record]
    · rw [node, fenced.powered, record]; split <;> rfl
    · exact posted.kept
        (fun r hr e => ended.kept r (fenced.kept r hr (by rw [e]; decide) (by rw [e]; decide)) (by rw [e]; decide))
        fun hf => ended.flag (fenced.flag hf)
    · rw [ended.chain]; exact fenced.unlisted listed
    · rw [ended.ctl, fenced.ctl]; simp [faulted]
    · rw [ended.mirror, fenced.mirror]; simp [faulted]

end OutOfService
end Sys2Proof.Proofs.NodeLifecycle
end

section
/-! ### The two FENCEs (R37, R38, R149) -/

namespace Sys2Proof.Proofs.NodeLifecycle

open Sys2Proof Sys2Proof.Machine

section Fence

variable {s : State} {c : CommandRef} {k : Addr}

/-! #### FENCE on a node that stays as it is -/

theorem fenceAction_vacant (p : Bool) (h : (s.node k).state = .vacant) : s.fenceAction c k p =
    some (s.complete (plainCompletion c.ticket .fence .nodeNotReady (addrNum k))) := if_pos h

theorem fenceNode_fenced (h : (s.node k).state = .fenced) :
    s.fenceNode k = s.retireAll (·.waitsAt k) .nodeNotReady := by rw [State.fenceNode, h]

/-- A FENCED node for which nothing waits stays as it is, and the power-off goes on (R38). -/
theorem fenceAction_fenced (h : (s.node k).state = .fenced) (hq : ∀ e ∈ s.queue, e.waitsAt k = false)
    (hw : ∀ u ∈ s.chain.unfenceWaits, u.node ≠ k) : s.fenceAction c k true = s.powerOffAction c k := by
  have present : (s.node k).state ≠ .vacant := by rw [h]; decide
  have idle : s.fenceNode k = s := (fenceNode_fenced h).trans (retireAll_none s _ _ hq)
  have noWait : s.completeWaits (· == k) .nodeNotReady = s :=
    completeWaits_none s _ _ fun u hu => beq_false_of_ne (hw u hu)
  rw [State.fenceAction, if_neg present]
  dsimp only
  rw [if_pos rfl, idle, noWait]

theorem waitsAt_eq (e : Entry) :
    e.waitsAt k = decide (e.state = .waiting ∧ e.isHost = true ∧ e.node = k) := by
  simp only [Entry.waitsAt, Bool.decide_and, Bool.beq_eq_decide_eq, Bool.decide_eq_true, Bool.and_assoc]

/-! #### The power-off (R38) -/

theorem powerOffAction_unpowered (h : (s.node k).powered = false) : s.powerOffAction c k =
    some (s.complete (plainCompletion c.ticket .fence .ok (addrNum k))) := by
  rw [State.powerOffAction, if_pos (by simp [h])]

variable (hp : (s.node k).powered = true)

include hp

theorem powerOffAction_busy (h : (s.node k).step.isSome = true) : s.powerOffAction c k =
    some (s.complete (plainCompletion c.ticket .fence .nodeNotReady (addrNum k))) := by
  rw [State.powerOffAction, if_neg (by simp [hp]), if_pos h]

theorem powerOffAction_queues (h : (s.node k).step = none) (hf : s.hostSlotFree = true) : s.powerOffAction c k =
    some { s with
      nodes := s.nodes.set k.val { s.node k with step := some .poweringOff }
      queue := s.queue ++ [commandEntry c .loadOff k] } := by
  rw [State.powerOffAction, if_neg (by simp [hp]), if_neg (by simp [h]), if_pos hf, enqueueHost_eq _ hf]
  rfl

theorem powerOffAction_full (h : (s.node k).step = none) (hf : s.hostSlotFree = false) :
    s.powerOffAction c k = none := by
  rw [State.powerOffAction, if_neg (by simp [hp]), if_neg (by simp [h]), if_neg (by simp [hf])]

end Fence

/-- Settles O35: the node stays FENCED and nothing waits for it, so that the power-off alone decides. -/
theorem powerOffFenceQueuesLoadOff : Obligations.PowerOffFenceQueuesLoadOff := by
  intro s c w k hc hready hk hn hpower hroom hs hq hw
  have waiting : ∀ e ∈ (accepted s).queue, e.waitsAt k = false := fun e he => by
    rw [waitsAt_eq, decide_eq_false_iff_not]
    rintro ⟨state, host, node⟩
    exact hq e he node host state
  have action : (accepted s).fenceAction (reference s w .fence) k s.cmd.staging.powerOff =
      (accepted s).powerOffAction (reference s w .fence) k := by
    rw [hpower]; exact fenceAction_fenced (s := accepted s) hs waiting hw
  refine ⟨fun hp => ?_, fun hp hst => ?_, fun hp hst hf => ?_, fun hp hst hf => ?_⟩
  · rw [exec_fence hc hready hn hroom hk (action.trans (powerOffAction_unpowered (s := accepted s) hp))]; rfl
  · rw [exec_fence hc hready hn hroom hk (action.trans (powerOffAction_busy (s := accepted s) hp hst))]; rfl
  · rw [exec_fence hc hready hn hroom hk (action.trans (powerOffAction_queues (s := accepted s) hp hst hf))]; rfl
  · rw [exec_fence_full hc hready hn hroom hk (action.trans (powerOffAction_full (s := accepted s) hp hst hf))]; rfl

section Fence

variable {s : State} {k : Addr}

/-! #### The step that a retired entry ends (R38, R150) -/

/-- The COMMAND entry of the step: the LOAD_OFF of POWERING_OFF, the PING of UNFENCING. -/
def EndsStep (e : Entry) (x : NodeStep) : Prop :=
  (∃ r, e.origin = .command r) ∧ (e.op = .loadOff ∧ x = .poweringOff ∨ e.op = .ping ∧ x = .unfencing)

theorem dropStep_step {r : NodeRecord} {x : NodeStep} (h : r.step = none ∨ r.step = some x) :
    (r.dropStep x).step = none := by
  rcases h with h | h <;> simp [NodeRecord.dropStep, h]

theorem deliver_endsStep {e : Entry} {x : NodeStep} (he : EndsStep e x) (st : Status) (hst : st ≠ .ok)
    (h : (s.node e.node).step = none ∨ (s.node e.node).step = some x) :
    ((s.deliver e st []).node e.node).step = none := by
  have dropped : ((s.modNode e.node fun r => r.dropStep x).node e.node).step = none := by
    rw [State.modNode_node_self]; exact dropStep_step h
  obtain ⟨⟨r, origin⟩, ⟨op, rfl⟩ | ⟨op, rfl⟩⟩ := he
  · simp only [State.deliver, origin, State.deliverCommand, op, State.loadOffEnded, if_neg hst]
    exact dropped
  · simp only [State.deliver, origin, State.deliverCommand, op, if_neg hst]
    exact dropped

/-- A retired entry that ends its node's step leaves no step. -/
theorem retireAll_endsStep (p : Entry → Bool) (st : Status) (hst : st ≠ .ok) {e : Entry} {x : NodeStep}
    (hq : e ∈ s.queue) (hp : p e = true) (he : EndsStep e x) (hx : (s.node e.node).step = some x) :
    ((s.retireAll p st).node e.node).step = none := by
  have key : ∀ (l : List Entry) (u : State),
      (u.node e.node).step = none ∨ (u.node e.node).step = some x ∧ e ∈ l →
      ((l.foldl (fun s e => (s.dropFlight e).deliver e st []) u).node e.node).step = none := by
    intro l
    induction l with
    | nil =>
      rintro u (h | ⟨-, h⟩)
      · exact h
      · cases h
    | cons y l ih =>
      intro u h
      have flight := (retired_dropFlight u y).nodes e.node
      have record := flight.trans ((retired_deliver (u.dropFlight y) y st [] hst).nodes e.node)
      have before : (u.node e.node).step = none ∨ (u.node e.node).step = some x := h.imp id And.left
      refine ih _ ?_
      by_cases hy : y = e
      · subst hy
        refine .inl (deliver_endsStep he st hst ?_)
        rcases flight.step with same | same
        · rw [same]; exact before
        · exact .inl same
      · rcases record.step with same | same
        · rw [same]
          refine h.imp id fun ⟨step, mem⟩ => ⟨step, ?_⟩
          exact (List.mem_cons.1 mem).resolve_left (Ne.symm hy)
        · exact .inl same
  exact key _ _ (.inr ⟨hx, List.mem_filter.2 ⟨hq, hp⟩⟩)

/-! #### The state that FENCE without power-off leaves (R37, R149) -/

theorem fenceAction_fences (c : CommandRef) (h : (s.node k).state ≠ .vacant) : s.fenceAction c k false =
    some (((s.fenceNode k).completeWaits (· == k) .nodeNotReady).complete
      (plainCompletion c.ticket .fence .ok (addrNum k))) := by
  rw [State.fenceAction, if_neg h]
  rfl

/-- The state before the end of the event, of a FENCE of ticket `w`. -/
def fencedState (s : State) (w : Word) (k : Addr) : State :=
  ((((accepted s).fenceNode k).completeWaits (· == k) .nodeNotReady).complete
    (plainCompletion (w.extractLsb' 0 8) .fence .ok (addrNum k))).submitAnswer .accepted

theorem fencedState_eq (w : Word) : fencedState s w k = { (accepted s).fenceNode k with
    chain := (fencedState s w k).chain, cmd := (fencedState s w k).cmd } := by
  rw [fencedState, completeWaits_eq]; rfl

theorem fencedState_node (w : Word) (j : Addr) : (fencedState s w k).node j = ((accepted s).fenceNode k).node j := by
  rw [fencedState_eq]; rfl

theorem fencedState_admission (w : Word) :
    (fencedState s w k).chain.admission = ((accepted s).fenceNode k).chain.admission := by
  rw [fencedState, completeWaits_eq]; rfl

/-- With a reservation for each, the records of the entries, of the UNFENCEs and of the FENCE enter in this order. -/
theorem fencedState_completions (w : Word) (out : OutOfService k (accepted s) ((accepted s).fenceNode k)) :
    let records := (s.queue.filter (·.waitsAt k)).flatMap (s.endings .nodeNotReady) ++
      (s.chain.unfenceWaits.filter fun u => u.node == k).map (unfenceEnding .nodeNotReady)
    records.length ≤ s.cmd.reservations → (fencedState s w k).cmd.completions =
      s.cmd.completions ++ (records ++ [plainCompletion (w.extractLsb' 0 8) .fence .ok (addrNum k)]) := by
  intro records hr
  have cmd : (fencedState s w k).cmd.completions = ((accepted s).cmd.record
      (records ++ [plainCompletion (w.extractLsb' 0 8) .fence .ok (addrNum k)])).completions := by
    rw [fencedState, completeWaits_eq, CommandPort.record_append, CommandPort.record_append]
    simp only [State.submitAnswer, State.complete, out.cmd, out.waits]
    rfl
  have room : (records ++ [plainCompletion (w.extractLsb' 0 8) .fence .ok (addrNum k)]).length ≤
      (accepted s).cmd.reservations := by
    rw [List.length_append]; exact Nat.succ_le_succ hr
  rw [cmd, CommandPort.record_ended _ _ room]
  rfl

theorem loadOnWaits_iff : loadOnWaits s k = true ↔ (s.node k).state = .powering ∧
    ∃ e ∈ s.queue, e.state = .waiting ∧ e.origin = .management ∧ e.op = .loadOn ∧ e.node = k := by
  simp [loadOnWaits, Entry.mgmtWaitsAt, Entry.isHost, and_assoc]

end Fence

/-- Settles O34: FENCED by `fenceNode`, which the end of the event does not undo. -/
theorem fenceTakesTheNodeOutOfService : Obligations.FenceTakesTheNodeOutOfService := by
  intro s c w k hc hready hk hn hpower hroom
  refine ⟨fun hs => ?_, fun hs ha => ?_⟩
  · rw [exec_fence hc hready hn hroom hk (fenceAction_vacant (s := accepted s) _ hs)]; rfl
  intro waits records own
  have slot := hostReady_slot hready
  have out := fenceNode_outOfService (accepted s) k hs
  have unlisted : k ∉ (fencedState s w k).chain.admission := by
    rw [fencedState_admission]; exact out.unlisted ha.listed
  have record := fencedState_node (s := s) (k := k) w k
  have fenced : ((fencedState s w k).node k).state = .fenced := by rw [record, out.own]
  have settles : Settles k ((fencedState s w k).node k) (fencedState s w k) :=
    ⟨rfl, by rw [fenced]; decide, unlisted⟩
  obtain ⟨sent, off⟩ := finish_settles _ settles
  have waitsAt : (·.waitsAt k) = fun e : Entry => decide (waits e) := funext waitsAt_eq
  have step : ((fencedState s w k).finish.node k).step = (((accepted s).fenceNode k).node k).step := by
    rw [sent, record]
  have stays : (s.node k).state = .fenced →
      (accepted s).fenceNode k = (accepted s).retireAll (·.waitsAt k) .nodeNotReady :=
    fenceNode_fenced (s := accepted s)
  have next : exec c s = .next (fencedState s w k).finish := by
    rw [exec_fence hc hready hn hroom hk (by rw [hpower]; exact fenceAction_fences (s := accepted s) _ hs)]; rfl
  refine ⟨_, next, ?_, fun h => ?_, fun h idle => ?_, fun h ending => ?_, ?_, ?_, ?_, ?_, off, ?_,
    fun e he hnode host wait => ?_, fun hr => ?_, ?_, ?_, ?_, ?_⟩
  · rw [sent, fenced]
  · rw [step]; exact out.step h
  · rw [step, stays h, retireAll_none _ _ _ fun e he => by rw [waitsAt_eq]; exact decide_eq_false (idle e he)]; rfl
  · obtain ⟨e, he, wait, command, ends⟩ := ending
    have node : e.node = k := wait.2.2
    have absent (x : NodeStep) (hx : (s.node k).step = some x) (hends : EndsStep e x) :
        ((fencedState s w k).finish.node k).step = none := by
      rw [step, stays h]
      subst node
      exact retireAll_endsStep (s := accepted s) _ _ (by decide) he (by rw [waitsAt_eq]; exact decide_eq_true wait)
        hends hx
    rcases ends with ⟨op, hx⟩ | ⟨op, hx⟩
    · exact absent _ hx ⟨command, .inl ⟨op, rfl⟩⟩
    · exact absent _ hx ⟨command, .inr ⟨op, rfl⟩⟩
  · have powered : ((fencedState s w k).finish.node k).powered = (((accepted s).fenceNode k).node k).powered := by
      rw [sent, record]
    rw [powered, out.powered]
    simp only [loadOnWaits_iff]
    rfl
  · rw [sent, record, out.own]; rfl
  · rw [sent, record, out.own]; rfl
  · rw [sent, record, out.own]; rfl
  · obtain ⟨t, ht, chain⟩ := exec_chain s c
    have same : t = (fencedState s w k).finish := by rw [next] at ht; exact (Host.Outcome.next.inj ht).symm
    exact same ▸ account_of_chain chain ha
  · have idle : (fencedState s w k).lbi.slot = none := by
      rw [fencedState_eq]; exact (congrArg _ (out.idle slot)).trans slot
    rcases finish_queue _ idle e he with management | ⟨x, hx, origin, node, state⟩
    · simp [Entry.isHost, management] at host
    · have waiting : x.state = .waiting := by
        rcases state with state | state
        · rw [← state]; exact wait
        · rw [wait] at state; cases state
      rw [fencedState_eq] at hx
      have := out.queue x hx
      simp [Entry.waitsAt, waiting, Entry.isHost, ← origin, ← node, hnode] at this
      simp [Entry.isHost, this] at host
  · have completions := fencedState_completions w out
    rw [waitsAt] at completions
    exact completions hr ▸ finish_completions (fencedState s w k)
  · rw [finish_submitStatus]; rfl
  · rw [finish_ctl, fencedState_eq]; exact out.ctl
  · rw [finish_mirror, fencedState_eq]; exact out.mirror
  · have lbi : (fencedState s w k).lbi = s.lbi := by rw [fencedState_eq]; exact out.idle slot
    rw [finish_lbi _ (by rw [lbi]; exact slot), lbi]

end Sys2Proof.Proofs.NodeLifecycle
end

section
/-! ### A SENSE that answers ASSIGN(k) (R25, R31, R55) -/

namespace Sys2Proof.Proofs.NodeLifecycle

open Sys2Proof Sys2Proof.Machine
open Sys2Proof.Proofs.NodeChain (finish_chain_items)

section Sense

variable {s : State} {k : Addr} {ident : Identity}

/-! #### The node is taken into the directory -/

/-- Node `k` SENSED with an identity, the tail, its decision due (R25, R31). -/
def sensedState (s : State) (k : Addr) (ident : Identity) : State :=
  let s1 := (s.modNode k fun r => r.sense ident).post (addrNum k) .nodeSensed (ident.cls ++ ident.revision)
  { s1 with chain := { s1.chain with tail := addrNum k, tailGateOpen := false } }.makeDue (.decision k false)

theorem senseTaken_vacant (h : (s.node k).state = .vacant) :
    s.senseTaken k ident = (sensedState s k ident).walkAfterSense k := if_pos h

/-- A SENSE that answers an ASSIGN retires its entry, then its node is taken (R89). -/
theorem exec_receiveSense {src : BitVec 5} {t : TagId} {seq : Bool} {f : Flight} {e : Entry} (hl : s.linkUp = true)
    (ha : s.answers src t seq [.assign] f) (hf : f.holder = .entry) (he : s.entryOf t = some e) :
    exec (.receiveSense src t seq ident) s =
      .next (((s.releaseTag t (s.attemptsOf t f)).removeEntryOf t).senseTaken e.node ident).finish := by
  have kind : f.kind = .assign := List.mem_singleton.1 (answers_kind s ha)
  have taken : s.receiveSense src t seq ident =
      ((s.releaseTag t (s.attemptsOf t f)).removeEntryOf t).senseTaken e.node ident := by
    simp only [State.receiveSense, requestFor_answers ha, he, kind, hf, and_self, if_true]
  exact (congrArg Host.Outcome.next (fromChain_up _ hl)).trans (by rw [taken])

/-! #### What the rest of the event keeps -/

theorem PassedOn.trans {r t u : NodeRecord} (h : PassedOn r t) (g : PassedOn t u) : PassedOn r u := by
  unfold PassedOn at *
  rw [g, h]

/-- Node `k`, once taken with record `r`, its decision and its frames aside. -/
structure Taken (k : Addr) (r : NodeRecord) (ident : Identity) (s t : State) : Prop where
  record : PassedOn r (t.node k)
  state : Discovered k t
  tail : t.chain.tail = addrNum k
  gate : t.chain.tailGateOpen = false
  shows : t.notices.shows (addrNum k) .nodeSensed (ident.cls ++ ident.revision)
  ctl : t.ctl = s.ctl
  windows : t.windows = s.windows
  mirror : t.mirror = s.mirror

theorem sensedState_eq : sensedState s k ident = { s with
    nodes := s.nodes.set k.val ((s.node k).sense ident)
    notices := s.notices.post (addrNum k) .nodeSensed (ident.cls ++ ident.revision)
    chain := { s.chain with
      tail := addrNum k, tailGateOpen := false
      backlog :=
        if .decision k false ∈ s.chain.backlog then s.chain.backlog else s.chain.backlog ++ [.decision k false] } } := by
  rw [sensedState, makeDue_eq]
  rfl

theorem sensedState_taken : Taken k ((s.node k).sense ident) ident s (sensedState s k ident) := by
  have record : (sensedState s k ident).node k = (s.node k).sense ident := by
    rw [sensedState_eq]; exact s.setNode_node_self k _
  refine ⟨by rw [record]; rfl, .inl (by rw [record]; rfl), ?_, ?_, ?_, ?_, ?_, ?_⟩ <;> rw [sensedState_eq]
  exact post_shows _ _ _ _

variable {r : NodeRecord} {t : State}

theorem Taken.serveSlots (h : Taken k r ident s t) : Taken k r ident s t.serveSlots := by
  have chain : t.serveSlots.chain = t.serveBacklog.chain := by rw [State.serveSlots, (serveCycle_frame _).chain]
  have served := congrArg ChainManager.tailGateOpen (serveBacklog_served t).chain
  have backlog := (serveBacklog_chain t).1
  have cycle := serveCycle_frame t.serveBacklog
  exact {
    record := h.record.trans (.of_served (serveSlots_node t k) (.rfl _))
    state := serveSlots_discovered t h.state
    tail := by rw [chain, backlog.tail, h.tail]
    gate := by rw [chain]; exact served.trans h.gate
    shows := serveSlots_shows t (by decide) h.shows
    ctl := by rw [State.serveSlots, cycle.ctl, backlog.ctl, h.ctl]
    windows := by rw [State.serveSlots, cycle.windows, backlog.windows, h.windows]
    mirror := by rw [State.serveSlots, cycle.mirror, backlog.mirror, h.mirror] }

theorem Taken.finish (h : Taken k r ident s t) : Taken k r ident s t.finish where
  record := h.record.trans (finish_node t k)
  state := finish_discovered t h.state
  tail := (congrArg ChainManager.tail (finish_chain_items t)).trans h.tail
  gate := (congrArg ChainManager.tailGateOpen (finish_chain_items t)).trans h.gate
  shows := finish_shows t (by decide) h.shows
  ctl := by rw [finish_ctl, h.ctl]
  windows := by rw [finish_windows, h.windows]
  mirror := by rw [finish_mirror, h.mirror]

/-! #### The walk goes on, or ends (R55, R57) -/

theorem endWalk_eq (s : State) : s.endWalk = { s with
    chain := { s.chain with state := .running, pointer := none, walkStep := none, rescans := [] }
    notices := s.notices.post 0 .chainEnd (BitVec.ofNat 16 s.chain.tail)
    cmd := s.cmd.record (s.chain.rescans.map (rescanEnding .ok s.chain.tail)) } := by
  rw [State.endWalk, completeRescans_eq]
  rfl

theorem Taken.endWalk (h : Taken k r ident s t) : Taken k r ident s t.endWalk := by
  rw [endWalk_eq]
  exact { h with
    shows := h.shows.kept (fun r hr e => post_kept _ _ _ _ r hr (by rw [e]; decide)) (post_flag _ _ _ _) }

theorem walkAfterSense_opens (h : addrNum k < 24) : t.walkAfterSense k = { t with chain := { t.chain with
    walkStep := some .opening
    backlog := if .openGate k ∈ t.chain.backlog then t.chain.backlog else t.chain.backlog ++ [.openGate k] } } := by
  rw [State.walkAfterSense, if_pos h, makeDue_eq]

theorem walkAfterSense_ends (h : addrNum k = 24) : t.walkAfterSense k = t.serveSlots.endWalk :=
  if_neg (by rw [h]; decide)

theorem Taken.walkAfterSense (h : Taken k r ident s t) : Taken k r ident s (t.walkAfterSense k) := by
  by_cases hk : addrNum k < 24
  · rw [walkAfterSense_opens hk]; exact { h with }
  · rw [State.walkAfterSense, if_neg hk]; exact h.serveSlots.endWalk

theorem walkAfterSense_due (h : addrNum k < 24) : (t.walkAfterSense k).hasDue (.openGate k) .openGate k := by
  refine .inl ?_
  rw [walkAfterSense_opens h]
  dsimp only
  split
  · assumption
  · exact List.mem_append_right _ List.mem_cons_self

end Sense

/-- Settles O54: what the taking of the node leaves, kept by the walk and by the end of the event. -/
theorem senseMakesTheNodeTheTail : Obligations.SenseMakesTheNodeTheTail := by
  intro s src t seq ident f e hl ha hf he hv _
  set u := (s.releaseTag t (s.attemptsOf t f)).removeEntryOf t with hu
  have unchanged : u = { s with disp := u.disp, queue := u.queue } := by rw [hu, releaseTag_eq]; rfl
  have record : u.node e.node = s.node e.node := by rw [unchanged]; rfl
  have next : exec (.receiveSense src t seq ident) s =
      .next ((sensedState u e.node ident).walkAfterSense e.node).finish := by
    rw [exec_receiveSense hl ha hf he, senseTaken_vacant (record ▸ hv)]
  have walked := (sensedState_taken (s := u) (k := e.node) (ident := ident)).walkAfterSense
  have taken := walked.finish
  have sensed := taken.record
  rw [record] at sensed
  set v := (sensedState u e.node ident).walkAfterSense e.node with hv
  refine ⟨_, next, taken.state, ?_, ?_, ?_, ?_, ?_, ?_, ?_, ?_, ?_, taken.tail, taken.gate, taken.shows, fun hk => ?_,
    fun hk => ?_, ?_, ?_, ?_⟩
  iterate 9 (rw [sensed]; rfl)
  · have opens := walkAfterSense_opens (t := sensedState u e.node ident) hk
    have due := walkAfterSense_due (t := sensedState u e.node ident) hk
    have chain : v.chain.state = s.chain.state ∧ v.chain.pointer = s.chain.pointer ∧
        v.chain.walkStep = some .opening ∧ v.chain.rescans = s.chain.rescans := by
      rw [hv, opens, sensedState_eq, unchanged]
      exact ⟨rfl, rfl, rfl, rfl⟩
    obtain ⟨state, pointer, step, rescans⟩ := chain
    have items := finish_chain_items v
    exact ⟨(congrArg ChainManager.state items).trans state, (congrArg ChainManager.pointer items).trans pointer,
      (congrArg ChainManager.walkStep items).trans step, (congrArg ChainManager.rescans items).trans rescans,
      finish_due v rfl due⟩
  · have tail := (sensedState_taken (s := u) (k := e.node) (ident := ident)).serveSlots.tail
    have ends : v = (sensedState u e.node ident).serveSlots.endWalk := walkAfterSense_ends hk
    have items := finish_chain_items v
    rw [endWalk_eq] at ends
    have shows : v.notices.shows 0 .chainEnd 24#16 := by
      rw [ends, tail, hk]; exact post_shows _ _ _ _
    exact ⟨(congrArg ChainManager.state items).trans (by rw [ends]),
      (congrArg ChainManager.pointer items).trans (by rw [ends]),
      (congrArg ChainManager.walkStep items).trans (by rw [ends]),
      (congrArg ChainManager.rescans items).trans (by rw [ends]), finish_shows v (by decide) shows⟩
  · rw [taken.ctl, unchanged]
  · rw [taken.windows, unchanged]
  · rw [taken.mirror, unchanged]

end Sys2Proof.Proofs.NodeLifecycle
end

section
/-! ### Attentions (R40 to R42, R102, R133, R134) -/

namespace Sys2Proof.Proofs.NodeLifecycle

open Sys2Proof Sys2Proof.Machine

section Loss

variable {s t : State} {k : Addr}

/-! #### A loss in the event of another change (R103, R104) -/

theorem cascade_lostFrom (h : (s.node k).state ≠ .vacant) : LostFrom s (s.cascade k).finish k :=
  let ⟨cut, ending⟩ := cascade_cut s k h
  cut.lostFrom s ending

/-- What a cascade leaves, told of the state before the event changed records, tags and queue. -/
theorem lostFrom_transfer {nodes : Vector NodeRecord 24} {disp : Dispatcher} {queue : List Entry}
    (h : LostFrom { s with nodes := nodes, disp := disp, queue := queue } t k)
    (incarnation : ∀ j : Addr, nodes[j.val].incarnation = (s.node j).incarnation)
    (records : ({ s with nodes := nodes, disp := disp, queue := queue } : State).lostRecords k = s.lostRecords k)
    (tags : ∀ x, (∃ e ∈ s.queue, k ≤ e.node ∧ e.tag = some x) ∨
      (∃ f j, s.tag x = .busy f ∧ f.holder = .ping j ∧ k ≤ j) → t.tag x = .hold (2 * s.ctl.timeout)) :
    LostFrom s t k :=
  { h with
    nodes := fun j hj => incarnation j ▸ h.nodes j hj
    below := fun j hj => (h.below j hj).trans (incarnation j)
    tags := tags
    completions := records ▸ h.completions }

end Loss

section Attention

variable (s : State) (k : Addr)

/-! #### The refresh requests of an attention (R133, R134) -/

/-- The queue with the request for window `i` of an attention of node `k`: a job where R133 creates one. -/
def asked (s : State) (k : Addr) (q : List Entry) (i : WinIx) : List Entry :=
  let v := s.window i
  if v.enabled = true ∧ v.kind = 2#2 ∧ v.attached = true ∧ v.node.toNat = addrNum k ∧
      (∀ e ∈ q, e.isJobOf i = false) ∧ q.length < 16 ∧ q.countP Entry.isHost < 14 then
    q ++ [s.newJob i k []]
  else q

/-- The windows for which an attention of node `k` makes a request (R134). -/
def asksFor (s : State) (k : Addr) (i : WinIx) : Bool :=
  (s.window i).enabled && (s.window i).isMirror && (s.window i).attached && (s.window i).names k

theorem asksFor_iff (i : WinIx) : asksFor s k i = true ↔ (s.window i).enabled = true ∧ (s.window i).kind = 2#2 ∧
    (s.window i).attached = true ∧ (s.window i).node.toNat = addrNum k := by
  simp [asksFor, Window.isMirror, Window.names, and_assoc]

theorem hostSlotFree_iff : s.hostSlotFree = true ↔ s.queue.length < 16 ∧ s.queue.countP Entry.isHost < 14 := by
  rw [State.hostSlotFree, Bool.and_eq_true, decide_eq_true_eq, decide_eq_true_eq]
  rfl

theorem refreshRequest_asked (i : WinIx) (hs : s.inService k) (hi : asksFor s k i = true) :
    s.refreshRequest i = { s with queue := asked s k s.queue i } := by
  obtain ⟨enabled, kind, attached, names⟩ := (asksFor_iff s k i).1 hi
  by_cases h : (∀ e ∈ s.queue, e.isJobOf i = false) ∧ s.queue.length < 16 ∧ s.queue.countP Entry.isHost < 14
  · obtain ⟨noJob, free⟩ := h
    rw [refreshRequest_create s ((refreshCase_create_iff s i k).2
        ⟨noJob, enabled, kind, attached, addrOf_num names, hs, (hostSlotFree_iff s).2 free⟩), asked,
      if_pos ⟨enabled, kind, attached, names, noJob, free⟩]
  · rw [refreshRequest_same, asked, if_neg fun ⟨_, _, _, _, noJob, free⟩ => h ⟨noJob, free⟩]
    intro j hj
    obtain ⟨noJob, -, -, -, -, -, free⟩ := (refreshCase_create_iff s i j).1 hj
    exact h ⟨noJob, (hostSlotFree_iff s).1 free⟩

/-- The requests of an attention change the queue only, each as its window and the queue before it tell. -/
theorem attentionRefresh_eq (hs : s.inService k) :
    s.attentionRefresh k = { s with queue := (List.finRange 8).foldl (asked s k) s.queue } := by
  have key : ∀ (l : List WinIx) (q : List Entry),
      (l.filter (asksFor s k)).foldl State.refreshRequest { s with queue := q } =
        { s with queue := l.foldl (asked s k) q } := by
    intro l
    induction l with
    | nil => exact fun _ => rfl
    | cons i l ih =>
      intro q
      by_cases hi : asksFor s k i = true
      · have request := refreshRequest_asked { s with queue := q } k i hs hi
        rw [List.filter_cons_of_pos hi, List.foldl_cons, request]
        exact ih _
      · have same : asked s k q i = q := if_neg fun ⟨enabled, kind, attached, names, _⟩ =>
          hi ((asksFor_iff s k i).2 ⟨enabled, kind, attached, names⟩)
        rw [List.filter_cons_of_neg hi, List.foldl_cons, same]
        exact ih q
  exact key allWindows s.queue

/-! #### The taking of an attention (R40 to R42) -/

/-- The part with an attention's toggle noted and its acknowledgement owed. -/
def attended (s : State) (k : Addr) (toggle : Bool) : State :=
  s.modNode k fun r => { r with attnToggle := some toggle, ackOwed := true }

theorem attended_node (toggle : Bool) :
    (attended s k toggle).node k = { s.node k with attnToggle := some toggle, ackOwed := true } :=
  s.modNode_node_self k _

theorem attended_incarnation (toggle : Bool) (j : Addr) :
    ((attended s k toggle).node j).incarnation = (s.node j).incarnation := by
  rw [attended, State.modNode_node]
  split
  · rename_i h; rw [h]
  · rfl

theorem num_of_addrOf {n : Nat} {k : Addr} (h : addrOf? n = some k) : n = addrNum k := by
  unfold addrOf? at h
  split at h
  · simp only [Option.some.injEq] at h
    subst h
    simp only [addrNum]
    omega
  · cases h

theorem receiveAttn_none {src : BitVec 5} (code : BitVec 8) (toggle : Bool)
    (h : ∀ k, src.toNat = addrNum k → (s.node k).takesAttn = false) : s.receiveAttn src code toggle = s := by
  unfold State.receiveAttn
  split
  · rfl
  · rename_i k hk
    rw [h k (num_of_addrOf hk), if_neg Bool.false_ne_true]

section Taken

variable {s : State} {k : Addr} {src : BitVec 5} {code : BitVec 8} {toggle : Bool} (hl : s.linkUp = true)
  (hsrc : src.toNat = addrNum k) (ht : (s.node k).takesAttn = true)

include hl hsrc ht

theorem exec_receiveAttn : exec (.receiveAttn src code toggle) s = .next (s.takeAttn k code toggle).finish := by
  have taken : s.receiveAttn src code toggle = s.takeAttn k code toggle := by
    simp only [State.receiveAttn, addrOf_num hsrc, ht, if_true]
  exact (congrArg Host.Outcome.next (fromChain_up _ hl)).trans (by rw [taken])

theorem exec_receiveAttn_repeat (h : (s.node k).attnToggle = some toggle) :
    exec (.receiveAttn src code toggle) s = .next (attended s k toggle).finish := by
  rw [exec_receiveAttn hl hsrc ht]
  exact congrArg (fun t : State => Host.Outcome.next t.finish) (if_pos h)

variable (h : (s.node k).attnToggle ≠ some toggle)

include h

theorem exec_receiveAttn_new :
    exec (.receiveAttn src code toggle) s = .next ((attended s k toggle).actOn k code).finish := by
  rw [exec_receiveAttn hl hsrc ht]
  exact congrArg (fun t : State => Host.Outcome.next t.finish) (if_neg h)

end Taken

/-- An application code posts NODE_ATTENTION, and asks for the refreshes where the node's record says so. -/
theorem actOn_application {code : BitVec 8} (h1 : code ≠ 0xF1#8) (h2 : code ≠ 0xF2#8) : s.actOn k code =
    if (s.node k).refreshOnAttn && (s.node k).serves then
      (s.post (addrNum k) .nodeAttention (code.setWidth 16)).attentionRefresh k
    else s.post (addrNum k) .nodeAttention (code.setWidth 16) := by
  exact (if_neg h1).trans (if_neg h2)

end Attention

/-- Settles O55: by the code of an attention that is new, on the part with the attention noted. -/
theorem attentionIsTakenByItsCode : Obligations.AttentionIsTakenByItsCode := by
  refine ⟨fun s src code toggle hs h => ?_, fun s src code toggle k hl hsrc ht => ?_⟩
  · have discarded : exec (.receiveAttn src code toggle) s = .next (s.fromChain id) := by
      refine congrArg Host.Outcome.next ?_
      simp only [State.fromChain, receiveAttn_none s code toggle h, id]
    rw [discarded, State.fromChain]
    split
    · rw [id, finish_of_settled hs]
    · rfl
  have record := attended_node s k toggle
  refine ⟨exec_receiveAttn_repeat hl hsrc ht, fun hn h1 h2 hr => ?_, fun hn h1 h2 hr hs => ?_,
    fun hn hc j hj hv => ?_, fun hn hc ha => ?_⟩ <;> rw [exec_receiveAttn_new hl hsrc ht hn]
  · rw [actOn_application _ _ h1 h2, if_neg]
    · rfl
    · rw [record, Bool.and_eq_true]
      rintro ⟨asks, serves⟩
      rcases hr with hr | hr
      · exact absurd (hr.symm.trans asks) (by decide)
      · exact hr ((serves_iff k).1 serves)
  · have serves : ((attended s k toggle).node k).serves = true := by rw [record]; exact (serves_iff k).2 hs
    have asks : ((attended s k toggle).node k).refreshOnAttn = true := by rw [record]; exact hr
    rw [actOn_application _ _ h1 h2, if_pos (by rw [asks, serves]; rfl), 
      attentionRefresh_eq ((attended s k toggle).post _ _ _) k ((serves_iff k).1 serves)]
    rfl
  · have lost : (attended s k toggle).actOn k code = (attended s k toggle).cascade j := by
      refine (if_pos hc).trans ?_
      rw [State.reportLoss, addrOf_num (k := j) (by simp only [addrNum]; omega)]
    have present : ((attended s k toggle).node j).state ≠ .vacant := by
      rw [attended, modNode_of_ne _ _ (by rintro rfl; omega)]; exact hv
    rw [lost]
    have after := cascade_lostFrom present
    exact ⟨_, rfl, lostFrom_transfer after (attended_incarnation s k toggle) rfl after.tags⟩
  · have account : AccountOk (attended s k toggle) :=
      account_of_chain (chain_modNode s k _ ⟨rfl, rfl, rfl, rfl⟩) ha
    have path : (attended s k toggle).actOn k code = (attended s k toggle).loadFault k 1 :=
      (if_neg (by rw [hc]; decide)).trans (if_pos hc)
    have fault := (loadFault_faulted (attended s k toggle) k 1 (by rw [record]; exact ht) account).finish
    rw [path]
    exact ⟨_, rfl, fault.state, fault.loadFault, fault.powered, fault.notice, fault.ctl, fault.mirror⟩

end Sys2Proof.Proofs.NodeLifecycle
end

section
/-! ### Requests that have failed finally (R36, R38, R53, R57, R96 to R100, R102) -/

namespace Sys2Proof.Proofs.NodeLifecycle

open Sys2Proof Sys2Proof.Machine

section Held

variable {s t : State} {x : TagId}

/-! #### A tag in HOLD for twice TIMEOUT stays so through a cascade (R76, R103, R104) -/

theorem retired_held (h : Retired s t) (hx : s.tag x = .hold (2 * s.ctl.timeout)) :
    t.tag x = .hold (2 * t.ctl.timeout) := by
  rw [h.ctl]
  rcases h.tags x with same | held
  · rw [same, hx]
  · exact held

theorem loseFrom_held (k : Addr) (hx : s.tag x = .hold (2 * s.ctl.timeout)) :
    (s.loseFrom k).tag x = .hold (2 * s.ctl.timeout) := by
  have empty := emptied_spec s k
  obtain ⟨-, ctl, -, -, disp, -⟩ := empty.rest
  have retired := retired_retireAll (s.emptied k) (fun e => fromAddr k e.node) .nodeLost (by decide)
  have pings := retired_holdPings ((s.emptied k).retireAll (fun e => fromAddr k e.node) .nodeLost) (fromAddr k)
  have start : (s.emptied k).tag x = .hold (2 * (s.emptied k).ctl.timeout) := by
    rw [ctl, ← hx]; simp only [State.tag, disp]
  have held := retired_held pings (retired_held retired start)
  have ended := endSlotWaitOf_ended (((s.emptied k).retireAll (fun e => fromAddr k e.node) .nodeLost).holdPings
    (fromAddr k)) (fromAddr k) .nodeLost
  have loses : s.loseFrom k =
      ((((s.emptied k).retireAll (fun e => fromAddr k e.node) .nodeLost).holdPings (fromAddr k)).endSlotWaitOf
        (fromAddr k) .nodeLost).completeWaits (fromAddr k) .nodeLost := rfl
  rw [loses, completeWaits_eq]
  simp only [State.tag, ended.disp]
  rw [pings.ctl, retired.ctl, show State.ctl { s.emptied k with queue := _ } = s.ctl from ctl] at held
  exact held

theorem closeBehind_disp (j : Addr) : (s.closeBehind j).disp = s.disp := by
  unfold State.closeBehind
  dsimp only
  rw [State.makeCloseDue_disp]
  split
  · rfl
  · rw [completeRescans_eq]

theorem rampDark_disp : s.rampDark.disp = s.disp := rfl

theorem cutTail_disp (k : Addr) : (s.cutTail k).disp = s.disp := rfl

theorem cascade_held (k : Addr) (hx : s.tag x = .hold (2 * s.ctl.timeout)) :
    (s.cascade k).tag x = .hold (2 * s.ctl.timeout) := by
  have lost : ((s.loseFrom k).cutTail k).tag x = .hold (2 * s.ctl.timeout) := by
    rw [State.tag, cutTail_disp]; exact loseFrom_held k hx
  unfold State.cascade
  split
  · exact hx
  · dsimp only
    split
    · rw [State.tag, rampDark_disp]; exact lost
    · rw [State.tag, closeBehind_disp]; exact lost

end Held

section Failure

variable (s : State)

/-! #### The node of a failed request is lost (R99, R102) -/

/-- A failed request's node lost: the records in doubt, the tag in HOLD, and at most the entries of the tag gone. -/
theorem failed_lostFrom {t : TagId} {k : Addr} {nodes : Vector NodeRecord 24} {queue : List Entry}
    (present : nodes[k.val].state ≠ .vacant)
    (incarnation : ∀ j : Addr, nodes[j.val].incarnation = (s.node j).incarnation)
    (kept : ∀ e ∈ s.queue, e.tag ≠ some t → e ∈ queue)
    (records : (queue.filter fun e => decide (k ≤ e.node)).flatMap (s.endings .nodeLost) =
      (s.queue.filter fun e => decide (k ≤ e.node)).flatMap (s.endings .nodeLost)) :
    LostFrom s (({ s with
      nodes := nodes
      disp := s.tagEnded t (.hold (2 * s.ctl.timeout))
      queue := queue } : State).cascade k).finish k := by
  set u : State := { s with nodes := nodes, disp := s.tagEnded t (.hold (2 * s.ctl.timeout)), queue := queue }
  have after : LostFrom u (u.cascade k).finish k := cascade_lostFrom present
  have tag (x : TagId) : u.tag x = if x = t then .hold (2 * s.ctl.timeout) else s.tag x := by
    simp only [State.tag, u, State.tagEnded, Vector.getElem_set, Fin.ext_iff, eq_comm]
  have held (x : TagId) (hx : x = t) : (u.cascade k).finish.tag x = .hold (2 * s.ctl.timeout) :=
    finish_held _ x _ (cascade_held k (by rw [tag, if_pos hx]))
  refine lostFrom_transfer after incarnation ?_ fun x hx => ?_
  · exact congrArg (fun l => l ++ _ ++ _) records
  · by_cases hxt : x = t
    · exact held x hxt
    · refine after.tags x (hx.imp ?_ ?_)
      · rintro ⟨e, he, hk, ht⟩
        exact ⟨e, kept e he (by rw [ht]; exact fun h => hxt (Option.some.inj h)), hk, ht⟩
      · rintro ⟨f, j, hf, hh, hj⟩
        exact ⟨f, j, by rw [tag, if_neg hxt]; exact hf, hh, hj⟩

/-! #### A failure is counted (R35, R98) -/

/-- The count of a failure against node `k`, whose record is in doubt but for which it is as it was before. -/
theorem countFail_eq {u : State} {k : Addr} {r : NodeRecord} (hr : u.node k = r) (state : r.state = (s.node k).state)
    (count : r.failCount = (s.node k).failCount) (ctl : u.ctl = s.ctl) : u.countFail k = { u with
      nodes := u.nodes.set k.val { r with
        failCount := s.failedCount k, state := if s.turnsSuspect k then .suspect else r.state }
      notices := s.failedNotices k u.notices } := by
  have number : min 7 ((u.node k).failCount + 1) = s.failedCount k := by rw [hr, count]; rfl
  have turns : (u.node k).state = .online ∧ u.ctl.failThreshold ≤ s.failedCount k ↔ s.turnsSuspect k := by
    rw [hr, state, ctl]
  unfold State.countFail
  dsimp only
  rw [number]
  by_cases h : s.turnsSuspect k
  · rw [if_pos (turns.2 h), if_pos h, State.failedNotices, if_pos h, modNode_modNode, State.modNode, hr]; rfl
  · rw [if_neg (mt turns.1 h), if_neg h, State.failedNotices, if_neg h, State.modNode, hr]; rfl

/-! #### The expiry of a tag's timer (R84, R96) -/

theorem exec_tagTimer {c : Instr} {t : TagId} {use : TimerUse} {f : Flight} {d : Nat} (hclk : s.pins.clkIn = true)
    (hc : c = .responseTimerExpiry t ∧ use = .response ∨ c = .backoffTimerExpiry t ∧ use = .backoff)
    (ht : s.tag t = .busy f) (hf : f.timer = some { use := use, duration := d })
    (hn : 1 + s.ctl.retryLimit ≤ s.attemptsOf t f) : exec c s = .next (s.finalFailure t f).finish := by
  have expiry : s.tagExpiry t use = (s.finalFailure t f).finish := by
    rw [State.tagExpiry, ht]
    dsimp only
    rw [if_pos (by simp [Flight.timed, hf]), State.attemptExpired, if_neg (by omega)]
  rw [← expiry]
  rcases hc with ⟨rfl, rfl⟩ | ⟨rfl, rfl⟩
  · exact congrArg Host.Outcome.next (clocked_on (fun s => s.tagExpiry t .response) hclk)
  · exact congrArg Host.Outcome.next (clocked_on (fun s => s.tagExpiry t .backoff) hclk)

/-- The part with a request failed: its tag in HOLD, its node in doubt (R96, R100). -/
def failedState (s : State) (t : TagId) (k : Addr) : State := { s with
  disp := s.tagEnded t (.hold (2 * s.ctl.timeout))
  nodes := s.nodes.set k.val (s.node k).doubted }

theorem failedState_node (t : TagId) (k : Addr) : (failedState s t k).node k = (s.node k).doubted :=
  s.setNode_node_self k _

theorem failedState_incarnation (t : TagId) (k j : Addr) :
    ((failedState s t k).node j).incarnation = (s.node j).incarnation := by
  have nodes : (failedState s t k).node j = (s.modNode k NodeRecord.doubted).node j := rfl
  rw [nodes, State.modNode_node]
  split
  · rename_i h; rw [h]; rfl
  · rfl

theorem dropFlight_eq {e : Entry} {t : TagId} (ht : e.tag = some t) (hop : e.op ≠ .assign) :
    s.dropFlight e = failedState s t e.node := by
  rw [State.dropFlight, ht]
  exact if_neg hop

theorem finalFailure_ping {t : TagId} {f : Flight} {k : Addr} (hf : f.holder = .ping k) :
    s.finalFailure t f = (failedState s t k).pingFailed k := by
  rw [State.finalFailure, hf]; rfl

theorem finalFailure_entry {t : TagId} {f : Flight} {e : Entry} (hf : f.holder = .entry) (he : s.entryOf t = some e) :
    s.finalFailure t f = (s.dropFlight e).entryFailed t e := by
  simp only [State.finalFailure, hf, he]

theorem entryOf_tag {t : TagId} {e : Entry} (he : s.entryOf t = some e) : e.tag = some t := by
  simpa using List.find?_some he

/-- Entries that end no command leave no record where they go. -/
theorem flatMap_filter_of_nil {α β : Type} {p : α → Bool} {g : α → List β} (l : List α)
    (h : ∀ a ∈ l, p a = false → g a = []) : (l.filter p).flatMap g = l.flatMap g := by
  induction l with
  | nil => rfl
  | cons a l ih =>
    have rest := ih fun b hb => h b (List.mem_cons_of_mem _ hb)
    by_cases ha : p a = true
    · rw [List.filter_cons_of_pos ha, List.flatMap_cons, List.flatMap_cons, rest]
    · rw [List.filter_cons_of_neg ha, List.flatMap_cons, h a List.mem_cons_self (by simpa using ha), rest]
      rfl

/-! #### The end of a failed entry (R38, R53, R57, R97) -/

theorem mgmtFailed_cascade {op : Op} (h : op ≠ .assign) (k : Addr) : s.mgmtFailed op k = s.cascade k := by
  unfold State.mgmtFailed
  split
  · exact absurd rfl h
  · rfl

theorem entryFailed_assign {t : TagId} {e : Entry} (ht : e.tag = some t) (ho : e.origin = .management)
    (hop : e.op = .assign) : (s.dropFlight e).entryFailed t e = ((s.holdTag t).removeEntryOf t).endWalk := by
  simp only [State.dropFlight, ht, hop, if_true, State.entryFailed, ho, State.mgmtFailed]

theorem entryFailed_management {t : TagId} {e : Entry} (ht : e.tag = some t) (ho : e.origin = .management)
    (hop : e.op ≠ .assign) :
    (s.dropFlight e).entryFailed t e = ((failedState s t e.node).removeEntryOf t).cascade e.node := by
  rw [dropFlight_eq s ht hop, State.entryFailed, ho]
  exact mgmtFailed_cascade _ hop _

theorem entryFailed_unfence {t : TagId} {e : Entry} {r : CommandRef} (ht : e.tag = some t)
    (ho : e.origin = .command r) (hop : e.op = .ping) :
    (s.dropFlight e).entryFailed t e = (failedState s t e.node).cascade e.node := by
  rw [dropFlight_eq s ht (by rw [hop]; decide), State.entryFailed, ho, hop]

theorem entryFailed_loadOff {t : TagId} {e : Entry} {r : CommandRef} (ht : e.tag = some t)
    (ho : e.origin = .command r) (hop : e.op = .loadOff) : (s.dropFlight e).entryFailed t e =
      ((((failedState s t e.node).removeEntryOf t).modNode e.node fun x => x.dropStep .poweringOff).complete
        (e.completion r .timeout [])).countFail e.node := by
  rw [dropFlight_eq s ht (by rw [hop]; decide), State.entryFailed, ho, hop]
  simp only [State.deliver, ho, State.deliverCommand, hop, State.loadOffEnded]
  rfl

/-- The record of a node whose LOAD_OFF failed finally. -/
theorem dropStep_failedRecord (k : Addr) : { (s.node k).doubted.dropStep .poweringOff with
      failCount := s.failedCount k,
      state := if s.turnsSuspect k then .suspect else ((s.node k).doubted.dropStep .poweringOff).state } =
    { s.failedRecord k with
      step := if (s.node k).step = some .poweringOff then none else (s.node k).step } := by
  have step : (s.node k).doubted.step = (s.node k).step := rfl
  unfold NodeRecord.dropStep
  rw [step]
  by_cases h : (s.node k).step = some .poweringOff
  · rw [if_pos h, if_pos h]; rfl
  · rw [if_neg h, if_neg h]; rfl

/-- A LOAD_OFF that failed finally completes TIMEOUT, then the failure is counted. -/
theorem loadOffFailed_eq {t : TagId} {e : Entry} {r : CommandRef} (ht : e.tag = some t)
    (ho : e.origin = .command r) (hop : e.op = .loadOff) (hroom : 0 < s.cmd.reservations) :
    (s.dropFlight e).entryFailed t e = { s with
      disp := s.tagEnded t (.hold (2 * s.ctl.timeout))
      queue := s.queue.filter fun x => x.tag != some t
      nodes := s.nodes.set e.node.val { s.failedRecord e.node with
        step := if (s.node e.node).step = some .poweringOff then none else (s.node e.node).step }
      notices := s.failedNotices e.node s.notices
      cmd := s.cmd.ended (s.endings .timeout e) } := by
  set u := (((failedState s t e.node).removeEntryOf t).modNode e.node fun x => x.dropStep .poweringOff).complete
    (e.completion r .timeout []) with hu
  have record : u.node e.node = (s.node e.node).doubted.dropStep .poweringOff := by
    rw [← failedState_node s t e.node]
    exact State.modNode_node_self ((failedState s t e.node).removeEntryOf t) _ _
  obtain ⟨state, count⟩ : ((s.node e.node).doubted.dropStep .poweringOff).state = (s.node e.node).state ∧
      ((s.node e.node).doubted.dropStep .poweringOff).failCount = (s.node e.node).failCount := by
    unfold NodeRecord.dropStep
    split <;> exact ⟨rfl, rfl⟩
  have completes : s.cmd.complete (e.completion r .timeout []) = s.cmd.ended (s.endings .timeout e) := by
    have one : s.endings .timeout e = [e.completion r .timeout []] := by
      rw [completion_ending e r .timeout [] (by decide), State.endings, ho]
    rw [one, ← CommandPort.record_ended [_] _ hroom]
    rfl
  rw [entryFailed_loadOff s ht ho hop, ← hu, countFail_eq s record state count rfl, dropStep_failedRecord, ← completes]
  simp [hu, State.complete, State.modNode, State.setNode, State.removeEntryOf, failedState]

end Failure

/-! #### A failed request, by its holder -/

section Expiry

variable {s : State} {t : TagId} {c : Instr} {use : TimerUse} {f : Flight} {d : Nat} (hclk : s.pins.clkIn = true)
  (hc : c = .responseTimerExpiry t ∧ use = .response ∨ c = .backoffTimerExpiry t ∧ use = .backoff)
  (ht : s.tag t = .busy f) (hf : f.timer = some { use := use, duration := d })

include hclk hc ht hf

theorem exec_pingFailure {k : Addr} (hh : f.holder = .ping k) (hn : 1 + s.ctl.retryLimit ≤ f.synthAttempts) :
    exec c s = .next ((failedState s t k).pingFailed k).finish := by
  rw [exec_tagTimer s hclk hc ht hf (by rw [attemptsOf_ping s hh]; exact hn), finalFailure_ping s hh]

theorem exec_entryFailure {e : Entry} (hh : f.holder = .entry) (he : s.entryOf t = some e)
    (hn : 1 + s.ctl.retryLimit ≤ e.attempts) : exec c s = .next ((s.dropFlight e).entryFailed t e).finish := by
  rw [exec_tagTimer s hclk hc ht hf (by rw [attemptsOf_entry s hh he]; exact hn), finalFailure_entry s hh he]

end Expiry

section Refusal

variable {s : State} {src : BitVec 5} {t : TagId} {seq : Bool} {reason : Reason} {f : Flight} {e : Entry}

/-- A LOAD_ON refused for good: its node's record updated, its entry out of the queue, then the load-fault path
(R36, R90). -/
theorem exec_loadOnRefused (hl : s.linkUp = true) (ha : s.answers src t seq [.loadOn] f) (hf : f.holder = .entry)
    (he : s.entryOf t = some e) (hop : e.op = .loadOn) (ho : e.origin = .management) (hr : reason ≠ .busy) :
    exec (.receiveRefuse src t seq reason) s = .next
      (((((s.releaseTag t (s.attemptsOf t f)).modNode f.node NodeRecord.refused).removeEntryOf t).loadFault
        e.node 2).finish) := by
  have kind : f.kind = .loadOn := List.mem_singleton.1 (answers_kind s ha)
  have taken : s.receiveRefuse src t seq reason =
      (((s.releaseTag t (s.attemptsOf t f)).modNode f.node NodeRecord.refused).removeEntryOf t).loadFault e.node 2 := by
    simp only [State.receiveRefuse, requestFor_answers ha, he, kind, hf, Op.takesRefuse, hr, if_false,
      State.takeRefusal, ho, State.mgmtRefused, hop]
    rfl
  exact (congrArg Host.Outcome.next (fromChain_up _ hl)).trans (by rw [taken])

end Refusal

/-- Settles O58: by the holder of the tag, and by the origin and op of its entry. -/
theorem finalFailureEndsTheRequest : Obligations.FinalFailureEndsTheRequest := by
  refine ⟨fun s t c use f d hclk hc ht hf => ⟨fun k hh hn => ?_, fun e hh he hx hn => ?_⟩,
    fun s src t seq reason f e hl ha hf he hop ho hn hr htakes haccount => ?_⟩
  · have run := exec_pingFailure hclk hc ht hf hh hn
    refine ⟨fun hs => ?_, fun hs hv => ⟨_, run, ?_⟩⟩
    · have online : ((failedState s t k).node k).state = .online := by rw [failedState_node]; exact hs
      rw [run, State.pingFailed, if_pos online, countFail_eq s (failedState_node s t k) rfl rfl rfl]
      simp [failedState, State.failedRecord, NodeRecord.doubted]
    · have other : ((failedState s t k).node k).state ≠ .online := by rw [failedState_node]; exact hs
      rw [State.pingFailed, if_neg other]
      exact failed_lostFrom s (by simpa [NodeRecord.doubted] using hv) (failedState_incarnation s t k)
        (fun _ h _ => h) rfl
  · have tag := entryOf_tag s he
    have run := exec_entryFailure hclk hc ht hf hh he hn
    refine ⟨fun ho hop hroom => ?_, fun h hv => ⟨_, run, ?_⟩, fun r ho hop hroom => ?_⟩
    · rw [run, entryFailed_assign s tag ho hop, endWalk_eq,
        CommandPort.record_ended _ _ (by rw [List.length_map]; exact hroom)]
      rfl
    · have present : ((failedState s t e.node).node e.node).state ≠ .vacant := by rw [failedState_node]; exact hv
      have incarnation := failedState_incarnation s t e.node
      rcases h with ⟨ho, hop⟩ | ⟨⟨r, ho⟩, hop⟩
      · rw [entryFailed_management s tag ho hop]
        refine failed_lostFrom s present incarnation (fun x hq hxt => List.mem_filter.2 ⟨hq, by simpa using hxt⟩) ?_
        rw [List.filter_comm]
        refine flatMap_filter_of_nil _ fun x hm hxt => ?_
        obtain rfl := hx x (List.mem_filter.1 hm).1 (by simpa using hxt)
        rw [State.endings, ho]
      · rw [entryFailed_unfence s tag ho hop]
        exact failed_lostFrom s present incarnation (fun _ h _ => h) rfl
    · rw [run, loadOffFailed_eq s tag ho hop hroom]
  · rw [exec_loadOnRefused hl ha hf he hop ho hr]
    set u := ((s.releaseTag t (s.attemptsOf t f)).modNode f.node NodeRecord.refused).removeEntryOf t with hu
    have record : u.node e.node = (s.node e.node).refused := by
      rw [hu, releaseTag_eq, hn]; exact s.setNode_node_self f.node _
    have unchanged : u.ctl = s.ctl ∧ u.mirror = s.mirror := by rw [hu, releaseTag_eq]; exact ⟨rfl, rfl⟩
    have account : AccountOk u := account_of_chain
      (((chain_releaseTag s t _).trans (chain_modNode _ _ _ ⟨rfl, rfl, rfl, rfl⟩)).trans (chain_removeEntryOf _ t))
      haccount
    have fault := (loadFault_faulted u e.node 2 (by rw [record]; exact htakes) account).finish
    exact ⟨_, rfl, fault.state, fault.loadFault, fault.powered, fault.notice, fault.ctl.trans unchanged.1,
      fault.mirror.trans unchanged.2⟩

end Sys2Proof.Proofs.NodeLifecycle
end

section
/-! ### Laws of a step: the power account, and no work left undone (R52, R63, R65, R73, R78, R181) -/

namespace Sys2Proof.Proofs.ChainPower

open Sys2Proof Sys2Proof.Machine

/-! #### The power account -/

/-- Settles O5: a step is an idle step or a chain of small changes, and each small change keeps the account. -/
theorem powerAccountKept : Obligations.PowerAccountKept := by
  intro s t account hstep
  rcases step_chain _ hstep with rfl | ⟨rest, changes⟩
  · exact account
  · exact account_of_chain changes (account.of_eq rfl rfl)

/-! #### Changes that make no work -/

/-- A record but for its refresh_on_attn, which no choice reads. -/
def ClaimsAs (r t : NodeRecord) : Prop := t = { r with refreshOnAttn := t.refreshOnAttn }

/-- An entry but for its return reference, its class kept. -/
structure Relabelled (e x : Entry) : Prop where
  same : x = { e with origin := x.origin }
  host : x.isHost = e.isHost

theorem Relabelled.rfl (e : Entry) : Relabelled e e := ⟨.refl _, .refl _⟩

/-- A change that makes no work: what the serving of slots and the Dispatcher's choice read stays, but that the held
cycle may end. -/
structure Quiet (s t : State) : Prop where
  backlog : t.chain.backlog = s.chain.backlog := by rfl
  pwrEn : t.chain.pwrEn = s.chain.pwrEn := by rfl
  clkIn : t.pins.clkIn = s.pins.clkIn := by rfl
  tx : t.port.tx = s.port.tx := by rfl
  disp : t.disp = s.disp := by rfl
  slot : t.lbi.slot = s.lbi.slot ∨ t.lbi.slot = none := by exact .inl rfl
  records : ∀ k, ClaimsAs (s.node k) (t.node k) := by exact fun _ => rfl
  queue : ∃ g : Entry → Entry, t.queue = s.queue.map g ∧ ∀ e, Relabelled e (g e) := by
    exact ⟨id, (List.map_id _).symm, Relabelled.rfl⟩

section Claims

variable {s t : State} (q : Quiet s t)

include q

theorem Quiet.ackClaim : t.ackClaim = s.ackClaim := by
  have same : ∀ k, ((t.node k).ackOwed && (t.node k).takesAttn) = ((s.node k).ackOwed && (s.node k).takesAttn) :=
    fun k => by rw [q.records k]; rfl
  simp only [State.ackClaim, same]

theorem Quiet.pingClaim : t.pingClaim = s.pingClaim := by
  have same : ∀ k, (t.node k).wantsPing = (s.node k).wantsPing := fun k => by rw [q.records k]; rfl
  simp only [State.pingClaim, same]

theorem Quiet.freeTag : t.freeTag = s.freeTag := by simp only [State.freeTag, State.tag, q.disp]

theorem Quiet.resendClaim : t.resendClaim = s.resendClaim := by
  obtain ⟨g, hqueue, hg⟩ := q.queue
  have sameTag : ∀ x, t.tag x = s.tag x := fun x => by simp only [State.tag, q.disp]
  have entry : ∀ x, t.entryOf x = (s.entryOf x).map g := fun x => by
    have holds : ((fun e : Entry => e.tag == some x) ∘ g) = fun e => e.tag == some x :=
      funext fun e => by rw [Function.comp, (hg e).same]
    rw [State.entryOf, hqueue, List.find?_map, holds]; rfl
  have frame : ∀ x f, (t.entryOf x).map (fun e => e.frame x f) = (s.entryOf x).map fun e => e.frame x f :=
    fun x f => by
      rw [entry, Option.map_map]
      exact congrArg (Option.map · (s.entryOf x)) (funext fun e => by rw [Function.comp, (hg e).same]; rfl)
  simp only [State.resendClaim, State.frameOfTag, sameTag, frame, q.disp]

theorem Quiet.mayStart {e x : Entry} (h : Relabelled e x) : t.mayStart x = s.mayStart e := by
  rw [h.same, State.mayStart, State.mayStart, q.records]; rfl

/-- The same entry is the oldest eligible one (R81). -/
theorem Quiet.firstEligible {g : Entry → Entry} (hg : ∀ e, Relabelled e (g e)) (l : List Entry) :
    ∀ seen, t.firstEligible seen (l.map g) = (s.firstEligible seen l).map fun p => (p.1, g p.2) := by
  induction l with
  | nil => exact fun _ => rfl
  | cons e l ih =>
    intro seen
    have state : (g e).state = e.state := by rw [(hg e).same]
    have node : (g e).node = e.node := by rw [(hg e).same]
    simp only [List.map_cons, State.firstEligible, state, node, q.mayStart (hg e), ih]
    split
    · rfl
    · rw [Option.map_map, Option.map_map]; rfl

/-- No claim arises (R79). -/
theorem Quiet.claim (h : s.claim = none) : t.claim = none := by
  obtain ⟨g, hqueue, hg⟩ := q.queue
  unfold State.claim at h ⊢
  rw [q.ackClaim, q.resendClaim, q.freeTag, q.pingClaim, hqueue, q.firstEligible hg]
  cases ha : s.ackClaim <;> simp only [ha] at h ⊢
  · cases hr : s.resendClaim <;> simp only [hr] at h ⊢
    · cases ht : s.freeTag <;> simp only [ht] at h ⊢
      · cases hp : s.pingClaim <;> simp only [hp] at h ⊢
        · rw [Option.map_eq_none_iff] at h
          rw [h]; rfl
        · cases h
    · cases h
  · cases h

theorem Quiet.queue_length : t.queue.length = s.queue.length := by
  obtain ⟨g, hqueue, -⟩ := q.queue
  rw [hqueue, List.length_map]

theorem Quiet.hostCount : t.hostCount = s.hostCount := by
  obtain ⟨g, hqueue, hg⟩ := q.queue
  rw [State.hostCount, hqueue, List.countP_map]
  exact List.countP_congr fun e _ => by rw [Function.comp, (hg e).host]

/-- A change that makes no work leaves none undone. -/
theorem Quiet.settled (h : Settled s) : Settled t where
  backlog := by
    rw [q.backlog, State.mgmtSlotFree, q.queue_length]; exact h.backlog
  cycle c hc hp := by
    rw [State.hostSlotFree, q.queue_length, q.hostCount]
    refine h.cycle c ?_ hp
    rcases q.slot with same | ended
    · exact same ▸ hc
    · rw [ended] at hc; cases hc
  choice htx hlink := by
    refine q.claim (h.choice (q.tx ▸ htx) ?_)
    rw [State.linkUp, ← q.pwrEn, ← q.clkIn]; exact hlink

end Claims

/-! #### The host bus -/

theorem settled_ite {p : Prop} [Decidable p] {a b : State} (ha : Settled a) (hb : Settled b) :
    Settled (if p then a else b) := by
  split
  · exact ha
  · exact hb

section Host

variable {s : State} (h : Settled s)

include h

theorem settled_refuseAccess (a : Access) (o : BitVec 10) (n : Nat) (st : Status) :
    Settled (s.refuseAccess a o n st) := Quiet.settled {} h

theorem settled_accessThrough (i : WinIx) (k : Addr) (a : Access) (o : BitVec 10) :
    Settled (s.accessThrough i k a o) := by
  unfold State.accessThrough
  dsimp only
  split
  · exact settled_refuseAccess h _ _ _ _
  · exact settled_ite (Quiet.settled {} h) (finish_settled _)

theorem settled_apertureAccess (o : BitVec 10) (a : Access) : Settled (s.apertureAccess o a) := by
  unfold State.apertureAccess
  split
  · exact settled_refuseAccess h _ _ _ _
  · split
    · exact settled_refuseAccess h _ _ _ _
    · exact settled_accessThrough h _ _ _ _

omit h in
theorem relabelled_abandon (e : Entry) (n : Nat) : Relabelled e (e.abandon n) := by
  unfold Entry.abandon
  split
  · rename_i r hr
    split
    · exact ⟨rfl, by rw [Entry.isHost, Entry.isHost, hr]; rfl⟩
    · exact .rfl e
  · exact .rfl e

omit h in
/-- The end of a held cycle by its hold timer makes no work: its slot empties, and its entry keeps its place (R122,
R124). -/
theorem quiet_expireHold : Quiet s s.expireHold := by
  unfold State.expireHold
  split
  · exact {}
  · rename_i c hc
    split
    · have ended := endSlotWait_ended s .queueFull
      obtain ⟨b, pins⟩ := ended.pins
      exact {
        backlog := by rw [ended.chain]
        pwrEn := by rw [ended.chain]
        clkIn := by rw [pins]
        tx := by rw [ended.port]
        disp := ended.disp
        slot := ended.slot
        records := fun k => by simp only [State.node, ended.nodes]; rfl
        queue := ⟨id, by rw [ended.queue, List.map_id], Relabelled.rfl⟩ }
    · have ended : s.endHeld .abandoned Config.fillWord = { s with
          lbi := { s.lbi with slot := none, result := .abandoned }
          pins := { s.pins with busData := Access.answer c.access Config.fillWord } } := by
        simp only [State.endHeld, hc]
      unfold State.abandonCycle
      rw [ended]
      exact {
        slot := .inr rfl
        queue := ⟨(·.abandon c.handle), rfl, (relabelled_abandon · _)⟩ }

theorem settled_controlWrite (v : Word) : Settled (s.controlWrite v) := by
  unfold State.controlWrite
  exact settled_ite (finish_settled _) <| settled_ite (Quiet.settled {} h) <|
    settled_ite (finish_settled _) (finish_settled _)

theorem settled_statusWrite (v : Word) : Settled (s.statusWrite v) := Quiet.settled {} h

theorem settled_timingWrite (r : TimingReg) (v : Word) : Settled (s.timingWrite r v) :=
  settled_ite (Quiet.settled {} h) h

theorem settled_budgetWrite (v : Word) : Settled (s.budgetWrite v) :=
  settled_ite (finish_settled _) (Quiet.settled {} h)

theorem settled_submitAnswer (x : SubmitStatus) : Settled (s.submitAnswer x) := Quiet.settled {} h

/-- A command that is accepted ends its event; one that is not only sets SUBMIT_STATUS (R145). -/
theorem settled_submit (v : Word) : Settled (s.submit v) := by
  unfold State.submit
  split
  · exact settled_submitAnswer h _
  · split
    · exact settled_submitAnswer h _
    · refine settled_ite ?_ (settled_submitAnswer h _)
      split
      · exact settled_submitAnswer h _
      · exact finish_settled _

theorem settled_tryEnable (i : WinIx) : Settled (s.tryEnable i) := by
  unfold State.tryEnable
  dsimp only
  split
  · exact Quiet.settled {} h
  · exact Quiet.settled {} h
  · exact Quiet.settled {} h

/-- A disable ends its event; a field write or an enable makes no work (R112, R113, R116). -/
theorem settled_windowWrite (i : WinIx) (n : Fin 8) (v : Word) : Settled (s.windowWrite i n v) := by
  have written : Settled (s.setWindow i ((s.window i).writeField n v)) := Quiet.settled {} h
  unfold State.windowWrite
  exact settled_ite (settled_ite (finish_settled _) h) (settled_ite (settled_tryEnable written i) written)

theorem settled_refreshOnAttnWrite (k : Addr) (v : Word) : Settled (s.refreshOnAttnWrite k v) := by
  refine settled_ite h (Quiet.settled { records := fun j => ?_ } h)
  rw [State.modNode_node]
  split
  · subst_vars; rfl
  · rfl

theorem settled_writeRegister (b : Nat) (v : Word) : Settled (s.writeRegister b v) := by
  unfold State.writeRegister
  refine settled_ite (settled_controlWrite h _) <| settled_ite (settled_statusWrite h _) <|
    settled_ite (settled_timingWrite h _ _) <| settled_ite (settled_timingWrite h _ _) <|
    settled_ite (settled_timingWrite h _ _) <| settled_ite (settled_timingWrite h _ _) <|
    settled_ite (settled_timingWrite h _ _) <| settled_ite (settled_budgetWrite h _) <|
    settled_ite (Quiet.settled {} h) <| settled_ite (settled_submit h _) <|
    settled_ite (Quiet.settled {} h) <| settled_ite (Quiet.settled {} h) ?_
  split
  · exact settled_windowWrite h _ _ _
  · exact settled_refreshOnAttnWrite h _ _
  · exact h

theorem settled_hostAccess (a : BitVec 11) (x : Access) : Settled (s.hostAccess a x) := by
  cases x with
  | read => exact settled_ite (settled_apertureAccess h _ _) (Quiet.settled {} h)
  | write v => exact settled_ite (settled_apertureAccess h _ _) (settled_writeRegister h _ _)

/-- A host cycle leaves no work undone where the access it makes leaves none. -/
theorem settled_hostCycle {f : State → State} (hf : ∀ {u : State}, Settled u → Settled (f u)) :
    Settled (s.hostCycle f) := settled_ite (hf (Quiet.settled {} h)) h

/-! #### Resets, frames and timers -/

omit h in
/-- A part at its reset values has no work (R28, R46, R94). -/
theorem settled_resetTo (pins : Pins) (cause : ResetCause) : Settled (s.resetTo pins cause) where
  backlog := .inl rfl
  cycle _ hc := nomatch hc
  choice _ hlink := nomatch hlink

theorem settled_resetLine (keepN : Bool) {take : State → State} (htake : Settled (take s)) :
    Settled (s.resetLine keepN take) :=
  settled_ite (settled_ite htake h) (Quiet.settled {} h)

theorem settled_endHold : Settled s.endHold :=
  settled_ite (settled_ite (Quiet.settled {} h) (settled_ite (settled_resetTo _ _) (finish_settled _))) h

theorem settled_keepRises : Settled s.keepRises := settled_ite (settled_resetTo _ _) (Quiet.settled {} h)

theorem settled_fromChain (f : State → State) : Settled (s.fromChain f) := settled_ite (finish_settled _) h

theorem settled_receiveWire (wire : List Word) (ended : Bool) : Settled (s.receiveWire wire ended) := by
  unfold State.receiveWire
  split
  · exact h
  · exact settled_fromChain h _

theorem settled_clocked {f : State → State} (hf : Settled (f s)) : Settled (s.clocked f) := settled_ite hf h

theorem settled_tagExpiry (t : TagId) (use : TimerUse) : Settled (s.tagExpiry t use) := by
  unfold State.tagExpiry
  split
  · exact settled_ite (finish_settled _) h
  · exact h

theorem settled_holdExpiry (t : TagId) : Settled (s.holdExpiry t) := by
  unfold State.holdExpiry
  split
  · exact finish_settled _
  · exact h

theorem settled_rampExpiry : Settled s.rampExpiry := by
  refine settled_ite ?_ h
  split
  · exact finish_settled _
  · exact finish_settled _
  · exact h

theorem settled_walkExpiry : Settled s.walkExpiry := by
  refine settled_ite ?_ h
  split
  · exact h
  · exact finish_settled _

theorem settled_darkExpiry : Settled s.darkExpiry := by
  refine settled_ite ?_ h
  split
  · exact h
  · exact finish_settled _

theorem settled_nodeExpiry (k : Addr) : Settled (s.nodeExpiry k) :=
  settled_ite (settled_ite (finish_settled _) (Quiet.settled {} h)) h

theorem settled_refreshExpiry (i : WinIx) : Settled (s.refreshExpiry i) := settled_ite (finish_settled _) h

/-! #### Every command -/

/-- A command ends with the end of an event, or makes no work. -/
theorem exec_settled (c : Instr) : ∃ t, exec c s = .next t ∧ Settled t := by
  cases c with
  | apertureAccess o a => exact ⟨_, rfl, settled_hostCycle h (settled_apertureAccess · _ _)⟩
  | hostCycleAbort => exact ⟨_, rfl, Quiet.settled {} (quiet_expireHold.settled h)⟩
  | chainEnableSet w => exact ⟨_, rfl, settled_hostCycle h (settled_controlWrite · _)⟩
  | chainEnableClear w => exact ⟨_, rfl, settled_hostCycle h (settled_controlWrite · _)⟩
  | autoRewalkWrite w => exact ⟨_, rfl, settled_hostCycle h (settled_controlWrite · _)⟩
  | noticeIeWrite w => exact ⟨_, rfl, settled_hostCycle h (settled_controlWrite · _)⟩
  | completionIeWrite w => exact ⟨_, rfl, settled_hostCycle h (settled_controlWrite · _)⟩
  | softReset w => exact ⟨_, rfl, settled_hostCycle h (settled_controlWrite · _)⟩
  | budgetRefusedClear w => exact ⟨_, rfl, settled_hostCycle h (settled_statusWrite · _)⟩
  | noticeOverflowClear w => exact ⟨_, rfl, settled_hostCycle h (settled_statusWrite · _)⟩
  | timingRegisterWrite r w => exact ⟨_, rfl, settled_hostCycle h (settled_timingWrite · _ _)⟩
  | budgetWrite w => exact ⟨_, rfl, settled_hostCycle h (settled_budgetWrite · _)⟩
  | read w => exact ⟨_, rfl, settled_hostCycle h (settled_submit · _)⟩
  | write w => exact ⟨_, rfl, settled_hostCycle h (settled_submit · _)⟩
  | fence w => exact ⟨_, rfl, settled_hostCycle h (settled_submit · _)⟩
  | unfence w => exact ⟨_, rfl, settled_hostCycle h (settled_submit · _)⟩
  | nreset w => exact ⟨_, rfl, settled_hostCycle h (settled_submit · _)⟩
  | refresh w => exact ⟨_, rfl, settled_hostCycle h (settled_submit · _)⟩
  | rescan w => exact ⟨_, rfl, settled_hostCycle h (settled_submit · _)⟩
  | cancel w => exact ⟨_, rfl, settled_hostCycle h (settled_submit · _)⟩
  | submitKindNamesNoKind w => exact ⟨_, rfl, settled_hostCycle h (settled_submit · _)⟩
  | completionPop w => exact ⟨_, rfl, settled_hostCycle h fun hu => Quiet.settled {} hu⟩
  | noticePop w => exact ⟨_, rfl, settled_hostCycle h fun hu => Quiet.settled {} hu⟩
  | windowFieldWrite i n w => exact ⟨_, rfl, settled_hostCycle h (settled_windowWrite · _ _ _)⟩
  | windowEnable i w => exact ⟨_, rfl, settled_hostCycle h (settled_windowWrite · _ _ _)⟩
  | windowDisable i w => exact ⟨_, rfl, settled_hostCycle h (settled_windowWrite · _ _ _)⟩
  | refreshOnAttnWrite k w => exact ⟨_, rfl, settled_hostCycle h (settled_refreshOnAttnWrite · _ _)⟩
  | registerWrite a x => exact ⟨_, rfl, settled_hostCycle h (settled_hostAccess · _ _)⟩
  | powerOnReset => exact ⟨_, rfl, settled_resetTo _ _⟩
  | powerOnHoldEnd => exact ⟨_, rfl, settled_endHold h⟩
  | busReset => exact ⟨_, rfl, settled_resetLine h _ (settled_resetTo _ _)⟩
  | keepReset => exact ⟨_, rfl, settled_resetLine h _ (finish_settled _)⟩
  | keepNRise => exact ⟨_, rfl, settled_keepRises h⟩
  | resetRelease => exact ⟨_, rfl, Quiet.settled {} h⟩
  | chainFault high => exact ⟨_, rfl, settled_ite (finish_settled _) (Quiet.settled {} h)⟩
  | upCarrierPresent => exact ⟨_, rfl, settled_ite (Quiet.settled {} h) h⟩
  | upCarrierLost => exact ⟨_, rfl, settled_ite (finish_settled _) (Quiet.settled {} h)⟩
  | transmitterFree => exact ⟨_, rfl, settled_clocked h (finish_settled _)⟩
  | receiveData src t b ws => exact ⟨_, rfl, settled_ite (settled_fromChain h _) h⟩
  | receiveDone src t b => exact ⟨_, rfl, settled_fromChain h _⟩
  | receiveRefuse src t b r => exact ⟨_, rfl, settled_fromChain h _⟩
  | receiveSense src t b i => exact ⟨_, rfl, settled_fromChain h _⟩
  | receiveAttn src code b => exact ⟨_, rfl, settled_fromChain h _⟩
  | receiveHello src => exact ⟨_, rfl, settled_fromChain h _⟩
  | frameDropped wire ended => exact ⟨_, rfl, settled_receiveWire h _ _⟩
  | responseTimerExpiry t => exact ⟨_, rfl, settled_clocked h (settled_tagExpiry h _ _)⟩
  | backoffTimerExpiry t => exact ⟨_, rfl, settled_clocked h (settled_tagExpiry h _ _)⟩
  | tagHoldExpiry t => exact ⟨_, rfl, settled_clocked h (settled_holdExpiry h _)⟩
  | rampSettleExpiry => exact ⟨_, rfl, settled_clocked h (settled_rampExpiry h)⟩
  | walkSettleExpiry => exact ⟨_, rfl, settled_clocked h (settled_walkExpiry h)⟩
  | darkWaitExpiry => exact ⟨_, rfl, settled_clocked h (settled_darkExpiry h)⟩
  | nodeSettleExpiry k => exact ⟨_, rfl, settled_clocked h (settled_nodeExpiry h _)⟩
  | holdLimitExpiry => exact ⟨_, rfl, settled_clocked h (quiet_expireHold.settled h)⟩
  | refreshTimerExpiry i => exact ⟨_, rfl, settled_clocked h (settled_refreshExpiry h _)⟩
  | supplyBelowBrownOut => exact ⟨_, rfl, settled_resetTo _ _⟩

end Host

/-- Settles O8: an idle step changes nothing, and the command at the front leaves no work undone. -/
theorem noWorkLeftUndone : Obligations.NoWorkLeftUndone := by
  intro s t h hstep
  unfold step at hstep
  split at hstep
  · cases hstep
    exact h
  · rename_i c rest _
    obtain ⟨u, run, settled⟩ := exec_settled (Quiet.settled {} h : Settled { s with pending := rest }) c
    rw [run] at hstep
    cases hstep
    exact settled

end Sys2Proof.Proofs.ChainPower
end

section
/-! ### Chain power: the ramp, the chain fault and the teardown (R47 to R51) -/

namespace Sys2Proof.Proofs.ChainPower

open Sys2Proof Sys2Proof.Machine

section Power

variable {s : State}

/-! #### The chain fault -/

/-- What a chain fault leaves (R49, R50). -/
structure FaultTaken (s t : State) : Prop where
  torn : TornDown s t .faulted .nodeLost
  ctl : t.ctl = s.ctl
  line : t.pins.chainFaultN = s.pins.chainFaultN
  posted : t.notices.shows 0 .chainFault (BitVec.ofNat 16 s.chain.tail)

/-- The event of a chain fault: the notice comes before the teardown, which leaves nothing to serve. -/
theorem takeFault_taken (s : State) : FaultTaken s s.takeFault.finish := by
  let u : State := { s with
    notices := s.notices.post 0 .chainFault (BitVec.ofNat 16 s.chain.tail)
    chain := { s.chain with state := .faulted, pwrEn := false }
    port := { tx := none, carrierSeen := false } }
  have unfolded : s.takeFault = u.teardown .nodeLost := rfl
  obtain ⟨torn, ctl, -, ⟨b, pins⟩, -, kept, flag, slot⟩ := teardown_torn u .nodeLost (by decide) .faulted rfl rfl rfl
  rw [unfolded, torn.quiet slot]
  exact {
    torn := { torn with }
    ctl := ctl
    line := by rw [pins]
    posted := (post_shows s.notices 0 .chainFault (BitVec.ofNat 16 s.chain.tail)).kept
      (fun r hr hk => kept r hr (by rw [hk]; decide) (by rw [hk]; decide)) flag }

theorem lookAtFault_low (hp : s.chain.pwrEn = true) (hl : s.pins.chainFaultN = false) :
    s.lookAtFault = s.takeFault := if_pos (by rw [hp, hl]; rfl)

theorem lookAtFault_high (hl : s.pins.chainFaultN = true) : s.lookAtFault = s :=
  if_neg (by rw [hl]; simp)

/-! #### The ramp -/

theorem rampRising_eq (s : State) : s.rampRising = { s with
    chain := { s.chain with
      state := .ramp, rampPhase := some .rising, pwrEn := true, settleTimer := some s.ctl.settle }
    port := { s.port with carrierSeen := false } } := rfl

theorem enableChain_off (h : s.chain.state = .off) :
    s.enableChain = ({ s with chain := { s.chain with rewalk := true } } : State).rampRising.lookAtFault := if_pos h

theorem enableChain_on (h : s.chain.state ≠ .off) : s.enableChain = s := if_neg h

theorem exec_rampSettleExpiry (hclk : s.pins.clkIn = true) : exec .rampSettleExpiry s = .next s.rampExpiry :=
  congrArg Host.Outcome.next (clocked_on _ hclk)

theorem rampExpiry_dark (hs : s.chain.state = .ramp) (ht : s.chain.settleTimer.isSome = true)
    (hp : s.chain.rampPhase = some .dark) : s.rampExpiry = s.rampRising.lookAtFault.finish := by
  rw [State.rampExpiry, if_pos ⟨hs, ht⟩, hp]

/-! #### CHAIN_ENABLE -/

/-- A CONTROL write that flips CHAIN_ENABLE sets the word, and enables or disables the chain (R47, R51, R177). -/
theorem exec_chainEnable_flips {c : Instr} {w : Word} (hc : controlWritten c = some w) (hready : s.hostReady = true)
    (hreset : w.getLsbD 15 = false) (hflip : w.getLsbD 0 = !s.ctl.chainEnable) :
    exec c s = .next (
      let u : State := { s.released with ctl := s.ctl.written w }
      if w.getLsbD 0 then u.enableChain.finish else u.disableChain.finish) := by
  have noReset : ¬ bitAt w 15 = true := by rw [bitAt, hreset]; decide
  have flips : ¬ s.released.ctl.chainEnable = bitAt w 0 := by
    rw [released_ctl, bitAt, hflip]; cases s.ctl.chainEnable <;> decide
  rw [exec_control hc hready, State.controlWrite, if_neg noReset, if_neg flips]
  rfl

/-- The event of a disable out of FAULTED: the teardown leaves nothing to serve (R50, R51). -/
theorem disableChain_torn (h : s.chain.state ≠ .faulted) :
    s.disableChain.finish.ctl = s.ctl ∧ TornDown s s.disableChain.finish .off .aborted := by
  have unfolded : s.disableChain = { s.powerOff.teardown .aborted with
      chain := { (s.powerOff.teardown .aborted).chain with state := .off } } := by
    rw [State.disableChain, if_neg h]
  obtain ⟨torn, ctl, -, -, -, -, -, slot⟩ := teardown_torn s.powerOff .aborted (by decide) s.chain.state rfl rfl rfl
  have off : TornDown s s.disableChain .off .aborted := by
    rw [unfolded]
    exact { torn with chain := congrArg (fun m : ChainManager => { m with state := .off }) torn.chain }
  rw [off.quiet (by rw [unfolded]; exact slot)]
  exact ⟨by rw [unfolded]; exact ctl, off⟩

theorem disableChain_faulted (h : s.chain.state = .faulted) :
    s.disableChain = { s with chain := { s.chain with state := .off } } := by
  rw [State.disableChain, if_pos h]

end Power

/-- Settles O23: the ramp rises where the chain is OFF, and looks at the fault line as it does. -/
theorem chainEnableStartsTheRamp : Obligations.ChainEnableStartsTheRamp := by
  intro s c w hc hready hreset hon hoff
  rw [exec_chainEnable_flips hc hready hreset (by rw [hon, hoff]; rfl), if_pos hon]
  let u : State := { s.released with ctl := s.ctl.written w }
  let rising : State := ({ u with chain := { u.chain with rewalk := true } } : State).rampRising
  refine ⟨fun hs hl => ?_, fun hs hl => ⟨_, rfl, ?_⟩, fun hs => ?_⟩
  · rw [enableChain_off (s := u) hs, lookAtFault_high (s := rising) hl]
    rfl
  · rw [enableChain_off (s := u) hs, lookAtFault_low (s := rising) rfl hl]
    obtain ⟨torn, ctl, -, posted⟩ := takeFault_taken rising
    exact ⟨ctl, { torn with }, posted⟩
  · rw [enableChain_on (s := u) hs]

/-- Settles O24: out of FAULTED the teardown runs; a FAULTED chain has been torn down already. -/
theorem chainDisableTearsDown : Obligations.ChainDisableTearsDown := by
  intro s c w hc hready hreset hoff hon
  rw [exec_chainEnable_flips hc hready hreset (by rw [hon, hoff]; rfl), if_neg (by rw [hoff]; decide)]
  let u : State := { s.released with ctl := s.ctl.written w }
  refine ⟨fun hs => ⟨_, rfl, ?_⟩, fun hs => ?_⟩
  · obtain ⟨ctl, torn⟩ := disableChain_torn (s := u) hs
    exact ⟨ctl, { torn with }⟩
  · rw [disableChain_faulted (s := u) hs]
    rfl

/-- Settles O25: a sample of the line and the rise of the ramp each lead to one chain fault. -/
theorem chainFaultTearsDown : Obligations.ChainFaultTearsDown := by
  refine ⟨fun s c h => ?_, fun s high h => ?_⟩
  · rcases h with ⟨rfl, hp⟩ | ⟨rfl, hclk, hs, ht, hp, hl⟩
    · let u : State := { s with pins := { s.pins with chainFaultN := false } }
      have run : exec (.chainFault false) s = .next u.takeFault.finish :=
        congrArg Host.Outcome.next (if_pos (by rw [hp]; rfl))
      obtain ⟨torn, ctl, line, posted⟩ := takeFault_taken u
      exact ⟨_, run, ctl, line, { torn with }, posted⟩
    · have run : exec .rampSettleExpiry s = .next s.rampRising.takeFault.finish := by
        rw [exec_rampSettleExpiry hclk, rampExpiry_dark hs ht hp, lookAtFault_low (s := s.rampRising) rfl hl]
      obtain ⟨torn, ctl, line, posted⟩ := takeFault_taken s.rampRising
      exact ⟨_, run, ctl, line.trans hl, { torn with }, posted⟩
  · have quiet : ¬ (s.chain.pwrEn && !high) = true := by
      rcases h with h | h <;> simp [h]
    exact congrArg Host.Outcome.next (if_neg quiet)

end Sys2Proof.Proofs.ChainPower
end

section
/-! ### BUDGET, RESCAN, HELLO and the settles of the walk (R48, R54 to R60, R62, R66, R106, R152) -/

namespace Sys2Proof.Proofs.ChainPower

open Sys2Proof Sys2Proof.Machine Sys2Proof.Proofs.NodeLifecycle

/-! #### BUDGET -/

section Budget

variable {s : State} {w : Word}

theorem budgetWrite_refused (h : ¬ s.chain.committed ≤ w.toNat % 256) :
    s.budgetWrite w = { s with ctl := { s.ctl with budgetRefused := true } } := by
  rw [State.budgetWrite, lowByte_toNat, if_neg h]

/-- A request for admission service merges into the step that is there (R52, R66). -/
theorem requestService_eq (s : State) : s.requestService = { s with chain := { s.chain with
    backlog := s.chain.backlog ++ if .service ∈ s.chain.backlog then [] else [.service] } } := by
  rw [State.requestService, makeDue_eq]
  split
  · rw [List.append_nil]
  · rfl

theorem budgetWrite_taken (h : s.chain.committed ≤ w.toNat % 256) :
    s.budgetWrite w = State.finish { s with chain := { s.chain with
      budget := w.toNat % 256
      backlog := s.chain.backlog ++
        if s.chain.budget < w.toNat % 256 ∧ .service ∉ s.chain.backlog then [MgmtStep.service] else [] } } := by
  rw [State.budgetWrite, lowByte_toNat, if_pos h]
  dsimp only
  by_cases rose : s.chain.budget < w.toNat % 256
  · rw [if_pos rose, requestService_eq]
    by_cases waits : .service ∈ s.chain.backlog <;> simp [waits, rose]
  · rw [if_neg rose, if_neg fun h => rose h.1, List.append_nil]

end Budget

/-- Settles O27: by the comparison of the written value with COMMITTED. -/
theorem budgetWriteIsTakenOrRefused : Obligations.BudgetWriteIsTakenOrRefused := by
  intro s w hready
  dsimp only
  rw [exec_budget hready]
  split
  · rename_i h
    exact congrArg Host.Outcome.next (budgetWrite_taken (s := s.released) h)
  · rename_i h
    exact congrArg Host.Outcome.next (budgetWrite_refused (s := s.released) h)

section Walk

variable {s : State} {k : Addr}

/-! #### The start of a walk (R54, R60) -/

theorem walkAssign_eq (s : State) (k : Addr) : s.walkAssign k = { s with chain := { s.chain with
    state := .walking, pointer := some k, walkStep := some .assigning
    backlog := if .assign k ∈ s.chain.backlog then s.chain.backlog else s.chain.backlog ++ [.assign k] } } := by
  rw [State.walkAssign, makeDue_eq]

theorem reopenTail_due (h : s.closePending k = false) : s.reopenTail k = { s with chain := { s.chain with
    state := .walking, pointer := some k, walkStep := some .opening
    backlog :=
      if .openGate k ∈ s.chain.backlog then s.chain.backlog else s.chain.backlog ++ [.openGate k] } } := by
  rw [State.reopenTail, if_neg (by rw [h]; decide), makeDue_eq]

theorem reopenTail_waits (h : s.closePending k = true) : s.reopenTail k = { s with chain := { s.chain with
    state := .walking, pointer := some k, walkStep := some .opening, darkWait := some .closing } } := if_pos h

/-- The position behind the tail is an address while the tail is below 24. -/
theorem addrOf_behind (h : s.chain.tail = k.val) : addrOf? (s.chain.tail + 1) = some k :=
  addrOf_num (by rw [h]; rfl)

/-! #### RESCAN by chain state -/

variable {ticket : BitVec 8}

theorem rescanAction_idle (h : s.chain.state = .off ∨ s.chain.state = .faulted) :
    s.rescanAction ticket = s.completeRescan ticket .nodeNotReady 0 := by
  rcases h with h | h <;> rw [State.rescanAction, h]

theorem rescanAction_walks (h : s.chain.state = .ramp ∨ s.chain.state = .walking) :
    s.rescanAction ticket = s.attachRescan ticket := by
  rcases h with h | h <;> rw [State.rescanAction, h]

section Running

variable (hs : s.chain.state = .running)

include hs

theorem rescanAction_full (ht : s.chain.tail = 24) : s.rescanAction ticket = s.completeRescan ticket .ok 24 := by
  have none : addrOf? 25 = none := rfl
  simp only [State.rescanAction, hs, ht, none]

theorem rescanAction_open (ht : s.chain.tail = k.val) (hw : s.wayOpen = true) :
    s.rescanAction ticket = (s.attachRescan ticket).walkAssign k := by
  simp only [State.rescanAction, hs, addrOf_behind ht, hw, if_true]

theorem rescanAction_closed (ht : s.chain.tail = addrNum k) (hk : addrNum k < 24) (hw : s.wayOpen = false) :
    s.rescanAction ticket = (s.attachRescan ticket).reopenTail k := by
  have behind : addrOf? (s.chain.tail + 1) = some ⟨addrNum k, hk⟩ := addrOf_behind ht
  simp only [State.rescanAction, hs, behind, addrOf_num ht, hw, Bool.false_eq_true, if_false]

end Running

theorem exec_rescan {c : Instr} {w : Word} (hc : submitted c = some w) (hready : s.hostReady = true)
    (hk : s.cmd.staging.kind = 6#4) (hroom : s.cmd.roomFor) :
    exec c s = .next (((accepted s).rescanAction (w.extractLsb' 0 8)).submitAnswer .accepted).finish := by
  have kind : cmdKindOf s.released.cmd.staging.kind = some .rescan := by rw [released_cmd, hk]; rfl
  rw [exec_submit hc hready, submit_accepted (r := .rescan) s.released kind rfl hroom rfl]
  rfl

/-- A RESCAN that completes in its own event takes the reservation that it made (R146, R152). -/
theorem accepted_completeRescan (s : State) (ticket : BitVec 8) (st : Status) (n : Nat) :
    ((accepted s).completeRescan ticket st n).submitAnswer .accepted = { s.released with
      cmd := s.cmd.completing
        { ticket := ticket, kind := .rescan, status := st, node := 0, count := n, data := [] } } := by
  rw [State.completeRescan, complete_reserved _ _ (n := s.cmd.reservations) rfl]
  rfl

/-! #### HELLO -/

theorem exec_receiveHello (src : BitVec 5) (hl : s.linkUp = true) :
    exec (.receiveHello src) s = .next s.receiveHello.finish := congrArg Host.Outcome.next (fromChain_up _ hl)

theorem exec_receiveHello_down (src : BitVec 5) (hl : s.linkUp = false) : exec (.receiveHello src) s = .next s :=
  congrArg Host.Outcome.next (if_neg (by rw [hl]; decide))

theorem receiveHello_walks (hs : s.chain.state = .running) (ht : s.chain.tail = k.val) (hw : s.wayOpen = true) :
    s.receiveHello = s.walkAssign k := by
  rw [State.receiveHello, addrOf_behind ht]
  exact if_pos ⟨hs, hw⟩

theorem receiveHello_ignored (h : s.chain.state ≠ .running ∨ s.wayOpen = false ∨ s.chain.tail = 24) :
    s.receiveHello = s := by
  unfold State.receiveHello
  split
  · rfl
  · rename_i j hj
    refine if_neg fun ⟨hs, hw⟩ => ?_
    rcases h with h | h | h
    · exact h hs
    · rw [h] at hw; cases hw
    · rw [h] at hj; cases hj

/-! #### The settles -/

theorem rampExpiry_rising (hs : s.chain.state = .ramp) (ht : s.chain.settleTimer.isSome = true)
    (hp : s.chain.rampPhase = some .rising) : s.rampExpiry = s.endRamp.finish := by
  rw [State.rampExpiry, if_pos ⟨hs, ht⟩, hp]

/-- The ramp ends in a walk from address 1 if one was requested or a RESCAN is attached, else in RUNNING (R48). -/
theorem endRamp_eq (s : State) : s.endRamp = { s with chain :=
    if s.chain.rewalk = true ∨ s.chain.rescans ≠ [] then
      { s.chain with
        state := .walking, rampPhase := none, rewalk := false, settleTimer := none
        pointer := some 0, walkStep := some .assigning
        backlog := if .assign 0 ∈ s.chain.backlog then s.chain.backlog else s.chain.backlog ++ [.assign 0] }
    else { s.chain with state := .running, rampPhase := none, rewalk := false, settleTimer := none } } := by
  have walks : (s.chain.rewalk || !s.chain.rescans.isEmpty) = true ↔ s.chain.rewalk = true ∨ s.chain.rescans ≠ [] := by
    simp
  unfold State.endRamp
  dsimp only
  by_cases h : s.chain.rewalk = true ∨ s.chain.rescans ≠ []
  · rw [if_pos (walks.2 h), if_pos h, walkAssign_eq]
    rfl
  · rw [if_neg (mt walks.1 h), if_neg h]
    rfl

theorem walkExpiry_next {j : Addr} (hs : s.chain.state = .walking) (hw : s.chain.walkStep = some .settling)
    (ht : s.chain.settleTimer.isSome = true) (hp : s.chain.pointer = some k) (hj : j.val = k.val + 1) :
    s.walkExpiry = (s.stopChainTimer.walkAssign j).finish := by
  have next : (s.chain.pointer.bind fun k => addrOf? (addrNum k + 1)) = some j := by
    rw [hp]; exact addrOf_num (by rw [addrNum, addrNum, hj])
  rw [State.walkExpiry, if_pos ⟨hs, hw, ht⟩, next]

theorem darkExpiry_opens (hd : s.chain.darkWait = some .dark) (ht : s.chain.settleTimer.isSome = true)
    (hp : s.chain.pointer = some k) : s.darkExpiry = State.finish { s with chain := { s.chain with
      settleTimer := none, darkWait := none
      backlog :=
        if .openGate k ∈ s.chain.backlog then s.chain.backlog else s.chain.backlog ++ [.openGate k] } } := by
  rw [State.darkExpiry, if_pos ⟨hd, ht⟩, hp]
  dsimp only
  rw [makeDue_eq]
  rfl

end Walk

/-- Settles O38: each clause is a branch of the RESCAN's action. -/
theorem rescanActsByChainState : Obligations.RescanActsByChainState := by
  intro s c w hc hready hk hroom
  dsimp only
  rw [exec_rescan hc hready hk hroom]
  refine ⟨fun hs => ?_, fun hs => ?_, fun hs ht => ?_, fun k hs ht hw => ?_, fun k hs ht hk hw hp => ?_,
    fun k hs ht hk hw hp => ?_⟩
  · rw [rescanAction_idle (s := accepted s) hs, accepted_completeRescan]
  · rw [rescanAction_walks (s := accepted s) hs]
    rfl
  · rw [rescanAction_full (s := accepted s) hs ht, accepted_completeRescan]
  · rw [rescanAction_open (s := accepted s) hs ht hw, walkAssign_eq]
    rfl
  · rw [rescanAction_closed (s := accepted s) hs ht hk hw,
      reopenTail_due (s := (accepted s).attachRescan (w.extractLsb' 0 8)) hp]
    rfl
  · rw [rescanAction_closed (s := accepted s) hs ht hk hw,
      reopenTail_waits (s := (accepted s).attachRescan (w.extractLsb' 0 8)) hp]
    rfl

/-- Settles O56: a HELLO and each settle by the branch that its conditions choose. -/
theorem helloAndSettlesMoveTheWalk : Obligations.HelloAndSettlesMoveTheWalk := by
  intro s hclk
  refine ⟨fun src k hs hp ht hw => ?_, fun src settled h => ?_, fun hs ht hp hl => ?_, fun hs ht hp => ?_,
    fun k j hs hw ht hp hj => ?_, fun k hd ht hp => ?_⟩
  · have link : s.linkUp = true := by rw [State.linkUp, hp, hclk]; rfl
    rw [exec_receiveHello src link, receiveHello_walks hs ht hw, walkAssign_eq]
  · cases link : s.linkUp
    · exact exec_receiveHello_down src link
    · rw [exec_receiveHello src link, receiveHello_ignored h, finish_of_settled settled]
  · rw [exec_rampSettleExpiry hclk, rampExpiry_dark hs ht hp, lookAtFault_high (s := s.rampRising) hl,
      rampRising_eq]
    simp only [hs]
  · rw [exec_rampSettleExpiry hclk, rampExpiry_rising hs ht hp, endRamp_eq]
  · have run : exec .walkSettleExpiry s = .next s.walkExpiry := congrArg Host.Outcome.next (clocked_on _ hclk)
    rw [run, walkExpiry_next hs hw ht hp hj, walkAssign_eq]
    simp only [hs, State.stopChainTimer]
  · have run : exec .darkWaitExpiry s = .next s.darkExpiry := congrArg Host.Outcome.next (clocked_on _ hclk)
    rw [run, darkExpiry_opens hd ht hp]

end Sys2Proof.Proofs.ChainPower
end

section
/-! ### Laws of a step: the Outbound Queue, the timing registers and the resend list (R72, R85, R133, R179) -/

namespace Sys2Proof.Proofs.OutboundQueue

open Sys2Proof Sys2Proof.Machine

/-- A law that every small change keeps, and that reads neither the commands that wait nor the Admission List, is kept
by every step. -/
theorem step_keeps {P : State → Prop} (micro : ∀ {s t : State}, Micro s t → P s → P t)
    (unlist : ∀ s p, P s → P (s.unlist p))
    (pending : ∀ (s : State) l, P s → P { s with pending := l }) {s t : State}
    (hstep : step s = .next t) (hs : P s) : P t := by
  rcases step_chain _ hstep with rfl | ⟨rest, changes⟩
  · exact hs
  · exact changes.keeps micro (pending s rest hs) unlist

/-- Settles O4: each small change keeps the queue's bounds. -/
theorem outboundQueueKept : Obligations.OutboundQueueKept := fun _ _ hs hstep =>
  step_keeps (P := fun s => QueueOk s.queue) queue_of_micro (fun _ _ h => h) (fun _ _ h => h) hstep hs

/-- Settles O9: each small change keeps the ranges and the resend list. -/
theorem timingAndResendListKept : Obligations.TimingAndResendListKept := fun _ _ hstep =>
  ⟨step_keeps (P := fun s => TimingOk s.ctl) timing_of_micro (fun _ _ h => h) (fun _ _ h => h) hstep,
    step_keeps (P := fun s => ResendOk s.disp) resend_of_micro (fun _ _ h => h) (fun _ _ h => h) hstep⟩

end Sys2Proof.Proofs.OutboundQueue
end

section
/-! ### Tagged frames that answer no request (R10, R87, R88, R181) -/

namespace Sys2Proof.Proofs.OutboundQueue

open Sys2Proof Sys2Proof.Machine Sys2Proof.Proofs.ChainPower

section Stray

variable {s : State} {src : BitVec 5} {t : TagId} {seq : Bool}

/-- The request that a frame names meets the first conditions of R87. -/
theorem answers_of_requestFor {f : Flight} {kinds : List Op} (h : s.requestFor src t seq = some f)
    (kind : f.kind ∈ kinds) : s.answers src t seq kinds f := by
  unfold State.requestFor at h
  split at h
  · rename_i g busy
    split at h
    · rename_i named
      obtain ⟨source, bit⟩ := named
      cases h
      exact ⟨busy, source, bit, kind⟩
    · cases h
  · cases h

theorem takesDone_mem {op : Op} (h : op.takesDone = true) :
    op ∈ [Op.wr, .loadOn, .loadOff, .openGate, .closeGate, .nreset, .ping] := by
  revert h; cases op <;> decide

theorem takesRefuse_mem {op : Op} (h : op.takesRefuse = true) :
    op ∈ [Op.rd, .wr, .loadOn, .loadOff, .openGate, .closeGate, .nreset] := by
  revert h; cases op <;> decide

theorem receiveData_stray {ws : List Word}
    (h : ¬ ∃ f e, s.answers src t seq [.rd] f ∧ s.entryOf t = some e ∧ e.count = ws.length) :
    s.receiveData src t seq ws = s.stray t := by
  unfold State.receiveData
  split
  · rename_i f e request entry
    exact if_neg fun ⟨kind, _, count⟩ =>
      h ⟨f, e, answers_of_requestFor request (by rw [kind]; decide), entry, count.symm⟩
  · rfl

theorem receiveDone_stray
    (h : ¬ ∃ f, s.answers src t seq [.wr, .loadOn, .loadOff, .openGate, .closeGate, .nreset, .ping] f) :
    s.receiveDone src t seq = s.stray t := by
  unfold State.receiveDone
  split
  · rfl
  · rename_i f request
    exact if_neg fun takes => h ⟨f, answers_of_requestFor request (takesDone_mem takes)⟩

theorem receiveRefuse_stray {reason : Reason}
    (h : ¬ ∃ f, s.answers src t seq [.rd, .wr, .loadOn, .loadOff, .openGate, .closeGate, .nreset] f) :
    s.receiveRefuse src t seq reason = s.stray t := by
  unfold State.receiveRefuse
  split
  · rename_i f e request entry
    exact if_neg fun ⟨takes, _⟩ => h ⟨f, answers_of_requestFor request (takesRefuse_mem takes)⟩
  · rfl

theorem receiveSense_stray {ident : Identity} (h : ¬ ∃ f, s.answers src t seq [.assign] f) :
    s.receiveSense src t seq ident = s.stray t := by
  unfold State.receiveSense
  split
  · rename_i f e request entry
    exact if_neg fun ⟨kind, _⟩ => h ⟨f, answers_of_requestFor request (by rw [kind]; decide)⟩
  · rfl

/-- The notice of a stray frame makes no work, so a settled part stays as it is otherwise. -/
theorem fromChain_stray (settled : Settled s) {f : State → State} (h : f s = s.stray t) :
    s.fromChain f = if s.chain.pwrEn = true ∧ s.pins.clkIn = true then s.stray t else s := by
  have quiet : (s.stray t).finish = s.stray t := finish_of_settled (Quiet.settled {} settled)
  rw [State.fromChain, h, quiet]
  simp only [State.linkUp, Bool.and_eq_true]

end Stray

/-- Settles O46: each kind of frame that no request takes is a stray, and the event ends with its notice. -/
theorem strayAnswerPostsANoticeOnly : Obligations.StrayAnswerPostsANoticeOnly := by
  intro s src t seq settled
  refine ⟨fun ws low high h => ?_, fun h => ?_, fun reason h => ?_, fun ident h => ?_⟩
  · exact congrArg Host.Outcome.next ((if_pos ⟨low, high⟩).trans (fromChain_stray settled (receiveData_stray h)))
  · exact congrArg Host.Outcome.next (fromChain_stray settled (receiveDone_stray h))
  · exact congrArg Host.Outcome.next (fromChain_stray settled (receiveRefuse_stray h))
  · exact congrArg Host.Outcome.next (fromChain_stray settled (receiveSense_stray h))

end Sys2Proof.Proofs.OutboundQueue
end

section
/-! ### The end of a refresh job (R135, R138 to R140, R151) -/

namespace Sys2Proof.Proofs.OutboundQueue

open Sys2Proof Sys2Proof.Machine
open Sys2Proof.Proofs.NodeLifecycle (foldl_complete_eq)

section JobEnd

variable (s : State) (r : RefreshRef)

theorem jobCurrent_iff : s.jobCurrent r = true ↔ r.current (s.window r.window) := by
  simp [State.jobCurrent, Window.isMirror, and_assoc]

/-- The words of a current job land, and nothing else changes (R138). -/
theorem land_eq (ws : List Word) : s.land r ws = { s with
    mirror :=
      if r.current (s.window r.window) then
        { s.mirror with pool := Memory.storeRange s.mirror.pool (r.segment + r.nextOffset) ws }
      else s.mirror } := by
  unfold State.land
  by_cases current : r.current (s.window r.window)
  · rw [if_pos ((jobCurrent_iff s r).2 current), if_pos current]
  · rw [if_neg (mt (jobCurrent_iff s r).1 current), if_neg current]

/-- The attached commands complete in the order of the job's list, and nothing else changes (R135, R151). -/
theorem completeAttached_eq (v : Window) (st : Status) (l : List (BitVec 8)) :
    s.completeAttached v.completionNode st l = { s with cmd := s.cmd.record (refreshEndings v st l) } := by
  rw [completionNode_eq]
  exact foldl_complete_eq _ _ _

/-- A job ends OK: a current window counts a generation and is not stale (R139). -/
theorem deliverRefresh_ok : s.deliverRefresh r .ok = { s with
    windows :=
      if r.current (s.window r.window) then
        s.windows.set r.window.val
          { s.window r.window with generation := (s.window r.window).generation + 1#16, stale := false }
      else s.windows
    cmd := s.cmd.record (refreshEndings (s.window r.window) .ok r.attached) } := by
  unfold State.deliverRefresh
  dsimp only
  rw [completeAttached_eq]
  by_cases current : r.current (s.window r.window)
  · rw [if_pos ((jobCurrent_iff s r).2 current), if_pos rfl, if_pos current]; rfl
  · rw [if_neg (mt (jobCurrent_iff s r).1 current), if_neg current]

/-- A job ends otherwise: a current window is left stale (R140). -/
theorem deliverRefresh_failed {st : Status} (h : st ≠ .ok) : s.deliverRefresh r st =
    { (if r.current (s.window r.window) then s.leftStale r.window else s) with
      cmd := s.cmd.record (refreshEndings (s.window r.window) st r.attached) } := by
  unfold State.deliverRefresh
  dsimp only
  rw [completeAttached_eq]
  by_cases current : r.current (s.window r.window)
  · rw [if_pos ((jobCurrent_iff s r).2 current), if_neg h, if_pos current]; rfl
  · rw [if_neg (mt (jobCurrent_iff s r).1 current), if_neg current]

/-- A part left stale or not, item by item. -/
theorem ite_leftStale {p : Prop} [Decidable p] (i : WinIx) : (if p then s.leftStale i else s) = { s with
    windows := if p then s.windows.set i.val { s.window i with stale := true } else s.windows
    notices :=
      if p then s.notices.post (s.window i).node.toNat .mirrorStale (BitVec.ofNat 16 i.val) else s.notices } := by
  split <;> rfl

/-- A job whose window is disabled is not current, and only its commands complete (R142). -/
theorem deliverRefresh_disabled {st : Status} (h : st ≠ .ok) (disabled : (s.window r.window).enabled = false) :
    s.deliverRefresh r st = { s with cmd := s.cmd.record (refreshEndings (s.window r.window) st r.attached) } := by
  rw [deliverRefresh_failed s r h, if_neg fun current => ?_]
  obtain ⟨enabled, _⟩ := current
  rw [disabled] at enabled
  cases enabled

/-! #### The delivery of a job whose commands hold a reservation each (R146) -/

section Delivery

variable {s} {r} {e : Entry} (ho : e.origin = .refresh r) (room : r.attached.length ≤ s.cmd.reservations)

include room in
theorem record_refreshEndings (v : Window) (st : Status) : s.cmd.record (refreshEndings v st r.attached) =
    s.cmd.ended (refreshEndings v st r.attached) :=
  CommandPort.record_ended _ _ (by rw [refreshEndings, List.length_map]; exact room)

include ho room

theorem deliver_job_ok (ws : List Word) : s.deliver e .ok ws = { s with
    windows :=
      if r.current (s.window r.window) then
        s.windows.set r.window.val
          { s.window r.window with generation := (s.window r.window).generation + 1#16, stale := false }
      else s.windows
    cmd := s.cmd.ended (refreshEndings (s.window r.window) .ok r.attached) } := by
  rw [State.deliver, ho, ← record_refreshEndings room]
  exact deliverRefresh_ok s r

theorem deliver_job_failed {st : Status} (h : st ≠ .ok) (ws : List Word) : s.deliver e st ws =
    { (if r.current (s.window r.window) then s.leftStale r.window else s) with
      cmd := s.cmd.ended (refreshEndings (s.window r.window) st r.attached) } := by
  rw [State.deliver, ho, ← record_refreshEndings room]
  exact deliverRefresh_failed s r h

end Delivery

end JobEnd

end Sys2Proof.Proofs.OutboundQueue
end

section
/-! ### A DATA taken from the chain (R26, R77, R89, R93, R123, R137 to R141) -/

namespace Sys2Proof.Proofs.OutboundQueue

open Sys2Proof Sys2Proof.Machine
open Sys2Proof.Proofs.NodeLifecycle (answeredAs answers_kind attemptsOf_entry complete_reserved takeAnswer_eq
  takeAnswer_removeEntryOf)

/-- A READ answered (R26, R27). -/
theorem answered_read (r : NodeRecord) (bit : Bool) : r.answered .rd bit =
    { r with inFlightTag := none, failCount := 0, nextSeq := !r.nextSeq } := rfl

section Data

variable {s : State} {src : BitVec 5} {t : TagId} {seq : Bool} {ws : List Word} {f : Flight} {e : Entry}

theorem exec_receiveData (hl : s.linkUp = true) (low : 1 ≤ ws.length) (high : ws.length ≤ 16) :
    exec (.receiveData src t seq ws) s = .next (s.receiveData src t seq ws).finish :=
  congrArg Host.Outcome.next ((if_pos ⟨low, high⟩).trans (fromChain_up _ hl))

section Taken

variable (ha : s.answers src t seq [.rd] f) (hf : f.holder = .entry) (he : s.entryOf t = some e)
  (hc : e.count = ws.length)

include ha hf he hc

/-- A DATA for an entry other than a refresh job's retires the entry (R89). -/
theorem receiveData_read (ho : ∀ r, e.origin ≠ .refresh r) :
    s.receiveData src t seq ws = (s.takeAnswer t f).entryDone t e ws := by
  have kind : f.kind = .rd := List.mem_singleton.1 (answers_kind s ha)
  simp only [State.receiveData, requestFor_answers ha, he]
  exact if_pos ⟨kind, hf, hc.symm⟩

/-- A DATA for a refresh job is the job's (R137). -/
theorem receiveData_job {r : RefreshRef} (ho : e.origin = .refresh r) :
    s.receiveData src t seq ws = (s.takeAnswer t f).jobData t e r ws := by
  have kind : f.kind = .rd := List.mem_singleton.1 (answers_kind s ha)
  simp only [State.receiveData, requestFor_answers ha, he]
  rw [if_pos ⟨kind, hf, hc.symm⟩, ho]

/-- A COMMAND or APERTURE entry's DATA: its request answered and the entry out of the queue, then the delivery. -/
theorem exec_hostRead (hl : s.linkUp = true) (low : 1 ≤ ws.length) (high : ws.length ≤ 16)
    (hm : e.origin ≠ .management) (ho : ∀ r, e.origin ≠ .refresh r) :
    exec (.receiveData src t seq ws) s = .next ((answeredAs s t e f.node
      { s.node f.node with
        inFlightTag := none, failCount := 0, nextSeq := !(s.node f.node).nextSeq }).deliver e .ok ws).finish := by
  have kind : f.kind = .rd := List.mem_singleton.1 (answers_kind s ha)
  have done : (s.takeAnswer t f).entryDone t e ws = ((s.takeAnswer t f).removeEntryOf t).deliver e .ok ws := by
    unfold State.entryDone
    split
    · rename_i origin; exact absurd origin hm
    · rfl
  rw [exec_receiveData hl low high, receiveData_read ha hf he hc ho, done, takeAnswer_removeEntryOf s hf he, kind,
    answered_read]

end Taken

/-! #### COMMAND READ and held aperture read -/

/-- A READ that ends OK carries its words (R155). -/
theorem completion_read {r : CommandRef} (h : r.kind = .read) : e.completion r .ok ws =
    { ticket := r.ticket, kind := .read, status := .ok, node := addrNum e.node, count := e.count, data := ws } := by
  simp [Entry.completion, Entry.completionCount, h]

theorem deliver_commandRead {u : State} {r : CommandRef} (ho : e.origin = .command r) (hop : e.op = .rd) :
    u.deliver e .ok ws = u.complete (e.completion r .ok ws) := by
  simp only [State.deliver, ho, State.deliverCommand, hop]

/-- The result of a held read ends the cycle of its handle with the word (R123). -/
theorem deliver_heldRead {u : State} {r : ApertureRef} {c : HeldCycle} (ho : e.origin = .aperture r)
    (held : r.held = true) (slot : u.lbi.slot = some c) (phase : c.phase = .resultWait) (handle : c.handle = r.handle)
    (access : c.access = .read) : u.deliver e .ok ws = { u with
      lbi := { u.lbi with slot := none, result := .ok }
      pins := { u.pins with busData := some (ws.headD 0xFFFF#16) } } := by
  simp only [State.deliver, ho, State.deliverAperture, held, if_true, slot, phase, handle, and_self, State.endHeld,
    access, Access.answer]
  rfl

end Data

/-- Settles O47: the request is answered, then the command completes or the held cycle ends. -/
theorem dataCompletesTheRead : Obligations.DataCompletesTheRead := by
  refine fun s src t seq ws f e hl low high ha hf he hop hc => ⟨fun r n ho hr hn => ?_,
    fun r c ho held slot phase handle access => ?_⟩
  · rw [exec_hostRead ha hf he hc hl low high (by rw [ho]; nofun) (by rw [ho]; nofun), deliver_commandRead ho hop,
      complete_reserved _ _ (show (answeredAs s t e _ _).cmd.reservations = n + 1 from hn), completion_read hr]
    rfl
  · rw [exec_hostRead ha hf he hc hl low high (by rw [ho]; nofun) (by rw [ho]; nofun),
      deliver_heldRead (u := answeredAs s t e _ _) ho held slot phase handle access]
    rfl

/-! #### Refresh jobs -/

section Job

variable {s : State} {t : TagId} {ws : List Word} {f : Flight} {e : Entry} {r : RefreshRef}

/-- The part with a job's request answered and its words landed, the job's entry in its place (R89, R138). -/
def jobAnswered (s : State) (t : TagId) (k : Addr) (e : Entry) (r : RefreshRef) (ws : List Word) : State :=
  { s with
    disp := s.tagEnded t (s.answeredTag e.attempts)
    nodes := s.nodes.set k.val
      { s.node k with inFlightTag := none, failCount := 0, nextSeq := !(s.node k).nextSeq }
    mirror :=
      if r.current (s.window r.window) then
        { s.mirror with pool := Memory.storeRange s.mirror.pool (r.segment + r.nextOffset) ws }
      else s.mirror }

theorem takeAnswer_land (kind : f.kind = .rd) (hf : f.holder = .entry) (he : s.entryOf t = some e) :
    (s.takeAnswer t f).land r ws = jobAnswered s t f.node e r ws := by
  rw [takeAnswer_eq, attemptsOf_entry s hf he, kind, answered_read, land_eq]
  rfl

theorem takeAnswer_serves (k : Addr) : ((s.takeAnswer t f).node k).serves = (s.node k).serves := by
  have state : ((s.takeAnswer t f).node k).state = (s.node k).state := by
    rw [State.takeAnswer, State.modNode_node, State.releaseTag_node, State.releaseTag_node]
    split
    · rename_i same; rw [same]; rfl
    · rfl
  simp only [NodeRecord.serves, state]

theorem takeAnswer_hasMore : (s.takeAnswer t f).jobHasMore r ws.length = true ↔
    r.nextOffset + ws.length < (s.window r.window).length.toNat := by
  simp [State.jobHasMore, State.takeAnswer]

/-- A job's entry, back in WAITING for its next request (R89, R137). -/
theorem advance_eq (ho : e.origin = .refresh r) (n : Nat) : e.advance n = { e with
    origin := .refresh { r with nextOffset := r.nextOffset + n }
    state := .waiting, tag := none, sentBit := none, attempts := 0 } := by
  rw [Entry.advance, ho]
  rfl

/-- With words left and its node in service the job waits for its next request (R137). -/
theorem jobData_goesOn (kind : f.kind = .rd) (hf : f.holder = .entry) (he : s.entryOf t = some e)
    (more : r.nextOffset + ws.length < (s.window r.window).length.toNat) (serves : s.inService e.node) :
    (s.takeAnswer t f).jobData t e r ws =
      (jobAnswered s t f.node e r ws).modEntryOf t fun x => x.advance ws.length := by
  rw [State.jobData, if_pos (takeAnswer_hasMore.2 more),
    if_pos ((takeAnswer_serves e.node).trans ((serves_iff _).2 serves)), takeAnswer_land kind hf he]

/-- With words left and its node out of service the job ends NODE_NOT_READY (R141). -/
theorem jobData_notReady (kind : f.kind = .rd) (hf : f.holder = .entry) (he : s.entryOf t = some e)
    (more : r.nextOffset + ws.length < (s.window r.window).length.toNat) (stopped : ¬ s.inService e.node) :
    (s.takeAnswer t f).jobData t e r ws =
      ((jobAnswered s t f.node e r ws).removeEntryOf t).deliver e .nodeNotReady [] := by
  rw [State.jobData, if_pos (takeAnswer_hasMore.2 more),
    if_neg (by rw [takeAnswer_serves]; exact mt (serves_iff _).1 stopped), takeAnswer_land kind hf he]

/-- The last DATA ends the job OK (R139). -/
theorem jobData_ends (kind : f.kind = .rd) (hf : f.holder = .entry) (he : s.entryOf t = some e)
    (last : (s.window r.window).length.toNat ≤ r.nextOffset + ws.length) :
    (s.takeAnswer t f).jobData t e r ws = ((jobAnswered s t f.node e r ws).removeEntryOf t).deliver e .ok ws := by
  rw [State.jobData, if_neg (mt takeAnswer_hasMore.1 (by omega)), takeAnswer_land kind hf he]

end Job

/-- Settles O49: by the words that the job has left and by its node's state. -/
theorem refreshDataGoesOnOrEndsTheJob : Obligations.RefreshDataGoesOnOrEndsTheJob := by
  intro s src t seq ws f e r hl low high ha hf he hx hn hc ho
  have kind : f.kind = .rd := List.mem_singleton.1 (answers_kind s ha)
  have run := exec_receiveData (src := src) (t := t) (seq := seq) hl low high
  rw [receiveData_job ha hf he hc ho] at run
  refine ⟨fun more serves => ?_, fun more stopped room => ?_, fun last room => ?_⟩
  · have advanced : (s.queue.map fun x => if x.tag = some t then x.advance ws.length else x) =
        s.queue.map fun x => if x.tag = some t then { e with
          origin := .refresh { r with nextOffset := r.nextOffset + ws.length }
          state := .waiting, tag := none, sentBit := none, attempts := 0 } else x := by
      refine List.map_congr_left fun x hq => ?_
      split
      · rename_i tag; rw [hx x hq tag, advance_eq ho]
      · rfl
    rw [run, jobData_goesOn kind hf he more serves, ← advanced]
    rfl
  · rw [run, jobData_notReady kind hf he more stopped,
      deliver_job_failed (s := (jobAnswered s t f.node e r ws).removeEntryOf t) ho room (by decide)]
    rfl
  · rw [run, jobData_ends kind hf he last,
      deliver_job_ok (s := (jobAnswered s t f.node e r ws).removeEntryOf t) ho room]
    rfl

end Sys2Proof.Proofs.OutboundQueue
end

section
/-! ### A REFUSE taken from the chain (R26, R86, R90, R93, R140) -/

namespace Sys2Proof.Proofs.OutboundQueue

open Sys2Proof Sys2Proof.Machine
open Sys2Proof.Proofs.NodeLifecycle (answeredAs answers_kind attemptsOf_entry complete_reserved)

section Refusal

variable {s : State} {src : BitVec 5} {t : TagId} {seq : Bool} {reason : Reason} {f : Flight} {e : Entry}
  {kinds : List Op}

theorem exec_receiveRefuse (hl : s.linkUp = true) :
    exec (.receiveRefuse src t seq reason) s = .next (s.receiveRefuse src t seq reason).finish :=
  congrArg Host.Outcome.next (fromChain_up _ hl)

theorem refusalStatus_ne_ok (reason : Reason) : refusalStatus reason ≠ .ok := by cases reason <;> decide

/-- A request's backoff: its timer runs as the backoff timer, its entry is BACKOFF (R86). -/
theorem takeBusy_eq : s.takeBusy t f = { s with
    disp := s.tagEnded t (.busy { f with timer := some { use := .backoff, duration := s.ctl.timeout } })
    queue := s.queue.map fun x => if x.tag = some t then { x with state := .backoff } else x } := rfl

/-- A request refused for good: the tag released and the entry out of the queue, then the delivery (R90). -/
theorem takeRefusal_host (hf : f.holder = .entry) (he : s.entryOf t = some e) (hm : e.origin ≠ .management) :
    s.takeRefusal t f e reason =
      (answeredAs s t e f.node (s.node f.node).refused).deliver e (refusalStatus reason) [] := by
  have answered : ((s.releaseTag t (s.attemptsOf t f)).modNode f.node NodeRecord.refused).removeEntryOf t =
      answeredAs s t e f.node (s.node f.node).refused := by
    rw [releaseTag_eq, attemptsOf_entry s hf he]
    rfl
  rw [← answered]
  unfold State.takeRefusal
  dsimp only
  split
  · rename_i origin; exact absurd origin hm
  · rfl

section Taken

variable (hl : s.linkUp = true) (ha : s.answers src t seq kinds f) (hk : ∀ op ∈ kinds, op.takesRefuse = true)
  (hf : f.holder = .entry) (he : s.entryOf t = some e)

include hl ha hk hf he

theorem exec_refusedBusy : exec (.receiveRefuse src t seq .busy) s = .next (s.takeBusy t f).finish := by
  rw [exec_receiveRefuse hl]
  simp only [State.receiveRefuse, requestFor_answers ha, he, if_true]
  rw [if_pos ⟨hk _ (answers_kind s ha), hf⟩]

theorem exec_refusedHost (hr : reason ≠ .busy) (hm : e.origin ≠ .management) :
    exec (.receiveRefuse src t seq reason) s = .next ((answeredAs s t e f.node
      { s.node f.node with inFlightTag := none, nextSeq := !(s.node f.node).nextSeq }).deliver e
        (refusalStatus reason) []).finish := by
  rw [exec_receiveRefuse hl]
  simp only [State.receiveRefuse, requestFor_answers ha, he]
  rw [if_pos ⟨hk _ (answers_kind s ha), hf⟩, if_neg hr, takeRefusal_host hf he hm]
  rfl

end Taken

/-- A COMMAND transfer's delivery is its completion (R93). -/
theorem deliver_transfer {u : State} {r : CommandRef} (ho : e.origin = .command r)
    (hop : e.op = .rd ∨ e.op = .wr ∨ e.op = .nreset) (st : Status) (ws : List Word) :
    u.deliver e st ws = u.complete (e.completion r st ws) := by
  simp only [State.deliver, ho]
  rcases hop with hop | hop | hop <;> simp only [State.deliverCommand, hop]

end Refusal

/-- Settles O53: BUSY starts the backoff, any other reason retires the entry with its completion. -/
theorem refuseBacksOffOrRetires : Obligations.RefuseBacksOffOrRetires := by
  intro s src t seq reason f e hl ha hf he
  refine ⟨fun busy => ?_, fun r n hr hop ho hn => ?_⟩
  · rw [busy, exec_refusedBusy hl ha (by decide) hf he, takeBusy_eq]
  · rw [exec_refusedHost hl ha (by decide) hf he hr (by rw [ho]; nofun), deliver_transfer ho hop,
      complete_reserved _ _ (show (answeredAs s t e _ _).cmd.reservations = n + 1 from hn),
      completion_ending e r _ [] (refusalStatus_ne_ok reason)]
    rfl

end Sys2Proof.Proofs.OutboundQueue
end

section
/-! ### The timer of a tag, and final failure (R77, R84, R96 to R98, R140, R181) -/

namespace Sys2Proof.Proofs.OutboundQueue

open Sys2Proof Sys2Proof.Machine
open Sys2Proof.Proofs.NodeLifecycle hiding entryOf_tag

section Failure

variable {s : State} {t : TagId} {e : Entry}

/-- A host-class transfer that failed finally: its entry delivers TIMEOUT, then the failure is counted (R97, R98). -/
theorem entryFailed_host (ht : e.tag = some t) (hm : e.origin ≠ .management)
    (hop : e.op = .rd ∨ e.op = .wr ∨ e.op = .nreset) : (s.dropFlight e).entryFailed t e =
      (((failedState s t e.node).removeEntryOf t).deliver e .timeout []).countFail e.node := by
  have other : e.op ≠ .assign ∧ e.op ≠ .ping := by rcases hop with h | h | h <;> rw [h] <;> decide
  obtain ⟨assign, ping⟩ := other
  rw [dropFlight_eq s ht assign]
  unfold State.entryFailed
  split
  · rename_i origin; exact absurd origin hm
  · rename_i op; exact absurd op ping
  · rfl

/-- The record of a node in doubt, the failure counted. -/
theorem failedRecord_eq (k : Addr) : { (s.node k).doubted with
    failCount := s.failedCount k
    state := if s.turnsSuspect k then .suspect else (s.node k).doubted.state } = s.failedRecord k := rfl

/-- A failure counted on a part whose node records are those of the failed request. -/
theorem countFail_failed {u : State} {k : Addr} (nodes : u.nodes = (failedState s t k).nodes) (ctl : u.ctl = s.ctl) :
    u.countFail k =
      { u with nodes := s.nodes.set k.val (s.failedRecord k), notices := s.failedNotices k u.notices } := by
  have record : u.node k = (s.node k).doubted := by
    rw [← failedState_node s t k]; simp only [State.node, nodes]
  rw [countFail_eq s record rfl rfl ctl, failedRecord_eq, nodes]
  simp [failedState]

/-- The part with a transfer failed finally: the tag in HOLD, the entry gone, the failure counted, and a record for the
command (R97, R98). -/
def transferFailed (s : State) (t : TagId) (k : Addr) (x : Completion) : State := { s with
  disp := s.tagEnded t (.hold (2 * s.ctl.timeout))
  queue := s.queue.filter fun x => x.tag != some t
  nodes := s.nodes.set k.val (s.failedRecord k)
  notices := s.failedNotices k s.notices
  cmd := s.cmd.complete x }

/-- A COMMAND transfer that failed finally completes TIMEOUT, and the failure is counted. -/
theorem entryFailed_transfer {r : CommandRef} (ht : e.tag = some t) (ho : e.origin = .command r)
    (hop : e.op = .rd ∨ e.op = .wr ∨ e.op = .nreset) :
    (s.dropFlight e).entryFailed t e = transferFailed s t e.node (e.completion r .timeout []) := by
  rw [entryFailed_host ht (by rw [ho]; nofun) hop, deliver_transfer ho hop]
  exact countFail_failed (t := t) rfl rfl

/-- A refresh job that failed finally leaves a current window stale, its commands complete TIMEOUT, and the failure is
counted. -/
theorem entryFailed_job {r : RefreshRef} (ht : e.tag = some t) (ho : e.origin = .refresh r) (hop : e.op = .rd)
    (room : r.attached.length ≤ s.cmd.reservations) : (s.dropFlight e).entryFailed t e = { s with
      disp := s.tagEnded t (.hold (2 * s.ctl.timeout))
      queue := s.queue.filter fun x => x.tag != some t
      nodes := s.nodes.set e.node.val (s.failedRecord e.node)
      windows :=
        if r.current (s.window r.window) then
          s.windows.set r.window.val { s.window r.window with stale := true }
        else s.windows
      notices := s.failedNotices e.node
        (if r.current (s.window r.window) then
          s.notices.post (s.window r.window).node.toNat .mirrorStale (BitVec.ofNat 16 r.window.val)
        else s.notices)
      cmd := s.cmd.ended (refreshEndings (s.window r.window) .timeout r.attached) } := by
  rw [entryFailed_host ht (by rw [ho]; nofun) (.inl hop),
    deliver_job_failed (s := (failedState s t e.node).removeEntryOf t) ho room (by decide), ite_leftStale]
  exact countFail_failed (t := t) rfl rfl

end Failure

/-- Settles O50: the refusal and the final failure both retire the job, the failure is counted as well. -/
theorem refreshFailureLeavesTheWindowStale : Obligations.RefreshFailureLeavesTheWindowStale := by
  intro s t f e r busy hf he hop ho hn room
  refine ⟨fun src seq reason hl ha hr => ?_, fun c use d hclk hc timer spent => ?_⟩
  · rw [exec_refusedHost hl ha (by decide) hf he hr (by rw [ho]; nofun),
      deliver_job_failed (s := answeredAs s t e f.node _) ho room (refusalStatus_ne_ok reason),
      ite_leftStale, ite_leftStale]
    rfl
  · rw [exec_entryFailure hclk hc busy timer hf he spent, entryFailed_job (entryOf_tag he) ho hop room,
      ite_leftStale]
    rfl

end Sys2Proof.Proofs.OutboundQueue
end

section
/-! ### The expiry of a tag's timer (R77, R84, R96 to R98, R181) -/

namespace Sys2Proof.Proofs.OutboundQueue

open Sys2Proof Sys2Proof.Machine
open Sys2Proof.Proofs.NodeLifecycle hiding entryOf_tag

section Timer

variable {s : State} {t : TagId} {c : Instr} {use : TimerUse}

theorem exec_timerExpiry (hclk : s.pins.clkIn = true)
    (hc : c = .responseTimerExpiry t ∧ use = .response ∨ c = .backoffTimerExpiry t ∧ use = .backoff) :
    exec c s = .next (s.tagExpiry t use) := by
  rcases hc with ⟨rfl, rfl⟩ | ⟨rfl, rfl⟩
  · exact congrArg Host.Outcome.next (clocked_on (fun s => s.tagExpiry t .response) hclk)
  · exact congrArg Host.Outcome.next (clocked_on (fun s => s.tagExpiry t .backoff) hclk)

theorem exec_holdExpiry (hclk : s.pins.clkIn = true) : exec (.tagHoldExpiry t) s = .next (s.holdExpiry t) :=
  congrArg Host.Outcome.next (clocked_on _ hclk)

/-- With transmissions left the request joins the resend list (R84). -/
theorem tagExpiry_resends {f : Flight} {d : Nat} (busy : s.tag t = .busy f)
    (timer : f.timer = some { use := use, duration := d }) (left : s.attemptsOf t f < 1 + s.ctl.retryLimit) :
    s.tagExpiry t use = (s.resendDue t f).finish := by
  rw [State.tagExpiry, busy]
  dsimp only
  rw [if_pos (by simp [Flight.timed, timer]), State.attemptExpired, if_pos left]

/-- A timer that does not run for the use does not expire (R76). -/
theorem tagExpiry_idle (h : ∀ f, s.tag t = .busy f → ∀ x, f.timer = some x → x.use ≠ use) :
    s.tagExpiry t use = s := by
  unfold State.tagExpiry
  split
  · rename_i f busy
    refine if_neg fun timed => ?_
    unfold Flight.timed at timed
    split at timed
    · rename_i x timer; exact h f busy x timer (by simpa using timed)
    · cases timed
  · rfl

theorem holdExpiry_hold {d : Nat} (h : s.tag t = .hold d) : s.holdExpiry t = (s.setTag t .free).finish := by
  rw [State.holdExpiry, h]

theorem holdExpiry_idle (h : ∀ d, s.tag t ≠ .hold d) : s.holdExpiry t = s := by
  unfold State.holdExpiry
  split
  · rename_i d held; exact absurd held (h d)
  · rfl

end Timer

section Untagged

variable {s : State} {t : TagId}

theorem cycleEntry_tag (c : HeldCycle) : c.entry.tag = none := by
  unfold HeldCycle.entry
  cases c.access <;> rfl

/-- A tag that is not FREE and that no entry holds is given to none at the end of the event (R75, R78). -/
theorem finish_untagged (h : ∀ x ∈ s.queue, x.tag ≠ some t) (ht : s.tag t ≠ .free) :
    ∀ x ∈ s.finish.queue, x.tag ≠ some t := by
  obtain ⟨added, backlog, management⟩ := (serveBacklog_served s).queue
  obtain ⟨cycle, served, cycles⟩ := serveCycle_queue s.serveBacklog
  have tag : s.serveSlots.tag t = s.tag t := by
    simp only [State.tag, State.serveSlots, (serveCycle_frame _).disp, (serveBacklog_chain s).1.disp]
  have slots : ∀ x ∈ s.serveSlots.queue, x.tag ≠ some t := by
    intro x hx
    rw [State.serveSlots, served, backlog] at hx
    rcases List.mem_append.1 hx with hx | hx
    · rcases List.mem_append.1 hx with hx | hx
      · exact h x hx
      · obtain ⟨-, -, untagged, -⟩ := management x hx
        rw [untagged]; nofun
    · obtain ⟨c, -, -, rfl⟩ := cycles x hx
      rw [cycleEntry_tag]; nofun
  intro x hx
  obtain ⟨y, hy, sent⟩ := (chosen_dispatch s.serveSlots).queue x hx
  rcases sent.tag with same | ⟨z, given, free⟩
  · rw [same]; exact slots y hy
  · rw [given]
    rintro ⟨⟩
    exact ht (tag ▸ free)

end Untagged

section Transfer

variable {s : State} {t : TagId}

theorem transferFailed_tag (k : Addr) (x : Completion) : (transferFailed s t k x).tag t = .hold (2 * s.ctl.timeout) :=
  s.setTag_tag_self t _

theorem transferFailed_node (k : Addr) (x : Completion) : (transferFailed s t k x).node k = s.failedRecord k :=
  s.setNode_node_self k _

theorem transferFailed_untagged (k : Addr) (x : Completion) :
    ∀ y ∈ (transferFailed s t k x).queue, y.tag ≠ some t := fun y hy => by
  obtain ⟨-, other⟩ := List.mem_filter.1 hy
  simpa using other

theorem transferFailed_completes (k : Addr) (x : Completion) (room : 0 < s.cmd.reservations) :
    x ∈ (transferFailed s t k x).cmd.completions := by
  obtain ⟨n, hn⟩ := Nat.exists_eq_add_of_lt room
  show x ∈ (s.cmd.complete x).completions
  simp [CommandPort.complete, hn]

theorem failedRecord_state {k : Addr} (online : (s.node k).state = .online) : (s.failedRecord k).state =
    if s.ctl.failThreshold ≤ min 7 ((s.node k).failCount + 1) then .suspect else .online := by
  simp only [State.failedRecord, State.turnsSuspect, State.failedCount, online, true_and]

theorem failedRecord_resync {k : Addr} (online : (s.node k).state = .online) : (s.failedRecord k).resync = true := by
  simp only [State.failedRecord, online, reduceCtorEq, if_false]

/-- An ONLINE node that a failure leaves ONLINE or SUSPECT is out of the reach of the admission (R65). -/
theorem transferFailed_settles {k : Addr} (x : Completion) (online : (s.node k).state = .online)
    (account : AccountOk s) : Settles k (s.failedRecord k) (transferFailed s t k x) where
  record := transferFailed_node k x
  decided := by
    rw [failedRecord_state online]
    split <;> decide
  unlisted listed := by
    have denied := account.listed k listed
    rw [online] at denied
    cases denied

end Transfer

/-- Settles O57: by what the expiry finds the tag to be, and by the transmissions left. -/
theorem tagTimerResendsOrFails : Obligations.TagTimerResendsOrFails := by
  intro s t c use hclk hc
  refine ⟨fun f d busy timer left => ?_, fun f d e r busy timer hf he ho hop spent room online account => ?_,
    fun idle => ?_, fun d held => ?_, fun idle => ?_⟩
  · rw [exec_timerExpiry hclk hc, tagExpiry_resends busy timer left]
    rfl
  · have run := exec_entryFailure hclk hc busy timer hf he spent
    rw [entryFailed_transfer (entryOf_tag he) ho hop] at run
    set u := transferFailed s t e.node (e.completion r .timeout []) with hu
    obtain ⟨record, -⟩ := finish_settles u (transferFailed_settles _ online account)
    have ended := (finish_completions u).subset (transferFailed_completes _ _ room)
    rw [completion_ending e r .timeout [] (by decide)] at ended
    refine ⟨u.finish, run, finish_held u t _ (transferFailed_tag _ _), ?_, ?_, ?_, ⟨_, ended, rfl, rfl, rfl, rfl⟩,
      finish_untagged (transferFailed_untagged _ _) (by rw [transferFailed_tag]; nofun), finish_ctl u, finish_windows u,
      finish_mirror u⟩
    · rw [record]; rfl
    · rw [record]; exact failedRecord_state online
    · rw [record]; exact failedRecord_resync online
  · rw [exec_timerExpiry hclk hc, tagExpiry_idle idle]
  · rw [exec_holdExpiry hclk, holdExpiry_hold held]
    rfl
  · rw [exec_holdExpiry hclk, holdExpiry_idle idle]

end Sys2Proof.Proofs.OutboundQueue
end

section
/-! ### The disable of a window (R91, R100, R116, R131, R132, R135, R142) -/

namespace Sys2Proof.Proofs.OutboundQueue

open Sys2Proof Sys2Proof.Machine
open Sys2Proof.Proofs.NodeLifecycle (dropFlight_eq finish_queue retireAll_none)

section Disable

variable {s : State} {i : WinIx} {w : Word}

/-- The part with record `i` free and its refresh timer stopped, its jobs still in the queue (R116, R132). -/
def windowFreed (s : State) (i : WinIx) : State :=
  (s.setWindow i (s.window i).disabled).setRefreshTimer i none

theorem exec_windowDisable_enabled (hr : s.hostReady = true) (hw : w.getLsbD 0 = false)
    (enabled : (s.window i).enabled = true) : exec (.windowDisable i w) s =
      .next ((windowFreed s.released i).retireAll (·.isJobOf i) .aborted).finish := by
  rw [exec_windowDisable i hr, State.windowWrite]
  exact congrArg Host.Outcome.next ((if_pos enabled).trans (if_pos ⟨rfl, hw⟩))

theorem disabled_eq (v : Window) : v.disabled = { v with
    enabled := false, attached := false, boundIncarnation := 0#16,
    mirrorSegment := if v.kind = 2#2 then 0 else v.mirrorSegment } := by
  simp [Window.disabled, Window.isMirror]

theorem windowFreed_window (j : WinIx) :
    (windowFreed s i).window j = if j = i then (s.window i).disabled else s.window j := by
  rw [windowFreed, State.setRefreshTimer_window, State.setWindow_window]

theorem windowFreed_endings (st : Status) (e : Entry) : (windowFreed s i).endings st e = s.endings st e := by
  refine endings_congr s (fun j => ?_) st e
  rw [windowFreed_window]
  split
  · rename_i same; rw [same]; rfl
  · rfl

theorem windowFreed_disabled : ((windowFreed s i).window i).enabled = false := by
  rw [windowFreed_window, if_pos rfl]; rfl

theorem isJobOf_iff {e : Entry} : e.isJobOf i = true ↔ ∃ r, e.origin = .refresh r ∧ r.window = i := by
  unfold Entry.isJobOf
  split
  · rename_i r origin; simp [origin]
  · rename_i other; simpa using fun r origin => absurd origin (other r)

theorem isJobOf_of_mem {q : List Entry} {e : Entry} (h : e ∈ q.filter (·.isJobOf i)) : e.isJobOf i = true :=
  List.of_mem_filter (p := fun x : Entry => x.isJobOf i) h

/-- A job of a disabled window ends otherwise than OK with its commands' records alone (R142). -/
theorem deliver_disabledJob {u : State} {e : Entry} {st : Status} (h : st ≠ .ok) (job : e.isJobOf i = true)
    (disabled : (u.window i).enabled = false) :
    u.deliver e st [] = { u with cmd := u.cmd.record (u.endings st e) } := by
  obtain ⟨r, origin, rfl⟩ := isJobOf_iff.1 job
  rw [State.deliver, State.endings, origin]
  exact deliverRefresh_disabled u r h disabled

theorem dropFlight_windows (u : State) (e : Entry) : (u.dropFlight e).windows = u.windows := by
  unfold State.dropFlight
  split
  · rfl
  · split <;> rfl

/-- The jobs of a disabled window are retired without a change of any window (R142). -/
theorem retireAll_disabled {u : State} {st : Status} (h : st ≠ .ok) (disabled : (u.window i).enabled = false) :
    (u.retireAll (·.isJobOf i) st).windows = u.windows := by
  have each : ∀ (l : List Entry) (v : State), v.windows = u.windows → (∀ e ∈ l, e.isJobOf i = true) →
      (l.foldl (fun v e => (v.dropFlight e).deliver e st []) v).windows = u.windows := by
    intro l
    induction l with
    | nil => exact fun _ same _ => same
    | cons e l ih =>
      intro v same jobs
      have dropped : (v.dropFlight e).windows = u.windows := (dropFlight_windows v e).trans same
      refine ih _ ?_ fun x hx => jobs x (List.mem_cons_of_mem _ hx)
      dsimp only
      rw [deliver_disabledJob h (jobs e List.mem_cons_self) (by rw [State.window, dropped]; exact disabled)]
      exact dropped
  exact each _ _ rfl fun _ => isJobOf_of_mem

/-- A single job retired: its flight ends, then its commands complete. -/
theorem retireAll_oneJob {u : State} {e : Entry} {st : Status} (h : st ≠ .ok)
    (one : u.queue.filter (·.isJobOf i) = [e]) (disabled : (u.window i).enabled = false) :
    u.retireAll (·.isJobOf i) st =
      { (({ u with queue := u.queue.filter fun x => !x.isJobOf i } : State).dropFlight e) with
        cmd := u.cmd.record (u.endings st e) } := by
  have job : e.isJobOf i = true := isJobOf_of_mem (one ▸ List.mem_singleton_self e)
  set v : State := { u with queue := u.queue.filter fun x => !x.isJobOf i } with hv
  have endings : (v.dropFlight e).endings st e = u.endings st e :=
    endings_congr u (fun j => by rw [dropFlight_window]; rfl) st e
  rw [State.retireAll, one, List.foldl_cons, List.foldl_nil, ← hv,
    deliver_disabledJob h job (by rw [dropFlight_window]; exact disabled), dropFlight_cmd, endings]

/-- The job of a freed record retired: its commands complete ABORTED in the order of their list (R135, R142). -/
theorem retireAll_freedJob {e : Entry} {r : RefreshRef} (one : s.queue.filter (·.isJobOf i) = [e])
    (origin : e.origin = .refresh r) (room : r.attached.length ≤ s.cmd.reservations) :
    (windowFreed s.released i).retireAll (·.isJobOf i) .aborted =
      { (({ windowFreed s.released i with queue := s.queue.filter fun x => !x.isJobOf i } : State).dropFlight e) with
        cmd := s.cmd.ended (refreshEndings (s.window i) .aborted r.attached) } := by
  obtain ⟨r', origin', same⟩ := isJobOf_iff.1 (isJobOf_of_mem (one ▸ List.mem_singleton_self e))
  obtain rfl : r = r' := Origin.refresh.inj (origin.symm.trans origin')
  have endings : (windowFreed s.released i).endings .aborted e = refreshEndings (s.window i) .aborted r.attached := by
    rw [windowFreed_endings, State.endings, origin, ← same]
    rfl
  rw [retireAll_oneJob (u := windowFreed s.released i) (by decide) one windowFreed_disabled, endings,
    record_refreshEndings (s := windowFreed s.released i) room]
  rfl

/-- After the event no entry is a job of the window (R142). -/
theorem finish_noJob {u : State} (slot : u.lbi.slot = none) (h : ∀ e ∈ u.queue, e.isJobOf i = false) :
    ∀ e ∈ u.finish.queue, e.isJobOf i = false := by
  intro e he
  rcases finish_queue u slot e he with management | ⟨x, hx, origin, -⟩
  · rw [Entry.isJobOf, management]
  · rw [isJobOf_congr origin]; exact h x hx

end Disable

/-- Settles O42: the record is freed, then its jobs, none of them current any more, are retired. -/
theorem windowDisableFreesTheRecord : Obligations.WindowDisableFreesTheRecord := by
  intro s i w hr hw enabled
  dsimp only
  rw [exec_windowDisable_enabled hr hw enabled, ← disabled_eq]
  have retired := retired_retireAll (windowFreed s.released i) (·.isJobOf i) .aborted (by decide)
  have windows (j : WinIx) : (((windowFreed s.released i).retireAll (·.isJobOf i) .aborted).finish.window j) =
      if j = i then (s.window i).disabled else s.window j := by
    rw [State.window, finish_windows, retireAll_disabled (by decide) windowFreed_disabled]
    exact windowFreed_window j
  refine ⟨fun noJob => ?_, fun e r one origin hop room => ?_, _, rfl, ?_, fun j hj => ?_, ?_, ?_, ?_⟩
  · rw [retireAll_none (windowFreed s.released i) _ _ noJob]
    rfl
  · rw [retireAll_freedJob one origin room]
    refine ⟨fun untagged => ?_, fun x tag => ?_⟩
    · rw [State.dropFlight, untagged]
      rfl
    · rw [dropFlight_eq _ tag (by rw [hop]; decide)]
      rfl
  · rw [windows, if_pos rfl]
  · rw [windows, if_neg hj]
  · refine finish_noJob ((retired.idle (hostReady_slot hr)).symm ▸ hostReady_slot hr) fun e he => ?_
    rw [retired.queue] at he
    simpa using List.of_mem_filter he
  · rw [finish_mirror, retired.mirror]
    rfl
  · rw [finish_ctl, retired.ctl]
    rfl

end Sys2Proof.Proofs.OutboundQueue
end

section
/-! ### The window map and the bindings: laws of a step (R113, R114, R129) -/

namespace Sys2Proof.Proofs.ApertureWindows

open Sys2Proof Sys2Proof.Machine
open Sys2Proof.Proofs.OutboundQueue (step_keeps)

/-- Settles O7: each small change keeps the window map disjoint and the bindings true. -/
theorem windowMapAndBindingKept : Obligations.WindowMapAndBindingKept := fun _ _ hstep =>
  ⟨step_keeps windows_of_micro (fun _ _ h => h.follows (.of_eq rfl)) (fun _ _ h => h.follows (.of_eq rfl)) hstep,
    step_keeps binding_of_micro (fun _ _ h => h) (fun _ _ h => h) hstep⟩

end Sys2Proof.Proofs.ApertureWindows
end

section
/-! ### An aperture access in the event of its host cycle (R118 to R122, R125) -/

namespace Sys2Proof.Proofs.ApertureWindows

open Sys2Proof Sys2Proof.Machine
open Sys2Proof.Proofs.NodeChain (serveCycle_done)
open Sys2Proof.Proofs.NodeLifecycle (enqueueHost_eq)

section Access

variable {s : State} {o : BitVec 10} {a : Access} {i : WinIx} {k : Addr} {st : Status} {w : Window} {remote : Word}

/-! #### The window of an access and its checks -/

/-- A read is given a word and a write none (R172). -/
theorem answer_eq (a : Access) (v : Word) : Access.answer a v = if a = .read then some v else none := by
  cases a with
  | read => rfl
  | write => simp [Access.answer]

theorem contains_iff (w : Window) (n : Nat) : w.contains n = true ↔
    w.enabled = true ∧ w.base.toNat ≤ n ∧ n < w.base.toNat + w.length.toNat := by
  simp only [Window.contains, Bool.and_eq_true, decide_eq_true_eq, and_assoc]

theorem windowAt_none (h : ∀ i : WinIx, ¬ ((s.window i).enabled = true ∧ (s.window i).base.toNat ≤ o.toNat ∧
    o.toNat < (s.window i).base.toNat + (s.window i).length.toNat)) : s.windowAt o.toNat = none :=
  List.find?_eq_none.2 fun i _ found => h i ((contains_iff _ _).1 found)

/-- The checks of R119 in their order. -/
theorem accessRefusal_eq : s.accessRefusal w k a remote =
    if w.attached = false then some .detached
    else if a ≠ .read ∧ (w.kind = 2#2 ∨ w.writeProtect = true) then some .prot
    else if (s.node k).state ≠ .online ∧ (s.node k).state ≠ .suspect then some .nodeNotReady
    else if (s.node k).span.getD 0 ≤ remote.toNat then some .outOfSpan
    else none := by
  simp [State.accessRefusal, Window.isMirror, NodeRecord.serves]

/-- An access passes the checks of R119 through an ATTACHED window of a node in service, within its span, and is not a
write that the window refuses. -/
theorem accessRefusal_none (attached : w.attached = true) (serves : s.inService k)
    (writable : a ≠ .read → w.kind ≠ 2#2 ∧ w.writeProtect = false) (span : remote.toNat < (s.node k).span.getD 0) :
    s.accessRefusal w k a remote = none := by
  have taken : ¬ (a ≠ .read ∧ (w.kind = 2#2 ∨ w.writeProtect = true)) := by
    rintro ⟨write, refused⟩
    obtain ⟨direct, unlocked⟩ := writable write
    simp [direct, unlocked] at refused
  have ready : ¬ ((s.node k).state ≠ .online ∧ (s.node k).state ≠ .suspect) := fun ⟨online, suspect⟩ =>
    serves.elim online suspect
  rw [accessRefusal_eq, if_neg (by simp [attached]), if_neg taken, if_neg ready, if_neg (Nat.not_le.2 span)]

/-! #### What an access does by its checks -/

/-- The remote address of aperture word `o` (R118). -/
def remoteOf (w : Window) (o : BitVec 10) : Word := w.remoteBase + BitVec.ofNat 16 (o.toNat - w.base.toNat)

/-- The access enters the window that contains its word (R118). -/
theorem apertureAccess_through (found : s.windowAt o.toNat = some i) (names : (s.window i).node.toNat = addrNum k) :
    s.apertureAccess o a = s.accessThrough i k a o := by
  simp only [State.apertureAccess, found, addrOf_num names]

theorem accessThrough_refused (h : s.accessRefusal (s.window i) k a (remoteOf (s.window i) o) = some st) :
    s.accessThrough i k a o = s.refuseAccess a o (s.window i).node.toNat st := by
  rw [remoteOf] at h
  simp only [State.accessThrough, h]

theorem accessThrough_mirror (h : s.accessRefusal (s.window i) k a (remoteOf (s.window i) o) = none)
    (mirror : (s.window i).kind = 2#2) :
    s.accessThrough i k a o = s.endAtOnce a .ok (s.mirrorWord (s.window i) o) := by
  rw [remoteOf] at h
  simp only [State.accessThrough, h, Window.isMirror, mirror, beq_self_eq_true, if_true]

theorem accessThrough_held (h : s.accessRefusal (s.window i) k a (remoteOf (s.window i) o) = none)
    (direct : (s.window i).kind ≠ 2#2) :
    s.accessThrough i k a o = (s.holdCycle i k a o (remoteOf (s.window i) o)).finish := by
  have other : (s.window i).isMirror = false := by simpa [Window.isMirror] using direct
  rw [remoteOf] at h ⊢
  simp only [State.accessThrough, h, other, Bool.false_eq_true, if_false]

/-- The part after an access refused in its own event (R118, R119). -/
def accessRefused (s : State) (o : BitVec 10) (a : Access) (node : Nat) (st : Status) : State :=
  { s with
    lbi := { s.lbi with result := st }
    pins := { s.pins with busData := if a = .read then some 0xFFFF#16 else none }
    notices := s.notices.post node .strayAccess (o.setWidth 16) }

theorem refuseAccess_released (node : Nat) (st : Status) :
    s.released.refuseAccess a o node st = accessRefused s o a node st := by
  rw [State.refuseAccess, State.endAtOnce, answer_eq]
  rfl

/-- Settles O18: no window, or the first check that fails, ends the access in its own event. -/
theorem refusedAccessTakesItsStatus : Obligations.RefusedAccessTakesItsStatus := by
  intro s o a ready
  refine ⟨fun outside => ?_, fun i k st found names failed => ?_⟩
  · have none_at : s.released.windowAt o.toNat = none := windowAt_none outside
    rw [exec_apertureAccess o a ready, State.apertureAccess, none_at]
    exact congrArg Host.Outcome.next (refuseAccess_released 0 .unmapped)
  · have refusal : s.released.accessRefusal (s.window i) k a (remoteOf (s.window i) o) = some st :=
      accessRefusal_eq.trans failed.symm
    rw [exec_apertureAccess o a ready, apertureAccess_through (s := s.released) found names,
      accessThrough_refused refusal, released_window, names, refuseAccess_released]
    rfl

/-- Settles O19: the access passes the checks, and a MIRROR window ends it with the pool word. -/
theorem mirrorReadReturnsThePoolWord : Obligations.MirrorReadReturnsThePoolWord := by
  intro s o i k ready found names mirror attached serves span
  have passes : s.released.accessRefusal (s.window i) k .read (remoteOf (s.window i) o) = none :=
    accessRefusal_none attached serves (fun write => absurd rfl write) span
  rw [exec_apertureAccess o .read ready, apertureAccess_through (s := s.released) found names,
    accessThrough_mirror passes mirror]
  rfl

/-! #### The cycle in the slot -/

variable {c : HeldCycle}

theorem serveCycle_holds (full : s.hostSlotFree = false) : s.serveCycle = s :=
  serveCycle_done fun _ _ _ => full

theorem endHeld_eq (slot : s.lbi.slot = some c) (st : Status) (v : Word) : s.endHeld st v = { s with
    lbi := { s.lbi with slot := none, result := st }
    pins := { s.pins with busData := if c.access = .read then some v else none } } := by
  simp only [State.endHeld, slot, answer_eq]

/-- A cycle that finds a slot becomes an entry (R73, R122). -/
theorem serveCycle_queues (slot : s.lbi.slot = some c) (waits : c.phase = .slotWait) (free : s.hostSlotFree = true) :
    s.serveCycle = s.queueCycle c := by
  simp [State.serveCycle, slot, waits, free]

/-- A POSTED write that finds a slot ends with OK (R125). -/
theorem serveCycle_posted (slot : s.lbi.slot = some c) (waits : c.phase = .slotWait) (free : s.hostSlotFree = true)
    (posted : c.posted = true) (write : c.access ≠ .read) : s.serveCycle = { s with
      queue := s.queue ++ [c.entry]
      lbi := { s.lbi with slot := none, result := .ok }
      pins := { s.pins with busData := none } } := by
  have ended := endHeld_eq (s := { s with queue := s.queue ++ [c.entry] }) slot .ok Config.fillWord
  rw [if_neg write] at ended
  simp only [serveCycle_queues slot waits free, State.queueCycle, if_pos posted, enqueueHost_eq _ free, ended]

/-- Another access that finds a slot waits for its result (R122). -/
theorem serveCycle_awaitsResult (slot : s.lbi.slot = some c) (waits : c.phase = .slotWait)
    (free : s.hostSlotFree = true) (other : c.posted = false) : s.serveCycle = { s with
      queue := s.queue ++ [c.entry]
      lbi := { s.lbi with slot := some { c with phase := .resultWait } } } := by
  simp only [serveCycle_queues slot waits free, State.queueCycle, other, Bool.false_eq_true, if_false,
    enqueueHost_eq _ free]

/-- The cycle of an access through window `i` as it enters the held-cycle slot (R121, R122). -/
def newCycle (s : State) (i : WinIx) (k : Addr) (a : Access) (o : BitVec 10) (remote : Word) : HeldCycle :=
  { handle := s.lbi.nextHandle, phase := .slotWait, access := a, offset := o, window := i,
    holdTimer := s.ctl.holdLimit, posted := (s.window i).isPosted && a != .read, node := k, remote := remote }

/-- The part with that cycle in the slot, before a free host-class slot is given to it. -/
def cycleHeld (s : State) (i : WinIx) (k : Addr) (a : Access) (o : BitVec 10) (remote : Word) : State :=
  { s with lbi := { s.lbi with slot := some (newCycle s i k a o remote), nextHandle := s.lbi.nextHandle + 1 } }

theorem holdCycle_eq : s.holdCycle i k a o remote = (cycleHeld s i k a o remote).serveCycle := rfl

theorem newCycle_posted : (newCycle s i k a o remote).posted = true ↔ (s.window i).kind = 1#2 ∧ a ≠ .read := by
  simp [newCycle, Window.isPosted]

/-- A recognised access through a window that is not MIRROR, its checks passed, holds its cycle (R120). -/
theorem exec_access_held (ready : s.hostReady = true) (found : s.windowAt o.toNat = some i)
    (names : (s.window i).node.toNat = addrNum k) (direct : (s.window i).kind ≠ 2#2)
    (passes : s.accessRefusal (s.window i) k a (remoteOf (s.window i) o) = none) :
    exec (.apertureAccess o a) s =
      .next (cycleHeld s.released i k a o (remoteOf (s.window i) o)).serveCycle.finish := by
  rw [exec_apertureAccess o a ready, apertureAccess_through (s := s.released) found names,
    accessThrough_held (s := s.released) passes direct, holdCycle_eq, released_window]

end Access

/-- Settles O20: the access passes the checks, and its cycle takes the free slot or waits for one. -/
theorem accessThroughWindowIsQueuedOrHeld : Obligations.AccessThroughWindowIsQueuedOrHeld := by
  intro s o a i k remote posted ready found names direct attached serves unprotected translated span isPosted
  obtain rfl : remote = remoteOf (s.window i) o := translated
  obtain rfl : posted = (newCycle s i k a o (remoteOf (s.window i) o)).posted :=
    Bool.eq_iff_iff.2 (isPosted.trans newCycle_posted.symm)
  have passes : s.accessRefusal (s.window i) k a (remoteOf (s.window i) o) = none :=
    accessRefusal_none attached serves (fun write => ⟨direct, unprotected write⟩) span
  dsimp only
  rw [exec_access_held ready found names direct passes]
  refine ⟨fun free posted => ?_, fun free other => ?_, fun full => ?_⟩
  · obtain ⟨-, write⟩ := newCycle_posted.1 posted
    rw [serveCycle_posted (s := cycleHeld s.released i k a o _) rfl rfl free posted write]
    cases a with
    | read => exact absurd rfl write
    | write v => rfl
  · rw [serveCycle_awaitsResult (s := cycleHeld s.released i k a o _) rfl rfl free other]
    cases a with
    | read => rfl
    | write v => rfl
  · rw [serveCycle_holds (s := cycleHeld s.released i k a o _) full]
    rfl

end Sys2Proof.Proofs.ApertureWindows
end

section
/-! ### The end of the held cycle by the hold limit or the host (R122, R124, R173, R181) -/

namespace Sys2Proof.Proofs.ApertureWindows

open Sys2Proof Sys2Proof.Machine

section Expiry

variable {s : State} {c : HeldCycle}

/-- The part after a cycle in SLOT_WAIT has reached the hold limit (R122). -/
def waitExpired (s : State) (c : HeldCycle) : State :=
  { s with
    lbi := { s.lbi with slot := none, result := .queueFull }
    pins := { s.pins with busData := if c.access = .read then some 0xFFFF#16 else none }
    notices := if c.posted then s.notices.post (addrNum c.node) .postedWriteLost 6#16 else s.notices }

/-- The part after a cycle in RESULT_WAIT has been abandoned (R124). -/
def cycleAbandoned (s : State) (c : HeldCycle) : State :=
  { s with
    lbi := { s.lbi with slot := none, result := .abandoned }
    pins := { s.pins with busData := if c.access = .read then some 0xFFFF#16 else none }
    notices := s.notices.post (addrNum c.node) .apertureAbandoned (c.offset.setWidth 16)
    queue := s.queue.map (·.abandon c.handle) }

theorem expireHold_empty (empty : s.lbi.slot = none) : s.expireHold = s := by
  simp only [State.expireHold, empty]

theorem endSlotWait_queueFull (slot : s.lbi.slot = some c) (waits : c.phase = .slotWait) :
    s.endSlotWait .queueFull = waitExpired s c := by
  simp only [State.endSlotWait, slot, if_pos waits, endHeld_eq slot]
  rw [waitExpired]
  split <;> rfl

theorem abandonCycle_eq (slot : s.lbi.slot = some c) : s.abandonCycle c = cycleAbandoned s c := by
  simp only [State.abandonCycle, endHeld_eq slot]
  rfl

/-- The expiry of the hold timer ends the cycle by its phase (R122, R124). -/
theorem expireHold_eq (slot : s.lbi.slot = some c) :
    s.expireHold = if c.phase = .slotWait then waitExpired s c else cycleAbandoned s c := by
  cases phase : c.phase with
  | slotWait =>
    rw [if_pos rfl, ← endSlotWait_queueFull slot phase]
    simp only [State.expireHold, slot, phase]
  | resultWait =>
    rw [if_neg (by decide), ← abandonCycle_eq slot]
    simp only [State.expireHold, slot, phase]

theorem exec_holdLimitExpiry (running : s.pins.clkIn = true) : exec .holdLimitExpiry s = .next s.expireHold :=
  congrArg Host.Outcome.next (clocked_on _ running)

/-- The host's abort is an early expiry that also releases D[15:0] (R173). -/
theorem exec_hostCycleAbort : exec .hostCycleAbort s = .next s.expireHold.released := rfl

end Expiry

/-- Settles O21: the limit and the abort end the cycle by its phase, and find nothing to end in an EMPTY slot. -/
theorem holdLimitOrAbortEndsTheHeldCycle : Obligations.HoldLimitOrAbortEndsTheHeldCycle := by
  refine ⟨fun s empty => ⟨?_, ?_⟩, fun s c slot => ⟨fun running => ?_, ?_⟩⟩
  · have still : s.clocked State.expireHold = s := by
      rw [State.clocked, expireHold_empty empty, ite_self]
    exact congrArg Host.Outcome.next still
  · rw [exec_hostCycleAbort, expireHold_empty empty]
  · rw [exec_holdLimitExpiry running, expireHold_eq slot]
    rfl
  · rw [exec_hostCycleAbort, expireHold_eq slot]
    rfl

end Sys2Proof.Proofs.ApertureWindows
end

section
/-! ### Window field writes and the enable (R112 to R114, R129, R131, R132) -/

namespace Sys2Proof.Proofs.ApertureWindows

open Sys2Proof Sys2Proof.Machine

section Fields

variable {s : State} {i : WinIx} {word : Fin 8} {v : Word} {w : Window}

/-! #### A write to a record's word -/

/-- The writable fields of each word of a record (12.5). -/
theorem writeField_eq (w : Window) (word : Fin 8) (v : Word) : w.writeField word v =
    if word = 0 then { w with kind := v.extractLsb' 1 2, writeProtect := v.getLsbD 3, node := v.extractLsb' 4 5 }
    else if word = 1 then { w with base := v.extractLsb' 0 10 }
    else if word = 2 then { w with length := v.extractLsb' 0 11 }
    else if word = 3 then { w with remoteBase := v }
    else if word = 4 then { w with interval := v.extractLsb' 0 8 }
    else w := by
  fin_cases word <;> rfl

/-- An enabled record takes a disable only (R112). -/
theorem windowWrite_enabled (enabled : (s.window i).enabled = true) (other : word ≠ 0 ∨ v.getLsbD 0 = true) :
    s.windowWrite i word v = s := by
  have kept : ¬ (word = 0 ∧ bitAt v 0 = false) := fun ⟨first, clear⟩ =>
    other.elim (· first) fun set => by rw [bitAt, set] at clear; cases clear
  simp only [State.windowWrite, if_pos enabled, if_neg kept]

/-- A disabled record takes the written fields (R112). -/
theorem windowWrite_stores (disabled : (s.window i).enabled = false) (other : word ≠ 0 ∨ v.getLsbD 0 = false) :
    s.windowWrite i word v = s.setWindow i ((s.window i).writeField word v) := by
  have plain : ¬ (word = 0 ∧ bitAt v 0 = true) := fun ⟨first, set⟩ =>
    other.elim (· first) fun clear => by rw [bitAt, clear] at set; cases set
  simp only [State.windowWrite, disabled, Bool.false_eq_true, if_false, if_neg plain]

/-- A write of word 0 with the enabled bit set stores the fields, then tries the enable (R112, R113). -/
theorem windowWrite_enables (disabled : (s.window i).enabled = false) (asks : v.getLsbD 0 = true) :
    s.windowWrite i 0 v = (s.setWindow i ((s.window i).writeWord0 v)).tryEnable i := by
  have enables : bitAt v 0 = true := asks
  simp only [State.windowWrite, disabled, Bool.false_eq_true, if_false, enables, and_self, if_true]
  rfl

/-! #### The checks of an enable -/

theorem setWindow_setWindow (s : State) (i : WinIx) (w w' : Window) :
    (s.setWindow i w).setWindow i w' = s.setWindow i w' := by
  simp only [State.setWindow, Vector.set_set]

theorem conflicts_iff : s.conflicts i w = true ↔
    ∃ j, j ≠ i ∧ (s.window j).enabled = true ∧ w.overlaps (s.window j) = true := by
  simp [State.conflicts, allWindows, and_assoc]

/-- The other records decide whether a record conflicts (R113, check 3). -/
theorem setWindow_conflicts (s : State) (i : WinIx) (w w' : Window) :
    (s.setWindow i w).conflicts i w' = s.conflicts i w' := by
  rw [Bool.eq_iff_iff, conflicts_iff, conflicts_iff]
  refine exists_congr fun j => and_congr_right fun other => ?_
  rw [State.setWindow_window, if_neg other]

/-- A record that is not enabled holds no segment, before and after its fields are written (R129). -/
theorem setWindow_segments (disabled : (s.window i).enabled = false) (still : w.enabled = false) :
    (s.setWindow i w).segments = s.segments := by
  refine List.filterMap_congr fun j _ => ?_
  rw [State.setWindow_window]
  split
  · subst_vars
    simp only [disabled, still, Bool.false_and, Bool.false_eq_true, if_false]
  · rfl

theorem setWindow_enableCase (disabled : (s.window i).enabled = false) (still : w.enabled = false) :
    (s.setWindow i w).enableCase i w = s.enableCase i w := by
  simp only [State.enableCase, setWindow_conflicts, setWindow_segments disabled still, State.setWindow_node]

/-- Check 1 fails on a node field outside 1..24 too (R113). -/
theorem enableCase_outOfRange (h : w.inRange = false) : s.enableCase i w = .refuse .range := by
  unfold State.enableCase
  split
  · rfl
  · rw [h]; rfl

/-- Checks 2 to 4, on a record that passes check 1 (R113, R129). -/
theorem enableCase_inRange {k : Addr} (h : w.inRange = true) (names : w.node.toNat = addrNum k) :
    s.enableCase i w =
      if (s.node k).state = .vacant then .refuse .nodeAbsent
      else if s.conflicts i w then .refuse .conflict
      else if w.kind = 2#2 then
        (lowestBase s.segments w.length.toNat).elim (.refuse .noMirrorSpace) (.bindMirror k)
      else .bind k := by
  simp only [State.enableCase, addrOf_num names, h, Window.isMirror]
  by_cases mirror : w.kind = 2#2
  · cases lowestBase s.segments w.length.toNat <;> simp [mirror]
  · simp [mirror]

end Fields

/-! #### The run of pool words of a MIRROR record -/

section Segments

variable {s : State} {i : WinIx} {n b : Nat}

/-- A run of `n` pool words from `b` up lies in the pool and meets no segment of a record other than `i` (R129). -/
def FitsBeside (s : State) (i : WinIx) (n b : Nat) : Prop :=
  b + n ≤ 512 ∧ ∀ j, j ≠ i → (s.window j).enabled = true → (s.window j).kind = 2#2 →
    (s.window j).mirrorSegment + (s.window j).length.toNat ≤ b ∨ b + n ≤ (s.window j).mirrorSegment

theorem mem_segments_iff (g : Segment) : g ∈ s.segments ↔
    ∃ j, (s.window j).enabled = true ∧ (s.window j).kind = 2#2 ∧
      g = ⟨j, (s.window j).mirrorSegment, (s.window j).length.toNat⟩ := by
  simp only [State.segments, List.mem_filterMap, allWindows, List.mem_finRange, true_and, Window.isMirror,
    Option.ite_none_right_eq_some, Bool.and_eq_true, beq_iff_eq, Option.some.injEq, and_assoc, eq_comm (a := g)]

theorem meets_false_iff (g : Segment) : g.meets b n = false ↔ g.base + g.length ≤ b ∨ b + n ≤ g.base := by
  simp only [Segment.meets, Bool.and_eq_false_iff, decide_eq_false_iff_not, Nat.not_lt]

/-- What the search for a run tests at each base, for a record that holds no segment itself. -/
theorem fitsBeside_iff (disabled : (s.window i).enabled = false) :
    (decide (b + n ≤ Config.poolSize) && s.segments.all fun g => !g.meets b n) = true ↔ FitsBeside s i n b := by
  simp only [Bool.and_eq_true, decide_eq_true_eq, List.all_eq_true, Bool.not_eq_true']
  refine and_congr_right fun _ => ⟨fun apart j _ enabled mirror => ?_, fun apart g hg => ?_⟩
  · exact (meets_false_iff _).1 (apart _ ((mem_segments_iff _).2 ⟨j, enabled, mirror, rfl⟩))
  · obtain ⟨j, enabled, mirror, rfl⟩ := (mem_segments_iff g).1 hg
    have other : j ≠ i := by rintro rfl; rw [disabled] at enabled; cases enabled
    exact (meets_false_iff _).2 (apart j other enabled mirror)

theorem lowestBase_none (disabled : (s.window i).enabled = false) (none_fits : ∀ b, ¬ FitsBeside s i n b) :
    lowestBase s.segments n = none :=
  List.find?_eq_none.2 fun b _ fits => none_fits b ((fitsBeside_iff disabled).1 fits)

theorem lowestBase_some (disabled : (s.window i).enabled = false) (fits : FitsBeside s i n b)
    (lowest : ∀ b' < b, ¬ FitsBeside s i n b') : lowestBase s.segments n = some b := by
  have inPool : b + n ≤ Config.poolSize := fits.1
  refine List.find?_range_eq_some.2 ⟨(fitsBeside_iff disabled).2 fits, by simp; omega, fun b' below => ?_⟩
  rw [Bool.not_eq_true', Bool.eq_false_iff]
  exact fun found => lowest b' below ((fitsBeside_iff disabled).1 found)

end Segments

/-! #### The enable attempt -/

section Enable

variable {s : State} {i : WinIx} {w : Window} {v : Word} {k : Addr}

section Checks

variable (range : w.inRange = true) (names : w.node.toNat = addrNum k)

include range names

theorem enableCase_vacant (vacant : (s.node k).state = .vacant) : s.enableCase i w = .refuse .nodeAbsent := by
  rw [enableCase_inRange range names, if_pos vacant]

variable (occupied : (s.node k).state ≠ .vacant)

include occupied

theorem enableCase_conflict
    (conflict : ∃ j, j ≠ i ∧ (s.window j).enabled = true ∧ w.overlaps (s.window j) = true) :
    s.enableCase i w = .refuse .conflict := by
  rw [enableCase_inRange range names, if_neg occupied, if_pos (conflicts_iff.2 conflict)]

variable (apart : ¬ ∃ j, j ≠ i ∧ (s.window j).enabled = true ∧ w.overlaps (s.window j) = true)

include apart

theorem enableCase_bind (direct : w.kind ≠ 2#2) : s.enableCase i w = .bind k := by
  rw [enableCase_inRange range names, if_neg occupied, if_neg (mt conflicts_iff.1 apart), if_neg direct]

variable (mirror : w.kind = 2#2) (disabled : (s.window i).enabled = false)

include mirror disabled

theorem enableCase_noSpace (full : ∀ b, ¬ FitsBeside s i w.length.toNat b) :
    s.enableCase i w = .refuse .noMirrorSpace := by
  rw [enableCase_inRange range names, if_neg occupied, if_neg (mt conflicts_iff.1 apart), if_pos mirror,
    lowestBase_none disabled full, Option.elim_none]

theorem enableCase_bindMirror {b : Nat} (fits : FitsBeside s i w.length.toNat b)
    (lowest : ∀ b' < b, ¬ FitsBeside s i w.length.toNat b') : s.enableCase i w = .bindMirror k b := by
  rw [enableCase_inRange range names, if_neg occupied, if_neg (mt conflicts_iff.1 apart), if_pos mirror,
    lowestBase_some disabled fits lowest, Option.elim_some]

end Checks

/-- A record with the fields of word 0 written is enabled as before. -/
theorem writeWord0_enabled (w : Window) (v : Word) : (w.writeWord0 v).enabled = w.enabled := rfl

section Attempt

variable (disabled : (s.window i).enabled = false) (still : w.enabled = false)

include disabled still

/-- A refused enable leaves the written fields and the status (R113). -/
theorem tryEnable_refused {st : Status} (h : s.enableCase i w = .refuse st) :
    (s.setWindow i w).tryEnable i = s.setWindow i { w with enableStatus := st } := by
  rw [← setWindow_enableCase disabled still] at h
  simp only [State.tryEnable, State.setWindow_window_self, h, setWindow_setWindow]

/-- A DIRECT or POSTED record that passes is bound to the node's occupant (R114). -/
theorem tryEnable_bound (h : s.enableCase i w = .bind k) :
    (s.setWindow i w).tryEnable i = s.setWindow i (w.bound (s.node k).incarnation) := by
  rw [← setWindow_enableCase disabled still] at h
  simp only [State.tryEnable, State.setWindow_window_self, h, setWindow_setWindow, State.setWindow_node]

/-- A MIRROR record that passes is bound, takes its run of the pool, cleared, and starts its timer (R129, R131,
R132). -/
theorem tryEnable_mirror {b : Nat} (h : s.enableCase i w = .bindMirror k b) :
    (s.setWindow i w).tryEnable i =
      { s.setWindow i { w.bound (s.node k).incarnation with mirrorSegment := b, stale := true } with
        mirror :=
          { pool := Memory.clear s.mirror.pool b w.length.toNat
            timers := s.mirror.timers.set i.val (if w.interval = 0#8 then none else some w.interval.toNat) } } := by
  rw [← setWindow_enableCase disabled still] at h
  simp only [State.tryEnable, State.setWindow_window_self, h, setWindow_setWindow, State.setWindow_node]
  rfl

end Attempt

theorem released_segments (s : State) : s.released.segments = s.segments := rfl

theorem released_conflicts (s : State) (i : WinIx) (w : Window) : s.released.conflicts i w = s.conflicts i w := rfl

theorem released_enableCase (s : State) (i : WinIx) (w : Window) :
    s.released.enableCase i w = s.enableCase i w := by
  unfold State.enableCase
  rw [released_conflicts, released_segments]
  rfl

section Command

variable (ready : s.hostReady = true) (disabled : (s.window i).enabled = false) (asks : v.getLsbD 0 = true)

include ready disabled asks

/-- A recognised write that asks for an enable of a disabled record (R113). -/
theorem exec_windowEnable_attempts : exec (.windowEnable i v) s =
    .next ((s.released.setWindow i ((s.window i).writeWord0 v)).tryEnable i) := by
  rw [exec_windowEnable i ready, windowWrite_enables (s := s.released) disabled asks, released_window]

theorem exec_windowEnable_refused {st : Status} (h : s.enableCase i ((s.window i).writeWord0 v) = .refuse st) :
    exec (.windowEnable i v) s =
      .next (s.released.setWindow i { (s.window i).writeWord0 v with enableStatus := st }) := by
  rw [← released_enableCase] at h
  rw [exec_windowEnable_attempts ready disabled asks,
    tryEnable_refused (s := s.released) disabled ((writeWord0_enabled _ v).trans disabled) h]

theorem exec_windowEnable_bound (h : s.enableCase i ((s.window i).writeWord0 v) = .bind k) :
    exec (.windowEnable i v) s =
      .next (s.released.setWindow i (((s.window i).writeWord0 v).bound (s.node k).incarnation)) := by
  rw [← released_enableCase] at h
  rw [exec_windowEnable_attempts ready disabled asks,
    tryEnable_bound (s := s.released) disabled ((writeWord0_enabled _ v).trans disabled) h]
  rfl

theorem exec_windowEnable_mirror {b : Nat} (h : s.enableCase i ((s.window i).writeWord0 v) = .bindMirror k b) :
    exec (.windowEnable i v) s =
      .next { s.released.setWindow i { ((s.window i).writeWord0 v).bound (s.node k).incarnation with
          mirrorSegment := b, stale := true } with
        mirror :=
          { pool := Memory.clear s.mirror.pool b ((s.window i).writeWord0 v).length.toNat
            timers := s.mirror.timers.set i.val (if ((s.window i).writeWord0 v).interval = 0#8 then none else
              some ((s.window i).writeWord0 v).interval.toNat) } } := by
  rw [← released_enableCase] at h
  rw [exec_windowEnable_attempts ready disabled asks,
    tryEnable_mirror (s := s.released) disabled ((writeWord0_enabled _ v).trans disabled) h]
  rfl

end Command

end Enable

/-- Settles O40: a disabled record takes the written fields, an enabled one nothing. -/
theorem windowFieldWriteNeedsADisabledRecord : Obligations.WindowFieldWriteNeedsADisabledRecord := by
  intro s i word v ready
  refine ⟨fun enabled other => ?_, fun disabled other => ?_⟩
  · rw [exec_windowField i word ready, windowWrite_enabled (s := s.released) enabled other]
  · rw [exec_windowField i word ready, windowWrite_stores (s := s.released) disabled other, released_window,
      writeField_eq]
    rfl

/-- Settles O41: each check that decides the attempt gives its case, and the case its effect. -/
theorem windowEnableChecksThenBinds : Obligations.WindowEnableChecksThenBinds := by
  intro s i v ready asks
  refine ⟨fun enabled => ?_, fun disabled => ?_⟩
  · rw [exec_windowEnable i ready, windowWrite_enabled (s := s.released) enabled (.inr asks)]
  have refused {st : Status} := exec_windowEnable_refused (st := st) ready disabled asks
  exact ⟨fun range => refused (enableCase_outOfRange range), fun k range names =>
    ⟨fun vacant => refused (enableCase_vacant range names vacant),
      fun occupied conflict => refused (enableCase_conflict range names occupied conflict),
      fun occupied apart direct =>
        exec_windowEnable_bound ready disabled asks (enableCase_bind range names occupied apart direct),
      fun occupied apart mirror full =>
        refused (enableCase_noSpace range names occupied apart mirror disabled full),
      fun b occupied apart mirror fits lowest => exec_windowEnable_mirror ready disabled asks
        (enableCase_bindMirror range names occupied apart mirror disabled fits lowest)⟩⟩

end Sys2Proof.Proofs.ApertureWindows
end

section
/-! ### The canonical form of the Mirror Pool: a law of a step (R129) -/

namespace Sys2Proof.Proofs.MirrorWindows

open Sys2Proof Sys2Proof.Machine
open Sys2Proof.Proofs.OutboundQueue (step_keeps)

/-- Settles O6: each small change keeps the pool's canonical form. -/
theorem mirrorPoolKept : Obligations.MirrorPoolKept := fun _ _ hs hstep =>
  step_keeps (P := fun s => Memory.wf s.mirror.pool = true) pool_of_micro (fun _ _ h => h) (fun _ _ h => h) hstep hs

end Sys2Proof.Proofs.MirrorWindows
end

section
/-! ### The words of the Mirror Pool (R129, R138) -/

namespace Sys2Proof.Proofs.MirrorWindows

open Sys2Proof Sys2Proof.Machine

theorem read_cons (b : Nat) (w : Word) (m : List PoolCell) (x : Nat) :
    Memory.read ((b, w) :: m) x = if b = x then w else Memory.read m x := rfl

/-- Below the first listed address every word reads as cleared. -/
theorem read_of_below {m : List PoolCell} : ∀ {lo a : Nat}, Memory.wfFrom lo m = true → a < lo →
    Memory.read m a = Memory.unlisted := by
  induction m with
  | nil => exact fun _ _ => rfl
  | cons c m ih =>
    obtain ⟨b, w⟩ := c
    intro lo a form below
    simp only [Memory.wfFrom, Bool.and_eq_true, decide_eq_true_eq] at form
    obtain ⟨⟨⟨first, -⟩, -⟩, rest⟩ := form
    rw [read_cons, if_neg (by omega)]
    exact ih rest (by omega)

/-- A word put in front of those that list none at its address: a cleared word is not listed. -/
theorem read_listed {m : List PoolCell} {a : Nat} (absent : Memory.read m a = Memory.unlisted) (v : Word) (x : Nat) :
    Memory.read (if v = Memory.unlisted then m else (a, v) :: m) x = if x = a then v else Memory.read m x := by
  by_cases cleared : v = Memory.unlisted
  · rw [if_pos cleared]
    split
    · rename_i here; rw [here, absent, cleared]
    · rfl
  · rw [if_neg cleared, read_cons]
    exact if_congr eq_comm rfl rfl

/-- The word that was put reads back, and every other word is as it was. -/
theorem read_insert {m : List PoolCell} (a : Nat) (v : Word) (x : Nat) : ∀ {lo : Nat}, Memory.wfFrom lo m = true →
    Memory.read (Memory.insert m a v) x = if x = a then v else Memory.read m x := by
  induction m with
  | nil => exact fun _ => read_listed rfl v x
  | cons c m ih =>
    obtain ⟨b, w⟩ := c
    intro lo form
    simp only [Memory.wfFrom, Bool.and_eq_true] at form
    obtain ⟨-, rest⟩ := form
    rcases Nat.lt_trichotomy a b with before | rfl | after
    · have absent : Memory.read ((b, w) :: m) a = Memory.unlisted := by
        rw [read_cons, if_neg (by omega)]
        exact read_of_below rest (by omega)
      rw [Memory.insert, if_pos before, read_listed absent]
    · rw [Memory.insert, if_neg (Nat.lt_irrefl a), if_pos rfl,
        read_listed (read_of_below rest (Nat.lt_succ_self a)), read_cons]
      by_cases here : x = a
      · rw [if_pos here, if_pos here]
      · rw [if_neg here, if_neg here, if_neg (Ne.symm here)]
    · rw [Memory.insert, if_neg (by omega), if_neg (by omega), read_cons, read_cons, ih rest]
      by_cases here : x = a
      · rw [if_neg (by omega), if_pos here, if_pos here]
      · rw [if_neg here, if_neg here]

/-- A write of one pool word. -/
theorem read_store {m : List PoolCell} {a : Nat} (v : Word) (x : Nat) (form : Memory.wf m = true) (inPool : a < 512) :
    Memory.read (Memory.store m a v) x = if x = a then v else Memory.read m x := by
  rw [Memory.store, if_pos inPool]
  exact read_insert a v x form

/-- A run of words written within the pool reads back in place, and every other word is as it was (R138). -/
theorem read_storeRange (ws : List Word) (x : Nat) : ∀ {m : List PoolCell} {a : Nat}, Memory.wf m = true →
    a + ws.length ≤ 512 → Memory.read (Memory.storeRange m a ws) x =
      if h : a ≤ x ∧ x < a + ws.length then ws[x - a]'(by omega) else Memory.read m x := by
  induction ws with
  | nil =>
    intro m a _ _
    rw [dif_neg (by simp)]
    rfl
  | cons w ws ih =>
    intro m a form fits
    rw [List.length_cons] at fits
    rw [Memory.storeRange, ih (Memory.store_wf a w form) (by omega), read_store w x form (by omega)]
    rcases Nat.lt_trichotomy x a with below | rfl | above
    · rw [dif_neg (by omega), if_neg (by omega), dif_neg (by omega)]
    · rw [dif_neg (by omega), if_pos rfl, dif_pos (by simp)]
      simp
    · rw [if_neg (by omega)]
      by_cases within : x < a + 1 + ws.length
      · rw [dif_pos (by omega), dif_pos (by rw [List.length_cons]; omega)]
        simp only [List.getElem_cons, show x - a ≠ 0 by omega, dite_false, Nat.sub_sub]
      · rw [dif_neg (by omega), dif_neg (by rw [List.length_cons]; omega)]

end Sys2Proof.Proofs.MirrorWindows
end

section
/-! ### The DATA of a current refresh job (R137, R138) -/

namespace Sys2Proof.Proofs.MirrorWindows

open Sys2Proof Sys2Proof.Machine
open Sys2Proof.Proofs.NodeLifecycle (answers_kind)
open Sys2Proof.Proofs.OutboundQueue (deliverRefresh_failed deliverRefresh_ok exec_receiveData jobAnswered jobData_ends
  jobData_goesOn jobData_notReady receiveData_job)

section Landing

variable {s : State} {t : TagId} {ws : List Word} {f : Flight} {e : Entry} {r : RefreshRef}

/-- The end of a job changes no pool word, no refresh timer and no timing register (R139, R140). -/
theorem deliver_job_pool (ho : e.origin = .refresh r) (st : Status) (ds : List Word) :
    (s.deliver e st ds).ctl = s.ctl ∧ (s.deliver e st ds).mirror = s.mirror := by
  have refresh : s.deliver e st ds = s.deliverRefresh r st := by rw [State.deliver, ho]
  rw [refresh]
  by_cases ok : st = .ok
  · rw [ok, deliverRefresh_ok]; exact ⟨rfl, rfl⟩
  · rw [deliverRefresh_failed s r ok]
    split <;> exact ⟨rfl, rfl⟩

/-- However the job goes on, the pool is the one in which the DATA has landed (R89, R137 to R141). -/
theorem jobData_pool (kind : f.kind = .rd) (hf : f.holder = .entry) (he : s.entryOf t = some e)
    (ho : e.origin = .refresh r) :
    ((s.takeAnswer t f).jobData t e r ws).ctl = s.ctl ∧
      ((s.takeAnswer t f).jobData t e r ws).mirror = (jobAnswered s t f.node e r ws).mirror := by
  by_cases more : r.nextOffset + ws.length < (s.window r.window).length.toNat
  · by_cases serves : s.inService e.node
    · rw [jobData_goesOn kind hf he more serves]; exact ⟨rfl, rfl⟩
    · rw [jobData_notReady kind hf he more serves]
      exact deliver_job_pool (s := (jobAnswered s t f.node e r ws).removeEntryOf t) ho _ _
  · rw [jobData_ends kind hf he (Nat.le_of_not_lt more)]
    exact deliver_job_pool (s := (jobAnswered s t f.node e r ws).removeEntryOf t) ho _ _

end Landing

/-- Settles O48: the words land as the job is current, and the rest of the event changes no pool word. -/
theorem refreshDataLandsInItsSegment : Obligations.RefreshDataLandsInItsSegment := by
  intro s src t seq ws f e r hl low high ha hf he hc ho enabled mirror segment generation form fits
  have kind : f.kind = .rd := List.mem_singleton.1 (answers_kind s ha)
  have current : r.current (s.window r.window) := ⟨enabled, mirror, segment, generation⟩
  obtain ⟨ctl, landed⟩ := jobData_pool (ws := ws) kind hf he ho
  simp only [jobAnswered, if_pos current] at landed
  refine ⟨_, exec_receiveData hl low high, ?_⟩
  rw [finish_ctl, finish_mirror, receiveData_job ha hf he hc ho, landed]
  exact ⟨ctl, rfl, fun a => read_storeRange ws a form fits⟩

end Sys2Proof.Proofs.MirrorWindows
end

section
/-! ### The REFRESH command (R133, R135, R136, R151) -/

namespace Sys2Proof.Proofs.MirrorWindows

open Sys2Proof Sys2Proof.Machine
open Sys2Proof.Proofs.NodeLifecycle (accepted complete_reserved enqueueHost_eq refreshCase_create_iff submit_accepted)

section Request

variable {s : State} {i : WinIx} {k : Addr}

/-! #### The first case of R133 that applies -/

theorem refreshCase_merge (job : ∃ e ∈ s.queue, e.isJobOf i = true) : s.refreshCase i = .merge :=
  if_pos (List.any_eq_true.2 job)

section NoJob

variable (noJob : ∀ e ∈ s.queue, e.isJobOf i = false)

include noJob

theorem refreshCase_detached (off : (s.window i).enabled = false ∨ (s.window i).attached = false) :
    s.refreshCase i = .refuse .detached := by
  have none : s.queue.any (·.isJobOf i) = false := by simpa using noJob
  rcases off with off | off <;> simp [State.refreshCase, none, off]

variable (enabled : (s.window i).enabled = true) (mirror : (s.window i).kind = 2#2)
  (attached : (s.window i).attached = true) (names : (s.window i).node.toNat = addrNum k)

include enabled mirror attached names

theorem refreshCase_notReady (stopped : ¬ s.inService k) : s.refreshCase i = .refuse .nodeNotReady := by
  have none : s.queue.any (·.isJobOf i) = false := by simpa using noJob
  have out : (s.node k).serves = false := Bool.eq_false_iff.2 (mt (serves_iff k).1 stopped)
  simp [State.refreshCase, none, enabled, Window.isMirror, mirror, attached, addrOf_num names, out]

theorem refreshCase_full (serves : s.inService k) (full : s.hostSlotFree = false) :
    s.refreshCase i = .refuse .refusedFull := by
  have none : s.queue.any (·.isJobOf i) = false := by simpa using noJob
  simp [State.refreshCase, none, enabled, Window.isMirror, mirror, attached, addrOf_num names, (serves_iff k).2 serves,
    full]

theorem refreshCase_creates (serves : s.inService k) (free : s.hostSlotFree = true) : s.refreshCase i = .create k :=
  (refreshCase_create_iff s i k).2 ⟨noJob, enabled, mirror, attached, addrOf_num names, serves, free⟩

end NoJob

end Request

section Command

variable {s : State} {c : Instr} {w : Word} {i : WinIx}

theorem request_refresh (names : s.cmd.staging.window.toNat = i.val) (mirror : (s.window i).kind = 2#2) :
    s.request .refresh = some (.refresh i) := by
  have window : s.cmd.staging.window? = some i := by
    rw [Staging.window?, dif_pos (names ▸ i.isLt)]
    exact congrArg some (Fin.ext names)
  simp [State.request, window, Window.isMirror, mirror]

variable (hc : submitted c = some w) (ready : s.hostReady = true) (staged : s.cmd.staging.kind = 5#4)
  (names : s.cmd.staging.window.toNat = i.val) (mirror : (s.window i).kind = 2#2) (room : s.cmd.roomFor)

include hc ready staged names mirror room

/-- A REFRESH for a MIRROR record is accepted, and its request is made in the same event (R145, R151). -/
theorem exec_refresh : exec c s =
    .next (((accepted s).refreshCommand i (w.extractLsb' 0 8)).submitAnswer .accepted).finish := by
  have kind : cmdKindOf s.released.cmd.staging.kind = some .refresh := by rw [released_cmd, staged]; rfl
  rw [exec_submit hc ready, submit_accepted s.released kind (request_refresh (s := s.released) names mirror) room rfl]
  rfl

/-- Attached to the window's job (R135). -/
theorem exec_refresh_merges (first : (accepted s).refreshCase i = .merge) : exec c s =
    .next (State.finish { s.released with
      queue := s.queue.map fun e => e.attach i (w.extractLsb' 0 8)
      cmd := s.cmd.accepting }) := by
  rw [exec_refresh hc ready staged names mirror room, State.refreshCommand, first]
  rfl

/-- Completed at once, with the reservation that its acceptance made (R146, R151). -/
theorem exec_refresh_completes {st : Status} (first : (accepted s).refreshCase i = .refuse st) : exec c s =
    .next (State.finish { s.released with
      cmd := s.cmd.completing
        { ticket := w.extractLsb' 0 8, kind := .refresh, status := st, node := (s.window i).nodeField, count := 0,
          data := [] } }) := by
  rw [exec_refresh hc ready staged names mirror room, State.refreshCommand, first]
  dsimp only
  rw [complete_reserved _ _ (n := s.cmd.reservations) rfl, completionNode_eq]
  rfl

/-- A job created with the command attached (R136). -/
theorem exec_refresh_creates {k : Addr} (first : (accepted s).refreshCase i = .create k)
    (free : s.hostSlotFree = true) : exec c s =
    .next (State.finish { s.released with
      queue := s.queue ++ [s.newJob i k [w.extractLsb' 0 8]]
      cmd := s.cmd.accepting }) := by
  rw [exec_refresh hc ready staged names mirror room, State.refreshCommand, first]
  dsimp only
  rw [enqueueHost_eq (s := accepted s) _ free]
  rfl

end Command

/-- Settles O37: by the first case of R133 that applies to the window. -/
theorem refreshCommandMergesCompletesOrCreates : Obligations.RefreshCommandMergesCompletesOrCreates := by
  intro s c w i hc ready staged names mirror room
  have completes {st : Status} := exec_refresh_completes (st := st) hc ready staged names mirror room
  refine ⟨fun job => exec_refresh_merges hc ready staged names mirror room (refreshCase_merge (s := accepted s) job),
    fun noJob off => completes (refreshCase_detached (s := accepted s) noJob off),
    fun k noJob enabled attached node => ⟨fun stopped => ?_, fun serves full => ?_, fun serves free => ?_⟩⟩
  · exact completes (refreshCase_notReady (s := accepted s) noJob enabled mirror attached node stopped)
  · exact completes (refreshCase_full (s := accepted s) noJob enabled mirror attached node serves full)
  · exact exec_refresh_creates hc ready staged names mirror room
      (refreshCase_creates (s := accepted s) noJob enabled mirror attached node serves free) free

end Sys2Proof.Proofs.MirrorWindows
end

section
/-! ### The notices and the completions: a law of a step (R146, R159, R161) -/

namespace Sys2Proof.Proofs.CommandPort

open Sys2Proof Sys2Proof.Machine
open Sys2Proof.Proofs.OutboundQueue (step_keeps)

/-- Settles O3: a posting gathers on a record of its key, or appends one of a new key while there is room; only an
accepted command takes a place among the completions, and it looks for room first. -/
theorem noticesAndCompletionsKept : Obligations.NoticesAndCompletionsKept := fun _ _ hstep =>
  ⟨step_keeps (P := fun s => NoticesOk s.notices) notices_of_micro (fun _ _ h => h) (fun _ _ h => h) hstep,
    step_keeps (P := fun s => CompletionsOk s.cmd) completions_of_micro (fun _ _ h => h) (fun _ _ h => h) hstep⟩

end Sys2Proof.Proofs.CommandPort
end

section
/-! ### Writes to the words of the Command Port, SUBMIT aside, and to the notice POP (R144, R157, R164, R171, R183) -/

namespace Sys2Proof.Proofs.CommandPort

open Sys2Proof Sys2Proof.Machine

/-! #### The two POPs -/

theorem popCompletion_eq (s : State) :
    s.popCompletion = { s with cmd := { s.cmd with completions := s.cmd.completions.drop 1 } } := by
  rw [State.popCompletion, List.drop_one]

theorem popNotice_eq (s : State) :
    s.popNotice = { s with notices := { s.notices with records := s.notices.records.drop 1 } } := by
  rw [State.popNotice, List.drop_one]

theorem exec_completionPop {s : State} (w : Word) (ready : s.hostReady = true) :
    exec (.completionPop w) s = .next s.released.popCompletion :=
  congrArg Host.Outcome.next (hostCycle_ready _ ready)

theorem exec_noticePop {s : State} (w : Word) (ready : s.hostReady = true) :
    exec (.noticePop w) s = .next s.released.popNotice :=
  congrArg Host.Outcome.next (hostCycle_ready _ ready)

/-- Settles O29: each row runs its POP on the state with D[15:0] released. -/
theorem popRemovesTheOldestRecord : Obligations.PopRemovesTheOldestRecord := fun s w ready =>
  ⟨by rw [exec_completionPop w ready, popCompletion_eq]; rfl, by rw [exec_noticePop w ready, popNotice_eq]; rfl⟩

section Write

variable {s : State} {a : BitVec 11} {w : Word}

/-! #### The words of no other row -/

/-- What is left of the host window below the aperture when the words of the other rows are taken away (12.2). -/
theorem offset_of_noRow (plain : writeHasOwnRow a = false) :
    0x00E < 2 * a.toNat ∧ 2 * a.toNat ≠ 0x0A8 ∧ 2 * a.toNat ≠ 0x0B6 ∧ 2 * a.toNat ≠ 0x186 ∧ a.toNat < 0x400 ∧
      ¬ (0x100 ≤ 2 * a.toNat ∧ 2 * a.toNat < 0x180) ∧
      ¬ (0x200 ≤ 2 * a.toNat ∧ 2 * a.toNat < 0x380 ∧ 2 * a.toNat % 16 = 12) := by
  simp only [writeHasOwnRow, Bool.or_eq_false_iff, Bool.and_eq_false_iff, decide_eq_false_iff_not, beq_eq_false_iff_ne]
    at plain
  omega

/-- The words of the directory view that hold refresh_on_attn (12.2). -/
theorem offset_of_refreshWord {b : Nat} {k : Addr} (h : directoryWord b = some (k, 6)) :
    0x200 ≤ b ∧ b < 0x380 ∧ b % 16 / 2 = 6 := by
  unfold directoryWord at h
  split at h
  · obtain ⟨j, named, same⟩ := Option.map_eq_some_iff.1 h
    have word : (b - 0x200) % 16 / 2 = 6 := (Prod.mk.inj same).2
    unfold addrOf? at named
    split at named
    · omega
    · contradiction
  · contradiction

/-- A word of no other row, below the aperture, is a staging word or is none that the part keeps. -/
theorem hostWrite_plain (plain : writeHasOwnRow a = false) : s.hostWrite a w =
    if 0x40 ≤ a.toNat ∧ a.toNat < 0x54 then s.stagingWrite (a.toNat - 0x40) w else s := by
  obtain ⟨control, submit, pop, noticePop, below, window, refresh⟩ := offset_of_noRow plain
  rw [State.hostWrite, if_neg (by omega), State.writeRegister]
  iterate 8 rw [if_neg (by omega)]
  by_cases staging : 0x40 ≤ a.toNat ∧ a.toNat < 0x54
  · have word : (2 * a.toNat - 0x080) / 2 = a.toNat - 0x40 := by omega
    rw [if_pos (by omega), if_pos staging, word]
  · have noWindow : windowWord (2 * a.toNat) = none := if_neg window
    rw [if_neg (by omega), if_neg staging, if_neg submit, if_neg pop, if_neg noticePop, noWindow]
    split
    · contradiction
    · rename_i directory
      have := offset_of_refreshWord directory
      omega
    · rfl

/-! #### The staging words (R144) -/

theorem staging_write_data (g : Staging) {n : Nat} (h : n < 16) :
    g.write (n + 4) w = { g with data := g.data.set n w } := dif_pos h

/-- The staging record after a write to a word of the host window, if that is a staging word (R144, R183). -/
def restaged (g : Staging) (a : BitVec 11) (w : Word) : Staging :=
  if a = 0x40#11 then
    { g with kind := w.extractLsb' 0 4, powerOff := w.getLsbD 4, node := w.extractLsb' 8 5 }
  else if a = 0x41#11 then { g with address := w }
  else if a = 0x42#11 then { g with count := w.extractLsb' 0 5, window := w.extractLsb' 8 4 }
  else if a = 0x43#11 then { g with target := w.extractLsb' 0 8 }
  else if h : 0x44 ≤ a.toNat ∧ a.toNat < 0x54 then { g with data := g.data.set (a.toNat - 0x44) w (by omega) }
  else g

theorem restaged_eq (g : Staging) : restaged g a w =
    if 0x40 ≤ a.toNat ∧ a.toNat < 0x54 then g.write (a.toNat - 0x40) w else g := by
  unfold restaged
  split
  · subst a; rfl
  split
  · subst a; rfl
  split
  · subst a; rfl
  split
  · subst a; rfl
  rename_i h0 h1 h2 h3
  have ne : a.toNat ≠ 0x40 ∧ a.toNat ≠ 0x41 ∧ a.toNat ≠ 0x42 ∧ a.toNat ≠ 0x43 := by bv_omega
  split
  · rename_i data
    have word : a.toNat - 0x40 = (a.toNat - 0x44) + 4 := by omega
    rw [if_pos (by omega), word, staging_write_data g (by omega)]
  · rw [if_neg (by omega)]

end Write

/-- Settles O28: the decoder leaves the staging words, and they take their fields. -/
theorem registerWriteFillsStagingOnly : Obligations.RegisterWriteFillsStagingOnly := by
  intro s a w ready plain
  have next : exec (.registerWrite a (.write w)) s = .next (s.released.hostWrite a w) := exec_registerWrite a _ ready
  rw [next, hostWrite_plain plain]
  show _ = Host.Outcome.next { s.released with cmd := { s.cmd with staging := restaged s.cmd.staging a w } }
  rw [restaged_eq]
  split <;> rfl

end Sys2Proof.Proofs.CommandPort
end

section
/-! ### SUBMIT turned away, and the transfers (R145 to R148) -/

namespace Sys2Proof.Proofs.CommandPort

open Sys2Proof Sys2Proof.Machine
open Sys2Proof.Proofs.NodeLifecycle (accepted complete_reserved enqueueHost_eq submit_accepted submit_refusedFull)

section Parameters

variable {s : State} {g : Staging}

/-! #### What each parameter check finds (R145) -/

theorem cmdKindOf_none_iff (b : BitVec 4) : cmdKindOf b = none ↔ 8 ≤ b.toNat := by
  revert b; decide

theorem code_of_cmdKindOf {b : BitVec 4} {kind : CmdKind} (h : cmdKindOf b = some kind) : b.toNat = kind.code := by
  have codes : ∀ b : BitVec 4, ∀ kind ∈ cmdKindOf b, b.toNat = kind.code := by decide
  exact codes b kind h

theorem node?_none_iff : g.node? = none ↔ g.node.toNat = 0 ∨ 24 < g.node.toNat := by
  unfold Staging.node? addrOf?
  split <;> simp <;> omega

theorem transferOk_iff : g.transferOk = true ↔
    1 ≤ g.count.toNat ∧ g.count.toNat ≤ 16 ∧ g.address.toNat + g.count.toNat ≤ 65536 := by
  simp [Staging.transferOk, and_assoc]

theorem window?_none_iff : g.window? = none ↔ 8 ≤ g.window.toNat := by
  unfold Staging.window?
  split <;> simp <;> omega

/-- A REFRESH names a window, and that is a MIRROR window (R145, R151). -/
theorem request_refresh_none_iff : s.request .refresh = none ↔ 8 ≤ s.cmd.staging.window.toNat ∨
    ∃ i : WinIx, s.cmd.staging.window.toNat = i.val ∧ (s.window i).kind ≠ 2#2 := by
  by_cases h : s.cmd.staging.window.toNat < 8
  · have names : s.cmd.staging.window? = some ⟨_, h⟩ := dif_pos h
    simp only [State.request, names, Window.isMirror, beq_iff_eq, ite_eq_right_iff, reduceCtorEq, imp_false]
    refine ⟨fun other => .inr ⟨_, rfl, other⟩, ?_⟩
    rintro (large | ⟨i, same, other⟩)
    · omega
    · rwa [show (⟨_, h⟩ : WinIx) = i from Fin.ext same]
  · have unnamed : s.cmd.staging.window? = none := window?_none_iff.2 (Nat.le_of_not_lt h)
    simp only [State.request, unnamed, true_iff]
    exact .inl (Nat.le_of_not_lt h)

theorem badParameters_iff : BadParameters s ↔ 8 ≤ s.cmd.staging.kind.toNat ∨
    s.cmd.staging.kind.toNat ≤ 4 ∧ s.cmd.staging.node? = none ∨
    s.cmd.staging.kind.toNat ≤ 1 ∧ s.cmd.staging.transferOk = false ∨
    s.cmd.staging.kind.toNat = 5 ∧ s.request .refresh = none := by
  rw [node?_none_iff, ← Bool.not_eq_true, transferOk_iff, request_refresh_none_iff]
  constructor
  · rintro (h | ⟨h, hn⟩ | ⟨h, hr⟩ | ⟨h, hw⟩ | ⟨h, i, hw, hk⟩)
    · exact .inl h
    · exact .inr (.inl ⟨h, hn⟩)
    · exact .inr (.inr (.inl ⟨h, by omega⟩))
    · exact .inr (.inr (.inr ⟨h, .inl hw⟩))
    · exact .inr (.inr (.inr ⟨h, .inr ⟨i, hw, hk⟩⟩))
  · rintro (h | ⟨h, hn⟩ | ⟨h, hr⟩ | ⟨h, hw | ⟨i, hw, hk⟩⟩)
    · exact .kind h
    · exact .node h hn
    · exact .range h (by omega)
    · exact .windowIndex h hw
    · exact .windowKind h i hw hk

/-- The checks of a kind find no request exactly where the parameters are bad (R145, case 1). -/
theorem request_none_iff {kind : CmdKind} (named : cmdKindOf s.cmd.staging.kind = some kind) :
    s.request kind = none ↔ BadParameters s := by
  rw [badParameters_iff, code_of_cmdKindOf named]
  cases kind with
  | read | write =>
    cases checked : s.cmd.staging.transferOk <;> simp [State.request, CmdKind.code, checked]
  | fence | unfence | nreset => simp [State.request, CmdKind.code]
  | refresh => simp [CmdKind.code]
  | rescan | cancel => simp [State.request, CmdKind.code]

/-! #### SUBMIT turned away (R145, cases 1 and 2) -/

theorem submit_bad (w : Word) (bad : BadParameters s) : s.submit w = s.submitAnswer .badCommand := by
  unfold State.submit
  split
  · rfl
  · rename_i kind named
    rw [(request_none_iff named).2 bad]

theorem submit_noRoom (w : Word) (good : ¬ BadParameters s) (full : ¬ s.cmd.roomFor) :
    s.submit w = s.submitAnswer .refusedFull := by
  have noRoom : s.cmd.hasRoom = false := decide_eq_false full
  unfold State.submit
  split
  · rename_i unnamed
    exact absurd (.kind ((cmdKindOf_none_iff _).1 unnamed)) good
  · rename_i kind named
    obtain ⟨r, request⟩ := Option.ne_none_iff_exists'.1 (mt (request_none_iff named).1 good)
    rw [request]
    exact if_neg (by rw [noRoom]; decide)

theorem badParameters_released : BadParameters s.released ↔ BadParameters s := by
  rw [badParameters_iff, badParameters_iff]; rfl

end Parameters

/-- Settles O32: a kind of bad parameters has no request, and one of good parameters then looks for room. -/
theorem submitIsTurnedAway : Obligations.SubmitIsTurnedAway := by
  intro s c w hc ready
  refine ⟨fun bad => ?_, fun good full => ?_⟩
  · rw [exec_submit hc ready, submit_bad w (badParameters_released.2 bad)]; rfl
  · rw [exec_submit hc ready, submit_noRoom w (mt badParameters_released.1 good) full]; rfl

section Transfer

variable {s : State} {k : Addr} {kind : CmdKind} {op : Op} {address : Word} {count : Nat} {data : List Word}

/-! #### A command that completes in its own event (R146) -/

/-- The completion takes the reservation that the acceptance made. -/
theorem accepted_complete (s : State) (c : Completion) :
    ((accepted s).complete c).submitAnswer .accepted = { s.released with cmd := s.cmd.completing c } := by
  rw [complete_reserved (accepted s) c (n := s.cmd.reservations) rfl]; rfl

/-! #### READ, WRITE and NRESET (R147, R148) -/

theorem staged_kind (h : StagesTransfer s k kind op address count data) :
    cmdKindOf s.cmd.staging.kind = some kind := by
  cases h with
  | read hk | write hk | nreset hk => rw [hk]; rfl

theorem staged_request (h : StagesTransfer s k kind op address count data) :
    s.request kind = some (.transfer op k address count data) := by
  cases h with
  | read _ hn h1 h16 ha | write _ hn h1 h16 ha =>
    simp [State.request, Staging.node?, addrOf_num hn, transferOk_iff.2 ⟨h1, h16, ha⟩]
  | nreset _ hn => simp [State.request, Staging.node?, addrOf_num hn]

theorem staged_released (h : StagesTransfer s k kind op address count data) :
    StagesTransfer s.released k kind op address count data := by
  cases h with
  | read hk hn h1 h16 ha => exact .read hk hn h1 h16 ha
  | write hk hn h1 h16 ha => exact .write hk hn h1 h16 ha
  | nreset hk hn => exact .nreset hk hn

/-- The record of a transfer that was not queued carries its count; an NRESET's is 0 (R155). -/
theorem staged_completion (h : StagesTransfer s k kind op address count data) (ticket : BitVec 8) (order : Nat) :
    (freshEntry (.command ⟨ticket, kind, order⟩) op k address count data).completion ⟨ticket, kind, order⟩
        .nodeNotReady [] =
      { ticket := ticket, kind := kind, status := .nodeNotReady, node := addrNum k, count := count, data := [] } := by
  cases h <;> rfl

variable {r : CommandRef}

theorem transferAction_queued (serves : s.inService k) (free : s.hostSlotFree = true) :
    s.transferAction r op k address count data =
      some { s with queue := s.queue ++ [freshEntry (.command r) op k address count data] } := by
  simp only [State.transferAction, (serves_iff k).2 serves, free, if_true, enqueueHost_eq _ free]

theorem transferAction_full (serves : s.inService k) (full : s.hostSlotFree = false) :
    s.transferAction r op k address count data = none := by
  simp only [State.transferAction, (serves_iff k).2 serves, full, if_true, Bool.false_eq_true, if_false]

theorem transferAction_notReady (stopped : ¬ s.inService k) : s.transferAction r op k address count data =
    some (s.complete ((freshEntry (.command r) op k address count data).completion r .nodeNotReady [])) :=
  if_neg (mt (serves_iff k).1 stopped)

end Transfer

/-- Settles O33: the three ways of a transfer's action. -/
theorem transferIsQueuedOrAnswered : Obligations.TransferIsQueuedOrAnswered := by
  intro s c w k kind op address count data hc ready staged room
  have staged' := staged_released staged
  have named := staged_kind staged'
  have request := staged_request staged'
  refine ⟨fun serves free => ?_, fun serves full => ?_, fun stopped => ?_⟩
  · rw [exec_submit hc ready, submit_accepted s.released named request room
      (transferAction_queued (s := accepted s) serves free)]
    rfl
  · rw [exec_submit hc ready, submit_refusedFull s.released named request room
      (transferAction_full (s := accepted s) serves full)]
    rfl
  · rw [exec_submit hc ready, submit_accepted s.released named request room
      (transferAction_notReady (s := accepted s) stopped), staged_completion staged]
    exact congrArg (fun t => Host.Outcome.next t.finish) (accepted_complete s _)

end Sys2Proof.Proofs.CommandPort
end

section
/-! ### CANCEL (R153) -/

namespace Sys2Proof.Proofs.CommandPort

open Sys2Proof Sys2Proof.Machine
open Sys2Proof.Proofs.NodeLifecycle (accepted complete_reserved submit_accepted)
open Sys2Proof.Proofs.OutboundQueue (deliver_transfer)

section Cancel

variable {s : State} {ticket target : BitVec 8} {e : Entry}

theorem cancelAction_notFound (absent : ∀ e ∈ s.queue, e.hasTicket target = false) :
    s.cancelAction ticket target = s.complete (plainCompletion ticket .cancel .notFound 0) := by
  have search : s.queue.find? (·.hasTicket target) = none :=
    List.find?_eq_none.2 fun e he => Bool.eq_false_iff.1 (absent e he)
  rw [State.cancelAction, search]

variable (found : s.queue.find? (·.hasTicket target) = some e)

include found

theorem cancelAction_started (started : e.state ≠ .waiting) :
    s.cancelAction ticket target = s.complete (plainCompletion ticket .cancel .inFlight 0) := by
  rw [State.cancelAction, found]
  exact if_neg started

/-- A WAITING transfer leaves the queue, and its completion comes before the CANCEL's own. -/
theorem cancelAction_transfer {r : CommandRef} (waits : e.state = .waiting) (origin : e.origin = .command r)
    (op : e.op = .rd ∨ e.op = .wr ∨ e.op = .nreset) : s.cancelAction ticket target =
      (({ s with queue := s.queue.eraseP (·.hasTicket target) }).complete (e.completion r .aborted [])).complete
        (plainCompletion ticket .cancel .ok (addrNum e.node)) := by
  rw [State.cancelAction, found]
  exact (if_pos waits).trans (by rw [deliver_transfer origin op])

end Cancel

section Command

variable {s : State} {c : Instr} {w : Word}

/-- Two completions in one event, with a reservation for each (R146). -/
theorem complete_both {n : Nat} (a b : Completion) (reserved : s.cmd.reservations = n + 2) :
    (s.complete a).complete b = { s with cmd :=
      { s.cmd with reservations := n, completions := s.cmd.completions ++ [a, b] } } := by
  rw [complete_reserved s a (n := n + 1) reserved, complete_reserved _ b (n := n) rfl, List.append_assoc]
  rfl

/-- CANCEL has no parameter that can be bad, and acts in its own event (R145, R153). -/
theorem exec_cancel (hc : submitted c = some w) (ready : s.hostReady = true) (staged : s.cmd.staging.kind = 7#4)
    (room : s.cmd.roomFor) : exec c s = .next
      (((accepted s).cancelAction (w.extractLsb' 0 8) s.cmd.staging.target).submitAnswer .accepted).finish := by
  have kind : cmdKindOf s.released.cmd.staging.kind = some .cancel := by rw [released_cmd, staged]; rfl
  rw [exec_submit hc ready, submit_accepted (r := .cancel s.cmd.staging.target) s.released kind rfl room rfl]
  rfl

end Command

/-- Settles O39: by the oldest COMMAND entry with the target ticket, absent, sent already, or WAITING. -/
theorem cancelLooksAtTheOldestEntry : Obligations.CancelLooksAtTheOldestEntry := by
  intro s c w hc ready staged room ticket target own
  refine ⟨fun absent => ?_, fun e found started => ?_, fun e r n found waits origin op reserved => ?_⟩
  · rw [exec_cancel hc ready staged room, cancelAction_notFound (s := accepted s) absent, accepted_complete]
    rfl
  · rw [exec_cancel hc ready staged room, cancelAction_started (s := accepted s) found started, accepted_complete]
    rfl
  · rw [exec_cancel hc ready staged room, cancelAction_transfer (s := accepted s) found waits origin op,
      complete_both (n := n), completion_ending e r .aborted [] (by decide)]
    · rfl
    · exact congrArg (· + 1) reserved

end Sys2Proof.Proofs.CommandPort
end

section
/-! ### The CONTROL word (R168, R177) -/

namespace Sys2Proof.Proofs.NoticesAndInterrupt

open Sys2Proof Sys2Proof.Machine

section Control

variable {s : State} {w : Word}

theorem control_write_eq (c : Control) (w : Word) : c.write w = c.written w := rfl

/-- Of what a CONTROL write does, the keep reset needs SOFT_RESET, and the ramp and the teardown a change of
CHAIN_ENABLE (R47, R51, R176). -/
theorem controlWrite_keepsEnable (noReset : w.getLsbD 15 = false) (same : w.getLsbD 0 = s.ctl.chainEnable) :
    s.controlWrite w = { s with ctl := s.ctl.written w } := by
  have clear : ¬ bitAt w 15 = true := Bool.eq_false_iff.1 noReset
  have stays : s.ctl.chainEnable = bitAt w 0 := same.symm
  rw [State.controlWrite, if_neg clear, if_pos stays, control_write_eq]

end Control

/-- Settles O22: the row's write, on the state with D[15:0] released, takes neither of its two events. -/
theorem controlWriteSetsItsFields : Obligations.ControlWriteSetsItsFields := by
  intro s c w hc ready noReset same
  have keeps : w.getLsbD 0 = s.released.ctl.chainEnable := by rw [released_ctl, same]
  rw [exec_control hc ready, controlWrite_keepsEnable noReset keeps, released_ctl]

end Sys2Proof.Proofs.NoticesAndInterrupt
end

section
/-! ### The power-on reset, its hold, and the release of RESET_N (R174, R175) -/

namespace Sys2Proof.Proofs.LocalBus

open Sys2Proof Sys2Proof.Machine
open Sys2Proof.Proofs.NodeLifecycle (powered_iff resetLine_falls exec_busReset takeBusReset_reset keptState
  takeKeepReset_eq)

section Hold

variable (s : State)

/-- The part with its power-on hold over and its lines as they are. -/
def outOfHold : State := { s with pins := { s.pins with powerOnHold := false } }

/-- The part with its power-on hold over and RESET_N high, as before a fall of that line. -/
def risen : State := { s with pins := { s.pins with powerOnHold := false, resetN := true } }

/-! #### The three ways that the hold ends -/

/-- Out of the hold, or without supply, there is no hold to end. -/
theorem endHold_noHold (h : s.pins.supplyValid = false ∨ s.pins.powerOnHold = false) : s.endHold = s := by
  refine if_neg ?_
  rcases h with off | ended
  · simp [off]
  · simp [ended]

variable {s} (supplied : s.pins.supplyValid = true) (held : s.pins.powerOnHold = true)

include supplied held

theorem endHold_high (high : s.pins.resetN = true) : s.endHold = outOfHold s :=
  (if_pos (by simp [supplied, held])).trans (if_pos high)

/-- A RESET_N held low takes the reset of the KEEP_N level at the hold's end (log 17). -/
theorem endHold_low (low : s.pins.resetN = false) : s.endHold =
    if s.pins.keepN then (outOfHold s).takeBusReset else (outOfHold s).takeKeepReset .keepPin :=
  (if_pos (by simp [supplied, held])).trans (if_neg (by simp [low]))

omit supplied held

/-! #### The resets of a line that falls -/

/-- Lines at the levels they are sampled at. -/
theorem linesLow_self {keepN : Bool} (low : s.pins.resetN = false) (keep : s.pins.keepN = keepN) :
    s.linesLow keepN = s := by
  subst keep
  rw [State.linesLow, ← low]

include supplied

theorem exec_busReset_risen : exec .busReset (risen s) = .next (outOfHold s).takeBusReset :=
  exec_busReset (risen s) supplied rfl (.inl ⟨rfl, rfl⟩)

theorem exec_keepReset_risen (low : s.pins.resetN = false) (keep : s.pins.keepN = false) :
    exec .keepReset (risen s) = .next ((outOfHold s).takeKeepReset .keepPin) := by
  have powered : (risen s).powered = true := (powered_iff _).2 ⟨supplied, rfl⟩
  have lines : (risen s).linesLow false = outOfHold s := linesLow_self (s := outOfHold s) low keep
  refine congrArg Host.Outcome.next ((resetLine_falls (risen s) false _ powered rfl).trans ?_)
  rw [lines]

omit supplied

/-- A keep reset leaves the lines at their levels and gives its cause (R174, R178). -/
theorem takeKeepReset_lines (cause : ResetCause) :
    (s.takeKeepReset cause).pins = { s.pins with busData := s.resetBusData } ∧
      (s.takeKeepReset cause).ctl.resetCause = cause := by
  rw [takeKeepReset_eq, finish_pins _ rfl, finish_ctl]
  exact ⟨rfl, rfl⟩

end Hold

/-- Settles O14: the hold ends in one of three ways, and the two resets among them are those of a line that falls. -/
theorem powerOnResetThenHoldThenRelease : Obligations.PowerOnResetThenHoldThenRelease := by
  refine ⟨fun s => ⟨_, rfl, rfl, rfl, rfl, rfl, rfl, rfl, rfl, rfl⟩, fun s supplied held high => ?high,
    fun s supplied held low => ?low, fun s noHold => ?noHold, fun s => rfl⟩
  case high => exact congrArg Host.Outcome.next (endHold_high supplied held high)
  case noHold => exact congrArg Host.Outcome.next (endHold_noHold s noHold)
  case low =>
    have ends : exec .powerOnHoldEnd s = _ := congrArg Host.Outcome.next (endHold_low supplied held low)
    cases keep : s.pins.keepN with
    | true =>
      rw [if_pos keep] at ends
      obtain ⟨-, resetN, keepN⟩ := takeBusReset_reset (outOfHold s)
      exact ⟨ends.trans (exec_busReset_risen supplied).symm, _, ends, resetN, keepN, rfl⟩
    | false =>
      rw [if_neg (by simp [keep])] at ends
      obtain ⟨pins, cause⟩ := takeKeepReset_lines (s := outOfHold s) .keepPin
      exact ⟨ends.trans (exec_keepReset_risen supplied low keep).symm, _, ends, by rw [pins]; exact low,
        by rw [pins]; exact keep, cause⟩

end Sys2Proof.Proofs.LocalBus
end

section
/-! ### Host cycles that are not recognised, and the brown-out (R170, R175, R181) -/

namespace Sys2Proof.Proofs.LocalBus

open Sys2Proof Sys2Proof.Machine

/-- Each row that is a host cycle hands its effect to `State.hostCycle` (R170). -/
theorem exec_hostCycle {c : Instr} (h : isHostCycle c = true) (s : State) :
    ∃ f, exec c s = .next (s.hostCycle f) := by
  cases c with
  | apertureAccess | chainEnableSet | chainEnableClear | autoRewalkWrite | noticeIeWrite | completionIeWrite
  | softReset | budgetRefusedClear | noticeOverflowClear | timingRegisterWrite | budgetWrite | read | write | fence
  | unfence | nreset | refresh | rescan | cancel | submitKindNamesNoKind | completionPop | noticePop
  | windowFieldWrite | windowEnable | windowDisable | refreshOnAttnWrite | registerWrite => exact ⟨_, rfl⟩
  | _ => cases h

/-- What keeps the part from recognising a host cycle (R170, R175; log 7). -/
theorem hostReady_false {s : State} (h : s.pins.supplyValid = false ∨ s.pins.powerOnHold = true ∨
    s.pins.resetN = false ∨ s.lbi.slot.isSome = true) : s.hostReady = false := by
  rcases h with off | held | low | cycle
  · simp [State.hostReady, off]
  · simp [State.hostReady, held]
  · simp [State.hostReady, low]
  · simp [State.hostReady, Option.isNone_eq_false_iff.2 cycle]

/-- Settles O17: every host cycle is `State.hostCycle` of its effect, and below the threshold all outputs rest. -/
theorem unrecognisedCycleHasNoEffect : Obligations.UnrecognisedCycleHasNoEffect := by
  refine ⟨fun c s host idle => ?_, fun s => ⟨_, rfl, rfl, rfl, rfl, rfl, rfl, rfl, rfl⟩⟩
  obtain ⟨f, run⟩ := exec_hostCycle host s
  rw [run, hostCycle_idle f (hostReady_false idle)]

end Sys2Proof.Proofs.LocalBus
end

section
/-! ### CLK_IN absent (R181) -/

namespace Sys2Proof.Proofs.LocalBus

open Sys2Proof Sys2Proof.Machine

section NoClock

variable {s : State}

/-! #### The end of an event -/

/-- Serving the held cycle changes no line. -/
theorem serveCycle_clkIn : s.serveCycle.pins.clkIn = s.pins.clkIn := by
  have ended (u : State) : (u.endHeld .ok Config.fillWord).pins.clkIn = u.pins.clkIn := by
    unfold State.endHeld
    split <;> rfl
  unfold State.serveCycle
  split
  · rfl
  · split
    · unfold State.queueCycle
      dsimp only
      split
      · rw [ended, State.enqueueHost_pins]
      · exact congrArg Pins.clkIn (State.enqueueHost_pins ..)
    · rfl

theorem serveSlots_linkUp : s.serveSlots.linkUp = s.linkUp := by
  obtain ⟨backlog, -⟩ := serveBacklog_chain s
  rw [State.linkUp, State.serveSlots, (serveCycle_frame _).chain, serveCycle_clkIn, backlog.pwrEn, backlog.pins,
    ← State.linkUp]

/-- The end of an event sends no frame while frames cannot go out (R78, R181). -/
theorem finish_port_of_linkDown (down : s.linkUp = false) : s.finish.port = s.port := by
  rw [State.finish, dispatch_idle _ (.inr (serveSlots_linkUp.trans down)), State.serveSlots,
    (serveCycle_frame _).port, (serveBacklog_chain s).1.port]

/-! #### The rows that need the clock -/

theorem fromChain_down (f : State → State) (down : s.linkUp = false) : s.fromChain f = s := by
  simp [State.fromChain, down]

theorem receiveWire_down (wire : List Word) (ended : Bool) (down : s.linkUp = false) :
    s.receiveWire wire ended = s := by
  unfold State.receiveWire
  split
  · rfl
  · exact fromChain_down _ down

theorem linkUp_noClock (off : s.pins.clkIn = false) : s.linkUp = false := by
  rw [State.linkUp, off, Bool.and_false]

/-- A timer's expiry and the end of a frame on DN wait for the clock; a frame on UP needs the link up (log 35). -/
theorem exec_noClock (off : s.pins.clkIn = false) {c : Instr} (h : needsClock c = true) : exec c s = .next s := by
  have down := linkUp_noClock off
  cases c with
  | responseTimerExpiry | backoffTimerExpiry | tagHoldExpiry | rampSettleExpiry | walkSettleExpiry | darkWaitExpiry
  | nodeSettleExpiry | holdLimitExpiry | refreshTimerExpiry | transmitterFree =>
    exact congrArg Host.Outcome.next (clocked_off _ off)
  | receiveDone | receiveRefuse | receiveSense | receiveAttn | receiveHello =>
    exact congrArg Host.Outcome.next (fromChain_down _ down)
  | receiveData src t seq ws =>
    refine congrArg Host.Outcome.next ?_
    rw [fromChain_down _ down, ite_self]
  | frameDropped wire ended => exact congrArg Host.Outcome.next (receiveWire_down wire ended down)
  | _ => cases h

end NoClock

/-- Settles O31: without CLK_IN the link is down, so that no row of the clock acts and no frame is chosen. -/
theorem nothingTimedHappensWithoutTheClock : Obligations.NothingTimedHappensWithoutTheClock := fun _ off =>
  ⟨fun _ clocked => exec_noClock off clocked, finish_port_of_linkDown (linkUp_noClock off)⟩

end Sys2Proof.Proofs.LocalBus
end

section
/-! ### The identification words (R180) -/

namespace Sys2Proof.Proofs.LocalBus

open Sys2Proof Sys2Proof.Machine
open Sys2Proof.Proofs.NodeLifecycle (hostRead_control)
open Sys2Proof.Proofs.CommandPort (hostWrite_plain)

section Identification

variable (s : State)

/-- What the identification words read is no item of the state (R180). -/
theorem hostRead_identification : s.hostRead 0x38#11 = Config.partCode ∧ s.hostRead 0x39#11 = Config.revision ∧
    s.hostRead 0x3A#11 = Config.capacity :=
  ⟨hostRead_control s (b := 0x70) (by decide) rfl, hostRead_control s (b := 0x72) (by decide) rfl,
    hostRead_control s (b := 0x74) (by decide) rfl⟩

/-- The identification words belong to no other row, and are no staging words. -/
theorem identification_plain : ∀ a ∈ [0x38#11, 0x39#11, 0x3A#11],
    writeHasOwnRow a = false ∧ ¬(0x40 ≤ a.toNat ∧ a.toNat < 0x54) := by decide

theorem hostWrite_identification {a : BitVec 11} (ha : a ∈ [0x38#11, 0x39#11, 0x3A#11]) (w : Word) :
    s.hostWrite a w = s := by
  obtain ⟨plain, noStaging⟩ := identification_plain a ha
  rw [hostWrite_plain plain, if_neg noStaging]

variable {s} in
theorem released_ready (ready : s.hostReady = true) : s.released.ready = true := by
  rw [State.ready, released_lbi, hostReady_slot ready, Option.isNone_none]

end Identification

/-- Settles O11: the words read constants of the part, and a write to them only releases D[15:0]. -/
theorem identificationWordsAreFixed : Obligations.IdentificationWordsAreFixed := by
  intro s
  obtain ⟨partCode, revision, capacity⟩ := hostRead_identification s
  refine ⟨partCode, revision, capacity, fun ready a ha w => ⟨?_, released_ready ready⟩⟩
  have next : exec (.registerWrite a (.write w)) s = .next (s.released.hostWrite a w) := exec_registerWrite a _ ready
  rw [next, hostWrite_identification _ ha]

end Sys2Proof.Proofs.LocalBus
end

section
/-! ### The commands that wait: the step and the queue of commands -/

namespace Sys2Proof.Proofs.CommandQueue

open Sys2Proof Sys2Proof.Machine

/-! #### The two branches of a step -/

theorem step_front (c : Instr) (s : State) (rest : List Instr) :
    step { s with pending := c :: rest } = exec c { s with pending := rest } := rfl

theorem step_idle {s : State} (idle : s.pending = []) : step s = .next s := by
  rw [step, idle]

/-- Settles O1: one equation per branch of the step. -/
theorem stepTakesFrontCommand : Obligations.StepTakesFrontCommand :=
  ⟨step_front, fun _ => step_idle⟩

/-! #### Every command -/

/-- The waiting commands are fixed by every small change (a reset is one), so by a chain of them. -/
theorem pending_of_chain {s t : State} (changes : Chain s t) : t.pending = s.pending :=
  changes.keeps (P := fun u => u.pending = s.pending)
    (fun change kept => (pending_of_micro change).trans kept) rfl fun _ _ kept => kept

/-- Settles O2: every command is a chain of small changes, each of which keeps the waiting commands. -/
theorem everyCommandAnswersNext : Obligations.EveryCommandAnswersNext := by
  intro c s
  obtain ⟨t, run, changes⟩ := exec_chain s c
  exact ⟨t, run, pending_of_chain changes⟩

end Sys2Proof.Proofs.CommandQueue
end
